-- ==== Sys2Proof/Word.lean ====
section
/-!
DEFINITION. The machine's words and the one container of sparse data.

A register word is 32 bits, an instruction word and an address 64 bits (R4, R8, R52). `SMap` holds everything that is
keyed by a number and mostly at one known value (memory, registers, tags, the waves of the module): a list of
key and value in one canonical form, keys rising and no entry equal to the value an unlisted key reads as.
-/

namespace Sys2Proof

/-- A register word (R8). -/
abbrev W32 := BitVec 32
/-- An instruction word, an address, a 64-bit operand (R8, R52). -/
abbrev W64 := BitVec 64
/-- A byte of memory. -/
abbrev Byte := BitVec 8
/-- A set of lanes of one wave: bit l is lane l (R90). -/
abbrev Mask := BitVec 32

/-- Sparse data by number. -/
abbrev SMap (α : Type) := List (Nat × α)

/-- What key `k` holds, `d` where it is unlisted. -/
def smGet {α : Type} (d : α) : SMap α → Nat → α
  | [], _ => d
  | (j, v) :: m, k => if j = k then v else smGet d m k

/-- Put `v` at key `k` without looking at the default: the list keeps rising keys. -/
def smPut {α : Type} (k : Nat) (v : α) : SMap α → SMap α
  | [] => [(k, v)]
  | (j, u) :: m => if k < j then (k, v) :: (j, u) :: m else if j = k then (k, v) :: m else (j, u) :: smPut k v m

/-- Take key `k` out. -/
def smDel {α : Type} (k : Nat) (m : SMap α) : SMap α := m.filter fun x => x.1 != k

/-- Write `v` at key `k`: writing the default removes the entry, so equal contents are equal lists. -/
def smSet {α : Type} [DecidableEq α] (d : α) (m : SMap α) (k : Nat) (v : α) : SMap α :=
  if v = d then smDel k m else smPut k v m

/-- The keys rise strictly from above `lo`, and no entry equals the default. -/
def smWfFrom {α : Type} [DecidableEq α] (d : α) (lo : Nat) : SMap α → Bool
  | [] => true
  | (j, v) :: m => decide (lo ≤ j) && decide (v ≠ d) && smWfFrom d (j + 1) m

/-- The canonical form. -/
def smWf {α : Type} [DecidableEq α] (d : α) (m : SMap α) : Bool := smWfFrom d 0 m

/-- What key `k` holds where absence is meaningful. -/
def smFind {α : Type} : SMap α → Nat → Option α
  | [], _ => none
  | (j, v) :: m, k => if j = k then some v else smFind m k

/-- The 32 lane numbers in ascending order. -/
def laneList : List Nat := List.range 32

/-- Lane `l` is in the set (R90). -/
def hasLane (m : Mask) (l : Nat) : Bool := m.getLsbD l

/-- The set of the one lane `l`. -/
def laneBit (l : Nat) : Mask := (1 : Mask) <<< l

/-- The lanes of a set in ascending order. -/
def lanesOf (m : Mask) : List Nat := laneList.filter (hasLane m)

/-- The set of the lanes of a list. -/
def maskOf (ls : List Nat) : Mask := ls.foldl (fun m l => m ||| laneBit l) 0

/-- The lowest lane of a set (0 for the empty set). -/
def lowLane (m : Mask) : Nat := (lanesOf m).headD 0

/-- How many lanes a set holds. -/
def laneCount (m : Mask) : Nat := (lanesOf m).length

end Sys2Proof
end

