-- ==== Sys2Proof/Config.lean ====
section
/-!
DEFINITION. What an implementation fixes and the spec leaves open: free values. None has a body, so nothing can be
proved of the value, and a statement about one holds whatever it is (log 3).

Where a value may differ from time to time it is applied to State.draws, a plain counter that every draw advances.
-/

namespace Sys2Proof

/-- Which of several things that may happen next happens next (R2; log 2). -/
opaque Config.freeChoice : Nat → Nat

/-- A register value the spec leaves open: a released slot read where that raises nothing (R111, R122, R126), a row that
a save did not keep (R122). -/
opaque Config.freeWord : Nat → W32

/-- A byte the spec leaves unspecified: what a failed engine segment wrote (R327), the destination of a collective that
timed out (R335). -/
opaque Config.freeByte : Nat → Byte

/-- The key of a dedup domain and the hash under it (R242): the hallmark of a line's content and format tag. -/
opaque Config.hallmark : Nat → BitVec 1024 → Nat → BitVec 32

/-- Whether the implementation's choice of victim falls on this tag (R249); the argument is the draw. -/
opaque Config.freeVictim : Nat → Nat

/-- Whether the Anvil finds the die's power below 90 % of its share of the limit (R490). -/
opaque Config.powerLow : Nat → Bool

/-- The allowance the Anvil computes for a quad (R491). -/
opaque Config.allowance : Nat → BitVec 10

/-- The module's identity signature and digest functions (R487, R488): SHAKE256 and Ed448 name standards outside the
spec's text, so what they give is left free. -/
opaque Config.digest : List Byte → List Byte

/-- The module's fused secret, from which its identity key is derived (R488). -/
opaque Config.fusedSecret : List Byte

/-- The Ed448 signature by a key, the first argument, over a digest (R488). -/
opaque Config.sign : List Byte → List Byte → List Byte

/-- Whether an Ed448 signature, the second argument, over a digest is by a key that the boot ROM's root certifies (R487). -/
opaque Config.certified : List Byte → List Byte → Bool

/-- The boot ROM's image, which the boot measures first (R488). -/
opaque Config.bootRom : List Byte

/-- The firmware the module was made with, by place in the boot order (R488). -/
opaque Config.firmware : Nat → List Byte

/-- A temperature or power figure a sensor reads (R489). -/
opaque Config.sensor : Nat → Nat

end Sys2Proof
end

