-- ==== Sys2Proof/Syntax.lean ====
section
/-!
DEFINITION. The instructions and steps of the K7: one constructor for each row of spec/opcode_table.json.

The first part are instruction words: their operands are the fields of R65, with register numbers and operation codes
already turned into data. The rest are the steps of the machine that have no word of their own (a fill, an expiry, a
placement, a driver command): a constructor each, whose arguments name what the step acts on.
-/

namespace Sys2Proof

/-- The special sources (R15, R68). -/
inductive Special where
  | lane | wave | split | team | gang | core | quad | die | pkg | node | ver | clk
  deriving DecidableEq, Repr

/-- A source operand (R67, R70): a register, a special source, an inline constant, the 18-bit immediate with the
reading its instruction gives it, or the literal of an extension word. -/
inductive Src where
  | v (n : Nat)
  | k (n : Nat)
  | sp (x : Special)
  | int (n : Nat)
  | flt (n : Nat)
  | imm (signed : Bool) (x : BitVec 18)
  | lit (x : W64)
  deriving DecidableEq, Repr

/-- A destination: a vector or a uniform register (R72). -/
inductive Dst where
  | v (n : Nat)
  | k (n : Nat)
  deriving DecidableEq, Repr

/-- The guard (R37): predicate `p`, negated or not. -/
structure Guard where
  neg : Bool
  p : Nat
  deriving DecidableEq, Repr

/-- Line displacement and target word of a relative branch (R77). -/
structure Target where
  line : BitVec 22
  word : BitVec 4
  deriving DecidableEq, Repr

/-- Rounding modes (R154). -/
inductive Rnd where
  | rn | rz | ru | rd
  deriving DecidableEq, Repr

/-- Access widths (R226). -/
inductive Width where
  | b8 | b16 | b32 | b64 | b128 | s8 | s16
  deriving DecidableEq, Repr

/-- Scopes (R263, R300). -/
inductive Scope where
  | wave | core | quad | die | pkg | pod
  deriving DecidableEq, Repr

/-- ORD of an atomic (R301). -/
inductive MemOrd where
  | none | acq | rel | acqrel
  deriving DecidableEq, Repr

/-- OP of an atomic (R304). -/
inductive AtomOp where
  | add | min | max | minu | maxu | and | or | xor | exch | incwrap | fadd
  deriving DecidableEq, Repr

/-- Barrier levels (R309). -/
inductive BarLevel where
  | wave | team | gang | quad | die | pkg | pod
  deriving DecidableEq, Repr

/-- COND of `icmp` (R144). -/
inductive Cond where
  | eq | ne | lt | le | gt | ge
  deriving DecidableEq, Repr

/-- COND of `fcmp` (R175). -/
inductive FCond where
  | eq | ne | lt | le | gt | ge | ord | un
  deriving DecidableEq, Repr

/-- COMB of a comparison (R144). -/
inductive Comb where
  | set | and | or
  deriving DecidableEq, Repr

/-- The conversions of `i2i` (R145). -/
inductive I2i where
  | s8 | u8 | s16 | u16 | s64 | u64 | satS8 | satU8 | satS16 | satU16 | satS32 | satU32
  deriving DecidableEq, Repr

/-- CONV of `cvt` (R177). -/
inductive Cvt where
  | bf16Lo | bf16Hi | toBf16x2 | fromI32 | fromU32 | toI32 | toU32
  deriving DecidableEq, Repr

/-- OP of `vote` (R197). -/
inductive VoteOp where
  | all | any | eq | ballot
  deriving DecidableEq, Repr

/-- OP of `red` and `scan` (R198). -/
inductive RedOp where
  | iadd | imin | imax | iminu | imaxu | iand | ior | ixor | fadd | fmin | fmax
  deriving DecidableEq, Repr

/-- Element formats a tile or line may hold (R149, codes 1 to 6). -/
inductive Fmt where
  | cb4 | cb4x | fe4m3 | fe5m2 | i8 | bf16
  deriving DecidableEq, Repr

/-- SEL of `hmstat` (R261). -/
inductive HmSel where
  | tags | zero | shared | pinned | pinq | sharehit | unshare | capacity
  deriving DecidableEq, Repr

/-- CONV of `cpy` (R331). -/
inductive CpyConv where
  | raw | dec | decBf16 | enc
  deriving DecidableEq, Repr

/-- OP of `coll` (R334). -/
inductive CollOp where
  | allreduce | allgather | redscat | bcast
  deriving DecidableEq, Repr

/-- TYPE of `coll` (R334). -/
inductive CollTy where
  | iadd | imin | imax | iminu | imaxu | fadd | faddBf16 | none
  deriving DecidableEq, Repr

/-- The acquire and release flags of an engine command (R330). -/
structure EngOrd where
  acq : Bool
  rel : Bool
  scope : Scope
  deriving DecidableEq, Repr

/-- Position and length of a bit field (R141): two sources, or the packed immediate. -/
inductive BField where
  | src (b c : Src)
  | packed (p n : Nat)
  deriving DecidableEq, Repr

/-- Where `ar.chk` writes (R409): a predicate, or a status register with its consumer count. -/
inductive ArRes where
  | pred (p : Nat)
  | st (d : Dst) (cc : Nat)
  deriving DecidableEq, Repr

/-- The pair opcodes (R76). -/
inductive Pop where
  | iadd | isub | imul | iand | ior | ixor | ishl | ishr | isar | imin | imax | iminu | imaxu
  | fadd | fsub | fmul | fmin | fmax | faddBf16 | fmulBf16 | mov
  deriving DecidableEq, Repr

/-- One slot of a pair word (R73). -/
structure Slot where
  pop : Pop
  p : Nat
  d : Nat
  s : Src
  cc : Nat
  deriving DecidableEq, Repr

/-- Where an uncorrectable error lies, or the die of a corrected one (R457). -/
inductive BadLoc where
  | reg (wave n lane : Nat)
  | line (asid addr : Nat)
  | vault (addr : Nat)
  | spad (team off : Nat)
  | slot (wave k : Nat)
  | pred (wave p : Nat)
  | l1 (core asid addr : Nat)
  | engine (core : Nat)
  | corrected (die : Nat)
  deriving DecidableEq, Repr

/-- One member of a collective group (R333): module position and die. -/
structure Member where
  pkg : Nat
  die : Nat
  deriving DecidableEq, Repr

/-- A firmware image (R487): its header, with security version, length, digest and signature, and its bytes. -/
structure FwImage where
  version : Nat
  length : Nat
  digest : List Byte
  signature : List Byte
  bytes : List Byte
  deriving DecidableEq, Repr

/-- A request that the Anvil itself makes of the graph unit (R395, R426): address space, kernel number, and the core count, or the
version with its lock action (0 keep, 1 set, 2 clear). -/
structure AnvilReq where
  asid : Nat
  kernel : Nat
  arg : Nat
  lock : Nat := 0
  deriving DecidableEq, Repr

/-- A request to the graph unit goes on: the driver's or the Anvil's that stands as a command, or a new one of the Anvil. -/
inductive Ask where
  | cmd (id : Nat)
  | anvil (r : AnvilReq)
  deriving DecidableEq, Repr

/-- What firmware writes of a context or an engine (R6): PWRCTX.GRANTS and ISSUECTL of a gang (R88, R490), MECTL.FORCE of a core's
engine (R339). -/
inductive FwField where
  | grants (gang : Nat)
  | issuectl (gang : Nat)
  | force (core : Nat)
  deriving DecidableEq, Repr

/-- What a member on another module brings to a collective (R334): its rank, what it asked for, and its source. -/
structure CollPart where
  rank : Nat
  op : CollOp
  ty : CollTy
  n : Nat
  root : Nat
  src : List W32
  deriving DecidableEq, Repr

/-- The instructions and steps. -/
inductive Instr where
  -- control (R98-R106)
  | nop (g : Guard)
  | yield (g : Guard)
  | sleep (g : Guard) (b : Src)
  | sleepEnd (w e : Nat)
  | bra (g : Guard) (t : Target)
  | braInd (g : Guard) (a : Src)
  | call (g : Guard) (t : Target)
  | callInd (g : Guard) (a : Src)
  | ret (g : Guard)
  | brx (g : Guard) (t : Target) (x : Src) (n : Nat)
  | exit (g : Guard)
  | overflowPop (w e : Nat)
  | mergeHoldExpiry (w e : Nat)
  | waveEnd (w : Nat)
  -- trampolines (R78-R80)
  | trj (long : Bool) (tgt : BitVec 53)
  | trc (long : Bool) (tgt : BitVec 53)
  -- fetch and issue (R58, R86)
  | fetchLine (w e : Nat)
  | issueSelect (core part : Nat)
  | pairWord (x y : Slot)
  -- moves (R123-R130)
  | mov (g : Guard) (d : Dst) (a : Src) (cc : Nat)
  | movi (g : Guard) (d : Dst) (b : Src) (cc : Nat)
  | movx (g : Guard) (d : Dst) (b : Src) (cc : Nat)
  | movk (g : Guard) (d : Nat) (a : Src)
  | vtok (g : Guard) (d : Nat) (a b : Src)
  | ktov (g : Guard) (d : Nat) (a b : Src) (cc : Nat)
  | sel (g : Guard) (w64 : Bool) (pn : Bool) (ps : Nat) (d : Dst) (a b : Src) (cc : Nat)
  | psetNe (g : Guard) (pd : Nat) (a : Src)
  | psetMask (g : Guard) (pd : Nat) (a : Src)
  | pand (g : Guard) (pd pa pb : Nat)
  | por (g : Guard) (pd pa pb : Nat)
  | pxor (g : Guard) (pd pa pb : Nat)
  | pnot (g : Guard) (pd pa : Nat)
  | pmov (g : Guard) (pd pa : Nat)
  | rel (g : Guard) (d n : Nat)
  | tcfg (g : Guard) (n : Nat) (b : Src)
  | omcfg (g : Guard) (n : Nat) (b : Src)
  -- integer and address (R133-R148)
  | iadd (g : Guard) (d : Dst) (a b : Src) (cc : Nat)
  | isub (g : Guard) (d : Dst) (a b : Src) (cc : Nat)
  | iaddc (g : Guard) (sub : Bool) (pc : Nat) (d : Dst) (a b : Src) (cc : Nat)
  | imul (g : Guard) (d : Dst) (a b : Src) (cc : Nat)
  | imulh (g : Guard) (d : Dst) (a b : Src) (cc : Nat)
  | imulhU (g : Guard) (d : Dst) (a b : Src) (cc : Nat)
  | imad (g : Guard) (d : Dst) (a b c : Src) (cc : Nat)
  | imadWide (g : Guard) (d : Dst) (a b c : Src) (cc : Nat)
  | imadWideU (g : Guard) (d : Dst) (a b c : Src) (cc : Nat)
  | ishl (g : Guard) (d : Dst) (a b : Src) (cc : Nat)
  | ishr (g : Guard) (d : Dst) (a b : Src) (cc : Nat)
  | isar (g : Guard) (d : Dst) (a b : Src) (cc : Nat)
  | ishl64 (g : Guard) (d : Dst) (a b : Src) (cc : Nat)
  | ishr64 (g : Guard) (d : Dst) (a b : Src) (cc : Nat)
  | isar64 (g : Guard) (d : Dst) (a b : Src) (cc : Nat)
  | iand (g : Guard) (d : Dst) (a b : Src) (cc : Nat)
  | ior (g : Guard) (d : Dst) (a b : Src) (cc : Nat)
  | ixor (g : Guard) (d : Dst) (a b : Src) (cc : Nat)
  | inot (g : Guard) (d : Dst) (a : Src) (cc : Nat)
  | ibfe (g : Guard) (d : Dst) (a : Src) (f : BField) (cc : Nat)
  | ibfeU (g : Guard) (d : Dst) (a : Src) (f : BField) (cc : Nat)
  | ibfi (g : Guard) (d : Dst) (a : Src) (f : BField) (cc : Nat)
  | ipopc (g : Guard) (d : Dst) (a : Src) (cc : Nat)
  | iclz (g : Guard) (d : Dst) (a : Src) (cc : Nat)
  | ibrev (g : Guard) (d : Dst) (a : Src) (cc : Nat)
  | imin (g : Guard) (d : Dst) (a b : Src) (cc : Nat)
  | imax (g : Guard) (d : Dst) (a b : Src) (cc : Nat)
  | iminU (g : Guard) (d : Dst) (a b : Src) (cc : Nat)
  | imaxU (g : Guard) (d : Dst) (a b : Src) (cc : Nat)
  | iabs (g : Guard) (d : Dst) (a : Src) (cc : Nat)
  | icmp (g : Guard) (w64 u : Bool) (cond : Cond) (pd : Nat) (comb : Comb) (a b : Src)
  | iadd64 (g : Guard) (d : Dst) (a b : Src) (cc : Nat)
  | lea (g : Guard) (u : Bool) (shift : Nat) (d : Dst) (a b : Src) (cc : Nat)
  | leaAr (g : Guard) (d : Dst) (a b : Src) (cc : Nat)
  | leaArAdd (g : Guard) (d : Dst) (a b : Src) (cc : Nat)
  | i2i (g : Guard) (op : I2i) (d : Dst) (a : Src) (cc : Nat)
  -- floating point (R168-R183)
  | fadd (g : Guard) (m : Rnd) (d : Dst) (a b : Src) (cc : Nat)
  | fsub (g : Guard) (m : Rnd) (d : Dst) (a b : Src) (cc : Nat)
  | fmul (g : Guard) (m : Rnd) (d : Dst) (a b : Src) (cc : Nat)
  | ffma (g : Guard) (m : Rnd) (d : Dst) (a b c : Src) (cc : Nat)
  | fmin (g : Guard) (d : Dst) (a b : Src) (cc : Nat)
  | fmax (g : Guard) (d : Dst) (a b : Src) (cc : Nat)
  | fcmp (g : Guard) (cond : FCond) (pd : Nat) (comb : Comb) (a b : Src)
  | fclass (g : Guard) (d : Dst) (a : Src) (cc : Nat)
  | frndi (g : Guard) (m : Rnd) (d : Dst) (a : Src) (cc : Nat)
  | fexp (g : Guard) (d : Dst) (a : Src) (cc : Nat)
  | fldx (g : Guard) (d : Dst) (a b : Src) (cc : Nat)
  | fgetx (g : Guard) (d : Dst) (a : Src) (cc : Nat)
  | frcp (g : Guard) (m : Rnd) (d : Dst) (a : Src) (cc : Nat)
  | frsq (g : Guard) (m : Rnd) (d : Dst) (a : Src) (cc : Nat)
  | fsqrt (g : Guard) (m : Rnd) (d : Dst) (a : Src) (cc : Nat)
  | flg2 (g : Guard) (d : Dst) (a : Src) (cc : Nat)
  | fex2 (g : Guard) (d : Dst) (a : Src) (cc : Nat)
  | fdot2 (g : Guard) (m : Rnd) (d : Dst) (a b c : Src) (cc : Nat)
  | faddBf16x2 (g : Guard) (m : Rnd) (d : Dst) (a b : Src) (cc : Nat)
  | fmulBf16x2 (g : Guard) (m : Rnd) (d : Dst) (a b : Src) (cc : Nat)
  | ffmaBf16x2 (g : Guard) (m : Rnd) (d : Dst) (a b c : Src) (cc : Nat)
  | cvt (g : Guard) (op : Cvt) (m : Rnd) (d : Dst) (a : Src) (b : Option Src) (cc : Nat)
  | numstatWindowStart (team : Nat)
  -- lane exchange (R193-R201)
  | shflIdx (g : Guard) (seg pd d : Nat) (a b : Src) (cc : Nat)
  | shflUp (g : Guard) (seg pd d : Nat) (a b : Src) (cc : Nat)
  | shflDn (g : Guard) (seg pd d : Nat) (a b : Src) (cc : Nat)
  | shflXor (g : Guard) (seg pd d : Nat) (a b : Src) (cc : Nat)
  | vote (g : Guard) (op : VoteOp) (pn : Bool) (ps : Nat) (d : Dst) (cc : Nat)
  | red (g : Guard) (op : RedOp) (d : Dst) (a : Src) (cc : Nat)
  | scan (g : Guard) (exc : Bool) (op : RedOp) (d : Nat) (a : Src) (cc : Nat)
  | prmt (g : Guard) (d : Dst) (a b c : Src) (cc : Nat)
  | matchAny (g : Guard) (w64 : Bool) (d : Nat) (a : Src) (cc : Nat)
  | matchAll (g : Guard) (w64 : Bool) (d : Dst) (a : Src) (cc : Nat)
  -- memory (R225-R231)
  | ld (g : Guard) (w : Width) (fs : Bool) (d : Nat) (a b : Src) (cc : Nat)
  | ldk (g : Guard) (w : Width) (fs : Bool) (d : Nat) (a b : Src)
  | st (g : Guard) (w : Width) (fs : Bool) (a b c : Src)
  | stk (g : Guard) (w : Width) (fs : Bool) (a b c : Src)
  | ldCv (g : Guard) (x2 fs : Bool) (d : Nat) (a b : Src) (cc : Nat)
  | stCv (g : Guard) (m : Rnd) (fs : Bool) (a b c : Src)
  | ldFe (g : Guard) (w : Width) (take : Bool) (d : Nat) (a b : Src) (cc : Nat)
  | ldFeGrant (w e lane : Nat)
  | fetimeExpiry (w e : Nat)
  | stFeFill (g : Guard) (w : Width) (fs : Bool) (a b c : Src)
  | feSet (g : Guard) (full fs : Bool) (a b : Src)
  | fePeek (g : Guard) (fs : Bool) (d : Nat) (a b : Src) (cc : Nat)
  | pref (g : Guard) (hm : Bool) (a b : Src)
  | memAccessComplete (w op : Nat) (lanes : Mask)
  | storePermProbe (w op : Nat) (lanes : Mask)
  | l1Writeback (core asid addr : Nat)
  | hmWriteArrive (id : Nat)
  | heldWritebackPerform (id : Nat)
  -- residency (R256-R261)
  | pin (g : Guard) (fs : Bool) (d : Dst) (a : Src) (cc : Nat)
  | unpin (g : Guard) (fs : Bool) (d : Dst) (a : Src) (cc : Nat)
  | flushL1 (g : Guard) (fs : Bool) (a : Src)
  | flushHm (g : Guard) (fs : Bool) (a : Src)
  | invalL1 (g : Guard) (fs : Bool) (a : Src)
  | invalHm (g : Guard) (fs : Bool) (a : Src)
  | hmzero (g : Guard) (fs : Bool) (a b : Src)
  | hmstat (g : Guard) (sel : HmSel) (fs : Bool) (d : Nat)
  -- synchronisation (R300-R321)
  | atom (g : Guard) (o : MemOrd) (sc : Scope) (op : AtomOp) (w64 fs : Bool) (d : Dst) (a b : Src) (cc : Nat)
  | atomCas (g : Guard) (o : MemOrd) (sc : Scope) (w64 fs : Bool) (d : Dst) (a b c : Src) (cc : Nat)
  | ldAcq (g : Guard) (sc : Scope) (w : Width) (fs : Bool) (d : Dst) (a b : Src) (cc : Nat)
  | stRel (g : Guard) (sc : Scope) (w : Width) (fs : Bool) (a b c : Src)
  | fence (g : Guard) (sc : Scope)
  | bar (lv : BarLevel)
  | barInstanceComplete (lv : BarLevel) (key : Nat)
  | barc (pd : Nat) (a : Src)
  | barcResize (team : Nat)
  | mbsend (g : Guard) (fs : Bool) (d : Nat) (a : Src) (kb : Nat)
  | mbrecv (g : Guard) (pd : Nat) (try_ fs : Bool) (kb : Nat)
  | tkres (g : Guard) (fs : Bool) (d : Nat) (a b : Src)
  | tkcom (g : Guard) (fs : Bool) (d : Nat) (a b : Src)
  | queueConsume (q : Nat)
  -- engines (R322-R336)
  | cpy (g : Guard) (o : EngOrd) (tag : Option Nat) (cv : CpyConv) (m : Rnd) (fs : Bool) (a b c : Src)
  | cpyG (g : Guard) (o : EngOrd) (tag : Option Nat) (size : Nat) (i64 fs : Bool) (a b : Src) (kq : Nat)
  | cpyS (g : Guard) (o : EngOrd) (tag : Option Nat) (size : Nat) (i64 fs : Bool) (a b : Src) (kq : Nat)
  | coll (g : Guard) (o : EngOrd) (tag : Option Nat) (op : CollOp) (ty : CollTy) (fs : Bool) (a b : Src) (kq : Nat)
  | cstat (g : Guard) (d : Nat) (b : Src)
  | engineCmdComplete (w num : Nat)
  | engineFaultPost (w num : Nat)
  | collInstanceComplete (asid group inst : Nat) (others : List CollPart)
  | collTimeout (asid group inst : Nat)
  -- matrix (R356-R373)
  | mstart (g : Guard) (t : Target) (parm : Option Nat) (fs : Bool)
  | mstop (g : Guard)
  | engineStop (core : Nat)
  | engineFetch (core : Nat)
  | engineProgramFault (core : Nat)
  | tld (g : Guard) (td map : Nat) (slot : Option Src) (b : Src) (fs : Bool)
  | tldDone (core : Nat)
  | mma (g : Guard) (f : Fmt) (acc ta tb : Nat) (fs : Bool)
  | mmaPair (g : Guard) (f : Fmt) (acc ta tb : Nat) (fs : Bool)
  | mmaDone (core : Nat)
  | accz (g : Guard) (acc : Nat)
  | acrel (g : Guard) (acc : Nat)
  | ringWait (g : Guard) (ring core : Nat) (self : Bool) (a : Src)
  | ringArv (g : Guard) (ring core : Nat) (self : Bool) (a : Src)
  | mloop (g : Guard) (t : Target) (x : Nat)
  | acqA (g : Guard) (acc : Nat)
  | accret (g : Guard) (acc : Nat)
  | accrd (g : Guard) (bf16 fs : Bool) (d : Nat) (b : Src) (acc cc : Nat)
  -- work (R408-R415)
  | mint (g : Guard) (fs : Bool) (kb : Nat)
  | mintServe (w op : Nat)
  | mintDone (g : Guard) (fs : Bool) (d kb : Nat)
  | tqAdd (g : Guard) (fs : Bool) (d : Dst) (a : Src) (b : Nat) (c : Src) (cc : Nat)
  | nodeSpawn (g : Guard) (fs : Bool) (kq : Nat) (a : Src)
  | arChk (g : Guard) (r : ArRes) (a : Src)
  -- transfer (R425-R441)
  | recast (g : Guard) (fs : Bool) (d : Nat) (b : Src)
  | safePointTransfer (w e : Nat)
  | kverApply (core kernel : Nat)
  -- system (R442-R473)
  | csrrd (g : Guard) (d : Nat) (csr : Src)
  | csrwr (g : Guard) (csr a : Src)
  | wtimerloWrite (g : Guard) (a : Src)
  | wtimerhiWrite (g : Guard) (a : Src)
  | nswinWrite (g : Guard) (a : Src)
  | mectlWrite (g : Guard) (a : Src)
  | ringdWrite (g : Guard) (n : Nat) (a : Src)
  | splitCsrWrite (g : Guard) (csr : Nat) (a : Src)
  | trap (g : Guard) (b : Src)
  | tclr (g : Guard) (b : Src)
  | trace (g : Guard) (a : Src)
  | smark (g : Guard) (a : Src)
  | pwrReq (g : Guard) (fs : Bool) (d : Nat) (b : Src)
  | mon (g : Guard) (fs : Bool) (kb : Nat)
  | handlerEntry (w : Nat)
  | waveHalt (w : Nat)
  | wtimerExpiry (w : Nat)
  | gangSave (gang : Nat)
  | gangResume (gang : Nat)
  | contextSpill (gang : Nat)
  | sampleRecord (w : Nat)
  | sampleInterval (core part : Nat)
  | traceRecord (w : Nat)
  -- work scheduling (R374-R407)
  | launchConsume (id : Nat)
  | gangPlace (die : Nat)
  | spruePour (die : Nat)
  | sprueWaitExpiry (core : Nat)
  | stealRequest (core : Nat)
  | stealAnswer (core : Nat)
  | arenaBirth (node : Nat)
  | arenaEntryApply (core key : Nat)
  | nodeDeath (node : Nat)
  | kernelRetire (kernel : Nat)
  -- queues and commands (R479-R485)
  | slotNop (id : Nat)
  | slotLaunch (id : Nat)
  | slotGrow (id : Nat)
  | slotMail (id : Nat)
  | slotAsid (id : Nat)
  | invalidateRange (id : Nat)
  | invalidateGrants (id : Nat)
  | invalidateAsid (id : Nat)
  | teardown (id : Nat)
  | slotAnswer (id : Nat)
  | poolArena (id : Nat)
  | poolSave (id : Nat)
  | vacate (ask : Ask)
  | transferRequest (ask : Ask)
  | cancel (id : Nat)
  | configCodebook (id : Nat)
  | configDeepFmtw (id : Nat)
  | configVaultFmtw (id : Nat)
  | configGrantbase (id : Nat)
  | configPlacectl (id : Nat)
  | configSpruectl (id : Nat)
  | configStealseed (id : Nat)
  | debugOpen (id : Nat)
  | debugClose (id : Nat)
  | hostBreak (gang : Nat)
  | service (id : Nat)
  | ringEntryWrite (asid : Nat) (node : Bool)
  | irqHoldExpiry (asid : Nat) (node : Bool)
  -- the module (R487-R494)
  | quadGate (quad : Nat)
  | quadUngate (quad : Nat)
  -- steps that only the outside world, or the model's own clock, brings; and words without fields
  | patchStore (asid addr : Nat) (x : W64)
  | hmFill (asid addr : Nat)
  | pageWalk (asid addr : Nat)
  | softError (loc : BadLoc)
  | doorbellReserve (q : Nat)
  | doorbellCommit (q : Nat) (ticket : W32)
  | configCollGroup (id : Nat) (members : List Member) (limit : Nat)
  | mctpLimit (host : Bool) (watts : Nat)
  | attest (nonce : List Byte)
  | stage (host : Bool) (place : Nat) (image : FwImage)
  | dramtempCrossing (die pkg temp : Nat)
  | configurationWindowWrite (q : Nat) (vals : List W32)
  | ringAcknowledge (asid : Nat) (node : Bool) (count : Nat)
  | debugReply (w op : Nat) (words : List W32)
  | powerLimitControl (field : FwField) (x : Nat)
  | unitRetire (kind unit : Nat)
  | podBringUp (pkg : Nat)
  | tallowRecompute (vals : List Nat)
  | trr
  | trn
  | bkpt
  | trapret
  | nodeRelease
  | mctpHealth
  | mctpSensors
  | moduleReset
  | boot
  deriving DecidableEq, Repr

end Sys2Proof
end

