-- ==== Sys2Proof/WellFormed.lean ====
section
/-!
DEFINITION. Which instruction terms are words of the K7: every register number, count and code in the range its field
holds, and every operand of the kind its instruction takes (R65-R76, R99, R123, R134, R169, R195, R226, R257, R301,
R330, R357, R409, R440, R464). The steps that have no word are not well-formed words.
-/

namespace Sys2Proof

/-- p0-p7. -/
def okPred (p : Nat) : Bool := p < 8

/-- A guard names a predicate (R37). -/
def Guard.ok (g : Guard) : Bool := okPred g.p

/-- The guard that is always true: p7, not negated (R65). -/
def Guard.always : Guard := ⟨false, 7⟩

/-- A consumer count is two bits (R65). -/
def okCc (c : Nat) : Bool := c < 4

/-- The operand code of the source exists (R67). -/
def Src.ok : Src → Bool
  | .v n => n < 256
  | .k n => n < 64
  | .sp _ => true
  | .int n => n < 16
  | .flt n => n < 16
  | .imm _ _ => true
  | .lit _ => true

/-- The source differs from lane to lane: a v code or `%lane` (R72). -/
def Src.perLane : Src → Bool
  | .v _ => true
  | .sp .lane => true
  | _ => false

/-- A source held in the word's 9-bit field: no immediate and no literal. -/
def Src.inField : Src → Bool
  | .imm _ _ => false
  | .lit _ => false
  | _ => true

/-- A source of `n` registers (R71, R226): 1, a pair from an even number, or four from a multiple of 4. -/
def Src.okN (n : Nat) : Src → Bool
  | .v m => m < 256 && m % n == 0
  | .k m => m < 64 && m % n == 0
  | .sp _ => n == 1
  | .int m => m < 16 && n ≤ 2
  | .flt m => m < 16 && n == 1
  | .imm _ _ => n ≤ 2
  | .lit x => n == 2 || (n == 1 && x.toNat < 2 ^ 32)

/-- An immediate, where one is allowed, is read as its instruction reads it (R70). -/
def Src.immIs (allowed : Option Bool) : Src → Bool
  | .imm s _ => allowed == some s
  | _ => true

/-- A literal stands only where EXT is allowed (R66). -/
def Src.litIs (allowed : Bool) : Src → Bool
  | .lit _ => allowed
  | _ => true

/-- A source in position B: `n` registers, the immediate's reading, EXT allowed. -/
def Src.okB (n : Nat) (imm : Option Bool) (ext : Bool) (b : Src) : Bool :=
  b.okN n && b.immIs imm && b.litIs ext

/-- A source in position A or C: a 9-bit operand code of `n` registers. -/
def Src.okA (n : Nat) (a : Src) : Bool := a.inField && a.okN n

/-- A destination of `n` registers with its consumer count: 0 on a uniform register (R72). -/
def Dst.okN (n cc : Nat) : Dst → Bool
  | .v m => m < 256 && m % n == 0 && okCc cc
  | .k m => m < 64 && m % n == 0 && cc == 0

/-- A uniform destination takes no per-lane source (R72). -/
def Dst.okUni (d : Dst) (xs : List Src) : Bool :=
  match d with
  | .v _ => true
  | .k _ => xs.all fun x => !x.perLane

/-- A source that must be uniform (R126, R226, R301). -/
def Src.okU (x : Src) : Bool := !x.perLane

/-- A v register. -/
def okV (n m : Nat) : Bool := m < 256 && m % n == 0

/-- A k register. -/
def okK (n m : Nat) : Bool := m < 64 && m % n == 0

/-- kb: a multiple of 8 from k0 to k48 (R301, R409). -/
def okKb (m : Nat) : Bool := m ≤ 48 && m % 8 == 0

/-- kq: a multiple of 4 up to `hi` (R330, R409). -/
def okKq (hi m : Nat) : Bool := m ≤ hi && m % 4 == 0

/-- Registers of an access of this width (R226). -/
def Width.regs : Width → Nat
  | .b64 => 2
  | .b128 => 4
  | _ => 1

/-- Widths a store has (R226). -/
def Width.isStore : Width → Bool
  | .s8 | .s16 => false
  | _ => true

/-- Widths of the full-empty instructions (R226). -/
def Width.isFe : Width → Bool
  | .b32 | .b64 | .b128 => true
  | _ => false

/-- The register ranges of a destination and a source overlap (R223). -/
def overlaps (dv : Bool) (d n : Nat) (x : Src) (m : Nat) : Bool :=
  match x with
  | .v e => dv && decide (d < e + m ∧ e < d + n)
  | .k e => !dv && decide (d < e + m ∧ e < d + n)
  | _ => false

/-- A destination that a replay may not overwrite the operands of (R223). -/
def Dst.apart (n : Nat) (d : Dst) (xs : List (Src × Nat)) : Bool :=
  match d with
  | .v e => xs.all fun x => !overlaps true e n x.1 x.2
  | .k e => xs.all fun x => !overlaps false e n x.1 x.2

/-- A three-operand word of the integer and float classes. -/
def okDAB (n m : Nat) (imm : Option Bool) (ext : Bool) (g : Guard) (d : Dst) (a b : Src) (cc : Nat) : Bool :=
  g.ok && d.okN n cc && a.okA m && b.okB m imm ext && d.okUni [a, b]

/-- A two-operand word D, A. -/
def okDA (n m : Nat) (g : Guard) (d : Dst) (a : Src) (cc : Nat) : Bool :=
  g.ok && d.okN n cc && a.okA m && d.okUni [a]

/-- The flags of an engine command (R330): a scope other than `.wave` exactly when a flag is set. -/
def EngOrd.ok (o : EngOrd) : Bool := if o.acq || o.rel then o.scope != .wave else o.scope == .wave

/-- A command number register (R330). -/
def okTag : Option Nat → Bool
  | none => true
  | some k => okK 1 k

/-- A slot of a pair word (R73, R74). -/
def Slot.ok (x : Slot) : Bool :=
  okPred x.p && x.d < 256 && okCc x.cc && x.s.inField && x.s.ok &&
    match x.s with
    | .flt _ => false
    | .sp y => y == .lane
    | _ => true

/-- The banks a slot reads: of D and of S when it is a v code (R74). -/
def Slot.banks (x : Slot) : List Nat :=
  match x.s with
  | .v n => [x.d % 4, n % 4]
  | _ => [x.d % 4]

/-- The pairing rules of R74, items 1 to 3. -/
def pairOk (x y : Slot) : Bool :=
  let bs := x.banks ++ y.banks
  decide (x.d % 4 ≠ y.d % 4) && (List.range 4).all (fun b => decide (bs.count b ≤ 2)) &&
    !((match x.s with | .k _ => true | _ => false) && (match y.s with | .k _ => true | _ => false))

/-- A bit field's operands (R141). -/
def BField.ok : BField → Bool
  | .src b c => b.okA 1 && c.okA 1
  | .packed p n => p < 32 && n < 64

/-- The sources a bit field reads. -/
def BField.srcs : BField → List Src
  | .src b c => [b, c]
  | .packed _ _ => []

/-- The type a collective may carry (R334). -/
def collTyOk (op : CollOp) (ty : CollTy) : Bool :=
  match op with
  | .allgather | .bcast => ty == .none
  | _ => ty != .none

/-- A slot word operand of `ring.wait` and `ring.arv`: a uniform field, the unsigned immediate or a literal (R357). -/
def okRingA (a : Src) : Bool := a.okU && a.okB 1 (some false) true

/-- A CSR number operand (R464, R467): an immediate up to 4,095, or a uniform field. -/
def okCsr : Src → Bool
  | .imm s x => !s && x.toNat < 4096
  | .lit _ => false
  | x => x.okU && x.okN 1

/-- The CSR numbers whose writes have a constructor of their own. -/
def ownCsrWrite (n : Nat) : Bool :=
  n == 0x064 || n == 0x065 || n == 0x071 || n == 0x090 || (0x0A0 ≤ n && n ≤ 0x0AF) ||
    (0x020 ≤ n && n ≤ 0x02D) || (0x030 ≤ n && n ≤ 0x05F)

/-- The split-table CSRs (R465). -/
def splitCsr (n : Nat) : Bool := (0x020 ≤ n && n ≤ 0x02D) || (0x030 ≤ n && n ≤ 0x05F)

/-- The term is an instruction word of the K7. -/
def Instr.wf : Instr → Bool
  | .nop g => g.ok
  | .yield g => g.ok
  | .sleep g b => g.ok && b.okB 1 (some false) true && b.okU
  | .sleepEnd _ _ => false
  | .bra g _ => g.ok
  | .braInd g a => g.ok && a.okA 2
  | .call g _ => g.ok
  | .callInd g a => g.ok && a.okA 2
  | .ret g => g.ok
  | .brx g _ x n => g.ok && x.okA 1 && 1 ≤ n && n ≤ 4096
  | .exit g => g.ok
  | .overflowPop _ _ => false
  | .mergeHoldExpiry _ _ => false
  | .waveEnd _ => false
  | .trj _ _ => true
  | .trc _ _ => true
  | .trr => true
  | .trn => true
  | .patchStore _ _ _ => false
  | .fetchLine _ _ => false
  | .issueSelect _ _ => false
  | .pairWord x y => x.ok && y.ok && pairOk x y
  | .mov g d a cc => okDA 1 1 g d a cc
  | .movi g d b cc => g.ok && d.okN 1 cc && b.okB 1 (some true) false && d.okUni [b]
  | .movx g d b cc => g.ok && d.okN 2 cc && b.okB 2 (some true) true && d.okUni [b]
  | .movk g d a => g.ok && okK 1 d && a.okA 1
  | .vtok g d a b => g.ok && okK 1 d && a.okA 1 && b.okB 1 (some false) false && b.okU
  | .ktov g d a b cc => g.ok && okV 1 d && okCc cc && a.okA 1 && a.okU && b.okB 1 (some false) false && b.okU
  | .sel g w _ ps d a b cc =>
    let n := if w then 2 else 1
    g.ok && okPred ps && (match d with | .v _ => true | .k _ => false) && d.okN n cc && a.okA n && b.okB n (some true) true
  | .psetNe g pd a => g.ok && okPred pd && a.okA 1
  | .psetMask g pd a => g.ok && okPred pd && a.okA 1
  | .pand g pd pa pb => g.ok && okPred pd && okPred pa && okPred pb
  | .por g pd pa pb => g.ok && okPred pd && okPred pa && okPred pb
  | .pxor g pd pa pb => g.ok && okPred pd && okPred pa && okPred pb
  | .pnot g pd pa => g.ok && okPred pd && okPred pa
  | .pmov g pd pa => g.ok && okPred pd && okPred pa
  | .rel g d n => g.ok && 1 ≤ n && n ≤ 16 && d + n ≤ 256
  | .tcfg g n b => g.ok && n < 8 && b.okB 1 (some false) true && b.okU
  | .omcfg g n b => g.ok && n < 8 && b.okB 1 (some false) true && b.okU
  | .iadd g d a b cc => okDAB 1 1 (some true) true g d a b cc
  | .isub g d a b cc => okDAB 1 1 (some true) true g d a b cc
  | .iaddc g _ pc d a b cc => okPred pc && okDAB 1 1 (some true) true g d a b cc
  | .imul g d a b cc => okDAB 1 1 (some true) true g d a b cc
  | .imulh g d a b cc => okDAB 1 1 (some true) true g d a b cc
  | .imulhU g d a b cc => okDAB 1 1 (some true) true g d a b cc
  | .imad g d a b c cc => okDAB 1 1 none true g d a b cc && c.okA 1 && d.okUni [c]
  | .imadWide g d a b c cc => okDAB 2 1 none true g d a b cc && c.okA 2 && d.okUni [c]
  | .imadWideU g d a b c cc => okDAB 2 1 none true g d a b cc && c.okA 2 && d.okUni [c]
  | .ishl g d a b cc => okDAB 1 1 (some false) true g d a b cc
  | .ishr g d a b cc => okDAB 1 1 (some false) true g d a b cc
  | .isar g d a b cc => okDAB 1 1 (some false) true g d a b cc
  | .ishl64 g d a b cc => g.ok && d.okN 2 cc && a.okA 2 && b.okB 1 (some false) true && d.okUni [a, b]
  | .ishr64 g d a b cc => g.ok && d.okN 2 cc && a.okA 2 && b.okB 1 (some false) true && d.okUni [a, b]
  | .isar64 g d a b cc => g.ok && d.okN 2 cc && a.okA 2 && b.okB 1 (some false) true && d.okUni [a, b]
  | .iand g d a b cc => okDAB 1 1 (some true) true g d a b cc
  | .ior g d a b cc => okDAB 1 1 (some true) true g d a b cc
  | .ixor g d a b cc => okDAB 1 1 (some true) true g d a b cc
  | .inot g d a cc => okDA 1 1 g d a cc
  | .ibfe g d a f cc => okDA 1 1 g d a cc && f.ok && d.okUni f.srcs
  | .ibfeU g d a f cc => okDA 1 1 g d a cc && f.ok && d.okUni f.srcs
  | .ibfi g d a f cc => okDA 1 1 g d a cc && f.ok && d.okUni f.srcs
  | .ipopc g d a cc => okDA 1 1 g d a cc
  | .iclz g d a cc => okDA 1 1 g d a cc
  | .ibrev g d a cc => okDA 1 1 g d a cc
  | .imin g d a b cc => okDAB 1 1 (some true) true g d a b cc
  | .imax g d a b cc => okDAB 1 1 (some true) true g d a b cc
  | .iminU g d a b cc => okDAB 1 1 (some true) true g d a b cc
  | .imaxU g d a b cc => okDAB 1 1 (some true) true g d a b cc
  | .iabs g d a cc => okDA 1 1 g d a cc
  | .icmp g w _ _ pd _ a b =>
    let n := if w then 2 else 1
    g.ok && okPred pd && a.okA n && b.okB n (some true) true
  | .iadd64 g d a b cc => okDAB 2 2 (some true) true g d a b cc
  | .lea g _ sh d a b cc => sh < 16 && g.ok && d.okN 2 cc && a.okA 2 && b.okB 1 (some true) true && d.okUni [a, b]
  | .leaAr g d a b cc => g.ok && d.okN 2 cc && a.okA 1 && b.okB 2 (some true) true && d.okUni [a, b]
  | .leaArAdd g d a b cc => okDAB 2 2 (some true) true g d a b cc
  | .i2i g op d a cc =>
    match op with
    | .s64 | .u64 => okDA 2 1 g d a cc
    | .satS32 | .satU32 => okDA 1 2 g d a cc
    | _ => okDA 1 1 g d a cc
  | .fadd g _ d a b cc => okDAB 1 1 none true g d a b cc
  | .fsub g _ d a b cc => okDAB 1 1 none true g d a b cc
  | .fmul g _ d a b cc => okDAB 1 1 none true g d a b cc
  | .ffma g _ d a b c cc => okDAB 1 1 none true g d a b cc && c.okA 1 && d.okUni [c]
  | .fmin g d a b cc => okDAB 1 1 none true g d a b cc
  | .fmax g d a b cc => okDAB 1 1 none true g d a b cc
  | .fcmp g _ pd _ a b => g.ok && okPred pd && a.okA 1 && b.okB 1 none true
  | .fclass g d a cc => okDA 1 1 g d a cc
  | .frndi g _ d a cc => okDA 1 1 g d a cc
  | .fexp g d a cc => okDA 1 1 g d a cc
  | .fldx g d a b cc => okDAB 1 1 (some true) true g d a b cc
  | .fgetx g d a cc => okDA 1 1 g d a cc
  | .frcp g _ d a cc => okDA 1 1 g d a cc
  | .frsq g _ d a cc => okDA 1 1 g d a cc
  | .fsqrt g _ d a cc => okDA 1 1 g d a cc
  | .flg2 g d a cc => okDA 1 1 g d a cc
  | .fex2 g d a cc => okDA 1 1 g d a cc
  | .fdot2 g _ d a b c cc => okDAB 1 1 none true g d a b cc && c.okA 1 && d.okUni [c]
  | .faddBf16x2 g _ d a b cc => okDAB 1 1 none true g d a b cc
  | .fmulBf16x2 g _ d a b cc => okDAB 1 1 none true g d a b cc
  | .ffmaBf16x2 g _ d a b c cc => okDAB 1 1 none true g d a b cc && c.okA 1 && d.okUni [c]
  | .cvt g op m d a b cc =>
    okDA 1 1 g d a cc &&
      (match op, b with
       | .toBf16x2, some x => x.okA 1 && d.okUni [x]
       | .toBf16x2, none => false
       | _, some _ => false
       | .bf16Lo, none => m == .rn
       | .bf16Hi, none => m == .rn
       | _, none => true)
  | .numstatWindowStart _ => false
  | .shflIdx g seg pd d a b cc => g.ok && 1 ≤ seg && seg ≤ 5 && okPred pd && okV 1 d && okCc cc && a.okA 1 && b.okB 1 (some false) true
  | .shflUp g seg pd d a b cc => g.ok && 1 ≤ seg && seg ≤ 5 && okPred pd && okV 1 d && okCc cc && a.okA 1 && b.okB 1 (some false) true
  | .shflDn g seg pd d a b cc => g.ok && 1 ≤ seg && seg ≤ 5 && okPred pd && okV 1 d && okCc cc && a.okA 1 && b.okB 1 (some false) true
  | .shflXor g seg pd d a b cc => g.ok && 1 ≤ seg && seg ≤ 5 && okPred pd && okV 1 d && okCc cc && a.okA 1 && b.okB 1 (some false) true
  | .vote g _ _ ps d cc => g.ok && okPred ps && d.okN 1 cc
  | .red g _ d a cc => g.ok && d.okN 1 cc && a.okA 1
  | .scan g _ _ d a cc => g.ok && okV 1 d && okCc cc && a.okA 1
  | .prmt g d a b c cc => okDAB 1 1 none true g d a b cc && c.okA 1 && d.okUni [c]
  | .matchAny g w d a cc => g.ok && okV 1 d && okCc cc && a.okA (if w then 2 else 1)
  | .matchAll g w d a cc => g.ok && d.okN 1 cc && a.okA (if w then 2 else 1)
  | .ld g w _ d a b cc => g.ok && okV w.regs d && okCc cc && a.okA 2 && b.okB 1 (some true) true && (Dst.v d).apart w.regs [(a, 2), (b, 1)]
  | .ldk g w _ d a b => g.ok && okK w.regs d && a.okA 2 && a.okU && b.okB 1 (some true) true && b.okU && (Dst.k d).apart w.regs [(a, 2), (b, 1)]
  | .st g w _ a b c => g.ok && w.isStore && a.okA 2 && b.okB 1 none true && c.okA w.regs
  | .stk g w _ a b c => g.ok && w.isStore && a.okA 2 && a.okU && b.okB 1 none true && b.okU && c.okA w.regs && c.okU
  | .ldCv g _ _ d a b cc => g.ok && okV 1 d && okCc cc && a.okA 2 && b.okB 1 (some false) true && (Dst.v d).apart 1 [(a, 2), (b, 1)]
  | .stCv g _ _ a b c => g.ok && a.okA 2 && b.okB 1 none true && c.okA 1
  | .ldFe g w _ d a b cc => g.ok && w.isFe && okV w.regs d && okCc cc && a.okA 2 && b.okB 1 (some true) true && (Dst.v d).apart w.regs [(a, 2), (b, 1)]
  | .ldFeGrant _ _ _ => false
  | .fetimeExpiry _ _ => false
  | .stFeFill g w _ a b c => g.ok && w.isFe && a.okA 2 && b.okB 1 none true && c.okA w.regs
  | .feSet g _ _ a b => g.ok && a.okA 2 && b.okB 1 (some true) true
  | .fePeek g _ d a b cc => g.ok && okV 1 d && okCc cc && a.okA 2 && b.okB 1 (some true) true && (Dst.v d).apart 1 [(a, 2), (b, 1)]
  | .pref g _ a b => g.ok && a.okA 2 && b.okB 1 (some true) true
  | .memAccessComplete _ _ _ => false
  | .storePermProbe _ _ _ => false
  | .l1Writeback _ _ _ => false
  | .hmWriteArrive _ => false
  | .hmFill _ _ => false
  | .pageWalk _ _ => false
  | .heldWritebackPerform _ => false
  | .pin g _ d a cc => okDA 1 2 g d a cc && d.apart 1 [(a, 2)]
  | .unpin g _ d a cc => okDA 1 2 g d a cc && d.apart 1 [(a, 2)]
  | .flushL1 g _ a => g.ok && a.okA 2
  | .flushHm g _ a => g.ok && a.okA 2
  | .invalL1 g _ a => g.ok && a.okA 2
  | .invalHm g _ a => g.ok && a.okA 2
  | .hmzero g _ a b => g.ok && a.okA 2 && a.okU && b.okB 1 (some false) true && b.okU
  | .hmstat g _ _ d => g.ok && okK 2 d
  | .atom g _ _ op w _ d a b cc =>
    let n := if w then 2 else 1
    g.ok && d.okN n cc && a.okA 2 && b.okB n (some true) true && d.okUni [a, b] && d.apart n [(a, 2), (b, n)] &&
      !(w && (op == .incwrap || op == .fadd))
  | .atomCas g _ _ w _ d a b c cc =>
    let n := if w then 2 else 1
    g.ok && d.okN n cc && a.okA 2 && b.okB n none true && c.okA n && d.okUni [a, b, c] && d.apart n [(a, 2), (b, n), (c, n)]
  | .ldAcq g _ w _ d a b cc => g.ok && d.okN w.regs cc && a.okA 2 && b.okB 1 (some true) true && d.okUni [a, b] && d.apart w.regs [(a, 2), (b, 1)]
  | .stRel g _ w _ a b c => g.ok && w.isStore && a.okA 2 && b.okB 1 none true && c.okA w.regs
  | .fence g _ => g.ok
  | .bar _ => true
  | .barInstanceComplete _ _ => false
  | .barc pd a => okPred pd && a.okA 1 && a.okU
  | .barcResize _ => false
  | .mbsend g _ d a kb => g.ok && okK 1 d && a.okA 2 && a.okU && okKb kb
  | .mbrecv g pd t _ kb => g.ok && okPred pd && (t || pd == 0) && okKb kb
  | .tkres g _ d a b => g.ok && okK 1 d && a.okA 1 && a.okU && b.okB 1 (some false) true && b.okU
  | .tkcom g _ d a b => g.ok && okK 1 d && a.okA 1 && a.okU && b.okB 1 (some false) true && b.okU
  | .queueConsume _ => false
  | .cpy g o tag cv m _ a b c => g.ok && o.ok && okTag tag && (cv == .enc || m == .rn) && a.okA 2 && b.okA 2 && c.okA 1 && c.okU
  | .cpyG g o tag size _ _ a b kq => g.ok && o.ok && okTag tag && size < 8 && a.okA 2 && a.okU && b.okA 2 && b.okU && okKq 60 kq
  | .cpyS g o tag size _ _ a b kq => g.ok && o.ok && okTag tag && size < 8 && a.okA 2 && a.okU && b.okA 2 && b.okU && okKq 60 kq
  | .coll g o tag op ty _ a b kq => g.ok && o.ok && okTag tag && collTyOk op ty && a.okA 2 && a.okU && b.okA 2 && b.okU && okKq 60 kq
  | .cstat g d b => g.ok && okK 2 d && b.okB 1 (some false) true && b.okU
  | .engineCmdComplete _ _ => false
  | .engineFaultPost _ _ => false
  | .collInstanceComplete _ _ _ _ => false
  | .collTimeout _ _ _ => false
  | .mstart g _ parm _ => g.ok && (match parm with | none => true | some k => k ≤ 56 && k % 8 == 0)
  | .mstop g => g.ok
  | .engineStop _ => false
  | .engineFetch _ => false
  | .engineProgramFault _ => false
  | .tld g td map sl b _ =>
    g.ok && td < 8 && map < 8 && (match sl with | none => true | some a => a.okA 1 && a.okU) && b.okB 1 (some false) true && b.okU
  | .tldDone _ => false
  | .mma g _ acc ta tb _ => g.ok && acc < 16 && ta < 8 && tb < 8
  | .mmaPair g _ acc ta tb _ => g.ok && acc < 16 && ta < 8 && tb < 8
  | .mmaDone _ => false
  | .accz g acc => g.ok && acc < 16
  | .acrel g acc => g.ok && acc < 16
  | .ringWait g r c self a => g.ok && r < 16 && c < 4 && (!self || c == 0) && okRingA a
  | .ringArv g r c self a => g.ok && r < 16 && c < 4 && (!self || c == 0) && okRingA a
  | .mloop g _ x => g.ok && x < 16
  | .acqA g acc => g.ok && acc < 16
  | .accret g acc => g.ok && acc < 16
  | .accrd g bf _ d b acc cc => g.ok && okV (if bf then 1 else 2) d && okCc cc && b.okB 1 none true && b.okU && acc < 16
  | .mint g _ kb => g.ok && okKb kb
  | .mintServe _ _ => false
  | .mintDone g _ d kb => g.ok && okK 1 d && okKb kb
  | .tqAdd g _ d a b c cc =>
    g.ok && d.okN 1 cc && a.okA 2 && a.okU && c.okA 1 && c.okU &&
      (match d with | .v _ => b < 256 && b % 8 == 0 | .k _ => okKb b)
  | .nodeSpawn g _ kq a => g.ok && okKq 52 kq && a.okA 2 && a.okU
  | .arChk g r a =>
    g.ok && a.okA 2 && (match r with | .pred p => okPred p | .st d cc => d.okN 1 cc && d.okUni [a])
  | .recast g _ d b => g.ok && okK 1 d && b.okB 1 (some false) true && b.okU
  | .safePointTransfer _ _ => false
  | .kverApply _ _ => false
  | .csrrd g d c => g.ok && okK 1 d && okCsr c
  | .csrwr g c a => g.ok && okCsr c && a.okA 1 && a.okU && (match c with | .imm _ x => !ownCsrWrite x.toNat | _ => true)
  | .wtimerloWrite g a => g.ok && a.okA 1 && a.okU
  | .wtimerhiWrite g a => g.ok && a.okA 1 && a.okU
  | .nswinWrite g a => g.ok && a.okA 1 && a.okU
  | .mectlWrite g a => g.ok && a.okA 1 && a.okU
  | .ringdWrite g n a => g.ok && n < 16 && a.okA 1 && a.okU
  | .splitCsrWrite g n a => g.ok && splitCsr n && a.okA 1 && a.okU
  | .trap g b => g.ok && b.okB 1 (some false) true && b.okU
  | .bkpt => true
  | .tclr g b => g.ok && b.okB 1 (some false) true && b.okU
  | .trapret => true
  | .trace g a => g.ok && a.okA 1 && a.okU
  | .smark g a => g.ok && a.okA 1 && a.okU
  | .pwrReq g _ d b => g.ok && okK 1 d && b.okB 1 (some false) false && b.okU
  | .mon g _ kb => g.ok && okKb kb
  | .handlerEntry _ => false
  | .waveHalt _ => false
  | .wtimerExpiry _ => false
  | .gangSave _ => false
  | .gangResume _ => false
  | .contextSpill _ => false
  | .sampleRecord _ => false
  | .sampleInterval _ _ => false
  | .traceRecord _ => false
  | .softError _ => false
  | .launchConsume _ => false
  | .nodeRelease => false
  | .gangPlace _ => false
  | .spruePour _ => false
  | .sprueWaitExpiry _ => false
  | .stealRequest _ => false
  | .stealAnswer _ => false
  | .arenaBirth _ => false
  | .arenaEntryApply _ _ => false
  | .nodeDeath _ => false
  | .kernelRetire _ => false
  | .doorbellReserve _ => false
  | .doorbellCommit _ _ => false
  | .slotNop _ => false
  | .slotLaunch _ => false
  | .slotGrow _ => false
  | .slotMail _ => false
  | .slotAsid _ => false
  | .invalidateRange _ => false
  | .invalidateGrants _ => false
  | .invalidateAsid _ => false
  | .teardown _ => false
  | .slotAnswer _ => false
  | .poolArena _ => false
  | .poolSave _ => false
  | .vacate _ => false
  | .transferRequest _ => false
  | .cancel _ => false
  | .configCodebook _ => false
  | .configDeepFmtw _ => false
  | .configVaultFmtw _ => false
  | .configGrantbase _ => false
  | .configCollGroup _ _ _ => false
  | .configPlacectl _ => false
  | .configSpruectl _ => false
  | .configStealseed _ => false
  | .debugOpen _ => false
  | .debugClose _ => false
  | .hostBreak _ => false
  | .service _ => false
  | .ringEntryWrite _ _ => false
  | .irqHoldExpiry _ _ => false
  | .mctpHealth => false
  | .mctpSensors => false
  | .mctpLimit _ _ => false
  | .attest _ => false
  | .stage _ _ _ => false
  | .moduleReset => false
  | .boot => false
  | .tallowRecompute _ => false
  | .dramtempCrossing _ _ _ => false
  | .quadGate _ => false
  | .quadUngate _ => false
  | .unitRetire _ _ => false
  | .configurationWindowWrite _ _ => false
  | .ringAcknowledge _ _ _ => false
  | .debugReply _ _ _ => false
  | .powerLimitControl _ _ => false
  | .podBringUp _ => false

end Sys2Proof
end

