-- ==== Sys2Proof/Decode.lean ====
section
/-!
DEFINITION. From words to instructions and back (R65-R83 and the encoding table of each class).

A full-form word is first cut into the fields of R65 (`FW`), and the decoder of its class turns the fields into an
instruction. What is wrong with a word is reported once, with the first failing detail in the order of R83. The
encoder is written from the same tables: it gives the fields, and `FW.pack` puts them together.
-/

namespace Sys2Proof

/-- The detail codes of ILLEGAL (R83). -/
inductive Detail where
  | header | version | clause | form | opcode | pair | operand | uniform | count | reserved | patch | flag | target | role
  deriving DecidableEq, Repr

/-- The detail byte (R83). -/
def Detail.code : Detail → Nat
  | .header => 0x01 | .version => 0x02 | .clause => 0x03 | .form => 0x04 | .opcode => 0x05 | .pair => 0x06
  | .operand => 0x07 | .uniform => 0x08 | .count => 0x09 | .reserved => 0x0A | .patch => 0x0B | .flag => 0x0C
  | .target => 0x0D | .role => 0x0E

/-- Bits [hi:lo] of a number. -/
def bitsOf (n hi lo : Nat) : Nat := n / 2 ^ lo % 2 ^ (hi + 1 - lo)

/-- The fields of a full-form word (R65). -/
structure FW where
  major : Nat
  gn : Nat
  gp : Nat
  d : Nat
  a : Nat
  b : Nat
  c : Nat
  imm : Nat
  ext : Nat
  func : Nat
  cc : Nat
  deriving DecidableEq, Repr

/-- Cut a word into the fields of R65. -/
def FW.unpack (w : W64) : FW :=
  let n := w.toNat
  { major := n / 2 ^ 56 % 2 ^ 7, gn := n / 2 ^ 55 % 2, gp := n / 2 ^ 52 % 8, d := n / 2 ^ 43 % 512,
    a := n / 2 ^ 34 % 512, b := n / 2 ^ 25 % 512, c := n / 2 ^ 16 % 512, imm := n / 2 ^ 15 % 2,
    ext := n / 2 ^ 14 % 2, func := n / 4 % 4096, cc := n % 4 }

/-- Put the fields of R65 into a word. -/
def FW.pack (f : FW) : W64 :=
  BitVec.ofNat 64 (f.major * 2 ^ 56 + f.gn * 2 ^ 55 + f.gp * 2 ^ 52 + f.d * 2 ^ 43 + f.a * 2 ^ 34 + f.b * 2 ^ 25 +
    f.c * 2 ^ 16 + f.imm * 2 ^ 15 + f.ext * 2 ^ 14 + f.func * 4 + f.cc)

/-- Bits [hi:lo] of the word, within FUNC [13:2]. -/
def FW.fb (f : FW) (hi lo : Nat) : Nat := bitsOf f.func (hi - 2) (lo - 2)

/-- One bit of FUNC, by its place in the word. -/
def FW.flag (f : FW) (n : Nat) : Bool := f.fb n n == 1

/-- The guard (R37, R65). -/
def FW.guard (f : FW) : Guard := ⟨f.gn == 1, f.gp⟩

/-! ## Operand codes -/

/-- The special source of a code (R68). -/
def specialOf : Nat → Option Special
  | 0 => some .lane | 1 => some .wave | 2 => some .split | 3 => some .team | 4 => some .gang | 5 => some .core
  | 6 => some .quad | 7 => some .die | 8 => some .pkg | 9 => some .node | 10 => some .ver | 11 => some .clk
  | _ => none

/-- The number of a special source in R68's table. -/
def Special.code : Special → Nat
  | .lane => 0 | .wave => 1 | .split => 2 | .team => 3 | .gang => 4 | .core => 5
  | .quad => 6 | .die => 7 | .pkg => 8 | .node => 9 | .ver => 10 | .clk => 11

/-- The source of a 9-bit operand code (R67); a reserved code, which every decoder refuses, gives the inline 0. -/
def srcOf (c : Nat) : Src :=
  if c < 0x100 then .v c
  else if c < 0x140 then .k (c - 0x100)
  else if c < 0x160 then
    match specialOf (c - 0x140) with
    | some x => .sp x
    | none => .int 0
  else if c < 0x170 then .int (c - 0x160)
  else if c < 0x180 then .flt (c - 0x170)
  else .int 0

/-- The operand code of a source (R67). -/
def Src.code : Src → Nat
  | .v n => n
  | .k n => 0x100 + n
  | .sp x => 0x140 + x.code
  | .int n => 0x160 + n
  | .flt n => 0x170 + n
  | .imm _ _ => 0
  | .lit _ => 0

/-- The destination of a D code (R67). -/
def dstOf (c : Nat) : Dst := if c < 0x100 then .v c else .k (c - 0x100)

/-- The D code of a destination. -/
def Dst.code : Dst → Nat
  | .v n => n
  | .k n => 0x100 + n

/-- A code that names `n` registers, or a constant that may stand for them (R67, R71, R226). -/
def okCode (regs n c : Nat) : Bool :=
  if c < 0x100 then c % n == 0 && decide (c + n ≤ regs)
  else if c < 0x140 then c % n == 0
  else if c < 0x14C then n == 1
  else if c < 0x160 then false
  else if c < 0x170 then decide (n ≤ 2)
  else decide (c < 0x180) && n == 1

/-- The code differs from lane to lane: a v code or `%lane` (R72). -/
def laneCode (c : Nat) : Bool := decide (c < 0x100) || c == 0x140

/-- A v code. -/
def vCode (c : Nat) : Bool := decide (c < 0x100)

/-- A k code. -/
def kCode (c : Nat) : Bool := decide (0x100 ≤ c) && decide (c < 0x140)

/-! ## Checks, in the order of R83 -/

/-- What one field contributes to the checks of R83. -/
structure Chk where
  operand : Bool := true
  uniform : Bool := true
  count : Bool := true
  reserved : Bool := true
  deriving DecidableEq, Repr

/-- The instruction, or the first failing detail (R83). -/
def judge (form : Bool) (i : Option Instr) (cs : List Chk) : Except Detail Instr :=
  if !form then .error .form
  else match i with
    | none => .error .opcode
    | some j =>
      if !cs.all Chk.operand then .error .operand
      else if !cs.all Chk.uniform then .error .uniform
      else if !cs.all Chk.count then .error .count
      else if !cs.all Chk.reserved then .error .reserved
      else .ok j

/-- IMM and EXT where they are allowed (R66). -/
def FW.form (f : FW) (imm ext : Bool) : Bool :=
  !(f.imm == 1 && f.ext == 1) && (f.imm == 0 || imm) && (f.ext == 0 || ext)

/-- A field or a number that must be zero (R66). -/
def zero (n : Nat) : Chk := { reserved := n == 0 }

/-- No destination: D and CC zero (R72). A field that an instruction does not use holds no operand, so that a reserved code or a
register beyond `.regs` in it is "reserved" by R66 and not "operand" by R67 (DESIGN CHOICE, log 67). -/
def dNone (f : FW) : Chk := { reserved := f.d == 0 && f.cc == 0 }

/-- A vector or uniform destination of `n` registers (R72). -/
def dAny (regs n : Nat) (f : FW) : Chk :=
  { operand := (vCode f.d || kCode f.d) && okCode regs n f.d, count := vCode f.d || f.cc == 0 }

/-- A vector destination without a uniform form (R72). -/
def dVec (regs n : Nat) (f : FW) : Chk :=
  { operand := (vCode f.d || kCode f.d) && okCode regs n f.d, uniform := vCode f.d }

/-- A uniform destination; a v code is a wrong operand (R126, R463). -/
def dUni (n : Nat) (f : FW) : Chk :=
  { operand := kCode f.d && okCode 256 n f.d, count := f.cc == 0 }

/-- A uniform destination of an instruction whose every field must be uniform (R226, R301). -/
def dAllUni (regs n : Nat) (f : FW) : Chk :=
  { operand := (vCode f.d || kCode f.d) && okCode regs n f.d, uniform := kCode f.d, count := f.cc == 0 }

/-- A block of k registers from a multiple of `n` up to k`hi` (R301, R330, R409). -/
def kBlock (n hi c : Nat) : Chk := { operand := kCode c && c % n == 0 && decide (c ≤ 0x100 + hi) }

/-- D is a block of k registers, CC zero. -/
def dBlock (n hi : Nat) (f : FW) : Chk :=
  { operand := (kBlock n hi f.d).operand, count := f.cc == 0 }

/-- A source field of `n` registers, subject to R72. -/
def sAny (regs n : Nat) (f : FW) (c : Nat) : Chk :=
  { operand := okCode regs n c, uniform := !(kCode f.d && laneCode c) }

/-- A source field of `n` registers with no uniform rule. -/
def sFree (regs n : Nat) (c : Nat) : Chk := { operand := okCode regs n c }

/-- A source field that must be uniform. -/
def sUni (regs n : Nat) (c : Nat) : Chk := { operand := okCode regs n c, uniform := !laneCode c }

/-- Position B: the field, or the immediate, or the literal (R66, R70); `c` is the check of the bare field. -/
def bOr (n : Nat) (lit : W64) (f : FW) (c : Chk) : Chk :=
  if f.imm == 1 then {}
  else if f.ext == 1 then { reserved := f.b == 0 && (n == 2 || decide (lit.toNat < 2 ^ 32)) }
  else c

/-- C unused, unless the immediate lies in it (R65). -/
def cNone (f : FW) : Chk := { reserved := f.imm == 1 || f.c == 0 }

/-- What position B gives (R70). -/
def bVal (signed : Bool) (lit : W64) (f : FW) : Src :=
  if f.imm == 1 then .imm signed (BitVec.ofNat 18 (f.b * 512 + f.c)) else if f.ext == 1 then .lit lit else srcOf f.b

/-- B and C hold the unsigned immediate; what number it is. -/
def FW.immNat (f : FW) : Nat := f.b * 512 + f.c

/-- An unassigned FUNC code, after the form check (R66, R83): IMM or EXT is not allowed where no instruction of the major allows it.
Where some do, and in a reserved major, for which the spec names no instruction that could allow them, one of the two alone is
let pass and the detail is "opcode" (DESIGN CHOICE, log 66). -/
def unassigned (f : FW) (imm ext : Bool) : Except Detail Instr := if f.form imm ext then .error .opcode else .error .form

/-! ## Codes of named fields -/

/-- R154. -/
def rndOf : Nat → Rnd
  | 0 => .rn | 1 => .rz | 2 => .ru | _ => .rd
/-- R154. -/
def Rnd.code : Rnd → Nat
  | .rn => 0 | .rz => 1 | .ru => 2 | .rd => 3
/-- R226. -/
def widthOf : Nat → Option Width
  | 0 => some .b8 | 1 => some .b16 | 2 => some .b32 | 3 => some .b64 | 4 => some .b128 | 5 => some .s8 | 6 => some .s16
  | _ => none
/-- R226. -/
def Width.code : Width → Nat
  | .b8 => 0 | .b16 => 1 | .b32 => 2 | .b64 => 3 | .b128 => 4 | .s8 => 5 | .s16 => 6
/-- R300. -/
def scopeOf : Nat → Option Scope
  | 0 => some .wave | 1 => some .core | 2 => some .quad | 3 => some .die | 4 => some .pkg | 5 => some .pod
  | _ => none
/-- R300. -/
def Scope.code : Scope → Nat
  | .wave => 0 | .core => 1 | .quad => 2 | .die => 3 | .pkg => 4 | .pod => 5
/-- R301. -/
def ordOf : Nat → MemOrd
  | 0 => .none | 1 => .acq | 2 => .rel | _ => .acqrel
/-- R301. -/
def MemOrd.code : MemOrd → Nat
  | .none => 0 | .acq => 1 | .rel => 2 | .acqrel => 3
/-- R304. -/
def atomOf : Nat → Option AtomOp
  | 0 => some .add | 1 => some .min | 2 => some .max | 3 => some .minu | 4 => some .maxu | 5 => some .and
  | 6 => some .or | 7 => some .xor | 8 => some .exch | 9 => some .incwrap | 10 => some .fadd | _ => none
/-- R304. -/
def AtomOp.code : AtomOp → Nat
  | .add => 0 | .min => 1 | .max => 2 | .minu => 3 | .maxu => 4 | .and => 5
  | .or => 6 | .xor => 7 | .exch => 8 | .incwrap => 9 | .fadd => 10
/-- R309. -/
def levelOf : Nat → Option BarLevel
  | 0 => some .wave | 1 => some .team | 2 => some .gang | 3 => some .quad | 4 => some .die | 5 => some .pkg
  | 6 => some .pod | _ => none
/-- R309. -/
def BarLevel.code : BarLevel → Nat
  | .wave => 0 | .team => 1 | .gang => 2 | .quad => 3 | .die => 4 | .pkg => 5 | .pod => 6
/-- R144. -/
def condOf : Nat → Option Cond
  | 0 => some .eq | 1 => some .ne | 2 => some .lt | 3 => some .le | 4 => some .gt | 5 => some .ge | _ => none
/-- R144. -/
def Cond.code : Cond → Nat
  | .eq => 0 | .ne => 1 | .lt => 2 | .le => 3 | .gt => 4 | .ge => 5
/-- R175. -/
def fcondOf : Nat → Option FCond
  | 0 => some .eq | 1 => some .ne | 2 => some .lt | 3 => some .le | 4 => some .gt | 5 => some .ge
  | 6 => some .ord | 7 => some .un | _ => none
/-- R175. -/
def FCond.code : FCond → Nat
  | .eq => 0 | .ne => 1 | .lt => 2 | .le => 3 | .gt => 4 | .ge => 5 | .ord => 6 | .un => 7
/-- R144. -/
def combOf : Nat → Option Comb
  | 0 => some .set | 1 => some .and | 2 => some .or | _ => none
/-- R144. -/
def Comb.code : Comb → Nat
  | .set => 0 | .and => 1 | .or => 2
/-- R145. -/
def i2iOf : Nat → Option I2i
  | 0 => some .s8 | 1 => some .u8 | 2 => some .s16 | 3 => some .u16 | 4 => some .s64 | 5 => some .u64
  | 8 => some .satS8 | 9 => some .satU8 | 10 => some .satS16 | 11 => some .satU16 | 12 => some .satS32
  | 13 => some .satU32 | _ => none
/-- R145. -/
def I2i.code : I2i → Nat
  | .s8 => 0 | .u8 => 1 | .s16 => 2 | .u16 => 3 | .s64 => 4 | .u64 => 5
  | .satS8 => 8 | .satU8 => 9 | .satS16 => 10 | .satU16 => 11 | .satS32 => 12 | .satU32 => 13
/-- Registers of D in `i2i` (R145). -/
def I2i.dRegs : I2i → Nat
  | .s64 | .u64 => 2
  | _ => 1
/-- Registers of A in `i2i` (R145). -/
def I2i.aRegs : I2i → Nat
  | .satS32 | .satU32 => 2
  | _ => 1
/-- R177. -/
def cvtOf : Nat → Option Cvt
  | 0 => some .bf16Lo | 1 => some .bf16Hi | 2 => some .toBf16x2 | 3 => some .fromI32 | 4 => some .fromU32
  | 5 => some .toI32 | 6 => some .toU32 | _ => none
/-- R177. -/
def Cvt.code : Cvt → Nat
  | .bf16Lo => 0 | .bf16Hi => 1 | .toBf16x2 => 2 | .fromI32 => 3 | .fromU32 => 4 | .toI32 => 5 | .toU32 => 6
/-- R197. -/
def voteOf : Nat → VoteOp
  | 0 => .all | 1 => .any | 2 => .eq | _ => .ballot
/-- R197. -/
def VoteOp.code : VoteOp → Nat
  | .all => 0 | .any => 1 | .eq => 2 | .ballot => 3
/-- R198. -/
def redOf : Nat → Option RedOp
  | 0 => some .iadd | 1 => some .imin | 2 => some .imax | 3 => some .iminu | 4 => some .imaxu | 5 => some .iand
  | 6 => some .ior | 7 => some .ixor | 8 => some .fadd | 9 => some .fmin | 10 => some .fmax | _ => none
/-- R198. -/
def RedOp.code : RedOp → Nat
  | .iadd => 0 | .imin => 1 | .imax => 2 | .iminu => 3 | .imaxu => 4 | .iand => 5
  | .ior => 6 | .ixor => 7 | .fadd => 8 | .fmin => 9 | .fmax => 10
/-- R149. -/
def fmtOf : Nat → Option Fmt
  | 1 => some .cb4 | 2 => some .cb4x | 3 => some .fe4m3 | 4 => some .fe5m2 | 5 => some .i8 | 6 => some .bf16 | _ => none
/-- R149. -/
def Fmt.code : Fmt → Nat
  | .cb4 => 1 | .cb4x => 2 | .fe4m3 => 3 | .fe5m2 => 4 | .i8 => 5 | .bf16 => 6
/-- R261. -/
def hmSelOf : Nat → Option HmSel
  | 0 => some .tags | 1 => some .zero | 2 => some .shared | 3 => some .pinned | 4 => some .pinq | 5 => some .sharehit
  | 6 => some .unshare | 7 => some .capacity | _ => none
/-- R261. -/
def HmSel.code : HmSel → Nat
  | .tags => 0 | .zero => 1 | .shared => 2 | .pinned => 3 | .pinq => 4 | .sharehit => 5 | .unshare => 6 | .capacity => 7
/-- R331. -/
def convOf : Nat → Option CpyConv
  | 0 => some .raw | 1 => some .dec | 2 => some .decBf16 | 3 => some .enc | _ => none
/-- R331. -/
def CpyConv.code : CpyConv → Nat
  | .raw => 0 | .dec => 1 | .decBf16 => 2 | .enc => 3
/-- R334. -/
def collOpOf : Nat → CollOp
  | 0 => .allreduce | 1 => .allgather | 2 => .redscat | _ => .bcast
/-- R334. -/
def CollOp.code : CollOp → Nat
  | .allreduce => 0 | .allgather => 1 | .redscat => 2 | .bcast => 3
/-- R334. -/
def collTyOf : Nat → CollTy
  | 0 => .iadd | 1 => .imin | 2 => .imax | 3 => .iminu | 4 => .imaxu | 5 => .fadd | 6 => .faddBf16 | _ => .none
/-- R334. -/
def CollTy.code : CollTy → Nat
  | .iadd => 0 | .imin => 1 | .imax => 2 | .iminu => 3 | .imaxu => 4 | .fadd => 5 | .faddBf16 => 6 | .none => 7
/-- R76. -/
def popOf : Nat → Option Pop
  | 0x01 => some .iadd | 0x02 => some .isub | 0x03 => some .imul | 0x04 => some .iand | 0x05 => some .ior
  | 0x06 => some .ixor | 0x07 => some .ishl | 0x08 => some .ishr | 0x09 => some .isar | 0x0A => some .imin
  | 0x0B => some .imax | 0x0C => some .iminu | 0x0D => some .imaxu | 0x10 => some .fadd | 0x11 => some .fsub
  | 0x12 => some .fmul | 0x13 => some .fmin | 0x14 => some .fmax | 0x18 => some .faddBf16 | 0x19 => some .fmulBf16
  | 0x20 => some .mov | _ => none
/-- R76. -/
def Pop.code : Pop → Nat
  | .iadd => 0x01 | .isub => 0x02 | .imul => 0x03 | .iand => 0x04 | .ior => 0x05 | .ixor => 0x06 | .ishl => 0x07
  | .ishr => 0x08 | .isar => 0x09 | .imin => 0x0A | .imax => 0x0B | .iminu => 0x0C | .imaxu => 0x0D | .fadd => 0x10
  | .fsub => 0x11 | .fmul => 0x12 | .fmin => 0x13 | .fmax => 0x14 | .faddBf16 => 0x18 | .fmulBf16 => 0x19 | .mov => 0x20

/-! ## The classes -/

/-- Majors 0x00-0x07 that follow R65 (R99). -/
def decControl (regs : Nat) (f : FW) (lit : W64) : Except Detail Instr :=
  let no := f.form false false
  let g := f.guard
  let bc := [zero f.b, zero f.c]
  match f.major with
  | 0x00 =>
    match f.func with
    | 0 => judge no (some (.nop g)) ([dNone f, zero f.a] ++ bc)
    | 1 => judge no (some (.yield g)) ([dNone f, zero f.a] ++ bc)
    | 2 => judge (f.form true true) (some (.sleep g (bVal false lit f)))
        [dNone f, zero f.a, bOr 1 lit f (sUni regs 1 f.b), cNone f]
    | _ => unassigned f true true
  | 0x02 => if f.func == 0 then judge no (some (.braInd g (srcOf f.a))) ([dNone f, sFree regs 2 f.a] ++ bc) else unassigned f false false
  | 0x04 => if f.func == 0 then judge no (some (.callInd g (srcOf f.a))) ([dNone f, sFree regs 2 f.a] ++ bc) else unassigned f false false
  | 0x05 => if f.func == 0 then judge no (some (.ret g)) ([dNone f, zero f.a] ++ bc) else unassigned f false false
  | 0x07 => if f.func == 0 then judge no (some (.exit g)) ([dNone f, zero f.a] ++ bc) else unassigned f false false
  | _ => unassigned f true true

/-- Predicate logic (R128). -/
def decPred (regs : Nat) (f : FW) : Except Detail Instr :=
  let g := f.guard
  let pd := f.fb 10 8
  let pa := f.fb 7 5
  let pb := f.fb 4 2
  let no := f.form false false
  let bc := [dNone f, zero f.b, zero f.c]
  match f.fb 13 11 with
  | 0 => judge no (some (.psetNe g pd (srcOf f.a))) ([sFree regs 1 f.a, zero pa, zero pb] ++ bc)
  | 1 => judge no (some (.psetMask g pd (srcOf f.a))) ([sFree regs 1 f.a, zero pa, zero pb] ++ bc)
  | 2 => judge no (some (.pand g pd pa pb)) (zero f.a :: bc)
  | 3 => judge no (some (.por g pd pa pb)) (zero f.a :: bc)
  | 4 => judge no (some (.pxor g pd pa pb)) (zero f.a :: bc)
  | 5 => judge no (some (.pnot g pd pa)) ([zero f.a, zero pb] ++ bc)
  | 6 => judge no (some (.pmov g pd pa)) ([zero f.a, zero pb] ++ bc)
  | _ => judge no none []

/-- Majors 0x10-0x15 (R123). -/
def decMove (regs : Nat) (f : FW) (lit : W64) : Except Detail Instr :=
  let no := f.form false false
  let g := f.guard
  let bc := [zero f.b, zero f.c]
  match f.major with
  | 0x10 =>
    match f.func with
    | 0 => judge no (some (.mov g (dstOf f.d) (srcOf f.a) f.cc)) ([dAny regs 1 f, sAny regs 1 f f.a] ++ bc)
    | 1 => judge (f.form true false) (some (.movi g (dstOf f.d) (bVal true lit f) f.cc))
        [dAny regs 1 f, zero f.a, bOr 1 lit f (sAny regs 1 f f.b), cNone f]
    | 2 => judge (f.form true true) (some (.movx g (dstOf f.d) (bVal true lit f) f.cc))
        [dAny regs 2 f, zero f.a, bOr 2 lit f (sAny regs 2 f f.b), cNone f]
    | _ => unassigned f true true
  | 0x11 =>
    match f.func with
    | 0 => judge no (some (.movk g (f.d - 0x100) (srcOf f.a))) ([dUni 1 f, sFree regs 1 f.a] ++ bc)
    | 1 => judge (f.form true false) (some (.vtok g (f.d - 0x100) (srcOf f.a) (bVal false lit f)))
        [dUni 1 f, sFree regs 1 f.a, bOr 1 lit f (sUni regs 1 f.b), cNone f]
    | 2 => judge (f.form true false) (some (.ktov g f.d (srcOf f.a) (bVal false lit f) f.cc))
        [{ operand := vCode f.d && okCode regs 1 f.d }, sUni regs 1 f.a, bOr 1 lit f (sUni regs 1 f.b), cNone f]
    | _ => unassigned f true false
  | 0x12 =>
    let n := if f.flag 6 then 2 else 1
    judge (f.form true true) (some (.sel g (f.flag 6) (f.flag 5) (f.fb 4 2) (dstOf f.d) (srcOf f.a) (bVal true lit f) f.cc))
      [dVec regs n f, sFree regs n f.a, bOr n lit f (sFree regs n f.b), cNone f, zero (f.fb 13 7)]
  | 0x13 => decPred regs f
  | 0x14 =>
    let n := f.fb 5 2 + 1
    judge no (some (.rel g f.d n))
      ([{ operand := (vCode f.d && decide (f.d + n ≤ regs)) || kCode f.d, uniform := vCode f.d, reserved := f.cc == 0 },
        zero f.a, zero (f.fb 13 6)] ++ bc)
  | 0x15 =>
    let cs := [dNone f, zero f.a, bOr 1 lit f (sUni regs 1 f.b), cNone f]
    if f.func < 8 then judge (f.form true true) (some (.tcfg g f.func (bVal false lit f))) cs
    else if f.func < 16 then judge (f.form true true) (some (.omcfg g (f.func - 8) (bVal false lit f))) cs
    else unassigned f true true
  | _ => unassigned f true true

/-- A word D, A, B with an optional immediate and literal. -/
def judge3 (regs nd na nb : Nat) (imm : Option Bool) (ext : Bool) (f : FW) (lit : W64) (xs : List Chk)
    (mk : Dst → Src → Src → Instr) : Except Detail Instr :=
  judge (f.form imm.isSome ext) (some (mk (dstOf f.d) (srcOf f.a) (bVal (imm.getD false) lit f)))
    ([dAny regs nd f, sAny regs na f f.a, bOr nb lit f (sAny regs nb f f.b), cNone f] ++ xs)

/-- A word D, A, B, C with an optional literal in B. -/
def judge4 (regs nd na nb nc : Nat) (f : FW) (lit : W64) (xs : List Chk)
    (mk : Dst → Src → Src → Src → Instr) : Except Detail Instr :=
  judge (f.form false true) (some (mk (dstOf f.d) (srcOf f.a) (bVal false lit f) (srcOf f.c)))
    ([dAny regs nd f, sAny regs na f f.a, bOr nb lit f (sAny regs nb f f.b), sAny regs nc f f.c] ++ xs)

/-- A word D, A. -/
def judge2 (regs nd na : Nat) (f : FW) (xs : List Chk) (mk : Dst → Src → Instr) : Except Detail Instr :=
  judge (f.form false false) (some (mk (dstOf f.d) (srcOf f.a)))
    ([dAny regs nd f, sAny regs na f f.a, zero f.b, zero f.c] ++ xs)

/-- The bit-field word (R141). -/
def judgeBf (regs : Nat) (f : FW) (mk : Dst → Src → BField → Instr) : Except Detail Instr :=
  if f.imm == 1 then
    judge (f.form true false) (some (mk (dstOf f.d) (srcOf f.a) (.packed (f.immNat % 32) (f.immNat / 32 % 64))))
      [dAny regs 1 f, sAny regs 1 f f.a, zero (f.immNat / 2048)]
  else
    judge (f.form true false) (some (mk (dstOf f.d) (srcOf f.a) (.src (srcOf f.b) (srcOf f.c))))
      [dAny regs 1 f, sAny regs 1 f f.a, sAny regs 1 f f.b, sAny regs 1 f f.c]

/-- Majors 0x18-0x26 (R134). -/
def decInt (regs : Nat) (f : FW) (lit : W64) : Except Detail Instr :=
  let g := f.guard
  let s := some true
  let u := some false
  match f.major with
  | 0x18 => if f.func == 0 then judge3 regs 1 1 1 s true f lit [] (fun d a b => .iadd g d a b f.cc) else unassigned f true true
  | 0x19 => if f.func == 0 then judge3 regs 1 1 1 s true f lit [] (fun d a b => .isub g d a b f.cc) else unassigned f true true
  | 0x1A => judge3 regs 1 1 1 s true f lit [zero (f.fb 13 6)] (fun d a b => .iaddc g (f.flag 5) (f.fb 4 2) d a b f.cc)
  | 0x1B =>
    match f.func with
    | 0 => judge3 regs 1 1 1 s true f lit [] (fun d a b => .imul g d a b f.cc)
    | 1 => judge3 regs 1 1 1 s true f lit [] (fun d a b => .imulh g d a b f.cc)
    | 3 => judge3 regs 1 1 1 s true f lit [] (fun d a b => .imulhU g d a b f.cc)
    | _ => unassigned f true true
  | 0x1C =>
    match f.func with
    | 0 => judge4 regs 1 1 1 1 f lit [] (fun d a b c => .imad g d a b c f.cc)
    | 1 => judge4 regs 2 1 1 2 f lit [] (fun d a b c => .imadWide g d a b c f.cc)
    | 3 => judge4 regs 2 1 1 2 f lit [] (fun d a b c => .imadWideU g d a b c f.cc)
    | _ => unassigned f false true
  | 0x1D =>
    match f.func with
    | 0 => judge3 regs 1 1 1 u true f lit [] (fun d a b => .ishl g d a b f.cc)
    | 1 => judge3 regs 1 1 1 u true f lit [] (fun d a b => .ishr g d a b f.cc)
    | 2 => judge3 regs 1 1 1 u true f lit [] (fun d a b => .isar g d a b f.cc)
    | 4 => judge3 regs 2 2 1 u true f lit [] (fun d a b => .ishl64 g d a b f.cc)
    | 5 => judge3 regs 2 2 1 u true f lit [] (fun d a b => .ishr64 g d a b f.cc)
    | 6 => judge3 regs 2 2 1 u true f lit [] (fun d a b => .isar64 g d a b f.cc)
    | _ => unassigned f true true
  | 0x1E =>
    match f.func with
    | 0 => judge3 regs 1 1 1 s true f lit [] (fun d a b => .iand g d a b f.cc)
    | 1 => judge3 regs 1 1 1 s true f lit [] (fun d a b => .ior g d a b f.cc)
    | 2 => judge3 regs 1 1 1 s true f lit [] (fun d a b => .ixor g d a b f.cc)
    | 3 => judge2 regs 1 1 f [] (fun d a => .inot g d a f.cc)
    | _ => unassigned f true true
  | 0x1F =>
    match f.func with
    | 0 => judgeBf regs f (fun d a x => .ibfe g d a x f.cc)
    | 1 => judgeBf regs f (fun d a x => .ibfeU g d a x f.cc)
    | 2 => judgeBf regs f (fun d a x => .ibfi g d a x f.cc)
    | _ => unassigned f true false
  | 0x20 =>
    match f.func with
    | 0 => judge2 regs 1 1 f [] (fun d a => .ipopc g d a f.cc)
    | 1 => judge2 regs 1 1 f [] (fun d a => .iclz g d a f.cc)
    | 2 => judge2 regs 1 1 f [] (fun d a => .ibrev g d a f.cc)
    | _ => unassigned f false false
  | 0x21 =>
    match f.func with
    | 0 => judge3 regs 1 1 1 s true f lit [] (fun d a b => .imin g d a b f.cc)
    | 1 => judge3 regs 1 1 1 s true f lit [] (fun d a b => .imax g d a b f.cc)
    | 2 => judge3 regs 1 1 1 s true f lit [] (fun d a b => .iminU g d a b f.cc)
    | 3 => judge3 regs 1 1 1 s true f lit [] (fun d a b => .imaxU g d a b f.cc)
    | 4 => judge2 regs 1 1 f [] (fun d a => .iabs g d a f.cc)
    | _ => unassigned f true true
  | 0x22 =>
    let n := if f.flag 11 then 2 else 1
    judge (f.form true true)
      (do let cond ← condOf (f.fb 9 7)
          let comb ← combOf (f.fb 3 2)
          some (.icmp g (f.flag 11) (f.flag 10) cond (f.fb 6 4) comb (srcOf f.a) (bVal true lit f)))
      [dNone f, sFree regs n f.a, bOr n lit f (sFree regs n f.b), cNone f, zero (f.fb 13 12)]
  | 0x23 => if f.func == 0 then judge3 regs 2 2 2 s true f lit [] (fun d a b => .iadd64 g d a b f.cc) else unassigned f true true
  | 0x24 => judge3 regs 2 2 1 s true f lit [zero (f.fb 13 7)] (fun d a b => .lea g (f.flag 6) (f.fb 5 2) d a b f.cc)
  | 0x25 =>
    match f.func with
    | 0 => judge3 regs 2 1 2 s true f lit [] (fun d a b => .leaAr g d a b f.cc)
    | 1 => judge3 regs 2 2 2 s true f lit [] (fun d a b => .leaArAdd g d a b f.cc)
    | _ => unassigned f true true
  | 0x26 =>
    match i2iOf f.func with
    | some op => judge2 regs op.dRegs op.aRegs f [] (fun d a => .i2i g op d a f.cc)
    | none => unassigned f false false
  | _ => unassigned f true true

/-- Majors 0x2C-0x3C (R169). -/
def decFloat (regs : Nat) (f : FW) (lit : W64) : Except Detail Instr :=
  let g := f.guard
  let m := rndOf (f.fb 3 2)
  let z4 := [zero (f.fb 13 4)]
  match f.major with
  | 0x2C => judge3 regs 1 1 1 none true f lit [zero (f.fb 13 5)]
      (fun d a b => if f.flag 4 then .fsub g m d a b f.cc else .fadd g m d a b f.cc)
  | 0x2D => judge3 regs 1 1 1 none true f lit z4 (fun d a b => .fmul g m d a b f.cc)
  | 0x2E => if f.fb 13 4 == 0 then judge4 regs 1 1 1 1 f lit [] (fun d a b c => .ffma g m d a b c f.cc) else unassigned f false true
  | 0x2F =>
    match f.func with
    | 0 => judge3 regs 1 1 1 none true f lit [] (fun d a b => .fmin g d a b f.cc)
    | 1 => judge3 regs 1 1 1 none true f lit [] (fun d a b => .fmax g d a b f.cc)
    | _ => unassigned f false true
  | 0x30 =>
    judge (f.form false true)
      (do let cond ← fcondOf (f.fb 10 7)
          let comb ← combOf (f.fb 3 2)
          some (.fcmp g cond (f.fb 6 4) comb (srcOf f.a) (bVal false lit f)))
      [dNone f, sFree regs 1 f.a, bOr 1 lit f (sFree regs 1 f.b), cNone f, zero (f.fb 13 11)]
  | 0x31 => if f.func == 0 then judge2 regs 1 1 f [] (fun d a => .fclass g d a f.cc) else unassigned f false false
  | 0x32 => judge2 regs 1 1 f z4 (fun d a => .frndi g m d a f.cc)
  | 0x33 => if f.func == 0 then judge2 regs 1 1 f [] (fun d a => .fexp g d a f.cc) else unassigned f false false
  | 0x34 =>
    match f.func with
    | 0 => judge3 regs 1 1 1 (some true) true f lit [] (fun d a b => .fldx g d a b f.cc)
    | 1 => judge2 regs 1 1 f [] (fun d a => .fgetx g d a f.cc)
    | _ => unassigned f true true
  | 0x35 =>
    match f.fb 5 4 with
    | 0 => judge2 regs 1 1 f [zero (f.fb 13 6)] (fun d a => .frcp g m d a f.cc)
    | 1 => judge2 regs 1 1 f [zero (f.fb 13 6)] (fun d a => .frsq g m d a f.cc)
    | 2 => judge2 regs 1 1 f [zero (f.fb 13 6)] (fun d a => .fsqrt g m d a f.cc)
    | _ => judge (f.form false false) none []
  | 0x36 => if f.func == 0 then judge2 regs 1 1 f [] (fun d a => .flg2 g d a f.cc) else unassigned f false false
  | 0x37 => if f.func == 0 then judge2 regs 1 1 f [] (fun d a => .fex2 g d a f.cc) else unassigned f false false
  | 0x38 => judge4 regs 1 1 1 1 f lit z4 (fun d a b c => .fdot2 g m d a b c f.cc)
  | 0x39 => judge3 regs 1 1 1 none true f lit z4 (fun d a b => .faddBf16x2 g m d a b f.cc)
  | 0x3A => judge3 regs 1 1 1 none true f lit z4 (fun d a b => .fmulBf16x2 g m d a b f.cc)
  | 0x3B => judge4 regs 1 1 1 1 f lit z4 (fun d a b c => .ffmaBf16x2 g m d a b c f.cc)
  | 0x3C =>
    let z := zero (f.fb 13 7)
    match cvtOf (f.fb 6 4) with
    | none => judge (f.form false false) none []
    | some .toBf16x2 =>
      judge (f.form false false) (some (.cvt g .toBf16x2 m (dstOf f.d) (srcOf f.a) (some (srcOf f.b)) f.cc))
        [dAny regs 1 f, sAny regs 1 f f.a, sAny regs 1 f f.b, zero f.c, z]
    | some op =>
      judge2 regs 1 1 f [z, { reserved := !(op == .bf16Lo || op == .bf16Hi) || f.fb 3 2 == 0 }]
        (fun d a => .cvt g op m d a none f.cc)
  | _ => unassigned f true true

/-- Majors 0x48-0x4D (R195). In the uniform forms of `red` and `match.all` A may also be `%lane`, as it may for `movk`, which R194
names and R126 gives both a v code and `%lane` (DESIGN CHOICE, log 68). -/
def decLane (regs : Nat) (f : FW) (lit : W64) : Except Detail Instr :=
  let g := f.guard
  let no := f.form false false
  let bc := [zero f.b, zero f.c]
  match f.major with
  | 0x48 =>
    let seg := f.fb 8 6
    let pd := f.fb 5 3
    let a := srcOf f.a
    let b := bVal false lit f
    let i := match f.fb 10 9 with
      | 0 => Instr.shflIdx g seg pd f.d a b f.cc
      | 1 => .shflUp g seg pd f.d a b f.cc
      | 2 => .shflDn g seg pd f.d a b f.cc
      | _ => .shflXor g seg pd f.d a b f.cc
    judge (f.form true true) (if 1 ≤ seg ∧ seg ≤ 5 then some i else none)
      [dVec regs 1 f, sFree regs 1 f.a, bOr 1 lit f (sFree regs 1 f.b), cNone f, zero (f.fb 13 11), zero (f.fb 2 2)]
  | 0x49 => judge no (some (.vote g (voteOf (f.fb 7 6)) (f.flag 5) (f.fb 4 2) (dstOf f.d) f.cc))
      ([dAny regs 1 f, zero f.a, zero (f.fb 13 8)] ++ bc)
  | 0x4A => judge no ((redOf (f.fb 5 2)).map fun op => .red g op (dstOf f.d) (srcOf f.a) f.cc)
      ([dAny regs 1 f, sFree regs 1 f.a, zero (f.fb 13 6)] ++ bc)
  | 0x4B => judge no ((redOf (f.fb 5 2)).map fun op => .scan g (f.flag 6) op f.d (srcOf f.a) f.cc)
      ([dVec regs 1 f, sFree regs 1 f.a, zero (f.fb 13 7)] ++ bc)
  | 0x4C => if f.func == 0 then judge4 regs 1 1 1 1 f lit [] (fun d a b c => .prmt g d a b c f.cc) else unassigned f false true
  | 0x4D =>
    let n := if f.flag 3 then 2 else 1
    if f.flag 2 then judge no (some (.matchAll g (f.flag 3) (dstOf f.d) (srcOf f.a) f.cc))
      ([dAny regs 1 f, sFree regs n f.a, zero (f.fb 13 4)] ++ bc)
    else judge no (some (.matchAny g (f.flag 3) f.d (srcOf f.a) f.cc))
      ([dVec regs 1 f, sFree regs n f.a, zero (f.fb 13 4)] ++ bc)
  | _ => unassigned f true true

/-- A destination apart from the sources a replay reads again (R223). -/
def apart (n : Nat) (f : FW) (xs : List (Src × Nat)) : Chk := { operand := (dstOf f.d).apart n xs }

/-- Majors 0x50-0x59 (R226). -/
def decMem (regs : Nat) (f : FW) (lit : W64) : Except Detail Instr :=
  let g := f.guard
  let fs := f.flag 2
  let a := srcOf f.a
  let bs := bVal true lit f
  let bu := bVal false lit f
  let c := srcOf f.c
  let ie := f.form true true
  let eo := f.form false true
  let wd := widthOf (f.fb 7 5)
  let n := (wd.getD .b32).regs
  let stw := wd.filter Width.isStore
  let few := wd.filter Width.isFe
  let ab := [sFree regs 2 f.a, bOr 1 lit f (sFree regs 1 f.b)]
  let zw := [zero (f.fb 13 8), zero (f.fb 4 3)]
  match f.major with
  | 0x50 => judge ie (wd.map fun w => .ld g w fs f.d a bs f.cc)
      ([dVec regs n f, apart n f [(a, 2), (bs, 1)], cNone f] ++ ab ++ zw)
  | 0x51 => judge eo (stw.map fun w => .st g w fs a bu c) ([dNone f, sFree regs n f.c] ++ ab ++ zw)
  | 0x52 => judge ie (wd.map fun w => .ldk g w fs (f.d - 0x100) a bs)
      ([dAllUni regs n f, apart n f [(a, 2), (bs, 1)], sUni regs 2 f.a, bOr 1 lit f (sUni regs 1 f.b), cNone f] ++ zw)
  | 0x53 => judge eo (stw.map fun w => .stk g w fs a bu c)
      ([dNone f, sUni regs 2 f.a, bOr 1 lit f (sUni regs 1 f.b), sUni regs n f.c] ++ zw)
  | 0x54 => judge ie (some (.ldCv g (f.flag 5) fs f.d a bu f.cc))
      ([dVec regs 1 f, apart 1 f [(a, 2), (bu, 1)], cNone f, zero (f.fb 13 6), zero (f.fb 4 3)] ++ ab)
  | 0x55 => judge eo (some (.stCv g (rndOf (f.fb 4 3)) fs a bu c))
      ([dNone f, sFree regs 1 f.c, zero (f.fb 13 5)] ++ ab)
  | 0x56 => judge ie (few.map fun w => .ldFe g w (f.flag 4) f.d a bs f.cc)
      ([dVec regs n f, apart n f [(a, 2), (bs, 1)], cNone f, zero (f.fb 13 8), zero (f.fb 3 2)] ++ ab)
  | 0x57 => judge eo (few.map fun w => .stFeFill g w fs a bu c) ([dNone f, sFree regs n f.c] ++ ab ++ zw)
  | 0x58 =>
    if f.flag 4 then judge ie (some (.fePeek g fs f.d a bs f.cc))
      ([dVec regs 1 f, apart 1 f [(a, 2), (bs, 1)], cNone f, zero (f.fb 13 5), zero (f.fb 3 3)] ++ ab)
    else judge ie (some (.feSet g (f.flag 3) fs a bs)) ([dNone f, cNone f, zero (f.fb 13 5)] ++ ab)
  | 0x59 => judge ie (some (.pref g (f.flag 3) a bs)) ([dNone f, cNone f, zero (f.fb 13 4), zero (f.fb 2 2)] ++ ab)
  | _ => unassigned f true true

/-- Majors 0x5C-0x5F (R257). -/
def decResid (regs : Nat) (f : FW) (lit : W64) : Except Detail Instr :=
  let g := f.guard
  let fs := f.flag 2
  let no := f.form false false
  let a := srcOf f.a
  let bc := [zero f.b, zero f.c]
  match f.major with
  | 0x5C => judge no (some (if f.flag 3 then .unpin g fs (dstOf f.d) a f.cc else .pin g fs (dstOf f.d) a f.cc))
      ([dAny regs 1 f, apart 1 f [(a, 2)], sAny regs 2 f f.a, zero (f.fb 13 4)] ++ bc)
  | 0x5D =>
    let i := match f.flag 4, f.flag 3 with
      | false, false => Instr.flushL1 g fs a
      | false, true => .flushHm g fs a
      | true, false => .invalL1 g fs a
      | true, true => .invalHm g fs a
    judge no (some i) ([dNone f, sFree regs 2 f.a, zero (f.fb 13 5)] ++ bc)
  | 0x5E => judge (f.form true true) (some (.hmzero g fs a (bVal false lit f)))
      [dNone f, sUni regs 2 f.a, bOr 1 lit f (sUni regs 1 f.b), cNone f, zero (f.fb 13 3)]
  | 0x5F => judge no ((hmSelOf (f.fb 6 3)).map fun s => .hmstat g s fs (f.d - 0x100))
      ([dUni 2 f, zero f.a, zero (f.fb 13 7)] ++ bc)
  | _ => unassigned f true true

/-- Majors 0x60-0x67 (R301). -/
def decSync (regs : Nat) (f : FW) (lit : W64) : Except Detail Instr :=
  let g := f.guard
  let fs := f.flag 2
  let no := f.form false false
  let a := srcOf f.a
  let bc := [zero f.b, zero f.c]
  let w64 := f.flag 4
  let n := if w64 then 2 else 1
  let wd := widthOf (f.fb 7 5)
  let wn := (wd.getD .b32).regs
  let sc := scopeOf (f.fb 11 9)
  let always : Chk := { reserved := f.gn == 0 && f.gp == 7 }
  match f.major with
  | 0x60 =>
    let b := bVal true lit f
    judge (f.form true true)
      (do let s ← sc
          let op ← atomOf (f.fb 8 5)
          if w64 && (op == .incwrap || op == .fadd) then none
          else some (.atom g (ordOf (f.fb 13 12)) s op w64 fs (dstOf f.d) a b f.cc))
      [dAny regs n f, apart n f [(a, 2), (b, n)], sAny regs 2 f f.a, bOr n lit f (sAny regs n f f.b), cNone f, zero (f.fb 3 3)]
  | 0x61 =>
    let b := bVal false lit f
    judge (f.form false true)
      (sc.map fun s => .atomCas g (ordOf (f.fb 13 12)) s w64 fs (dstOf f.d) a b (srcOf f.c) f.cc)
      [dAny regs n f, apart n f [(a, 2), (b, n), (srcOf f.c, n)], sAny regs 2 f f.a, bOr n lit f (sAny regs n f f.b),
       sAny regs n f f.c, zero (f.fb 8 5), zero (f.fb 3 3)]
  | 0x62 =>
    let b := bVal true lit f
    judge (f.form true true)
      (do let s ← sc
          let w ← wd
          some (.ldAcq g s w fs (dstOf f.d) a b f.cc))
      [dAny regs wn f, apart wn f [(a, 2), (b, 1)], sAny regs 2 f f.a, bOr 1 lit f (sAny regs 1 f f.b), cNone f,
       zero (f.fb 13 12), zero (f.fb 8 8), zero (f.fb 4 3)]
  | 0x63 =>
    judge (f.form false true)
      (do let s ← sc
          let w ← wd.filter Width.isStore
          some (.stRel g s w fs a (bVal false lit f) (srcOf f.c)))
      [dNone f, sFree regs 2 f.a, bOr 1 lit f (sFree regs 1 f.b), sFree regs wn f.c,
       zero (f.fb 13 12), zero (f.fb 8 8), zero (f.fb 4 3)]
  | 0x64 => judge no ((scopeOf (f.fb 4 2)).map fun s => .fence g s) ([dNone f, zero f.a, zero (f.fb 13 5)] ++ bc)
  | 0x65 =>
    if f.flag 5 then
      judge no (if f.fb 4 2 == 1 then some (.barc (f.fb 8 6) a) else none)
        ([dNone f, sUni regs 1 f.a, always, zero (f.fb 13 9)] ++ bc)
    else
      judge no ((levelOf (f.fb 4 2)).map fun l => .bar l)
        ([dNone f, zero f.a, always, zero (f.fb 13 9), zero (f.fb 8 6)] ++ bc)
  | 0x66 =>
    if f.flag 3 then
      judge no (some (.mbrecv g (f.fb 8 6) (f.flag 4) fs (f.d - 0x100)))
        ([dBlock 8 48 f, zero f.a, zero (f.fb 13 9), zero (f.fb 5 5), { reserved := f.flag 4 || f.fb 8 6 == 0 }] ++ bc)
    else
      judge no (some (.mbsend g fs (f.d - 0x100) a (f.b - 0x100)))
        [dAllUni regs 1 f, sUni regs 2 f.a, kBlock 8 48 f.b, zero f.c, zero (f.fb 13 4)]
  | 0x67 =>
    let b := bVal false lit f
    judge (f.form true true)
      (some (if f.flag 3 then .tkcom g fs (f.d - 0x100) a b else .tkres g fs (f.d - 0x100) a b))
      [dAllUni regs 1 f, sUni regs 1 f.a, bOr 1 lit f (sUni regs 1 f.b), cNone f, zero (f.fb 13 4)]
  | _ => unassigned f true true

/-- Majors 0x68-0x6B (R330). -/
def decEngine (regs : Nat) (f : FW) (lit : W64) : Except Detail Instr :=
  let g := f.guard
  let fs := f.flag 2
  let no := f.form false false
  let a := srcOf f.a
  let b := srcOf f.b
  let acq := f.flag 13
  let rel := f.flag 12
  let ord : Option EngOrd := do
    let s ← scopeOf (f.fb 11 9)
    if acq || rel then (if s == .wave then none else some ⟨acq, rel, s⟩) else some ⟨acq, rel, .wave⟩
  let zo : Chk := { reserved := acq || rel || f.fb 11 9 == 0 }
  let tagd := f.flag 8
  let tag := if tagd then some (f.d - 0x100) else none
  let dt : Chk := if tagd then dUni 1 f else dNone f
  let kq := f.c - 0x100
  match f.major with
  | 0x68 =>
    judge no
      (do let o ← ord
          let cv ← convOf (f.fb 7 5)
          some (.cpy g o tag cv (rndOf (f.fb 4 3)) fs a b (srcOf f.c)))
      [dt, zo, sFree regs 2 f.a, sFree regs 2 f.b, sUni regs 1 f.c, { reserved := f.fb 7 5 == 3 || f.fb 4 3 == 0 }]
  | 0x69 =>
    judge no
      (ord.map fun o =>
        if f.flag 7 then .cpyS g o tag (f.fb 6 4) (f.flag 3) fs a b kq else .cpyG g o tag (f.fb 6 4) (f.flag 3) fs a b kq)
      [dt, zo, sUni regs 2 f.a, sUni regs 2 f.b, kBlock 4 60 f.c]
  | 0x6A =>
    let op := collOpOf (f.fb 7 6)
    let ty := collTyOf (f.fb 5 3)
    judge no (do let o ← ord
                 if collTyOk op ty then some (.coll g o tag op ty fs a b kq) else none)
      [dt, zo, sUni regs 2 f.a, sUni regs 2 f.b, kBlock 4 60 f.c]
  | 0x6B =>
    if f.func == 0 then
      judge (f.form true true) (some (.cstat g (f.d - 0x100) (bVal false lit f)))
        [dUni 2 f, zero f.a, bOr 1 lit f (sUni regs 1 f.b), cNone f]
    else unassigned f true true
  | _ => unassigned f true true

/-- Majors 0x6D-0x73 that follow R65, and `mstop` (R357). -/
def decMatrix (regs : Nat) (f : FW) (lit : W64) : Except Detail Instr :=
  let g := f.guard
  let fs := f.flag 2
  let no := f.form false false
  let ccz := zero f.cc
  match f.major with
  | 0x6C => judge no (some (.mstop g)) [dNone f, zero f.a, zero f.b, zero f.c, zero (f.fb 13 4), zero (f.fb 2 2)]
  | 0x6D =>
    let sel := f.flag 3
    judge (f.form true true)
      (some (.tld g (f.d % 8) (f.fb 6 4) (if sel then some (srcOf f.a) else none) (bVal false lit f) fs))
      [zero (f.d / 8), if sel then sUni regs 1 f.a else zero f.a, bOr 1 lit f (sUni regs 1 f.b), cNone f, ccz, zero (f.fb 13 7)]
  | 0x6E => judge no ((fmtOf (f.fb 5 3)).map fun x => .mma g x (f.d % 16) (f.a % 8) (f.b % 8) fs)
      [zero (f.d / 16), zero (f.a / 8), zero (f.b / 8), zero f.c, ccz, zero (f.fb 13 6)]
  | 0x6F => judge no ((fmtOf (f.fb 5 3)).map fun x => .mmaPair g x (f.d % 16) (f.a % 8) (f.b % 8) fs)
      [zero (f.d / 16), zero (f.a / 8), zero (f.b / 8), zero f.c, ccz, zero (f.fb 13 6)]
  | 0x70 =>
    let cs := [zero (f.d / 16), zero f.a, zero f.b, zero f.c, ccz]
    match f.func with
    | 0 => judge no (some (.accz g (f.d % 16))) cs
    | 1 => judge no (some (.acrel g (f.d % 16))) cs
    | _ => unassigned f false false
  | 0x71 =>
    let x : Src := if f.imm == 1 || f.ext == 1 then bVal false lit f else srcOf f.a
    let xa : Chk := if f.imm == 1 || f.ext == 1 then zero f.a else sUni regs 1 f.a
    let xb : Chk := if f.imm == 1 then {} else if f.ext == 1 then { reserved := f.b == 0 && f.c == 0 && decide (lit.toNat < 2 ^ 32) }
      else { reserved := f.b == 0 && f.c == 0 }
    let i := if f.flag 7 then Instr.ringArv g (f.fb 13 10) (f.fb 9 8) (f.flag 6) x else .ringWait g (f.fb 13 10) (f.fb 9 8) (f.flag 6) x
    judge (f.form true true) (some i) [dNone f, xa, xb, zero (f.fb 5 2), { reserved := !f.flag 6 || f.fb 9 8 == 0 }]
  | 0x73 =>
    match f.fb 5 4 with
    | 0 => judge no (some (.acqA g (f.c % 16))) [dNone f, zero f.a, zero f.b, zero (f.c / 16), zero (f.fb 13 6), zero (f.fb 3 2)]
    | 1 => judge no (some (.accret g (f.c % 16))) [dNone f, zero f.a, zero f.b, zero (f.c / 16), zero (f.fb 13 6), zero (f.fb 3 2)]
    | op =>
      judge (f.form false true) (some (.accrd g (op == 3) fs f.d (bVal false lit f) (f.c % 16) f.cc))
        [dVec regs (if op == 3 then 1 else 2) f, zero f.a, bOr 1 lit f (sUni regs 1 f.b), zero (f.c / 16), zero (f.fb 13 6), zero (f.fb 3 3)]
  | _ => unassigned f true true

/-- Majors 0x74-0x78 (R409, R440). -/
def decWork (regs : Nat) (f : FW) (lit : W64) : Except Detail Instr :=
  let g := f.guard
  let fs := f.flag 2
  let no := f.form false false
  let a := srcOf f.a
  match f.major with
  | 0x74 =>
    if f.flag 3 then judge no (some (.mintDone g fs (f.d - 0x100) (f.a - 0x100)))
      [dUni 1 f, kBlock 8 48 f.a, zero f.b, zero f.c, zero (f.fb 13 4)]
    else judge no (some (.mint g fs (f.d - 0x100))) [dBlock 8 48 f, zero f.a, zero f.b, zero f.c, zero (f.fb 13 4)]
  | 0x75 =>
    let vb : Chk := { operand := vCode f.b && f.b % 8 == 0 && decide (f.b + 8 ≤ regs) }
    judge no (some (.tqAdd g fs (dstOf f.d) a (if vCode f.d then f.b else f.b - 0x100) (srcOf f.c) f.cc))
      [dAny regs 1 f, sUni regs 2 f.a, if vCode f.d then vb else kBlock 8 48 f.b, sUni regs 1 f.c, zero (f.fb 13 3)]
  | 0x76 => judge no (some (.nodeSpawn g fs (f.d - 0x100) a))
      [dBlock 4 52 f, sUni regs 2 f.a, zero f.b, zero f.c, zero (f.fb 13 3)]
  | 0x77 =>
    let z := [zero f.b, zero f.c, zero (f.fb 13 7), zero (f.fb 2 2)]
    if f.flag 3 then judge no (some (.arChk g (.st (dstOf f.d) f.cc) a)) ([dAny regs 1 f, sAny regs 2 f f.a, zero (f.fb 6 4)] ++ z)
    else judge no (some (.arChk g (.pred (f.fb 6 4)) a)) ([dNone f, sFree regs 2 f.a] ++ z)
  | 0x78 =>
    judge (f.form true true) (if f.fb 13 3 == 0 then some (.recast g fs (f.d - 0x100) (bVal false lit f)) else none)
      [dUni 1 f, zero f.a, bOr 1 lit f (sUni regs 1 f.b), cNone f]
  | _ => unassigned f true true

/-- The constructor of a write to a CSR named by an immediate. -/
def csrWriteOf (g : Guard) (csr a : Src) : Instr :=
  match csr with
  | .imm _ x =>
    let n := x.toNat
    if n == 0x064 then .wtimerloWrite g a
    else if n == 0x065 then .wtimerhiWrite g a
    else if n == 0x071 then .nswinWrite g a
    else if n == 0x090 then .mectlWrite g a
    else if 0x0A0 ≤ n ∧ n ≤ 0x0AF then .ringdWrite g (n - 0x0A0) a
    else if splitCsr n then .splitCsrWrite g n a
    else .csrwr g csr a
  | _ => .csrwr g csr a

/-- Majors 0x7A-0x7D (R464). -/
def decSys (regs : Nat) (f : FW) (lit : W64) : Except Detail Instr :=
  let g := f.guard
  let no := f.form false false
  let im := f.form true false
  let ie := f.form true true
  let b := bVal false lit f
  let a := srcOf f.a
  let bb := bOr 1 lit f (sUni regs 1 f.b)
  let bc := [zero f.b, zero f.c]
  let always : Chk := { reserved := f.gn == 0 && f.gp == 7 }
  let big : Chk := { reserved := f.imm == 0 || decide (f.immNat < 4096) }
  match f.major with
  | 0x7A =>
    match f.func with
    | 0 => judge im (some (.csrrd g (f.d - 0x100) b)) [dUni 1 f, zero f.a, bb, cNone f, big]
    | 1 => judge im (some (csrWriteOf g b a)) [dNone f, sUni regs 1 f.a, bb, cNone f, big]
    | _ => unassigned f true false
  | 0x7B =>
    match f.func with
    | 0 => judge ie (some (.trap g b)) [dNone f, zero f.a, bb, cNone f]
    | 1 => judge no (some .trapret) ([dNone f, zero f.a, always] ++ bc)
    | 2 => judge ie (some (.tclr g b)) [dNone f, zero f.a, bb, cNone f]
    | 3 => judge no (some .bkpt) ([dNone f, zero f.a, always] ++ bc)
    | _ => unassigned f true true
  | 0x7C =>
    match f.func with
    | 0 => judge no (some (.trace g a)) ([dNone f, sUni regs 1 f.a] ++ bc)
    | 1 => judge no (some (.smark g a)) ([dNone f, sUni regs 1 f.a] ++ bc)
    | _ => unassigned f false false
  | 0x7D =>
    if f.flag 3 then judge no (some (.mon g (f.flag 2) (f.d - 0x100))) ([dBlock 8 48 f, zero f.a, zero (f.fb 13 4)] ++ bc)
    else judge im (some (.pwrReq g (f.flag 2) (f.d - 0x100) b)) [dUni 1 f, zero f.a, bb, cNone f, zero (f.fb 13 4)]
  | _ => unassigned f true true

/-- Relative branches and `mloop` (R77, R99, R357); `mstart` (R357). -/
def decRel (regs : Nat) (w : W64) : Except Detail Instr :=
  let n := w.toNat
  let f := FW.unpack w
  let g := f.guard
  let t : Target := ⟨BitVec.ofNat 22 (n / 2 ^ 30), BitVec.ofNat 4 (n / 2 ^ 26)⟩
  let x := n / 2 ^ 17 % 512
  let no := f.form false false
  let b16 := zero (n / 2 ^ 16 % 2)
  let ccz := zero f.cc
  match f.major with
  | 0x01 => if f.func == 0 then judge no (some (.bra g t)) [zero x, b16, ccz] else unassigned f false false
  | 0x03 => if f.func == 0 then judge no (some (.call g t)) [zero x, b16, ccz] else unassigned f false false
  | 0x06 => judge no (some (.brx g t (srcOf x) (f.func + 1))) [sFree regs 1 x, b16, ccz]
  | 0x72 =>
    if f.func == 0 then judge no (some (.mloop g t (x - 0x100))) [{ operand := decide (0x100 ≤ x) && decide (x < 0x110) }, b16, ccz]
    else unassigned f false false
  | _ =>
    let parm := n / 2 ^ 16 % 2 == 1
    let xs : Chk := if parm then { operand := (kBlock 8 56 x).operand } else zero x
    judge no (some (.mstart g t (if parm then some (x - 0x100) else none) (f.flag 2))) [xs, ccz, zero (f.fb 13 4)]

/-- Trampolines (R78). -/
def decTramp (w : W64) (lit : W64) : Except Detail Instr :=
  let n := w.toNat
  let m := n / 2 ^ 56 % 128
  let long := n / 2 ^ 55 % 2 == 1
  if m == 0x0E then (if n % 2 ^ 56 == 0 then .ok .trr else .error .reserved)
  else if m == 0x0F then (if n % 2 ^ 56 == 0 then .ok .trn else .error .reserved)
  else
    let ok := if long then n % 2 ^ 55 == 0 && lit.toNat / 2 ^ 56 == 0 && lit.toNat % 8 == 0 else n % 4 == 0
    let tgt := if long then BitVec.ofNat 53 (lit.toNat / 8) else BitVec.ofNat 53 (n / 4)
    if !ok then .error .reserved else if m == 0x0C then .ok (.trj long tgt) else .ok (.trc long tgt)

/-- One slot of a pair word (R73): the slot where its POP is assigned. -/
def slotOf (n : Nat) : Option Slot :=
  (popOf (n / 2 ^ 24 % 128)).map fun o => ⟨o, n / 2 ^ 21 % 8, n / 2 ^ 13 % 256, srcOf (n / 16 % 512), n / 4 % 4⟩

/-- The S code of a slot is allowed (R74, item 4). -/
def slotCodeOk (regs c : Nat) : Bool := okCode regs 1 c && !(0x140 < c && c < 0x160) && !(0x170 ≤ c)

/-- The pair form (R73, R74). -/
def decPair (regs : Nat) (w : W64) : Except Detail Instr :=
  let n := w.toNat
  let x := n / 2 ^ 31 % 2 ^ 31
  let y := n % 2 ^ 31
  match slotOf x, slotOf y with
  | some sx, some sy =>
    if !pairOk sx sy || x % 4 != 0 || y % 4 != 0 then .error .pair
    else if !(slotCodeOk regs (x / 16 % 512) && slotCodeOk regs (y / 16 % 512) && decide (sx.d < regs) && decide (sy.d < regs))
    then .error .operand
    else .ok (.pairWord sx sy)
  | _, _ => .error .opcode

/-! ## Words -/

/-- The word asks for an extension word (R66, R78). -/
def hasExt (w : W64) : Bool :=
  let m := w.toNat / 2 ^ 56
  if m == 0x0C || m == 0x0D then w.toNat / 2 ^ 55 % 2 == 1
  else if m == 0x0E || m == 0x0F then false
  else decide (m < 0x80) && w.toNat / 2 ^ 14 % 2 == 1

/-- The full form with its literal (0 where there is none), by major (R81). -/
def decFull (regs : Nat) (w lit : W64) : Except Detail Instr :=
  let f := FW.unpack w
  let m := f.major
  if m == 0x01 || m == 0x03 || m == 0x06 || m == 0x72 || (m == 0x6C && !f.flag 3) then decRel regs w
  else if 0x0C ≤ m ∧ m ≤ 0x0F then decTramp w lit
  else if m < 0x10 then decControl regs f lit
  else if m < 0x18 then decMove regs f lit
  else if m < 0x2C then decInt regs f lit
  else if m < 0x48 then decFloat regs f lit
  else if m < 0x50 then decLane regs f lit
  else if m < 0x5C then decMem regs f lit
  else if m < 0x60 then decResid regs f lit
  else if m < 0x68 then decSync regs f lit
  else if m < 0x6C then decEngine regs f lit
  else if m < 0x74 then decMatrix regs f lit
  else if m < 0x7A then decWork regs f lit
  else decSys regs f lit

/-- One instruction word and, where the clause has one after it, its extension word, for a kernel of `regs` vector
registers. EXT in the last word of a clause body is a fault of the clause (R66). -/
def decodeWord (regs : Nat) (w : W64) (ext : Option W64) : Except Detail Instr :=
  if w.toNat / 2 ^ 62 == 3 then .error .form
  else if w.toNat / 2 ^ 62 == 2 then decPair regs w
  else if hasExt w then
    match ext with
    | none => .error .clause
    | some x => decFull regs w x
  else decFull regs w 0

/-! ## Bytes -/

/-- A word from its eight bytes, little-endian (R4, R52). -/
def wordOfBytes (bs : List Byte) : W64 :=
  BitVec.ofNat 64 (bs.foldr (fun b n => b.toNat + 256 * n) 0)

/-- The `k` bytes of a number, little-endian. -/
def bytesOfNat : Nat → Nat → List Byte
  | 0, _ => []
  | k + 1, n => BitVec.ofNat 8 n :: bytesOfNat k (n / 256)

/-- The first instruction of a run of bytes, and the bytes after it; fewer bytes than it needs is a fault of the clause. -/
def decodeBytes (regs : Nat) (bs : List Byte) : Except Detail (Instr × List Byte) :=
  if bs.length < 8 then .error .clause
  else
    let w := wordOfBytes (bs.take 8)
    let rest := bs.drop 8
    if hasExt w then
      if rest.length < 8 then .error .clause
      else (decodeWord regs w (some (wordOfBytes (rest.take 8)))).map fun i => (i, rest.drop 8)
    else (decodeWord regs w none).map fun i => (i, rest)

/-- The instruction of an opcode-table row whose bits are `w`; bits above `nbits` are zero. -/
def decodeTableWord (nbits w : Nat) : Option Instr :=
  match decodeBytes 256 (bytesOfNat 16 (w % 2 ^ nbits)) with
  | .ok (i, _) => some i
  | .error _ => none

/-! ## The encoder -/

/-- Fields of position B for a source: B, C, IMM, EXT (R65, R70). -/
def FW.withB (f : FW) (b : Src) : FW :=
  match b with
  | .imm _ x => { f with b := x.toNat / 512, c := x.toNat % 512, imm := 1 }
  | .lit _ => { f with b := 0, ext := 1 }
  | _ => { f with b := b.code }

/-- The extension word a source in position B needs. -/
def Src.extWord : Src → List W64
  | .lit x => [x]
  | _ => []

/-- One for true. -/
def bit (b : Bool) : Nat := if b then 1 else 0

/-- A full-form word with a guard and a function, everything else zero. -/
def fw (major : Nat) (g : Guard) (func : Nat) : FW :=
  { major := major, gn := bit g.neg, gp := g.p, d := 0, a := 0, b := 0, c := 0, imm := 0, ext := 0, func := func, cc := 0 }

/-- Word D, A, B. -/
def enc3 (major : Nat) (g : Guard) (func : Nat) (d : Dst) (a b : Src) (cc : Nat) : List W64 :=
  (({ fw major g func with d := d.code, a := a.code, cc := cc } : FW).withB b).pack :: b.extWord

/-- Word D, A, B, C. -/
def enc4 (major : Nat) (g : Guard) (func : Nat) (d : Dst) (a b c : Src) (cc : Nat) : List W64 :=
  (({ fw major g func with d := d.code, a := a.code, c := c.code, cc := cc } : FW).withB b).pack :: b.extWord

/-- Word D, A. -/
def enc2 (major : Nat) (g : Guard) (func : Nat) (d : Dst) (a : Src) (cc : Nat) : List W64 :=
  [({ fw major g func with d := d.code, a := a.code, cc := cc } : FW).pack]

/-- Word A, B without a destination. -/
def encAB (major : Nat) (g : Guard) (func : Nat) (a b : Src) : List W64 :=
  (({ fw major g func with a := a.code } : FW).withB b).pack :: b.extWord

/-- Word A, B, C without a destination. -/
def encABC (major : Nat) (g : Guard) (func : Nat) (a b c : Src) : List W64 :=
  (({ fw major g func with a := a.code, c := c.code } : FW).withB b).pack :: b.extWord

/-- Word B alone. -/
def encB (major : Nat) (g : Guard) (func : Nat) (b : Src) : List W64 :=
  ((fw major g func).withB b).pack :: b.extWord

/-- Word D, B. -/
def encDB (major : Nat) (g : Guard) (func : Nat) (d : Dst) (b : Src) (cc : Nat) : List W64 :=
  (({ fw major g func with d := d.code, cc := cc } : FW).withB b).pack :: b.extWord

/-- Word A alone. -/
def encA (major : Nat) (g : Guard) (func : Nat) (a : Src) : List W64 :=
  [({ fw major g func with a := a.code } : FW).pack]

/-- A word of raw fields. -/
def encF (f : FW) : List W64 := [f.pack]

/-- The bit-field word. -/
def encBf (func : Nat) (g : Guard) (d : Dst) (a : Src) (x : BField) (cc : Nat) : List W64 :=
  let f : FW := { fw 0x1F g func with d := d.code, a := a.code, cc := cc }
  match x with
  | .src b c => encF { f with b := b.code, c := c.code }
  | .packed p n => encF { f with b := (p + 32 * n) / 512, c := (p + 32 * n) % 512, imm := 1 }

/-- A relative branch (R77): the displacement, the word, X, bit 16 and FUNC. -/
def encRel (major : Nat) (g : Guard) (t : Target) (x b16 func : Nat) : List W64 :=
  [BitVec.ofNat 64 (major * 2 ^ 56 + bit g.neg * 2 ^ 55 + g.p * 2 ^ 52 + t.line.toNat * 2 ^ 30 + t.word.toNat * 2 ^ 26 +
    x * 2 ^ 17 + b16 * 2 ^ 16 + func * 4)]

/-- A trampoline with a target (R78). -/
def encTramp (major : Nat) (long : Bool) (tgt : BitVec 53) : List W64 :=
  if long then [BitVec.ofNat 64 (major * 2 ^ 56 + 2 ^ 55), BitVec.ofNat 64 (tgt.toNat * 8)]
  else [BitVec.ofNat 64 (major * 2 ^ 56 + tgt.toNat * 4)]

/-- A slot of a pair word (R73). -/
def Slot.bits (x : Slot) : Nat := x.pop.code * 2 ^ 24 + x.p * 2 ^ 21 + x.d * 2 ^ 13 + x.s.code * 16 + x.cc * 4

/-- ACQ, REL, SCOPE and TAGD of an engine word (R330), as FUNC bits. -/
def EngOrd.func (o : EngOrd) (tag : Option Nat) : Nat :=
  bit o.acq * 2048 + bit o.rel * 1024 + o.scope.code * 128 + bit tag.isSome * 64

/-- D of an engine word. -/
def tagCode : Option Nat → Nat
  | none => 0
  | some k => 0x100 + k

/-- Words of the control class and of the trampolines (R78, R99). -/
def encControl : Instr → List W64
  | .nop g => encF (fw 0x00 g 0)
  | .yield g => encF (fw 0x00 g 1)
  | .sleep g b => encB 0x00 g 2 b
  | .bra g t => encRel 0x01 g t 0 0 0
  | .braInd g a => encA 0x02 g 0 a
  | .call g t => encRel 0x03 g t 0 0 0
  | .callInd g a => encA 0x04 g 0 a
  | .ret g => encF (fw 0x05 g 0)
  | .brx g t x n => encRel 0x06 g t x.code 0 (n - 1)
  | .exit g => encF (fw 0x07 g 0)
  | .trj l t => encTramp 0x0C l t
  | .trc l t => encTramp 0x0D l t
  | .trr => [BitVec.ofNat 64 (0x0E * 2 ^ 56)]
  | .trn => [BitVec.ofNat 64 (0x0F * 2 ^ 56)]
  | .pairWord x y => [BitVec.ofNat 64 (2 ^ 63 + x.bits * 2 ^ 31 + y.bits)]
  | _ => []

/-- Words of the moves (R123). -/
def encMove : Instr → List W64
  | .mov g d a cc => enc2 0x10 g 0 d a cc
  | .movi g d b cc => encDB 0x10 g 1 d b cc
  | .movx g d b cc => encDB 0x10 g 2 d b cc
  | .movk g d a => enc2 0x11 g 0 (.k d) a 0
  | .vtok g d a b => enc3 0x11 g 1 (.k d) a b 0
  | .ktov g d a b cc => enc3 0x11 g 2 (.v d) a b cc
  | .sel g w pn ps d a b cc => enc3 0x12 g (bit w * 16 + bit pn * 8 + ps) d a b cc
  | .psetNe g pd a => encA 0x13 g (pd * 64) a
  | .psetMask g pd a => encA 0x13 g (512 + pd * 64) a
  | .pand g pd pa pb => encF (fw 0x13 g (2 * 512 + pd * 64 + pa * 8 + pb))
  | .por g pd pa pb => encF (fw 0x13 g (3 * 512 + pd * 64 + pa * 8 + pb))
  | .pxor g pd pa pb => encF (fw 0x13 g (4 * 512 + pd * 64 + pa * 8 + pb))
  | .pnot g pd pa => encF (fw 0x13 g (5 * 512 + pd * 64 + pa * 8))
  | .pmov g pd pa => encF (fw 0x13 g (6 * 512 + pd * 64 + pa * 8))
  | .rel g d n => encF { fw 0x14 g (n - 1) with d := d }
  | .tcfg g n b => encB 0x15 g n b
  | .omcfg g n b => encB 0x15 g (8 + n) b
  | _ => []

/-- Words of the integer class (R134). -/
def encInt : Instr → List W64
  | .iadd g d a b cc => enc3 0x18 g 0 d a b cc
  | .isub g d a b cc => enc3 0x19 g 0 d a b cc
  | .iaddc g s pc d a b cc => enc3 0x1A g (bit s * 8 + pc) d a b cc
  | .imul g d a b cc => enc3 0x1B g 0 d a b cc
  | .imulh g d a b cc => enc3 0x1B g 1 d a b cc
  | .imulhU g d a b cc => enc3 0x1B g 3 d a b cc
  | .imad g d a b c cc => enc4 0x1C g 0 d a b c cc
  | .imadWide g d a b c cc => enc4 0x1C g 1 d a b c cc
  | .imadWideU g d a b c cc => enc4 0x1C g 3 d a b c cc
  | .ishl g d a b cc => enc3 0x1D g 0 d a b cc
  | .ishr g d a b cc => enc3 0x1D g 1 d a b cc
  | .isar g d a b cc => enc3 0x1D g 2 d a b cc
  | .ishl64 g d a b cc => enc3 0x1D g 4 d a b cc
  | .ishr64 g d a b cc => enc3 0x1D g 5 d a b cc
  | .isar64 g d a b cc => enc3 0x1D g 6 d a b cc
  | .iand g d a b cc => enc3 0x1E g 0 d a b cc
  | .ior g d a b cc => enc3 0x1E g 1 d a b cc
  | .ixor g d a b cc => enc3 0x1E g 2 d a b cc
  | .inot g d a cc => enc2 0x1E g 3 d a cc
  | .ibfe g d a x cc => encBf 0 g d a x cc
  | .ibfeU g d a x cc => encBf 1 g d a x cc
  | .ibfi g d a x cc => encBf 2 g d a x cc
  | .ipopc g d a cc => enc2 0x20 g 0 d a cc
  | .iclz g d a cc => enc2 0x20 g 1 d a cc
  | .ibrev g d a cc => enc2 0x20 g 2 d a cc
  | .imin g d a b cc => enc3 0x21 g 0 d a b cc
  | .imax g d a b cc => enc3 0x21 g 1 d a b cc
  | .iminU g d a b cc => enc3 0x21 g 2 d a b cc
  | .imaxU g d a b cc => enc3 0x21 g 3 d a b cc
  | .iabs g d a cc => enc2 0x21 g 4 d a cc
  | .icmp g w u c pd cb a b => encAB 0x22 g (bit w * 512 + bit u * 256 + c.code * 32 + pd * 4 + cb.code) a b
  | .iadd64 g d a b cc => enc3 0x23 g 0 d a b cc
  | .lea g u s d a b cc => enc3 0x24 g (bit u * 16 + s) d a b cc
  | .leaAr g d a b cc => enc3 0x25 g 0 d a b cc
  | .leaArAdd g d a b cc => enc3 0x25 g 1 d a b cc
  | .i2i g op d a cc => enc2 0x26 g op.code d a cc
  | _ => []

/-- Words of the float class (R169). -/
def encFloat : Instr → List W64
  | .fadd g m d a b cc => enc3 0x2C g m.code d a b cc
  | .fsub g m d a b cc => enc3 0x2C g (4 + m.code) d a b cc
  | .fmul g m d a b cc => enc3 0x2D g m.code d a b cc
  | .ffma g m d a b c cc => enc4 0x2E g m.code d a b c cc
  | .fmin g d a b cc => enc3 0x2F g 0 d a b cc
  | .fmax g d a b cc => enc3 0x2F g 1 d a b cc
  | .fcmp g c pd cb a b => encAB 0x30 g (c.code * 32 + pd * 4 + cb.code) a b
  | .fclass g d a cc => enc2 0x31 g 0 d a cc
  | .frndi g m d a cc => enc2 0x32 g m.code d a cc
  | .fexp g d a cc => enc2 0x33 g 0 d a cc
  | .fldx g d a b cc => enc3 0x34 g 0 d a b cc
  | .fgetx g d a cc => enc2 0x34 g 1 d a cc
  | .frcp g m d a cc => enc2 0x35 g m.code d a cc
  | .frsq g m d a cc => enc2 0x35 g (4 + m.code) d a cc
  | .fsqrt g m d a cc => enc2 0x35 g (8 + m.code) d a cc
  | .flg2 g d a cc => enc2 0x36 g 0 d a cc
  | .fex2 g d a cc => enc2 0x37 g 0 d a cc
  | .fdot2 g m d a b c cc => enc4 0x38 g m.code d a b c cc
  | .faddBf16x2 g m d a b cc => enc3 0x39 g m.code d a b cc
  | .fmulBf16x2 g m d a b cc => enc3 0x3A g m.code d a b cc
  | .ffmaBf16x2 g m d a b c cc => enc4 0x3B g m.code d a b c cc
  | .cvt g op m d a b cc =>
    match b with
    | none => enc2 0x3C g (op.code * 4 + m.code) d a cc
    | some x => encF { fw 0x3C g (op.code * 4 + m.code) with d := d.code, a := a.code, b := x.code, cc := cc }
  | _ => []

/-- Words of the lane class (R195). -/
def encLane : Instr → List W64
  | .shflIdx g s pd d a b cc => enc3 0x48 g (s * 16 + pd * 2) (.v d) a b cc
  | .shflUp g s pd d a b cc => enc3 0x48 g (128 + s * 16 + pd * 2) (.v d) a b cc
  | .shflDn g s pd d a b cc => enc3 0x48 g (256 + s * 16 + pd * 2) (.v d) a b cc
  | .shflXor g s pd d a b cc => enc3 0x48 g (384 + s * 16 + pd * 2) (.v d) a b cc
  | .vote g op pn ps d cc => encF { fw 0x49 g (op.code * 16 + bit pn * 8 + ps) with d := d.code, cc := cc }
  | .red g op d a cc => enc2 0x4A g op.code d a cc
  | .scan g e op d a cc => enc2 0x4B g (bit e * 16 + op.code) (.v d) a cc
  | .prmt g d a b c cc => enc4 0x4C g 0 d a b c cc
  | .matchAny g w d a cc => enc2 0x4D g (bit w * 2) (.v d) a cc
  | .matchAll g w d a cc => enc2 0x4D g (bit w * 2 + 1) d a cc
  | _ => []

/-- Words of the memory and residency classes (R226, R257). -/
def encMem : Instr → List W64
  | .ld g w fs d a b cc => enc3 0x50 g (w.code * 8 + bit fs) (.v d) a b cc
  | .st g w fs a b c => encABC 0x51 g (w.code * 8 + bit fs) a b c
  | .ldk g w fs d a b => enc3 0x52 g (w.code * 8 + bit fs) (.k d) a b 0
  | .stk g w fs a b c => encABC 0x53 g (w.code * 8 + bit fs) a b c
  | .ldCv g x fs d a b cc => enc3 0x54 g (bit x * 8 + bit fs) (.v d) a b cc
  | .stCv g m fs a b c => encABC 0x55 g (m.code * 2 + bit fs) a b c
  | .ldFe g w t d a b cc => enc3 0x56 g (w.code * 8 + bit t * 4) (.v d) a b cc
  | .stFeFill g w fs a b c => encABC 0x57 g (w.code * 8 + bit fs) a b c
  | .feSet g full fs a b => encAB 0x58 g (bit full * 2 + bit fs) a b
  | .fePeek g fs d a b cc => enc3 0x58 g (4 + bit fs) (.v d) a b cc
  | .pref g hm a b => encAB 0x59 g (bit hm * 2) a b
  | .pin g fs d a cc => enc2 0x5C g (bit fs) d a cc
  | .unpin g fs d a cc => enc2 0x5C g (2 + bit fs) d a cc
  | .flushL1 g fs a => encA 0x5D g (bit fs) a
  | .flushHm g fs a => encA 0x5D g (2 + bit fs) a
  | .invalL1 g fs a => encA 0x5D g (4 + bit fs) a
  | .invalHm g fs a => encA 0x5D g (6 + bit fs) a
  | .hmzero g fs a b => encAB 0x5E g (bit fs) a b
  | .hmstat g s fs d => encF { fw 0x5F g (s.code * 2 + bit fs) with d := 0x100 + d }
  | _ => []

/-- Words of the synchronisation and engine classes (R301, R330). -/
def encSync : Instr → List W64
  | .atom g o s op w fs d a b cc =>
    enc3 0x60 g (o.code * 1024 + s.code * 128 + op.code * 8 + bit w * 4 + bit fs) d a b cc
  | .atomCas g o s w fs d a b c cc => enc4 0x61 g (o.code * 1024 + s.code * 128 + bit w * 4 + bit fs) d a b c cc
  | .ldAcq g s w fs d a b cc => enc3 0x62 g (s.code * 128 + w.code * 8 + bit fs) d a b cc
  | .stRel g s w fs a b c => encABC 0x63 g (s.code * 128 + w.code * 8 + bit fs) a b c
  | .fence g s => encF (fw 0x64 g s.code)
  | .bar l => encF (fw 0x65 Guard.always l.code)
  | .barc pd a => encA 0x65 Guard.always (pd * 16 + 8 + 1) a
  | .mbsend g fs d a kb => encF { fw 0x66 g (bit fs) with d := 0x100 + d, a := a.code, b := 0x100 + kb }
  | .mbrecv g pd t fs kb => encF { fw 0x66 g (pd * 16 + bit t * 4 + 2 + bit fs) with d := 0x100 + kb }
  | .tkres g fs d a b => enc3 0x67 g (bit fs) (.k d) a b 0
  | .tkcom g fs d a b => enc3 0x67 g (2 + bit fs) (.k d) a b 0
  | .cpy g o tag cv m fs a b c =>
    encF { fw 0x68 g (o.func tag + cv.code * 8 + m.code * 2 + bit fs) with d := tagCode tag, a := a.code, b := b.code, c := c.code }
  | .cpyG g o tag size i fs a b kq =>
    encF { fw 0x69 g (o.func tag + size * 4 + bit i * 2 + bit fs) with d := tagCode tag, a := a.code, b := b.code, c := 0x100 + kq }
  | .cpyS g o tag size i fs a b kq =>
    encF { fw 0x69 g (o.func tag + 32 + size * 4 + bit i * 2 + bit fs) with d := tagCode tag, a := a.code, b := b.code, c := 0x100 + kq }
  | .coll g o tag op ty fs a b kq =>
    encF { fw 0x6A g (o.func tag + op.code * 16 + ty.code * 2 + bit fs) with d := tagCode tag, a := a.code, b := b.code, c := 0x100 + kq }
  | .cstat g d b => encDB 0x6B g 0 (.k d) b 0
  | _ => []

/-- The slot word of a ring instruction lies in A, or in the immediate or literal place (R357). -/
def encRing (g : Guard) (func : Nat) (a : Src) : List W64 :=
  match a with
  | .imm _ _ => encB 0x71 g func a
  | .lit _ => encB 0x71 g func a
  | _ => encA 0x71 g func a

/-- Words of the matrix class (R357). -/
def encMatrix : Instr → List W64
  | .mstart g t parm fs =>
    match parm with
    | none => encRel 0x6C g t 0 0 (bit fs)
    | some k => encRel 0x6C g t (0x100 + k) 1 (bit fs)
  | .mstop g => encF (fw 0x6C g 2)
  | .tld g td map sl b fs =>
    (({ fw 0x6D g (map * 4 + bit sl.isSome * 2 + bit fs) with d := td, a := (match sl with | none => 0 | some a => a.code) } : FW).withB b).pack :: b.extWord
  | .mma g f acc ta tb fs => encF { fw 0x6E g (f.code * 2 + bit fs) with d := acc, a := ta, b := tb }
  | .mmaPair g f acc ta tb fs => encF { fw 0x6F g (f.code * 2 + bit fs) with d := acc, a := ta, b := tb }
  | .accz g acc => encF { fw 0x70 g 0 with d := acc }
  | .acrel g acc => encF { fw 0x70 g 1 with d := acc }
  | .ringWait g r c self a => encRing g (r * 256 + c * 64 + bit self * 16) a
  | .ringArv g r c self a => encRing g (r * 256 + c * 64 + 32 + bit self * 16) a
  | .mloop g t x => encRel 0x72 g t (0x100 + x) 0 0
  | .acqA g acc => encF { fw 0x73 g 0 with c := acc }
  | .accret g acc => encF { fw 0x73 g 4 with c := acc }
  | .accrd g bf fs d b acc cc =>
    (({ fw 0x73 g (8 + bit bf * 4 + bit fs) with d := d, c := acc, cc := cc } : FW).withB b).pack :: b.extWord
  | _ => []

/-- Words of the work, transfer and system classes (R409, R440, R464). -/
def encSys : Instr → List W64
  | .mint g fs kb => encF { fw 0x74 g (bit fs) with d := 0x100 + kb }
  | .mintDone g fs d kb => encF { fw 0x74 g (2 + bit fs) with d := 0x100 + d, a := 0x100 + kb }
  | .tqAdd g fs d a b c cc =>
    encF { fw 0x75 g (bit fs) with
      d := d.code, a := a.code, b := (match d with | .v _ => b | .k _ => 0x100 + b), c := c.code, cc := cc }
  | .nodeSpawn g fs kq a => encF { fw 0x76 g (bit fs) with d := 0x100 + kq, a := a.code }
  | .arChk g r a =>
    match r with
    | .pred p => encA 0x77 g (p * 4) a
    | .st d cc => enc2 0x77 g 2 d a cc
  | .recast g fs d b => encDB 0x78 g (bit fs) (.k d) b 0
  | .csrrd g d c => encDB 0x7A g 0 (.k d) c 0
  | .csrwr g c a => encAB 0x7A g 1 a c
  | .wtimerloWrite g a => encAB 0x7A g 1 a (.imm false 0x064)
  | .wtimerhiWrite g a => encAB 0x7A g 1 a (.imm false 0x065)
  | .nswinWrite g a => encAB 0x7A g 1 a (.imm false 0x071)
  | .mectlWrite g a => encAB 0x7A g 1 a (.imm false 0x090)
  | .ringdWrite g n a => encAB 0x7A g 1 a (.imm false (BitVec.ofNat 18 (0x0A0 + n)))
  | .splitCsrWrite g n a => encAB 0x7A g 1 a (.imm false (BitVec.ofNat 18 n))
  | .trap g b => encB 0x7B g 0 b
  | .bkpt => encF (fw 0x7B Guard.always 3)
  | .tclr g b => encB 0x7B g 2 b
  | .trapret => encF (fw 0x7B Guard.always 1)
  | .trace g a => encA 0x7C g 0 a
  | .smark g a => encA 0x7C g 1 a
  | .pwrReq g fs d b => encDB 0x7D g (bit fs) (.k d) b 0
  | .mon g fs kb => encF { fw 0x7D g (2 + bit fs) with d := 0x100 + kb }
  | _ => []

/-- The words of an instruction: one, or two with an extension word; none for a step that has no word. -/
def encode (i : Instr) : List W64 :=
  encControl i ++ encMove i ++ encInt i ++ encFloat i ++ encLane i ++ encMem i ++ encSync i ++ encMatrix i ++ encSys i

end Sys2Proof
end

