-- ==== Sys2Proof/Machine/Parts.lean ====
section
/-!
DEFINITION. The parts that State is made of: waves and their splits, teams and gangs, engines, caches, memory, the graph
unit and the front end. Registers and tables that are mostly at their reset value are `SMap`s, whose unlisted keys read
as that value.
-/

namespace Sys2Proof.Machine

/-- 128 bytes of content: byte i is bits [8i+7 : 8i]. -/
abbrev LineData := BitVec 1024
/-- One bit for each byte of a line. -/
abbrev ByteMask := BitVec 128

/-- Roles (R21). -/
inductive Role where
  | loader | storer | vector | task
  deriving DecidableEq, Repr

/-- Who issues an instruction word: a split of a wave (entries 0 to 3, and 4 for the handler split), or the program of a
core's matrix engine. -/
inductive Who where
  | split (w e : Nat)
  | engine (core : Nat)
  deriving DecidableEq, Repr

/-- A code line in a fetch buffer (R58). -/
structure Line where
  num : Nat
  words : List W64
  deriving DecidableEq, Repr

/-- The check of a target that is still due at the fetch of its line (R77, R79, R103, R105, R392, R446); `vector`: the
handler split takes the version of the line (R445). `src` is the patch line that a relative branch stood in; `back` is
the return point of `trr`. -/
inductive Due where
  | none
  | branch (src : Option Nat)
  | call (src : Option Nat)
  | indirect | callInd | tramp | back | ret | entry | vector
  deriving DecidableEq, Repr

/-- One lane's part of an outstanding instruction: what was read at issue. -/
structure LaneArg where
  lane : Nat
  addr : W64
  data : List W32 := []
  deriving DecidableEq, Repr

/-- A cause found by an outstanding instruction, to be reported at its completion (R219). -/
structure Found where
  cause : Nat
  code : Nat
  lane : Nat
  addr : W64
  deriving DecidableEq, Repr

/-- One segment of an engine command (R325-R332). -/
structure Seg where
  lane : Option Nat
  dst : W64
  src : W64
  /-- final status code, 0 while pending (R324) -/
  code : Nat := 0
  /-- the first failing byte's address (R327) -/
  addr : W64 := 0
  /-- how far it has run: bytes or elements, and lines of a converting segment -/
  pos : Nat := 0
  line : Nat := 0
  /-- the failure noted so far, 1 for none (R324), and the classes of its events (R331) -/
  bad : Nat := 1
  ev : List Nat := []
  /-- a failing walk that the engine holds: reason, whether a write, address; and its record (R327) -/
  fault : Option (Nat × Bool × W64) := none
  record : Option Nat := none
  /-- the destination of the element in hand of a gather or scatter: address and length (R327, R332) -/
  mark : Option (Nat × Nat) := none
  deriving DecidableEq, Repr

/-- An engine command (R322): its number, flags and segments; `par` holds the length of `cpy`, or kq to kq + 3. -/
structure Cmd where
  num : Nat
  ord : EngOrd
  segs : List Seg
  par : List W32
  /-- `coll`: group, instance and rank; and the result, once the instance is complete (R333, R334) -/
  coll : Option (Nat × Nat × Nat) := none
  result : Option (List W32) := none
  /-- its status has been written while its wave was saved: what is left comes at the resume (R325) -/
  ended : Bool := false
  deriving DecidableEq, Repr

/-- A coordinate of the Mint (R389). -/
structure Coord where
  node : Nat
  x : Nat
  y : Nat
  z : Nat
  deriving DecidableEq, Repr

/-- An outstanding long-latency instruction (R62), with what a replay needs (R222, R455). -/
structure Op where
  serial : Nat
  ins : Instr
  pc : W64
  word : W64 := 0
  ext : W64 := 0
  entry : Nat
  ver : Nat
  /-- issued by the handler split (R448) -/
  hmark : Bool := false
  /-- one more than the clock in which a transfer last moved it (R439) -/
  movedAt : Nat := 0
  flag : Option Nat
  /-- Active() at issue (R428) -/
  issued : Mask
  /-- the lanes of its split at issue (R211, R305) -/
  smask : Mask := 0xFFFFFFFF
  /-- a uniform form: one access, lane 0 stands for it -/
  uni : Bool := false
  args : List LaneArg := []
  /-- lanes not yet performed -/
  todo : Mask
  /-- lanes whose store waits for its W permission (R210) -/
  probe : Mask := 0
  parked : Bool := false
  /-- lanes that have met a failing walk, and the reason of the latest (R220, R221) -/
  stuck : Mask := 0
  reason : Nat := 0
  /-- of these, lanes whose record has been answered "resume": they wait for the last answer (R222) -/
  asked : Mask := 0
  /-- lanes parked behind an earlier access that is parked (R211) -/
  behind : Mask := 0
  /-- the serial of the fault record outstanding for it (R220) -/
  record : Option Nat := none
  /-- the driver answered "resume" (R222) -/
  replay : Bool := false
  /-- recorded events: class and lane, lane 32 for the wave (R184) -/
  events : List (Nat × Nat) := []
  found : List Found := []
  cmd : Option Cmd := none
  /-- `tq.add`: lanes that have reached the graph unit, and one more than the clock in which the latest did (R415) -/
  late : Mask := 0
  lateAt : Nat := 0
  /-- waits for something outside the core: a Mint answer, a message, the driver, a host -/
  waiting : Bool := false
  deriving DecidableEq, Repr

/-- What holds a split inside an instruction (R84 item 3). -/
inductive Block where
  | none
  /-- held at a barrier: the word's issue serial, and for `barc` its predicate and request (R310, R313) -/
  | barrier (lv : BarLevel) (serial : Nat) (req : Option (Nat × W32))
  /-- a blocked `ld.fe` with its pending lanes, and CTXCLK at this issue (R229) -/
  | fe (o : Op) (since : Nat)
  /-- `acq.a` waiting for the token of an accumulator (R349) -/
  | token (acc : Nat)
  /-- `ring.wait`: the engine's core, the ring, the slot and the phase (R348) -/
  | ring (core ring slot : Nat) (ph : Bool)
  /-- a release waits for the split's earlier accesses (R305); `two`: the hold records stall reason 2 (R300, R368) -/
  | ops (two : Bool)
  /-- a release waits for the acknowledgement of these write-backs (R263, R305) -/
  | drain (ids : List Nat) (two : Bool)
  /-- a held access waits behind a team's `barc` instance (R314) -/
  | barc
  /-- the target unit cannot accept the word (R84 item 4, R322, R323, R453) -/
  | unit
  /-- the selected flag stands at 63 (R62, R84 item 5) -/
  | flag
  deriving DecidableEq, Repr

/-- A split table entry (R90) with its fetch buffer line (R58) and holds (R84). -/
structure Split where
  pc : W64
  mask : Mask
  ver : Nat
  lr : W64 := 0
  tlr : W64 := 0
  /-- the waiting counter W (R86) -/
  w : Nat := 0
  buf : Option Line := none
  /-- arrival at the header at pc has been made (R93) -/
  arrived : Bool := false
  due : Due := .none
  block : Block := .none
  /-- where it goes on when a barrier or `ld.fe` that holds it ends, and whether that is at a header (R57, R310) -/
  next : W64 := 0
  nextHdr : Bool := false
  /-- a merge hold ends at this clock (R96) -/
  mergeTo : Option Nat := none
  /-- not eligible before this clock (`yield`, R100) -/
  yieldTo : Nat := 0
  /-- a sleep ends at this CTXCLK (R100) -/
  sleepTo : Option Nat := none
  /-- one more than the clock of its latest issue (R86, R459) -/
  issued : Nat := 0
  /-- stopped for a pending trap (R442) -/
  stop : Bool := false
  /-- held at a safe point by the transfer unit (R428) -/
  xfer : Bool := false
  /-- MAPERR or a refused transfer has been met at this arrival (R434) -/
  xferDone : Bool := false
  /-- the lanes for which an `ld.fe` is issued again (R229) -/
  feLeft : Option Mask := none
  /-- the release of the instruction at pc has been made (R305) -/
  released : Bool := false
  /-- R85 reasons met since the previous issue; clocks in reason 0 and in others (R459) -/
  stall : Nat := 0
  stallFetch : Nat := 0
  stallWait : Nat := 0
  /-- trace records since the last sync record; none: the next is a sync record (R460) -/
  traced : Option Nat := none
  deriving DecidableEq, Repr

/-- A detail of the trap detail queue (R443, R444). -/
structure TDetail where
  key : Nat
  pc : W64
  cause : Nat
  code : Nat
  entry : Nat
  ver : Nat
  lanes : Mask
  info : List Byte
  deriving DecidableEq, Repr

/-- The registers of a wave (R113). -/
structure WRegs where
  /-- v registers by 32n + lane -/
  v : SMap W32 := []
  /-- tags by 32n + lane (R120) -/
  tag : SMap Nat := []
  k : SMap W32 := []
  /-- p0-p6 -/
  p : SMap Mask := []
  /-- counts of f0-f11 (R62) -/
  f : SMap Nat := []
  /-- lane slots, k registers and predicates that hold an uncorrectable error until they are written (R457) -/
  badV : SMap Bool := []
  badK : SMap Bool := []
  badP : SMap Bool := []
  deriving DecidableEq, Repr

/-- The trap state of a wave (R442-R454). -/
structure WTrap where
  cause : W32 := 0
  planes : Mask := 0
  dq : List TDetail := []
  lost : Nat := 0
  smark : BitVec 16 := 0
  timer : W64 := 0
  armed : Bool := false
  halted : Bool := false
  /-- the handler split has raised a cause: the halt is due, with the record's mask, PC and reason (R448) -/
  halting : Option (Mask × W64 × Nat) := none
  /-- the serial of the kind-3 record outstanding (R448) -/
  haltRecord : Option Nat := none
  /-- one more than the last clock in which a cause became pending, and the causes that did in it (R468) -/
  newAt : Nat := 0
  newBits : W32 := 0
  handler : Option Split := none
  /-- split table and entries as the handler has edited them: PCs that changed (R446) -/
  entryPcs : List (Option W64) := []
  /-- what the handler wrote to live entries 0-3 and overflow entries 4-15 not yet in use (R446) -/
  spare : SMap (W64 × W32 × Nat) := []
  deriving DecidableEq, Repr

/-- A command status entry (R323). -/
structure CmdStat where
  num : Nat
  code : Nat
  lane : Nat
  mask : Mask
  /-- the command carried REL at this scope (R336) -/
  rel : Option Scope
  deriving DecidableEq, Repr

/-- A task of a task wave's lane (R392). -/
structure LaneTask where
  lane : Nat
  node : Nat
  deriving DecidableEq, Repr

/-- What a wave holds of the work and engine classes (R323, R410). -/
structure WWork where
  cmdseq : Nat := 0
  status : SMap CmdStat := []
  /-- held coordinates, the latest first -/
  held : List Coord := []
  tasks : List LaneTask := []
  deriving DecidableEq, Repr

/-- A fetch that met a failing walk (R220): the line, and the record posted. -/
structure FetchFault where
  entry : Nat
  pc : W64
  record : Nat
  /-- the record belongs to a transfer's read (R429, R435) -/
  xfer : Bool := false
  deriving DecidableEq, Repr

/-- A wave (R18, R90, R113). -/
structure Wave where
  gang : Nat
  team : Nat
  /-- %wave (R15) -/
  index : Nat
  /-- the task reservation a task wave took (R391) -/
  res : Option Nat := none
  role : Role
  kernel : Nat
  asid : Nat
  /-- vector registers per lane -/
  regs : Nat
  /-- module core and slot while placed (R13); the slot and the core it had when its gang was saved (R355, R327) -/
  place : Option (Nat × Nat) := none
  restSlot : Nat := 0
  restCore : Nat := 0
  r : WRegs := {}
  live : List (Option Split) := [none, none, none, none]
  /-- overflow stack, top first (R90) -/
  ovf : List Split := []
  exited : Mask := 0
  t : WTrap := {}
  wk : WWork := {}
  ops : List Op := []
  /-- count of issued words (R443) -/
  serial : Nat := 0
  /-- no split issues (R220) -/
  parked : Bool := false
  /-- started in this clock: it issues from the next (R22) -/
  fresh : Bool := false
  /-- live entries that the overflow stack may fill in this clock: unused since the clock before (R95) -/
  pops : List Nat := []
  fetchFaults : List FetchFault := []
  /-- a tagged sample: pc, clock, entry, and the record's bytes so far (R459) -/
  samples : List (Nat × List Byte) := []
  /-- trace records waiting to be written, and how many were dropped (R460, R461) -/
  traces : List (List Byte) := []
  dropped : Nat := 0
  deriving DecidableEq, Repr

/-- What an instruction's events belong to: its wave, the lanes a uniform event traps, and what a detail names. -/
structure EvSrc where
  u : Nat
  lanes : Mask
  hmark : Bool
  serial : Nat
  pc : W64
  entry : Nat
  ver : Nat
  deriving DecidableEq, Repr

/-- Events that have reached a statistics block in this clock (R185): the block's team, the wave's slot, address space and core, the
instruction, and its events by class and lane. -/
structure EvRec where
  key : Nat
  slotNo : Nat
  asid : Nat
  core : Nat
  src : EvSrc
  evs : List (Nat × Nat)
  deriving DecidableEq, Repr

/-- The context bank of a gang on one core (R449). -/
structure Bank where
  issuectl : W32 := 0x00400100
  pwrctx : W32 := 0
  fetimeout : W32 := 0x00100000
  nsctl : W32 := 0
  nscnt : SMap W32 := []
  nswcnt : SMap (BitVec 16) := []
  nsthr : SMap (BitVec 16) := []
  nswin : W32 := 0x00100000
  nsbase : Nat := 0
  /-- the CTXCLK at which the latest window began, 0 before the first (R186) -/
  nslast : Nat := 0
  trapvec : W64 := 0
  assayvec : W64 := 0
  trapscr : W64 := 0
  tracectl : W32 := 0
  tracebase : W64 := 0
  tracesize : W32 := 0
  sampctl : W32 := 0x00001000
  sampbase : W64 := 0
  sampsize : W32 := 0
  pmc : SMap W64 := []
  deriving DecidableEq, Repr

/-- Fields of TSHAPE (R131): format, rows - 1, row length - 1, codebook slot. -/
structure TShape where
  fmt : Nat
  rows : Nat
  rowlen : Nat
  cb : Nat
  deriving DecidableEq, Repr

/-- What a `tld` loads (R362): the tile and its shape, the slot it waits for and the phase it awaits, the first byte, the step from row to
row, the end of the slot; and the word's place. -/
structure Load where
  tile : Nat
  shape : TShape
  ring : Nat
  slot : Nat
  phase : Bool
  base : Nat
  step : Nat
  top : Nat
  pc : W64
  deriving DecidableEq, Repr

/-- Array work or a load of a matrix engine that has issued and not finished (R346, R358). -/
structure Job where
  ins : Instr
  /-- engine flag it holds -/
  flag : Option Nat
  /-- for a `tld`: what it loads -/
  load : Option Load := none
  deriving DecidableEq, Repr

/-- A core's matrix engine (R337-R343). -/
structure Engine where
  /-- owning team: 4 × gang + team -/
  owner : Option Nat := none
  /-- tile bytes by 8192n + 128 row + byte; a byte that no `tld` has written since the claim is unlisted -/
  tile : SMap Byte := []
  /-- scale bytes by 256n + 4 row + byte -/
  scale : SMap Byte := []
  /-- format and codebook slot latched with each tile (R362) -/
  latch : SMap (Nat × Nat) := []
  /-- accumulators by 4096n + 64 row + column -/
  acc : SMap W32 := []
  tshape : SMap W32 := []
  omap : SMap W32 := []
  ringd : SMap W32 := []
  /-- phase bits by 256 ring + slot -/
  phase : SMap Bool := []
  mectl : W32 := 0
  run : Bool := false
  slave : Bool := false
  stopCode : Nat := 0
  ver : Nat := 0
  start : Nat := 0
  detail : Nat := 0
  mepc : W64 := 0
  /-- token states (R342) and the waves that hold them -/
  tok : SMap Nat := []
  holder : SMap Nat := []
  k : SMap W32 := []
  f : SMap Nat := []
  /-- Touchstone is in force for this run (R339) -/
  touch : Bool := false
  /-- the starting wave and the serial of its `mstart` (R345) -/
  starter : Option (Nat × Nat) := none
  jobs : List Job := []
  buf : Option Line := none
  arrived : Bool := false
  due : Due := .none
  /-- a stop has been asked for: code, and the detail of a fault (R347, R360) -/
  stopping : Option Nat := none
  /-- a stop request acts after this clock (R361) -/
  stopAt : Nat := 0
  fault : Option (Nat × Nat × W64) := none
  record : Option Nat := none
  /-- a team claims the engine while a saved context's state still stands in it: that is to be spilled (R354, R450) -/
  wanted : Bool := false
  /-- one more than the clock at which each token was last offered (R372) -/
  offered : SMap Nat := []
  retired : Bool := false
  /-- an uncorrectable error lies in the arrays (R450, R494) -/
  bad : Bool := false
  /-- clocks of Touchstone mismatches (R352) -/
  mism : List Nat := []
  /-- an `mma.pair` has issued and waits for the follower's array (R351) -/
  pairing : Bool := false
  deriving DecidableEq, Repr

/-- A team: its carve-out, scratchpad, bank, and the slots it claimed (R14, R205, R388). -/
structure Team where
  /-- module core while placed -/
  core : Option Nat := none
  regG : Nat
  spadG : Nat
  l1G : Nat
  spad : SMap Byte := []
  /-- full-empty bits by granule (R206) -/
  fe : SMap Bool := []
  /-- bytes that hold an uncorrectable error until they are written (R457) -/
  bad : SMap Bool := []
  bank : Bank := {}
  /-- slots: launch waves, then task reservations -/
  slots : List Nat := []
  /-- held for a `barc` instance (R314) -/
  barc : Bool := false
  /-- granules that an open `barc` instance claims beyond the carve-out (R314) -/
  claim : Nat := 0
  /-- the core where parts of a saved context still lie, and which: granules by their number in the image, the slots (64: none) and
  the bank (R449, R450) -/
  heldOn : Option Nat := none
  heldG : List Nat := []
  heldSlots : List Nat := []
  heldBank : Bool := false
  /-- frames of the save pool that hold spilled parts, by their place in the image (R450) -/
  frames : SMap Nat := []
  /-- the engine the team owns, once it has been spilled, and the frames that hold its image (R355) -/
  engine : Option Engine := none
  engFrames : List Nat := []
  /-- the last Mint coordinate a wave of the team received (R352) -/
  lastMint : Option Coord := none
  deriving DecidableEq, Repr

/-- Where a gang stands (R385, R395). -/
inductive GangState where
  /-- waits for cores -/
  | waiting
  /-- has cores, which are still being set up: a new gang, or a saved one (R22 step 6, R451) -/
  | starting | resuming
  | placed
  /-- has been told to stop, and is saved -/
  | saving | saved
  | gone
  deriving DecidableEq, Repr

/-- A gang (R19, R20, R449). -/
structure Gang where
  kernel : Nat
  num : Nat
  state : GangState := .waiting
  /-- the clock at which it began to wait -/
  since : Nat := 0
  cores : List Nat := []
  ctxclk : Nat := 0
  /-- the version read at its first wave start (R22) -/
  ver0 : Nat := 0
  /-- one more than the clock of its latest placement (R395) -/
  placedAt : Nat := 0
  /-- cores that it left by exiting, and one more than the clock of that (R107, R395) -/
  left : Nat := 0
  goneAt : Nat := 0
  /-- the write-backs that its save waits for, once they have been started (R450) -/
  drain : Option (List Nat) := none
  /-- a claim of what it holds has found the save pool empty, and waits (R450) -/
  dry : Bool := false
  deriving DecidableEq, Repr

/-- A line of an L1 (R209). -/
structure L1Line where
  data : LineData := 0
  valid : ByteMask := 0
  dirty : ByteMask := 0
  /-- bytes that hold an uncorrectable error (R457) -/
  bad : ByteMask := 0
  r : Bool := false
  w : Bool := false
  deriving DecidableEq, Repr

/-- A task record in a queue (R391, R500). -/
structure Task where
  kernel : Nat
  node : Nat
  entry : W64
  arg : List W32
  /-- a Sprue has begun to gather it: it is in no queue any more, though it keeps its place here (R391, R393) -/
  gathered : Bool := false
  deriving DecidableEq, Repr

/-- A core's own units (R12): L1, task queue, steal unit, sampling. -/
structure Core where
  l1 : SMap L1Line := []
  tq : List Task := []
  seed : BitVec 16
  lfsr : BitVec 16
  /-- a steal request on its way: kernel and victim (R393) -/
  steal : Option (Nat × Nat) := none
  gapTo : Nat := 0
  /-- last kernel it stole for -/
  turn : Nat := 0
  /-- the head task's eligibility: kernel and clock (R391) -/
  eligible : SMap Nat := []
  /-- each partition gathers until this clock (R117) -/
  busy : SMap Nat := []
  /-- sampling of each partition: LFSR, interval start, draw, and whether it has been used (R459) -/
  sampLfsr : SMap (BitVec 16) := []
  sampDraw : SMap (Nat × Nat) := []
  /-- waves that have ended with records still to be written, as they ended, and their banks, by wave number (R460, R461) -/
  left : SMap (Wave × Bank) := []
  deriving DecidableEq, Repr

/-- A Hallmark tag (R239). -/
structure Tag where
  dirty : Bool := false
  pin : Bool := false
  r : Bool := false
  w : Bool := false
  x : Bool := false
  zero : Bool := true
  zfmt : Nat := 0
  index : Nat := 0
  /-- the frame's address and whether it is host memory; none for an unbacked arena page -/
  frame : Option (Bool × Nat) := none
  dom : Nat := 0
  deriving DecidableEq, Repr

/-- A data entry of a slice (R240); `indexed` says it takes sharers (R244). -/
structure Entry where
  content : LineData := 0
  count : Nat := 0
  fmt : Nat := 0
  dom : Nat := 0
  indexed : Bool := false
  /-- CONTENT holds an uncorrectable error (R254) -/
  bad : Bool := false
  deriving DecidableEq, Repr

/-- A write-back on its way to its home (R210). -/
structure Wb where
  id : Nat
  core : Nat
  /-- line key: ASID × 2^64 + address -/
  key : Nat
  data : LineData
  mask : ByteMask
  /-- held at the home for a frame (R218) -/
  held : Bool := false
  /-- a byte on its way holds an uncorrectable error (R457) -/
  bad : Bool := false
  deriving DecidableEq, Repr

/-- A cached leaf of a die's TLB (R212). -/
structure Tlb where
  die : Nat
  asid : Nat
  arena : Bool
  /-- address bits [55:16] -/
  page : Nat
  /-- the leaf entry, and whether it stood at level 2 -/
  leaf : BitVec 128
  big : Bool
  deriving DecidableEq, Repr

/-- An address-space descriptor and what the graph unit counts for it (R215, R252, R261). -/
structure Asid where
  base : Nat := 0
  valid : Bool := false
  arena : Nat := 0
  dom : Nat := 0
  pinq : Nat := 0
  pins : Nat := 0
  sharehit : Nat := 0
  unshare : Nat := 0
  pool : List Nat := []
  nextNode : Nat := 0
  /-- being torn down (R485) -/
  dying : Bool := false
  deriving DecidableEq, Repr

/-- An arena slot as the graph unit holds it (R397). -/
structure Arena where
  gen : Nat := 0
  size : Nat := 0
  /-- 0 free, 1 live, 2 dying -/
  state : Nat := 0
  ltwo : Nat := 0
  /-- its level-2 table, taken from the pool; LTWO names it once a page is backed -/
  two : Nat := 0
  /-- 0: never used; else the order in which slots were freed (R398) -/
  freed : Nat := 0
  /-- frames taken for its pages and tables (R403) -/
  frames : List Nat := []
  deriving DecidableEq, Repr

/-- A broadcast that some cores have not applied: the old value stands there (R399, R425). -/
structure Lag where
  key : Nat
  old : Arena
  cores : List Nat
  deriving DecidableEq, Repr

/-- Memory, caches beside it, and translation (R202-R222, R238-R255). -/
structure Mem where
  phys : List Host.Cell := []
  host : List Host.Cell := []
  vault : List Host.Cell := []
  tlb : List Tlb := []
  /-- cached grant entries by 128 × ASID + vault: 24 bytes as a number (R208) -/
  grants : SMap Nat := []
  tags : SMap Tag := []
  entries : SMap Entry := []
  wbs : List Wb := []
  nextWb : Nat := 0
  fmtw : SMap (BitVec 128) := []
  vfmtw : SMap (BitVec 128) := []
  cbook : SMap (BitVec 256) := []
  grantbase : SMap W64 := []
  asids : SMap Asid := []
  /-- arenas by 4096 × ASID + slot -/
  arenas : SMap Arena := []
  nextFreed : Nat := 1
  lags : List Lag := []
  /-- frames of the module save pool (R450) -/
  savePool : List Nat := []
  /-- vault lines by cell that hold an uncorrectable error (R457) -/
  badVault : List Nat := []
  badBanks : List Nat := []
  deriving DecidableEq, Repr

/-- Node states (R382, R404). -/
inductive NodeState where
  | pending | ready | released | dying | recording | dead
  deriving DecidableEq, Repr

/-- A node (R380-R384, R404-R407). -/
structure Node where
  asid : Nat
  num : Nat
  kernel : Nat
  prio : Nat
  /-- 0 index space, 1 task batch, 2 none -/
  work : Nat
  /-- predecessors still to die; DEPS; and predecessors registered so far (R413) -/
  deps : Nat
  need : Nat := 0
  preds : Nat := 0
  arena : Nat
  /-- extents of an index space -/
  ext : List Nat
  /-- records of a task batch (R500) -/
  batch : List Task := []
  succ : List Nat
  /-- a predecessor has failed (R406) -/
  doomed : Bool := false
  state : NodeState := .pending
  /-- order in which it became ready, and was released -/
  readyAt : Nat := 0
  releasedAt : Nat := 0
  releaseClk : Nat := 0
  /-- 0 not failed; else the status of its record (R407) -/
  failed : Nat := 0
  deadWrite : Bool := false
  /-- coordinates dispensed, reported, abandoned -/
  given : Nat := 0
  done : Nat := 0
  lost : Nat := 0
  firstLost : Option Coord := none
  /-- tasks accepted and completed -/
  tasks : Nat := 0
  tasksDone : Nat := 0
  /-- arena slot and generation -/
  slot : Option (Nat × Nat) := none
  frames : Nat := 0
  /-- step of R401 that comes next -/
  step : Nat := 0
  deriving DecidableEq, Repr

/-- A resident kernel (R374-R379, R420, R425). -/
structure Kernel where
  num : Nat
  asid : Nat
  /-- launch record address and fields -/
  launch : Nat
  kobj : Nat
  gangs : Nat
  grown : Nat := 0
  regs : Nat
  waves : Nat
  teams : Nat
  roles : Nat
  podgrp : Nat
  prio : Nat
  stack : Nat
  tasks : Nat
  l1 : Nat
  spad : Nat
  qmask : Nat
  stackbase : Nat
  mbox : Nat
  param : List W32
  crec : Nat
  firstNode : Nat
  nnodes : Nat
  vmask : Nat
  slots : Nat
  /-- code, maps, cpool, nconst of each version -/
  vers : List (Nat × Nat × Nat × Nat)
  kver : Nat
  lock : Bool := false
  /-- cores that have not applied a change of KVER, with the version each still holds (R425) -/
  lag : List (Nat × Nat) := []
  /-- gangs that have exited -/
  gone : Nat := 0
  /-- one more than the clock in which a `recast` was last handled (R439) -/
  recastAt : Nat := 0
  /-- order of creation -/
  order : Nat := 0
  /-- undealt tasks, in order, and the core last dealt to (R382) -/
  undealt : List Task := []
  dealt : Option Nat := none
  deriving DecidableEq, Repr

/-- A `mint` request that has reached the Mint (R389, R390). -/
structure MintReq where
  wave : Nat
  op : Nat
  quad : Nat
  core : Nat
  clk : Nat
  deriving DecidableEq, Repr

/-- A collective group (R333). -/
structure CollGroup where
  members : List Member
  limit : Nat
  deriving DecidableEq, Repr

/-- A member's command in an open instance (R334). -/
structure CollIn where
  rank : Nat
  wave : Nat
  num : Nat
  deriving DecidableEq, Repr

/-- An open collective instance (R335). -/
structure CollInst where
  asid : Nat
  group : Nat
  inst : Nat
  first : Nat
  parts : List CollIn
  aborted : Bool := false
  deriving DecidableEq, Repr

/-- The graph unit, the Sprues and the collective engines (R17, R374-R415, R333). -/
structure Graph where
  kernels : SMap Kernel := []
  nodes : SMap Node := []
  gangs : SMap Gang := []
  teams : SMap Team := []
  nextId : Nat := 0
  nextOrder : Nat := 0
  /-- one more than the clock of the latest release, of the latest placement and of the latest pour of each die (R384, R386,
  R391) -/
  relClk : Nat := 0
  placeClk : SMap Nat := []
  pourClk : SMap Nat := []
  /-- one more than the clock in which a node's count of predecessors last fell (R415) -/
  fellClk : Nat := 0
  /-- reserved cores of each die: gang and cores (R386) -/
  reserve : SMap (Nat × List Nat) := []
  mintReqs : List MintReq := []
  /-- requests that may still matter: kernel, quad, clock (R390) -/
  mintSeen : List (Nat × Nat × Nat) := []
  /-- messages by 64 × gang + 16 × team + wave (R315) -/
  boxes : SMap (List (List W32)) := []
  /-- pours made by each Sprue, and the core it last poured for (R391, R392) -/
  pours : SMap Nat := []
  lastPour : SMap Nat := []
  groups : SMap CollGroup := []
  /-- commands counted by each member: key ASID × 256 + group, and rank -/
  collCount : SMap Nat := []
  insts : List CollInst := []
  /-- kernels that take part in the open `bar.pod` instance of a pod group, by 65536 × ASID + group (R377) -/
  pods : SMap (List Nat) := []
  /-- slots whose wave has ended in this clock: core and slot, free from the next (R97) -/
  freed : List (Nat × Nat) := []
  deriving DecidableEq, Repr

/-- A hardware work queue (R319, R479). -/
structure Queue where
  base : Nat := 0
  hostmem : Bool := false
  log2n : Nat := 4
  isOpen : Bool := false
  priv : Bool := false
  valid : Bool := false
  asid : Nat := 0
  next : W32 := 0
  head : W32 := 0
  /-- commit bits, by slot -/
  commit : SMap Bool := []
  /-- the invalidate or teardown that no later slot may pass (R481) -/
  blocked : Option Nat := none
  deriving DecidableEq, Repr

/-- A node descriptor as it was read (R380). -/
structure NodeDesc where
  prio : Nat
  work : Nat
  deps : Nat
  arena : Nat
  /-- offset 0x0C: zero in a launch, KERNEL in a spawn -/
  kernel : Nat
  ext : List Nat
  count : Nat
  list : Nat
  succ : List Nat
  deriving DecidableEq, Repr

/-- What a launch says, once every read has succeeded and every check is met (R375): the record, the kernel object, the node table and the
task lists (R500). -/
structure Launch where
  rec0 : List Byte
  kobj : List Byte
  nodes : List NodeDesc
  lists : List (List (W64 × List W32))
  deriving DecidableEq, Repr

/-- A slot record that has been started (R481). -/
structure Slotrec where
  queue : Nat
  kind : Nat
  tag : Nat
  bytes : List Byte
  /-- has been acted on and waits for its end -/
  begun : Bool := false
  /-- `launch`: the record as it was read at consumption, none where it could not be read; what it says, or the status that refuses it,
  2 shape or 3 page; and its nodes still to be created (R374, R375, R381, R500) -/
  launch : Option (List Byte) := none
  plan : Option Launch := none
  refused : Nat := 0
  nodes : Nat := 0
  /-- cores freed by a vacate so far, and gangs still to go (R395) -/
  freed : Nat := 0
  gangs : List Nat := []
  deriving DecidableEq, Repr

/-- The coalescing of a ring's interrupt (R484): pending entries, the clock of the oldest, and one more than the clock of the
latest raise. -/
structure Coal where
  pending : Nat := 0
  oldest : Nat := 0
  raised : Nat := 0
  deriving DecidableEq, Repr

/-- A ring of an ASID's service block (R482-R484). -/
structure Ring where
  base : Nat := 0
  hostmem : Bool := false
  size : Nat := 0
  vector : Nat := 0
  count : Nat := 0
  ack : Nat := 0
  /-- entries waiting to be written -/
  queue : List (List Byte) := []
  coal : W32 := 0x00100014
  co : Coal := {}
  deriving DecidableEq, Repr

/-- A fault record (R221). -/
structure FaultRec where
  serial : Nat
  bytes : List Byte
  wave : Nat
  /-- op serial; none for a fetch, an engine or a halt -/
  op : Option Nat
  /-- 0 instruction, 1 fetch or transfer, 2 engine command, 3 halt, 4 engine fetch -/
  kind : Nat
  settled : Bool := false
  deriving DecidableEq, Repr

/-- A `mon` channel (R472, R481). -/
structure Channel where
  ring : Nat := 0
  /-- messages written to the ring -/
  count : Nat := 0
  sent : List (Nat × Nat × List W32) := []
  deriving DecidableEq, Repr

/-- The queue front end and the Anvil's tables (R319-R321, R478-R486). -/
structure Front where
  queues : SMap Queue := []
  cmds : SMap Slotrec := []
  nextCmd : Nat := 0
  /-- rings by 2 × ASID, + 1 for the node ring -/
  rings : SMap Ring := []
  faults : List FaultRec := []
  nextFault : Nat := 0
  /-- module COALCTL, and the coalescing of the fault ring and of the save-pool interrupt (R484) -/
  coal : W32 := 0x00100014
  faultCo : Coal := {}
  poolCo : Coal := {}
  channels : SMap Channel := []
  /-- interrupts raised, the latest first: kind (1 fault ring, 2 save pool, 3 machine check, 4 a write-back without a frame, 5 a ring of
  an ASID, 6 health) and argument -/
  irqs : List (Nat × Nat) := []
  /-- quotes and readings handed to a master (R488, R489), and answers to the Anvil's requests (R395, R426) -/
  answers : List (List Byte) := []
  deriving DecidableEq, Repr

/-- Module registers and the Anvil's state (R387, R394, R487-R494). -/
structure ModRegs where
  pkg : Nat := 0
  placectl : W32 := 0x00002000
  spruectl : SMap W32 := []
  tallow : SMap (BitVec 10) := []
  /-- DRAMTEMP of package p of die d at 8d + p -/
  dramtemp : SMap (BitVec 9) := []
  health : W32 := 0
  /-- PWRLIM of the main host and of the controller, in watts (R490) -/
  pwrlim : List Nat := [2600, 2600]
  gated : List Nat := []
  retiredQuads : List Nat := []
  /-- corrected errors of each die (R457) -/
  corrected : SMap Nat := []
  /-- placements refused: gating has begun (R493) -/
  closing : List Nat := []
  secver : Nat := 0
  /-- images that wait for the next reset, by their place in the boot order (R487) -/
  staged : SMap FwImage := []
  measures : List (List Byte) := []
  /-- images that have replaced those of Config.firmware -/
  images : SMap FwImage := []
  deriving DecidableEq, Repr

end Sys2Proof.Machine
end

