-- ==== Sys2Proof/Machine/State.lean ====
section
/-!
DEFINITION. The whole state of the module, the reasons a step can stop, and the state after reset.
-/

namespace Sys2Proof.Machine

/-- What an issuing instruction knows of its place (R55-R62): the word's address, its length in words, where its split
goes on and whether that is the fall-through point at a clause header (R57), the clause's flags, whether the line is a
patch line (R111). -/
structure Ctx where
  who : Who
  pc : W64
  size : Nat := 1
  next : W64
  hdr : Bool := false
  word : W64 := 0
  ext : W64 := 0
  fa : Option Nat := none
  fb : Option Nat := none
  patch : Bool := false
  /-- the predicates that the word names as sources beside its guard (R457) -/
  preds : List Nat := []
  /-- the header at which the issuer stood, where this is the first word of its clause (R84, R94) -/
  head : Option W64 := none
  deriving DecidableEq, Repr

/-- The module. -/
structure State where
  /-- CLK (R452) -/
  clk : Nat
  waves : SMap Wave
  nextWave : Nat
  /-- cores by module number; an unlisted core is as after reset -/
  cores : SMap Core
  engines : SMap Engine
  mem : Mem
  graph : Graph
  front : Front
  mod : ModRegs
  /-- the statistics events of this clock, which the blocks add at its end in the order of R185 -/
  events : List EvRec
  /-- the model's own: who issues now, and the place of the word it issues (log 2) -/
  sel : Option Who
  cur : Option Ctx
  /-- the model's own: what the outside world, or a timer that is due, brings next (log 2) -/
  agenda : List Instr
  /-- the model's own: partitions that have not had their turn in this clock (R86) -/
  turns : List (Nat × Nat)
  /-- the model's own: counter of free values (log 3) -/
  draws : Nat
  deriving DecidableEq, Repr

/-- Why the model stops with a fault. -/
inductive Fault where
  /-- Raised by a meaning of an instruction word when no split and no engine program stands as its issuer. A step never
  meets this: it sets the issuer before it executes a word. Safe: nothing is claimed of a state after it. -/
  | noIssuer
  deriving DecidableEq, Repr

/-- Why the model refuses. -/
inductive Refusal where
  /-- Raised by an arm of `exec` whose instruction has no meaning yet. Safe: the model stops. -/
  | notModelled (mnemonic : String)
  deriving DecidableEq, Repr

/-- A core after reset: STEALSEED is the module core number + 1 (R394). -/
def Core.reset (core : Nat) : Core := { seed := BitVec.ofNat 16 (core + 1), lfsr := BitVec.ofNat 16 (core + 1) }

/-- The module right after reset: CLK 0 (R452), nothing resident, every register at its reset value. -/
def State.reset : State :=
  { clk := 0, waves := [], nextWave := 0, cores := [], engines := [], mem := {}, graph := {}, front := {}, mod := {}, events := [],
    sel := none, cur := none, agenda := [], turns := [], draws := 0 }

end Sys2Proof.Machine
end

