-- ==== Sys2Proof/Machine/Ops.lean ====
section
/-!
DEFINITION. The named operations on the state that every meaning uses: finding and updating waves, cores, teams and
gangs; reading and writing registers with their tags (R113-R122); making a cause pending (R442-R444), which is how every
exception is taken; entering the handler (R445) and leaving it (R446, R469).
-/

namespace Sys2Proof.Machine

/-- The outcome of a step of this machine. -/
abbrev Out := Host.Outcome State Fault Refusal

/-! ## Finding and updating -/

/-- The wave of a number. -/
def State.wave? (s : State) (u : Nat) : Option Wave := smFind s.waves u
/-- Put a wave in its place. -/
def State.setWave (s : State) (u : Nat) (w : Wave) : State := { s with waves := smPut u w s.waves }
/-- Update a wave if it exists. -/
def State.updWave (s : State) (u : Nat) (f : Wave → Wave) : State :=
  match s.wave? u with
  | some w => s.setWave u (f w)
  | none => s
/-- A core by module number. -/
def State.core (s : State) (c : Nat) : Core := (smFind s.cores c).getD (Core.reset c)
/-- Put a core in its place; a core as after reset is unlisted. -/
def State.setCore (s : State) (c : Nat) (x : Core) : State := { s with cores := smSet (Core.reset c) s.cores c x }
/-- Update a core. -/
def State.updCore (s : State) (c : Nat) (f : Core → Core) : State := s.setCore c (f (s.core c))
/-- A core's matrix engine. -/
def State.engine (s : State) (c : Nat) : Engine := smGet {} s.engines c
/-- Put an engine in its place. -/
def State.setEngine (s : State) (c : Nat) (x : Engine) : State := { s with engines := smSet {} s.engines c x }
/-- Update an engine. -/
def State.updEngine (s : State) (c : Nat) (f : Engine → Engine) : State := s.setEngine c (f (s.engine c))
/-- Update the graph unit. -/
def State.updGraph (s : State) (f : Graph → Graph) : State := { s with graph := f s.graph }
/-- Update memory. -/
def State.updMem (s : State) (f : Mem → Mem) : State := { s with mem := f s.mem }
/-- Update the front end. -/
def State.updFront (s : State) (f : Front → Front) : State := { s with front := f s.front }
/-- Update the module registers. -/
def State.updMod (s : State) (f : ModRegs → ModRegs) : State := { s with mod := f s.mod }
/-- A gang. -/
def State.gang? (s : State) (g : Nat) : Option Gang := smFind s.graph.gangs g
/-- Update a gang if it exists. -/
def State.updGang (s : State) (g : Nat) (f : Gang → Gang) : State :=
  match s.gang? g with
  | some x => s.updGraph fun r => { r with gangs := smPut g (f x) r.gangs }
  | none => s
/-- The key of a team: 4 × gang + team. -/
def teamKey (g t : Nat) : Nat := 4 * g + t
/-- A team by its key. -/
def State.team? (s : State) (k : Nat) : Option Team := smFind s.graph.teams k
/-- Update a team if it exists. -/
def State.updTeam (s : State) (k : Nat) (f : Team → Team) : State :=
  match s.team? k with
  | some x => s.updGraph fun r => { r with teams := smPut k (f x) r.teams }
  | none => s
/-- A resident kernel. -/
def State.kernel? (s : State) (k : Nat) : Option Kernel := smFind s.graph.kernels k
/-- Update a kernel if it exists. -/
def State.updKernel (s : State) (k : Nat) (f : Kernel → Kernel) : State :=
  match s.kernel? k with
  | some x => s.updGraph fun r => { r with kernels := smPut k (f x) r.kernels }
  | none => s
/-- The key of a node: ASID × 2^32 + number. -/
def nodeKey (asid num : Nat) : Nat := asid * 2 ^ 32 + num
/-- A node. -/
def State.node? (s : State) (k : Nat) : Option Node := smFind s.graph.nodes k
/-- Update a node if it exists. -/
def State.updNode (s : State) (k : Nat) (f : Node → Node) : State :=
  match s.node? k with
  | some x => s.updGraph fun r => { r with nodes := smPut k (f x) r.nodes }
  | none => s
/-- An address space's descriptor. -/
def State.asid (s : State) (a : Nat) : Asid := smGet {} s.mem.asids a
/-- Update an address space's descriptor. -/
def State.updAsid (s : State) (a : Nat) (f : Asid → Asid) : State :=
  s.updMem fun m => { m with asids := smSet {} m.asids a (f (smGet {} m.asids a)) }
/-- The team of a wave. -/
def Wave.teamKey (w : Wave) : Nat := Machine.teamKey w.gang w.team
/-- The context bank of a wave's gang on its core (R449). -/
def State.bank (s : State) (w : Wave) : Bank :=
  match s.team? w.teamKey with
  | some t => t.bank
  | none => {}
/-- Update the context bank of a wave. -/
def State.updBank (s : State) (w : Wave) (f : Bank → Bank) : State :=
  s.updTeam w.teamKey fun t => { t with bank := f t.bank }
/-- CTXCLK of a gang (R452). -/
def State.ctxclk (s : State) (g : Nat) : Nat :=
  match s.gang? g with
  | some x => x.ctxclk
  | none => 0
/-- The module core of a wave; a wave that is not placed has none and reads 0. -/
def Wave.core (w : Wave) : Nat :=
  match w.place with
  | some p => p.1
  | none => 0
/-- The slot of a wave. -/
def Wave.slot (w : Wave) : Nat :=
  match w.place with
  | some p => p.2
  | none => 0
/-- The slot of a wave in an image or a record: where it stands, or where it stood at its save. -/
def Wave.slotSeen (w : Wave) : Nat := (w.place.map Prod.snd).getD w.restSlot
/-- The core of a wave in a record, in the same way. -/
def Wave.coreSeen (w : Wave) : Nat := (w.place.map Prod.fst).getD w.restCore
/-- The quad of a module core, by module number 32d + q (R12). -/
def quadOf (core : Nat) : Nat := core / 4
/-- The die of a module core. -/
def dieOf (core : Nat) : Nat := core / 128
/-- Raise a host interrupt. -/
def State.irq (s : State) (kind arg : Nat) : State := s.updFront fun f => { f with irqs := (kind, arg) :: f.irqs }

/-- Bytes of a detail or record: a number in `k` bytes, little-endian. -/
def le (k n : Nat) : List Byte := bytesOfNat k n

/-- Pad to `k` bytes with zeros. -/
def padTo (k : Nat) (bs : List Byte) : List Byte := (bs ++ List.replicate k 0).take k

/-- A command ring entry (R482): tag, queue, kind, status, value. -/
def cmdEntry (tag queue kind status value : Nat) : List Byte := le 4 tag ++ le 2 queue ++ le 1 kind ++ le 1 status ++ le 8 value

/-- Key of a ring of an ASID: the command ring, or the node completion ring (R482). -/
def ringKey (asid : Nat) (node : Bool) : Nat := 2 * asid + if node then 1 else 0
/-- An entry waits to be written into a ring (R482, R483). -/
def State.ringPush (s : State) (asid : Nat) (node : Bool) (bs : List Byte) : State :=
  s.updFront fun f =>
    let r := smGet {} f.rings (ringKey asid node)
    { f with rings := smSet {} f.rings (ringKey asid node) { r with queue := r.queue ++ [bs] } }

/-! ## Splits -/

/-- The split of an entry: 0 to 3 the live entries, 4 the handler split (R90, R445). -/
def Wave.split? (w : Wave) (e : Nat) : Option Split :=
  if e = 4 then w.t.handler else (w.live[e]?).join
/-- Put a split in its entry. -/
def Wave.setSplit (w : Wave) (e : Nat) (x : Option Split) : Wave :=
  if e = 4 then { w with t := { w.t with handler := x } } else { w with live := w.live.set e x }
/-- Update the split of an entry if it is in use. -/
def Wave.updSplit (w : Wave) (e : Nat) (f : Split → Split) : Wave :=
  match w.split? e with
  | some x => w.setSplit e (some (f x))
  | none => w
/-- Update a split of a wave. -/
def State.updSplit (s : State) (u e : Nat) (f : Split → Split) : State := s.updWave u fun w => w.updSplit e f
/-- The live entries in use, with their numbers. -/
def Wave.liveSplits (w : Wave) : List (Nat × Split) :=
  (List.range 4).filterMap fun e => (w.split? e).map fun x => (e, x)
/-- Update every live split. -/
def Wave.mapLive (w : Wave) (f : Split → Split) : Wave := { w with live := w.live.map fun x => x.map f }
/-- Lanes that have not exited. -/
def Wave.present (w : Wave) : Mask := ~~~w.exited

/-! ## Registers (R113, R120) -/

/-- Key of lane l of register n. -/
def vkey (n l : Nat) : Nat := 32 * n + l
/-- Lane l of vn. -/
def Wave.getV (w : Wave) (n l : Nat) : W32 := smGet 0 w.r.v (vkey n l)
/-- The tag of lane l of vn: 0 untracked, 1 to 3 pending, 4 released (R120). -/
def Wave.getTag (w : Wave) (n l : Nat) : Nat := smGet 0 w.r.tag (vkey n l)
/-- A slot is released; a restored tag above 4 acts so (R116). -/
def Wave.dead (w : Wave) (n l : Nat) : Bool := decide (4 ≤ w.getTag n l)
/-- Set a tag. -/
def Wave.setTag (w : Wave) (n l t : Nat) : Wave := { w with r := { w.r with tag := smSet 0 w.r.tag (vkey n l) t } }
/-- Write lane l of vn with a consumer count (R120). -/
def Wave.setV (w : Wave) (n l : Nat) (x : W32) (cc : Nat) : Wave :=
  let k := vkey n l
  { w with r := { w.r with v := smSet 0 w.r.v k x, tag := smSet 0 w.r.tag k cc, badV := smSet false w.r.badV k false } }
/-- The low and the high half of a 64-bit word. -/
def lo32 (x : W64) : W32 := x.extractLsb' 0 32
/-- Bits [63:32]. -/
def hi32 (x : W64) : W32 := x.extractLsb' 32 32
/-- Two halves as one word. -/
def join32 (hi lo : W32) : W64 := hi ++ lo
/-- kn as the split sees it: k58, k59, k62 and k63 are the split's own (R90). -/
def Wave.getK (w : Wave) (sp : Split) (n : Nat) : W32 :=
  if n = 62 then lo32 sp.lr else if n = 63 then hi32 sp.lr
  else if n = 58 then lo32 sp.tlr else if n = 59 then hi32 sp.tlr
  else smGet 0 w.r.k n
/-- Write kn from the split of entry e (R90). -/
def Wave.setK (w : Wave) (e n : Nat) (x : W32) : Wave :=
  if n = 62 then w.updSplit e fun y => { y with lr := join32 (hi32 y.lr) x }
  else if n = 63 then w.updSplit e fun y => { y with lr := join32 x (lo32 y.lr) }
  else if n = 58 then w.updSplit e fun y => { y with tlr := join32 (hi32 y.tlr) x }
  else if n = 59 then w.updSplit e fun y => { y with tlr := join32 x (lo32 y.tlr) }
  else { w with r := { w.r with k := smSet 0 w.r.k n x, badK := smSet false w.r.badK n false } }
/-- p0-p7; p7 reads as 1 (R113). -/
def Wave.getP (w : Wave) (p : Nat) : Mask := if p = 7 then 0xFFFFFFFF else smGet 0 w.r.p p
/-- Write the lanes of `m` of a predicate; writes of p7 are ignored (R113). -/
def Wave.setP (w : Wave) (p : Nat) (m bits : Mask) : Wave :=
  if p = 7 then w
  else { w with r := { w.r with p := smSet 0 w.r.p p ((w.getP p &&& ~~~m) ||| (bits &&& m)), badP := smSet false w.r.badP p false } }
/-- The count of a completion flag (R62). -/
def Wave.getF (w : Wave) (n : Nat) : Nat := smGet 0 w.r.f n
/-- Set a completion flag. -/
def Wave.setF (w : Wave) (n c : Nat) : Wave := { w with r := { w.r with f := smSet 0 w.r.f n c } }

/-! ## Causes (R442-R444) -/

/-- TRAPCAUSE bits (R442). -/
inductive Cause where
  | illegal | deadread | addr | page | perm | arena | token | tstone | fetime | numstat | timer | swtrap | bkpt
  | splitovf | dataerr | qgated | maperr | engine
  deriving DecidableEq, Repr

/-- The bit of a cause (R442). -/
def Cause.num : Cause → Nat
  | .illegal => 0 | .deadread => 1 | .addr => 2 | .page => 3 | .perm => 4 | .arena => 5 | .token => 6 | .tstone => 7
  | .fetime => 8 | .numstat => 9 | .timer => 10 | .swtrap => 11 | .bkpt => 12 | .splitovf => 13 | .dataerr => 14
  | .qgated => 15 | .maperr => 16 | .engine => 17

/-- Put a detail into a queue kept in ascending key order, causes of one instruction in ascending bit order (R443). -/
def insertDetail (d : TDetail) : List TDetail → List TDetail
  | [] => [d]
  | x :: xs => if d.key < x.key ∨ (d.key = x.key ∧ d.cause < x.cause) then d :: x :: xs else x :: insertDetail d xs

/-- Push a detail; a full queue drops it and counts it in LOST (R443). -/
def WTrap.push (t : WTrap) (d : TDetail) : WTrap :=
  if t.dq.length < 4 then { t with dq := insertDetail d t.dq } else { t with lost := min 255 (t.lost + 1) }

/-- Stop a split that holds a lane of `m`; its sleep is over (R100, R442). -/
def Split.stopFor (m : Mask) (x : Split) : Split :=
  if x.mask &&& m = 0 then x else { x with stop := true, sleepTo := none }

/-- A cause becomes pending for the lanes `m` of a wave (R442): the bit, the lanes, the stop and the detail. -/
def Wave.pend (w : Wave) (c : Cause) (m : Mask) (d : Option TDetail) : Wave :=
  let t := { w.t with cause := w.t.cause ||| ((1 : W32) <<< c.num), planes := w.t.planes ||| m }
  let t := match d with
    | some x => t.push x
    | none => t
  ({ w with t := t }).mapLive (Split.stopFor m)

/-- The causes that have become pending in this clock (R468). -/
def WTrap.fresh (t : WTrap) (clk : Nat) : W32 := if t.newAt = clk + 1 then t.newBits else 0

/-- The record of a tagged word that has trapped says so (R459). -/
def TDetail.markSample (d : TDetail) (x : Nat × List Byte) : Nat × List Byte :=
  if x.1 = d.key ∧ x.2.take 8 = le 8 d.pc.toNat then (x.1, x.2.set 0x1F (x.2.getD 0x1F 0 ||| 1)) else x

/-- What else a cause leaves: that it came in this clock, and the mark in the record of a tagged word. -/
def Wave.notePend (w : Wave) (clk : Nat) (c : Cause) (d : Option TDetail) : Wave :=
  { w with
    t := { w.t with newAt := clk + 1, newBits := w.t.fresh clk ||| ((1 : W32) <<< c.num) }
    samples := d.elim w.samples fun x => w.samples.map x.markSample }

/-- Pending entries that raise an interrupt at once (R484). -/
def coalCount (c : W32) : Nat := max 1 (bitsOf c.toNat 23 16)
/-- IRQHOLD in clocks: HOLD µs, above 200 as 200 (R484). -/
def coalHold (c : W32) : Nat := 1400 * min 200 (bitsOf c.toNat 7 0)

/-- An entry's count rises: what is pending after, and whether the interrupt is raised at once. One that rises in the clock of a
raise belongs to it (R484). -/
def Coal.add (x : Coal) (c : W32) (clk : Nat) : Coal × Bool :=
  if x.raised = clk + 1 then (x, false)
  else if coalCount c ≤ x.pending + 1 ∨ coalHold c = 0 then ({ pending := 0, oldest := 0, raised := clk + 1 }, true)
  else ({ x with pending := x.pending + 1, oldest := if x.pending = 0 then clk else x.oldest }, false)

/-- The oldest pending entry has been pending for HOLD µs (R484). -/
def Coal.due (x : Coal) (c : W32) (clk : Nat) : Bool := decide (0 < x.pending) && decide (x.oldest + coalHold c ≤ clk)

/-- Post a fault record (R221) and count it for the module's fault interrupt (R484). -/
def State.postFault (s : State) (wave : Nat) (op : Option Nat) (kind : Nat)
    (addr asid : Nat) (akind window : Nat) (lanes : Mask) (pc : W64) (core slot reason : Nat) : State :=
  let n := s.front.nextFault
  let bs := le 8 addr ++ le 2 asid ++ le 1 akind ++ le 1 window ++ le 4 lanes.toNat ++ le 8 pc.toNat ++ le 2 core ++
    le 1 slot ++ le 1 reason ++ le 4 n
  let r := s.front.faultCo.add s.front.coal s.clk
  let s := s.updFront fun f => { f with faults := f.faults ++ [⟨n, bs, wave, op, kind, false⟩], nextFault := (n + 1) % 2 ^ 32, faultCo := r.1 }
  if r.2 then s.irq 1 0 else s

/-- The wave halts (R448): it issues nothing until the driver answers the record of kind 3. -/
def State.haltWave (s : State) (u : Nat) (m : Mask) (pc : W64) (reason : Nat) : State :=
  match s.wave? u with
  | none => s
  | some w =>
    let n := s.front.nextFault
    (s.setWave u { w with t := { w.t with halted := true, haltRecord := some n } }).postFault u none 3 0 w.asid 3 0 m pc w.coreSeen w.slotSeen reason

/-- The halt that a cause of a handler's instruction brings (R448): the handler split's mask, or, where that has gone through `trapret`,
the lanes of the cause; the PC of the instruction; the cause. One that is due already stands. -/
def Wave.toHalt (w : Wave) (c : Cause) (m : Mask) (d : Option TDetail) : Wave :=
  let x := (w.t.handler.elim m Split.mask, (d.map TDetail.pc).getD (w.t.handler.elim 0 Split.pc), c.num)
  { w with t := { w.t with halting := w.t.halting.or (some x) } }

/-- A cause becomes pending; where an instruction of the handler split raised it, the wave is to halt, be it after `trapret` (R448). -/
def State.pend (s : State) (u : Nat) (c : Cause) (m : Mask) (hmark : Bool) (d : Option TDetail) : State :=
  s.updWave u fun w =>
    let w := (w.pend c m d).notePend s.clk c d
    if hmark then w.toHalt c m d else w

/-! ## The issuing split -/

/-- The issuing split and its wave, with the word's place. `serial` is the word's issue serial (R443). -/
structure Env where
  u : Nat
  e : Nat
  w : Wave
  sp : Split
  ctx : Ctx
  serial : Nat
  /-- the draw this word may use (log 3) -/
  draw : Nat
  deriving DecidableEq, Repr

/-- The issuer is the handler split (R445). -/
def Env.isHandler (v : Env) : Bool := v.e == 4

/-- Lanes of the issuing split in which the guard is true: Active() (R37). -/
def Env.active (v : Env) (g : Guard) : Mask :=
  let p := v.w.getP g.p
  v.sp.mask &&& (if g.neg then ~~~p else p)

/-- The detail of the issuing instruction (R444). -/
def Env.detail (v : Env) (c : Cause) (code : Nat) (m : Mask) (info : List Byte) : TDetail :=
  ⟨v.serial, v.ctx.pc, c.num, code, if v.e = 4 then 0xFF else v.e, v.sp.ver, m, padTo 16 info⟩

/-- A precise trap of the issuing word: the cause becomes pending, the split stays at the word (R219, R442). -/
def State.trapAt (s : State) (v : Env) (c : Cause) (code : Nat) (m : Mask) (info : List Byte) : State :=
  s.pend v.u c m v.isHandler (some (v.detail c code m info))

/-- ILLEGAL with a detail of R83, for every lane of the split. -/
def State.illegal (s : State) (v : Env) (d : Detail) : State :=
  s.trapAt v .illegal d.code v.sp.mask (le 8 v.ctx.word.toNat)

/-! ## Taking the handler (R445) -/

/-- A wave's index among the carve-outs of its kernel (R376). -/
def State.waveIndex (s : State) (w : Wave) : Nat :=
  match s.gang? w.gang, s.kernel? w.kernel with
  | some g, some k =>
    let i := match w.res with
      | some j => k.waves + j
      | none => w.index
    (g.num * k.teams + w.team) * (k.waves + k.tasks) + i
  | _, _ => 0

/-- A hold that handler entry withdraws: the instruction issues again after `trapret`; a barrier stays, a sleep is over
(R445 step 1). The split leaves its line (R58), and a transfer that has parked arrives again (R435); one that was stopped at a
header merges at no later arrival of another split (R94). -/
def Split.withdraw (x : Split) : Split :=
  let b := match x.block with
    | .barrier lv n r => Block.barrier lv n r
    | _ => .none
  let left := match x.block with
    | .fe o _ => some o.todo
    | _ => x.feLeft
  { x with block := b, feLeft := left, released := false, mergeTo := none, sleepTo := none, stop := true, buf := none, xfer := false,
           xferDone := x.xferDone || (x.stop && x.arrived) }

/-- Enter the handler at once (R445). A zero vector halts the wave instead, leaving TRAPLANES as it stood. -/
def State.enterHandler (s : State) (u : Nat) : State :=
  match s.wave? u with
  | none => s
  | some w =>
    let b := s.bank w
    let m := w.t.planes &&& w.present
    let m := if m = 0 then w.present else m
    let tgt := if w.t.cause.getLsbD Cause.bkpt.num && b.assayvec ≠ 0 then b.assayvec else b.trapvec
    let w := w.mapLive Split.withdraw
    if tgt = 0 then
      let pc := match w.t.dq with
        | d :: _ => d.pc
        | [] => 0
      let reason := match (List.range 18).find? (fun i => w.t.cause.getLsbD i) with
        | some i => i
        | none => match w.t.dq with
          | d :: _ => d.cause
          | [] => 0
      (s.setWave u w).haltWave u m pc reason
    else
      let scr := b.trapscr.toNat + 8192 * s.waveIndex w
      let x : W64 := BitVec.ofNat 64 scr
      let w := (w.setK 0 56 (lo32 x)).setK 0 57 (hi32 x)
      let h : Split := { pc := tgt, mask := m, ver := 0, due := .vector }
      let pcs := (w.live ++ w.ovf.reverse.map some).map fun y => y.map Split.pc
      let w := { w with t := { w.t with planes := 0, handler := some h, entryPcs := pcs, spare := [] } }
      let s := s.setWave u w
      s.updBank w fun b => { b with pmc := smSet 0 b.pmc 7 (smGet 0 b.pmc 7 + 1) }

/-- The wave enters a handler as soon as it can: a cause or a detail stands, no handler split exists, it is not halted
and lanes remain (R445, R473). -/
def Wave.wantsHandler (w : Wave) : Bool :=
  (w.t.cause ≠ 0 || !w.t.dq.isEmpty) && w.t.handler.isNone && !w.t.halted && w.t.halting.isNone && w.present ≠ 0

end Sys2Proof.Machine
end

