-- ==== Sys2Proof/Machine/Operands.lean ====
section
/-!
DEFINITION. What each operand form reads (R15, R67-R71), the consumer counts and the DEADREAD check of a word (R121),
and how results are written to a vector or a uniform destination (R72, R120).
-/

namespace Sys2Proof.Machine

/-- Inline floats (R69). -/
def inlineFloat : Nat → W32
  | 0 => 0x3F000000 | 1 => 0xBF000000 | 2 => 0x3F800000 | 3 => 0xBF800000 | 4 => 0x40000000 | 5 => 0xC0000000
  | 6 => 0x40800000 | 7 => 0xC0800000 | 8 => 0x3E800000 | 9 => 0xBE800000 | 10 => 0x3E000000 | 11 => 0x3FB8AA3B
  | 12 => 0x3F317218 | 13 => 0x7F800000 | 14 => 0xFF800000 | _ => 0x80000000

/-- Bits [31:16]. -/
def hi16 (x : W32) : BitVec 16 := x.extractLsb' 16 16

/-- The node whose work a wave is doing (R15, R410). -/
def Wave.node (w : Wave) : Nat :=
  match w.wk.held with
  | c :: _ => c.node
  | [] =>
    if w.role = .task then
      match w.wk.tasks.find? (fun t => !hasLane w.exited t.lane) with
      | some t => t.node
      | none => 0xFFFFFFFF
    else 0xFFFFFFFF

/-- A special source (R15); `core` is a module core number. -/
def State.special (s : State) (v : Env) (l : Nat) : Special → W32
  | .lane => BitVec.ofNat 32 l
  | .wave => BitVec.ofNat 32 v.w.index
  | .split => if v.e = 4 then 0 else BitVec.ofNat 32 v.e
  | .team => BitVec.ofNat 32 v.w.team
  | .gang => BitVec.ofNat 32 ((s.gang? v.w.gang).elim 0 Gang.num)
  | .core => BitVec.ofNat 32 (v.w.core % 128)
  | .quad => BitVec.ofNat 32 (quadOf v.w.core % 32)
  | .die => BitVec.ofNat 32 (dieOf v.w.core)
  | .pkg => BitVec.ofNat 32 s.mod.pkg
  | .node => BitVec.ofNat 32 v.w.node
  | .ver => BitVec.ofNat 32 v.sp.ver
  | .clk => BitVec.ofNat 32 s.clk

/-- A free value for slot n of lane l in this word (log 3). -/
def Env.free (v : Env) (n l : Nat) : W32 := Config.freeWord (8192 * v.draw + vkey n l)

/-- Lane l of vn as the word reads it: in a patch line a released slot reads as a free value (R111). -/
def Env.readV (v : Env) (n l : Nat) : W32 := if v.ctx.patch && v.w.dead n l then v.free n l else v.w.getV n l

/-- Read(X, l): the 32-bit value of a source in lane l (R67-R70). -/
def State.rd (s : State) (v : Env) (l : Nat) : Src → W32
  | .v n => v.readV n l
  | .k n => v.w.getK v.sp n
  | .sp x => s.special v l x
  | .int n => BitVec.ofNat 32 n
  | .flt n => inlineFloat n
  | .imm signed x => if signed then x.signExtend 32 else x.zeroExtend 32
  | .lit x => lo32 x

/-- The two bf16 values of a bf16x2 source: an inline float gives its bf16 value in both halves (R69). -/
def State.rdHalves (s : State) (v : Env) (l : Nat) : Src → W32
  | .flt n => hi16 (inlineFloat n) ++ hi16 (inlineFloat n)
  | x => s.rd v l x

/-- Read64(X, l): the 64-bit value of a source (R71). -/
def State.rd64 (s : State) (v : Env) (l : Nat) : Src → W64
  | .v n => join32 (v.readV (n + 1) l) (v.readV n l)
  | .k n => join32 (v.w.getK v.sp (n + 1)) (v.w.getK v.sp n)
  | .imm signed x => if signed then x.signExtend 64 else x.zeroExtend 64
  | .lit x => x
  | x => (s.rd v l x).zeroExtend 64

/-- The words of a source of n registers (R226). -/
def State.rdN (s : State) (v : Env) (n l : Nat) (x : Src) : List W32 :=
  match n with
  | 1 => [s.rd v l x]
  | 2 => let y := s.rd64 v l x; [lo32 y, hi32 y]
  | _ =>
    match x with
    | .v m => (List.range n).map fun i => v.readV (m + i) l
    | .k m => (List.range n).map fun i => v.w.getK v.sp (m + i)
    | _ => []

/-! ## Consumer counts (R121) -/

/-- The vector registers that the reads of a word name, each once. -/
def vRegs (xs : List (Src × Nat)) : List Nat :=
  (xs.flatMap fun x => match x.1 with
    | .v n => (List.range x.2).map (n + ·)
    | _ => []).eraseDups

/-- Lanes of `m` in which vn is released. -/
def Wave.deadLanes (w : Wave) (m : Mask) (n : Nat) : Mask := maskOf ((lanesOf m).filter (w.dead n))

/-- One read of lane l of vn: pending c becomes pending c - 1, and pending 1 becomes released (R121). -/
def Wave.consume (w : Wave) (n l : Nat) : Wave :=
  match w.getTag n l with
  | 1 => w.setTag n l 4
  | 2 => w.setTag n l 1
  | 3 => w.setTag n l 2
  | _ => w

/-- Every read of a word, in the lanes of `m`: the first register found released with its lanes, or the wave with its
tags decremented. Of several released registers the first in operand order is named, with its own lanes (DESIGN CHOICE, log 89). A word
of a patch line checks and changes no tag (R111, R121). -/
def Env.consume (v : Env) (m : Mask) (xs : List (Src × Nat)) : Except (Nat × Mask) Wave :=
  if v.ctx.patch then .ok v.w
  else
    let rs := vRegs xs
    match rs.find? (fun n => v.w.deadLanes m n ≠ 0) with
    | some n => .error (n, v.w.deadLanes m n)
    | none => .ok (rs.foldl (fun w n => (lanesOf m).foldl (fun w l => w.consume n l) w) v.w)

/-! ## Results -/

/-- Write one 32-bit result (R120). -/
def Wave.put (w : Wave) (e : Nat) (d : Dst) (cc l : Nat) (x : W32) : Wave :=
  match d with
  | .v n => w.setV n l x cc
  | .k n => w.setK e n x

/-- Write a 64-bit result to a pair. -/
def Wave.put64 (w : Wave) (e : Nat) (d : Dst) (cc l : Nat) (x : W64) : Wave :=
  match d with
  | .v n => (w.setV n l (lo32 x) cc).setV (n + 1) l (hi32 x) cc
  | .k n => (w.setK e n (lo32 x)).setK e (n + 1) (hi32 x)

/-- Write words to consecutive registers (R227). -/
def Wave.putWords (w : Wave) (e : Nat) (d : Dst) (cc l : Nat) : List W32 → Wave
  | [] => w
  | x :: xs =>
    let d' := match d with
      | .v n => Dst.v (n + 1)
      | .k n => .k (n + 1)
    (w.put e d cc l x).putWords e d' cc l xs

/-- The lanes a form works on: those of Active(), or one for a uniform form (R72). -/
def dstLanes (d : Dst) (m : Mask) : List Nat :=
  match d with
  | .v _ => lanesOf m
  | .k _ => if m = 0 then [] else [lowLane m]

/-- Write f(l) in every lane of the form. -/
def Wave.putAll (w : Wave) (e : Nat) (d : Dst) (cc : Nat) (m : Mask) (f : Nat → W32) : Wave :=
  (dstLanes d m).foldl (fun w l => w.put e d cc l (f l)) w

/-- Write the pair f(l) in every lane of the form. -/
def Wave.putAll64 (w : Wave) (e : Nat) (d : Dst) (cc : Nat) (m : Mask) (f : Nat → W64) : Wave :=
  (dstLanes d m).foldl (fun w l => w.put64 e d cc l (f l)) w

/-- The lanes of `m` in which a condition holds. -/
def lanesWhere (m : Mask) (f : Nat → Bool) : Mask := maskOf ((lanesOf m).filter f)

end Sys2Proof.Machine
end

