-- ==== Sys2Proof/Machine/Flags.lean ====
section
/-!
DEFINITION. Flags: completion flags and their selection (R62), predicate results (R128, R144), and the statistics events
with their counters and actions (R184-R192).
-/

namespace Sys2Proof.Machine

/-- The hardware flag that FSEL selects in the clause: A or B; none where its valid bit is clear (R62). -/
def Ctx.flag (c : Ctx) (fsel : Bool) : Option Nat := if fsel then c.fb else c.fa

/-- Raise a completion flag by one. -/
def Wave.incF (w : Wave) (n : Nat) : Wave := w.setF n (w.getF n + 1)

/-- Lower a completion flag by one. -/
def Wave.decF (w : Wave) (n : Nat) : Wave := w.setF n (w.getF n - 1)

/-- Lower the flag an operation holds. -/
def Wave.dropFlag (w : Wave) (f : Option Nat) : Wave :=
  match f with
  | some n => w.decF n
  | none => w

/-- Every flag of a WAIT field is clear (R61). -/
def Wave.waitClear (w : Wave) (wait : Nat) : Bool := (List.range 12).all fun n => !wait.testBit n || w.getF n == 0

/-- Every completion flag is clear (R97). -/
def Wave.flagsClear (w : Wave) : Bool := (List.range 12).all fun n => w.getF n == 0

/-- COMB of a comparison into predicate pd (R144). -/
def Wave.comb (w : Wave) (c : Comb) (pd : Nat) (m r : Mask) : Wave :=
  match c with
  | .set => w.setP pd m r
  | .and => w.setP pd m (w.getP pd &&& r)
  | .or => w.setP pd m (w.getP pd ||| r)

/-! ## Statistics -/

/-- Class codes (R184). -/
inductive NsClass where
  | inv | dz | ovf | unf | inx | sat | cbc
  deriving DecidableEq, Repr

/-- R184. -/
def NsClass.code : NsClass → Nat
  | .inv => 0 | .dz => 1 | .ovf => 2 | .unf => 3 | .inx => 4 | .sat => 5 | .cbc => 6

/-- Events of one lane. -/
abbrev Events := List NsClass

/-- The events of a word: class code and lane, lane 32 standing for the wave; each at most once (R184). -/
abbrev EventList := List (Nat × Nat)

/-- Tag a lane's events with its lane. -/
def evAt (l : Nat) (es : Events) : EventList := es.map fun c => (c.code, l)

/-- Add a number to a 32-bit count, saturating (R185). -/
def satAdd32 (x : W32) (n : Nat) : W32 := BitVec.ofNat 32 (min (x.toNat + n) (2 ^ 32 - 1))

/-- Add to a 16-bit count, saturating (R185). -/
def satAdd16 (x : BitVec 16) (n : Nat) : BitVec 16 := BitVec.ofNat 16 (min (x.toNat + n) (2 ^ 16 - 1))

/-- Count n events of class c: the bank after, and the action to take where the threshold is passed (R185). -/
def Bank.count (b : Bank) (c n : Nat) : Bank × Option Nat :=
  let old := smGet 0 b.nswcnt c
  let new := satAdd16 old n
  let thr := smGet 0xFFFF b.nsthr c
  let fires := decide (old ≤ thr) && decide (thr < new) && !b.nsctl.getLsbD (16 + c)
  let b := { b with nscnt := smSet 0 b.nscnt c (satAdd32 (smGet 0 b.nscnt c) n), nswcnt := smSet 0 b.nswcnt c new }
  if fires then ({ b with nsctl := b.nsctl ||| ((1 : W32) <<< (16 + c)) }, some (bitsOf b.nsctl.toNat (2 * c + 1) (2 * c)))
  else (b, none)

/-- An instruction's events reach the statistics block of its wave (R185). -/
def State.count (s : State) (x : EvSrc) (evs : EventList) : State :=
  if evs.isEmpty then s
  else match s.wave? x.u with
    | none => s
    | some w => { s with events := s.events ++ [⟨w.teamKey, w.slot, w.asid, w.core, x, evs⟩] }

/-- The lanes in which an instruction recorded a class; 32 stands for the wave. -/
def EvRec.lanesIn (r : EvRec) (c : Nat) : List Nat := ((r.evs.filter fun e => e.1 == c).map Prod.snd).eraseDups

/-- The action of a class whose window count has passed its threshold (R187): NUMSTAT for the lanes that recorded the class, or for the
lanes of a uniform form; an event in the command ring. -/
def State.nsAct (s : State) (r : EvRec) (c : Nat) (b : Bank) (act : Nat) : State :=
  let m := if (r.lanesIn c).contains 32 then r.src.lanes else maskOf (r.lanesIn c)
  let s := if act % 2 = 1 then
      let info := padTo 16 (le 2 (smGet 0 b.nswcnt c).toNat)
      s.pend r.src.u .numstat m r.src.hmark (some ⟨r.src.serial, r.src.pc, Cause.numstat.num, c, r.src.entry, r.src.ver, m, info⟩)
    else s
  if act / 2 % 2 = 1 then s.ringPush r.asid false (cmdEntry 0 0 0x80 0 (r.core + c * 2 ^ 16)) else s

/-- The block adds one class of an instruction's events, and takes the action that this brings (R185). -/
def State.addClass (s : State) (r : EvRec) (c : Nat) : State :=
  match r.lanesIn c, s.team? r.key with
  | [], _ => s
  | _, none => s
  | l :: ls, some t =>
    let x := t.bank.count c (l :: ls).length
    let s := s.updTeam r.key fun t => { t with bank := x.1 }
    match x.2 with
    | none => s
    | some act => s.nsAct r c x.1 act

/-- The block adds an instruction's events, class by class. -/
def State.addEvents (s : State) (r : EvRec) : State := (List.range 7).foldl (fun s c => s.addClass r c) s

/-- The order of one clock's events (R185): the wave slot, then the issue serial. -/
def EvRec.before (a b : EvRec) : Bool := decide (a.slotNo < b.slotNo) || (a.slotNo == b.slotNo && decide (a.src.serial < b.src.serial))

/-- Put events into that order, behind those of the same instruction. -/
def insertEv (a : EvRec) : List EvRec → List EvRec
  | [] => [a]
  | b :: bs => if !a.before b then b :: insertEv a bs else a :: b :: bs

/-- The blocks add those of this clock's events that `p` selects, in the order of R185. -/
def State.settleOf (s : State) (p : EvRec → Bool) : State :=
  ((s.events.filter p).foldl (fun xs r => insertEv r xs) []).foldl State.addEvents { s with events := s.events.filter fun r => !p r }

/-- At the end of a clock the blocks add its events in the order of R185. -/
def State.settleEvents (s : State) : State := s.settleOf fun _ => true

/-- The events source of the issuing word. -/
def Env.evSrc (v : Env) (m : Mask) : EvSrc :=
  ⟨v.u, m, v.isHandler, v.serial, v.ctx.pc, if v.e = 4 then 0xFF else v.e, v.sp.ver⟩

/-- Window length: below 1,024 acts as 1,024 (R186, R192). -/
def Bank.window (b : Bank) : Nat := max 1024 b.nswin.toNat

/-- A statistics window begins: every window count and FIRED bit is cleared (R186). -/
def Bank.startWindow (b : Bank) : Bank := { b with nswcnt := [], nsctl := b.nsctl &&& 0xFF80FFFF }

/-- A window starts at this CTXCLK, and has not been started: CTXCLK may stand still through a save (R186, R452). -/
def Bank.windowDue (b : Bank) (ctx : Nat) : Bool :=
  decide (b.nsbase < ctx) && (ctx - b.nsbase) % b.window == 0 && b.nslast != ctx

end Sys2Proof.Machine
end

