-- ==== Sys2Proof/Machine/Float.lean ====
section
/-!
DEFINITION. Floating point (R47, R51, R150, R154, R155, R168-R183): values of patterns, the one rounding, and what each
operation gives with the events it counts. Operands are patterns as numbers; arithmetic is exact until the rounding.
-/

namespace Sys2Proof.Machine

/-- A floating format (R150, R155): precision, exponent bits, bias; fe4m3 has no infinity. -/
structure FF where
  p : Nat
  ebits : Nat
  bias : Nat
  finOnly : Bool := false
  deriving DecidableEq, Repr

/-- f32. -/
def ffF32 : FF := ⟨24, 8, 127, false⟩
/-- bf16. -/
def ffBf16 : FF := ⟨8, 8, 127, false⟩
/-- fe4m3. -/
def ffFe4m3 : FF := ⟨4, 4, 7, true⟩
/-- fe5m2. -/
def ffFe5m2 : FF := ⟨3, 5, 15, false⟩

/-- The sign bit. -/
def FF.sign (F : FF) : Nat := 2 ^ (F.ebits + F.p - 1)
/-- A pattern of a sign and a magnitude. -/
def FF.signed (F : FF) (neg : Bool) (x : Nat) : Nat := (if neg then F.sign else 0) + x
/-- The magnitude pattern of infinity (of the first pattern above every number, in fe4m3). -/
def FF.infMag (F : FF) : Nat := if F.finOnly then F.sign - 1 else (2 ^ F.ebits - 1) * 2 ^ (F.p - 1)
/-- The largest finite magnitude. -/
def FF.maxMag (F : FF) : Nat := F.infMag - 1
/-- The canonical NaN. -/
def FF.nan (F : FF) : Nat := if F.finOnly then F.sign - 1 else F.infMag + 2 ^ (F.p - 2)
/-- The exponent of the least subnormal: emin - p + 1. -/
def FF.qmin (F : FF) : Int := 2 - (F.bias : Int) - (F.p : Int)

/-- The value of a pattern: (-1)^neg × m × 2^e where finite. -/
inductive FV where
  | nan (signalling : Bool)
  | inf (neg : Bool)
  | fin (neg : Bool) (m : Nat) (e : Int)
  deriving DecidableEq, Repr

/-- Read a pattern (R150, R168). -/
def FF.val (F : FF) (x : Nat) : FV :=
  let neg := decide (F.sign ≤ x % (2 * F.sign))
  let mag := x % F.sign
  let f := 2 ^ (F.p - 1)
  if F.finOnly && mag == F.sign - 1 then .nan false
  else if !F.finOnly && mag == F.infMag then .inf neg
  else if !F.finOnly && decide (F.infMag < mag) then .nan (F.ebits == 8 && decide (mag % f < f / 2))
  else if mag < f then .fin neg mag F.qmin
  else .fin neg (f + mag % f) (F.qmin + (mag / f : Nat) - 1)

/-- It is a NaN. -/
def FV.isNan : FV → Bool
  | .nan _ => true
  | _ => false
/-- It is a signalling NaN. -/
def FV.isSnan : FV → Bool
  | .nan s => s
  | _ => false
/-- It is an infinity. -/
def FV.isInf : FV → Bool
  | .inf _ => true
  | _ => false
/-- It is a zero. -/
def FV.isZero : FV → Bool
  | .fin _ 0 _ => true
  | _ => false
/-- Its sign (of a NaN: clear). -/
def FV.neg : FV → Bool
  | .nan _ => false
  | .inf s => s
  | .fin s _ _ => s

/-! ## Rounding (R154, R155) -/

/-- Whether the magnitude steps up: odd quotient, remainder against half (-1, 0, 1), inexact. -/
def roundUp (r : Rnd) (neg odd : Bool) (cmp : Int) (inx : Bool) : Bool :=
  match r with
  | .rn => decide (0 < cmp) || (cmp == 0 && odd)
  | .rz => false
  | .ru => inx && !neg
  | .rd => inx && neg

/-- Compare a remainder with half of 2^sh. -/
def halfCmp (rem sh : Nat) : Int := if 2 * rem < 2 ^ sh then -1 else if 2 * rem = 2 ^ sh then 0 else 1

/-- Divide by 2^sh and round: the quotient, and whether it is inexact. A shift far above the number needs no power. -/
def shiftRound (r : Rnd) (neg : Bool) (sig sh : Nat) : Nat × Bool :=
  if Nat.log2 sig + 2 < sh then ((if roundUp r neg false (-1) true then 1 else 0), true)
  else
    let quot := sig / 2 ^ sh
    let rem := sig % 2 ^ sh
    let inx := rem != 0
    ((if inx && roundUp r neg (quot % 2 == 1) (halfCmp rem sh) inx then quot + 1 else quot), inx)

/-- RoundTo(F, ±sig × 2^exp, m) for sig ≠ 0: the pattern's magnitude with no upper bound, inexact, and below 2^emin. -/
def FF.roundMag (F : FF) (r : Rnd) (neg : Bool) (sig : Nat) (exp : Int) : Nat × Bool × Bool :=
  let top := (Nat.log2 sig : Int) + exp
  let emin := 1 - (F.bias : Int)
  let q := max top emin - F.p + 1
  let x := if q ≤ exp then (sig * 2 ^ (exp - q).toNat, false) else shiftRound r neg sig (q - exp).toNat
  ((q - F.qmin).toNat * 2 ^ (F.p - 1) + x.1, x.2, decide (top < emin))

/-- What an overflow gives by mode and sign (R47). -/
def FF.overflow (F : FF) (r : Rnd) (neg : Bool) : Nat :=
  F.signed neg (match r with
    | .rn => F.infMag
    | .rz => F.maxMag
    | .ru => if neg then F.maxMag else F.infMag
    | .rd => if neg then F.infMag else F.maxMag)

/-- Events of a rounding without overflow. -/
def roundEvents (inx tiny : Bool) : Events := (if inx && tiny then [.unf] else []) ++ (if inx then [.inx] else [])

/-- RoundF32 of R47, in any format with infinities: a nonzero exact real to a pattern, with its events. -/
def FF.round (F : FF) (r : Rnd) (neg : Bool) (sig : Nat) (exp : Int) : Nat × Events :=
  let x := F.roundMag r neg sig exp
  if F.infMag ≤ x.1 then (F.overflow r neg, [.ovf, .inx]) else (F.signed neg x.1, roundEvents x.2.1 x.2.2)

/-- The same for a real strictly between sig and sig + 1 units of 2^exp, where sig has bits to spare. -/
def FF.roundSticky (F : FF) (r : Rnd) (neg sticky : Bool) (sig : Nat) (exp : Int) : Nat × Events :=
  if sticky then F.round r neg (2 * sig + 1) (exp - 1) else F.round r neg sig exp

/-- Round a signed exact sum v × 2^e; `z0` is what an exact zero gives. -/
def FF.roundInt (F : FF) (r : Rnd) (v : Int) (e : Int) (z0 : Nat) : Nat × Events :=
  if v = 0 then (z0, []) else F.round r (decide (v < 0)) v.natAbs e

/-- A signed mantissa. -/
def signedMant (neg : Bool) (m : Nat) : Int := if neg then -(m : Int) else m

/-- The exact sum of two finite values as a mantissa and an exponent. -/
def addDyadic (v : Int) (e : Int) (w : Int) (f : Int) : Int × Int :=
  let g := min e f
  (v * 2 ^ (e - g).toNat + w * 2 ^ (f - g).toNat, g)

/-- INV for a signalling NaN among the operands. -/
def snanEv (xs : List FV) : Events := if xs.any FV.isSnan then [.inv] else []

/-- The zero of a cancelled sum: -0 under `.rd`. -/
def FF.cancel (F : FF) (r : Rnd) : Nat := F.signed (r == .rd) 0

/-! ## Arithmetic (R51, R171-R173) -/

/-- `fadd` (R171). -/
def FF.add (F : FF) (r : Rnd) (a b : Nat) : Nat × Events :=
  let x := F.val a
  let y := F.val b
  let ev := snanEv [x, y]
  match x, y with
  | .nan _, _ => (F.nan, ev)
  | _, .nan _ => (F.nan, ev)
  | .inf s, .inf t => if s = t then (a, ev) else (F.nan, .inv :: ev)
  | .inf _, _ => (a, ev)
  | _, .inf _ => (b, ev)
  | .fin s m e, .fin t n f =>
    let z := addDyadic (signedMant s m) e (signedMant t n) f
    let z0 := if m = 0 ∧ n = 0 ∧ s = t then a else F.cancel r
    F.roundInt r z.1 z.2 z0

/-- `fsub` (R171): the sign of b is inverted unless b is a NaN. -/
def FF.sub (F : FF) (r : Rnd) (a b : Nat) : Nat × Events :=
  F.add r a (if (F.val b).isNan then b else if F.sign ≤ b then b - F.sign else b + F.sign)

/-- `fmul` (R171). -/
def FF.mul (F : FF) (r : Rnd) (a b : Nat) : Nat × Events :=
  let x := F.val a
  let y := F.val b
  let ev := snanEv [x, y]
  let s := x.neg != y.neg
  if x.isNan || y.isNan then (F.nan, ev)
  else if (x.isInf && y.isZero) || (x.isZero && y.isInf) then (F.nan, .inv :: ev)
  else if x.isInf || y.isInf then (F.signed s F.infMag, ev)
  else match x, y with
    | .fin _ m e, .fin _ n f => if m * n = 0 then (F.signed s 0, ev) else F.round r s (m * n) (e + f)
    | _, _ => (F.nan, ev)

/-- `ffma` (R51). -/
def FF.fma (F : FF) (r : Rnd) (a b c : Nat) : Nat × Events :=
  let x := F.val a
  let y := F.val b
  let z := F.val c
  let ev := snanEv [x, y, z]
  let zinf := (x.isInf && y.isZero) || (x.isZero && y.isInf)
  let s := x.neg != y.neg
  if x.isNan || y.isNan || z.isNan || zinf then (F.nan, if zinf then .inv :: ev else ev)
  else if x.isInf || y.isInf then
    if z.isInf && z.neg != s then (F.nan, .inv :: ev) else (F.signed s F.infMag, ev)
  else if z.isInf then (c, ev)
  else match x, y, z with
    | .fin _ m e, .fin _ n f, .fin t k g =>
      let v := addDyadic (signedMant s (m * n)) (e + f) (signedMant t k) g
      let z0 := if m * n = 0 ∧ k = 0 ∧ s = t then c else F.cancel r
      F.roundInt r v.1 v.2 z0
    | _, _, _ => (F.nan, ev)

/-- The product of two values as a term of an exact sum. -/
def FV.times (x y : FV) : FV :=
  if x.isNan || y.isNan || (x.isInf && y.isZero) || (x.isZero && y.isInf) then .nan false
  else match x, y with
    | .fin s m e, .fin t n f => .fin (s != t) (m * n) (e + f)
    | _, _ => .inf (x.neg != y.neg)

/-- The exact sum of the finite values of a list. -/
def sumFV (xs : List FV) : Int × Int :=
  xs.foldl (fun a x => match x with
    | .fin s m e => addDyadic a.1 a.2 (signedMant s m) e
    | _ => a) (0, 0)

/-- `fdot2` (R173). -/
def fdot2F (r : Rnd) (a b c : Nat) : Nat × Events :=
  let F := ffF32
  let h := fun (x : Nat) => ffBf16.val x
  let hs := [h (a % 65536), h (b % 65536), h (a / 65536), h (b / 65536)]
  let z := F.val c
  let p0 := (h (a % 65536)).times (h (b % 65536))
  let p1 := (h (a / 65536)).times (h (b / 65536))
  let zinf := ((p0.isNan && !(h (a % 65536)).isNan && !(h (b % 65536)).isNan) ||
    (p1.isNan && !(h (a / 65536)).isNan && !(h (b / 65536)).isNan))
  let ev := if zinf then [.inv] else snanEv (z :: hs)
  let ts := [p0, p1, z]
  if ts.any FV.isNan then (F.nan, ev)
  else if ts.any (fun t => t.isInf && t.neg) && ts.any (fun t => t.isInf && !t.neg) then (F.nan, .inv :: ev)
  else match ts.find? FV.isInf with
    | some t => (F.signed t.neg F.infMag, ev)
    | none =>
      let v := sumFV ts
      let z0 := if ts.all FV.isZero && ts.all (fun t => t.neg == z.neg) then F.signed z.neg 0 else F.cancel r
      F.roundInt r v.1 v.2 z0

/-- A bf16 operation on both halves (R172). -/
def halves (f : Nat → Nat → Nat × Events) (a b : Nat) : Nat × Events :=
  let lo := f (a % 65536) (b % 65536)
  let hi := f (a / 65536) (b / 65536)
  (hi.1 * 65536 + lo.1, lo.2 ++ hi.2)

/-- `ffma.bf16x2` (R172). -/
def fmaHalves (r : Rnd) (a b c : Nat) : Nat × Events :=
  let lo := ffBf16.fma r (a % 65536) (b % 65536) (c % 65536)
  let hi := ffBf16.fma r (a / 65536) (b / 65536) (c / 65536)
  (hi.1 * 65536 + lo.1, lo.2 ++ hi.2)

/-! ## Order (R174, R175) -/

/-- Compare two finite values or infinities: -1, 0 or 1; zeros are equal. -/
def FV.cmp (x y : FV) : Int :=
  match x, y with
  | .inf s, .inf t => if s = t then 0 else if s then -1 else 1
  | .inf s, _ => if s then -1 else 1
  | _, .inf t => if t then 1 else -1
  | .fin s m e, .fin t n f =>
    let d := addDyadic (signedMant s m) e (-(signedMant t n)) f
    if d.1 < 0 then -1 else if d.1 = 0 then 0 else 1
  | _, _ => 0

/-- Below, with -0 below +0 (R174). -/
def FV.below (x y : FV) : Bool := x.cmp y == -1 || (x.isZero && y.isZero && x.neg && !y.neg)

/-- `fmin` and `fmax` (R174). -/
def fminmaxF (isMax : Bool) (a b : Nat) : Nat × Events :=
  let x := ffF32.val a
  let y := ffF32.val b
  let ev := snanEv [x, y]
  let res := if x.isNan && y.isNan then ffF32.nan else if x.isNan then b else if y.isNan then a
    else if isMax then (if x.below y then b else a) else (if y.below x then b else a)
  (res, ev)

/-- `fcmp` (R175). -/
def fcmpF (c : FCond) (a b : Nat) : Bool × Events :=
  let x := ffF32.val a
  let y := ffF32.val b
  let un := x.isNan || y.isNan
  let d := x.cmp y
  let quiet := snanEv [x, y]
  let loud : Events := if un then [.inv] else []
  match c with
  | .eq => (!un && d == 0, quiet)
  | .ne => (un || d != 0, quiet)
  | .lt => (!un && d == -1, loud)
  | .le => (!un && decide (d ≤ 0), loud)
  | .gt => (!un && d == 1, loud)
  | .ge => (!un && decide (0 ≤ d), loud)
  | .ord => (!un, quiet)
  | .un => (un, quiet)

/-- `fclass` (R176). -/
def fclassF (a : Nat) : Nat :=
  let neg := decide (2 ^ 31 ≤ a)
  match ffF32.val a with
  | .nan s => if s then 2 ^ 8 else 2 ^ 9
  | .inf s => if s then 2 ^ 0 else 2 ^ 7
  | .fin _ m _ =>
    if m = 0 then (if neg then 2 ^ 3 else 2 ^ 4)
    else if a % 2 ^ 31 < 2 ^ 23 then (if neg then 2 ^ 2 else 2 ^ 5)
    else (if neg then 2 ^ 1 else 2 ^ 6)

/-! ## Integers (R178, R180) -/

/-- Round a finite value to an integer magnitude: the magnitude, and whether it differs. -/
def roundInteger (r : Rnd) (neg : Bool) (m : Nat) (e : Int) : Nat × Bool :=
  if 0 ≤ e then (m * 2 ^ e.toNat, false) else if m = 0 then (0, false) else shiftRound r neg m (-e).toNat

/-- `frndi` (R180). -/
def frndiF (r : Rnd) (a : Nat) : Nat × Events :=
  match ffF32.val a with
  | .nan s => (ffF32.nan, if s then [.inv] else [])
  | .inf _ => (a, [])
  | .fin neg m e =>
    if m = 0 ∨ 0 ≤ e then (a, [])
    else
      let n := (roundInteger r neg m e).1
      if n = 0 then (ffF32.signed neg 0, []) else ((ffF32.round r neg n 0).1, [])

/-- `cvt.i32.f32` and `cvt.u32.f32` (R178). -/
def cvtToIntF (signed : Bool) (r : Rnd) (a : Nat) : Nat × Events :=
  let lo : Int := if signed then -(2 ^ 31) else 0
  let hi : Int := if signed then 2 ^ 31 - 1 else 2 ^ 32 - 1
  match ffF32.val a with
  | .nan _ => (0, [.inv])
  | .inf neg => (((if neg then lo else hi) % 2 ^ 32).toNat, [.inv])
  | .fin neg m e =>
    let x := roundInteger r neg m e
    let v := signedMant neg x.1
    if v < lo then ((lo % 2 ^ 32).toNat, [.inv])
    else if hi < v then ((hi % 2 ^ 32).toNat, [.inv])
    else ((v % 2 ^ 32).toNat, if x.2 then [.inx] else [])

/-- `cvt.f32.i32` and `cvt.f32.u32` (R178). -/
def cvtFromIntF (r : Rnd) (v : Int) : Nat × Events := ffF32.roundInt r v 0 0

/-- One half of `cvt.bf16x2.f32` (R178). -/
def toBf16F (r : Rnd) (a : Nat) : Nat × Events :=
  match ffF32.val a with
  | .nan s => (ffBf16.nan, if s then [.inv] else [])
  | .inf _ => (a / 65536, [])
  | .fin neg m e => if m = 0 then (a / 65536, []) else ffBf16.round r neg m e

/-- `cvt.f32.bf16` of one half (R178). -/
def fromBf16F (h : Nat) : Nat × Events :=
  match ffBf16.val h with
  | .nan s => (ffF32.nan, if s then [.inv] else [])
  | _ => (h * 65536, [])

/-! ## Exponent (R182) -/

/-- `fldx` (R182). -/
def fldxF (a : Nat) (n : Int) : Nat × Events :=
  match ffF32.val a with
  | .nan s => (ffF32.nan, if s then [.inv] else [])
  | .inf _ => (a, [])
  | .fin neg m e => if m = 0 then (a, []) else ffF32.round .rn neg m (e + n)

/-- `fgetx` (R182). -/
def fgetxF (a : Nat) : Nat × Events :=
  match ffF32.val a with
  | .fin _ m e => if m = 0 then (0x80000000, [.inv]) else ((((Nat.log2 m : Int) + e) % 2 ^ 32).toNat, [])
  | _ => (0x7FFFFFFF, [.inv])

/-! ## Roots, reciprocals, powers and logarithms (R179, R181, R183)

Square roots and reciprocals are decided exactly. Powers of two and logarithms are computed with 256 bits after the point,
which decides the rounding of every f32 input (log 9). -/

/-- Bits of a square root, from bit k - 1 down. -/
def isqrtGo (n : Nat) : Nat → Nat → Nat
  | 0, r => r
  | k + 1, r => if (r + 2 ^ k) * (r + 2 ^ k) ≤ n then isqrtGo n k (r + 2 ^ k) else isqrtGo n k r

/-- The integer square root. -/
def isqrt (n : Nat) : Nat := isqrtGo n (Nat.log2 n / 2 + 1) 0

/-- Bits after the point. -/
def fixBits : Nat := 256

/-- Σ z^(2k+1) / (2k+1) for k = j ... j + n - 1, fixed point: `t` is z^(2j+1) and `zz` is z². -/
def atanhSum (zz : Nat) : Nat → Nat → Nat → Nat
  | 0, _, _ => 0
  | n + 1, j, t => t / (2 * j + 1) + atanhSum zz n (j + 1) (t * zz / 2 ^ fixBits)

/-- 2 atanh z, fixed point. -/
def twoAtanh (z : Nat) : Nat := 2 * atanhSum (z * z / 2 ^ fixBits) 90 0 z

/-- ln 2, fixed point: 2 atanh(1/3). -/
def ln2Fix : Nat := twoAtanh (2 ^ fixBits / 3)

/-- Σ y^k / k! for k from j on, `t` being y^(j-1) / (j-1)!; y is signed, fixed point. -/
def expSum (y : Int) : Nat → Nat → Int → Int
  | 0, _, _ => 0
  | n + 1, j, t => t + expSum y n (j + 1) (t * y / (2 ^ fixBits * j))

/-- 2^(±m × 2^e) for an exponent of magnitude at most 1/2, fixed point. -/
def exp2Fix (neg : Bool) (m : Nat) (e : Int) : Nat :=
  let f := if 0 ≤ e then m * 2 ^ e.toNat * 2 ^ fixBits else m * 2 ^ fixBits / 2 ^ (-e).toNat
  (expSum (signedMant neg (f * ln2Fix / 2 ^ fixBits)) 70 1 (2 ^ fixBits)).toNat

/-- log2 of t × 2^-k for a t of k + 1 bits, fixed point. -/
def log2Fix (t k : Nat) : Nat := twoAtanh ((t - 2 ^ k) * 2 ^ fixBits / (t + 2 ^ k)) * 2 ^ fixBits / ln2Fix

/-- What a NaN, a zero, an infinity or a negative number gives in R179's table, or none for a finite input in range. -/
def special179 (op : Nat) (x : FV) : Option (Nat × Events) :=
  let F := ffF32
  match op, x with
  | _, .nan s => some (F.nan, if s then [.inv] else [])
  | 0, .inf neg => some (F.signed neg 0, [])
  | 1, .inf false => some (0, [])
  | _, .inf false => some (F.infMag, [])
  | _, .inf true => some (F.nan, [.inv])
  | 0, .fin neg 0 _ => some (F.signed neg F.infMag, [.dz])
  | 1, .fin neg 0 _ => some (F.signed neg F.infMag, [.dz])
  | 2, .fin neg 0 _ => some (F.signed neg 0, [])
  | _, .fin _ 0 _ => some (F.signed true F.infMag, [.dz])
  | 0, .fin _ _ _ => none
  | _, .fin true _ _ => some (F.nan, [.inv])
  | _, .fin false _ _ => none

/-- Make the exponent even. -/
def evenExp (m : Nat) (e : Int) : Nat × Int := if e % 2 = 0 then (m, e) else (2 * m, e - 1)

/-- `frcp` (R179). -/
def frcpF (r : Rnd) (a : Nat) : Nat × Events :=
  let x := ffF32.val a
  match special179 0 x, x with
  | some y, _ => y
  | none, .fin neg m e => ffF32.roundSticky r neg (2 ^ 80 % m != 0) (2 ^ 80 / m) (-80 - e)
  | none, _ => (ffF32.nan, [])

/-- `frsq` (R179). -/
def frsqF (r : Rnd) (a : Nat) : Nat × Events :=
  let x := ffF32.val a
  match special179 1 x, x with
  | some y, _ => y
  | none, .fin _ m e =>
    let t := evenExp m e
    let g := isqrt (2 ^ 160 / t.1)
    ffF32.roundSticky r false (g * g * t.1 != 2 ^ 160) g (-80 - t.2 / 2)
  | none, _ => (ffF32.nan, [])

/-- `fsqrt` (R179). -/
def fsqrtF (r : Rnd) (a : Nat) : Nat × Events :=
  let x := ffF32.val a
  match special179 2 x, x with
  | some y, _ => y
  | none, .fin _ m e =>
    let t := evenExp m e
    let n := t.1 * 2 ^ 80
    let g := isqrt n
    ffF32.roundSticky r false (g * g != n) g (t.2 / 2 - 40)
  | none, _ => (ffF32.nan, [])

/-- `flg2` (R179). -/
def flg2F (a : Nat) : Nat × Events :=
  let x := ffF32.val a
  match special179 3 x, x with
  | some y, _ => y
  | none, .fin _ m e =>
    let k := Nat.log2 m
    let n := (k : Int) + e
    if m = 2 ^ k then ffF32.roundInt .rn n 0 0
    else
      let v := n * 2 ^ fixBits + (log2Fix m k : Int)
      ffF32.roundSticky .rn (decide (v < 0)) true v.natAbs (-(fixBits : Int))
  | none, _ => (ffF32.nan, [])

/-- 2^(±m × 2^e) rounded once, for a nonzero exponent of magnitude at most 1/2 (R181). -/
def exp2Round (neg : Bool) (m : Nat) (e : Int) : Nat × Events :=
  ffF32.roundSticky .rn false true (exp2Fix neg m e) (-(fixBits : Int))

/-- |m × 2^e| exceeds 1/2. -/
def overHalf (m : Nat) (e : Int) : Bool := decide (0 ≤ e ∧ m ≠ 0) || (decide (e < 0) && decide (2 ^ (-e).toNat < 2 * m))

/-- `fexp` (R181). -/
def fexpF (a : Nat) : Nat × Events :=
  match ffF32.val a with
  | .nan s => (ffF32.nan, if s then [.inv] else [])
  | .inf _ => (ffF32.nan, [.inv])
  | .fin neg m e =>
    if m = 0 then (0x3F800000, [])
    else if overHalf m e then (ffF32.nan, [.inv])
    else exp2Round neg m e

/-- `fex2` (R183). -/
def fex2F (a : Nat) : Nat × Events :=
  match ffF32.val a with
  | .nan s => (ffF32.nan, if s then [.inv] else [])
  | .inf neg => (if neg then 0 else 0x7F800000, [])
  | .fin neg m e =>
    let n := signedMant neg (roundInteger .rn neg m e).1
    let f := addDyadic (signedMant neg m) e (-n) 0
    -- Val(x) against 128 and -150, exactly
    let big := decide (0 ≤ (addDyadic (signedMant neg m) e (-128) 0).1)
    let small := decide ((addDyadic (signedMant neg m) e 150 0).1 < 0)
    if big then (0x7F800000, [.ovf, .inx])
    else if small then (0, [.unf, .inx])
    else
      let p := if f.1 = 0 then (0x3F800000, []) else exp2Round (decide (f.1 < 0)) f.1.natAbs f.2
      let q := fldxF p.1 n
      (q.1, p.2 ++ q.2)

end Sys2Proof.Machine
end

