-- ==== Sys2Proof/Machine/MemSys.lean ====
section
/-!
DEFINITION. Memory and what lies before it: physical bytes, translation (R212-R218), vault grants (R208), the Hallmark
cache at a line's home (R238-R255), and the L1 of a core (R209, R210).

Every operation that can fail answers with why: a failing walk, a refused permission, an uncorrectable error, a gated quad.
-/

namespace Sys2Proof.Machine

/-! ## Bytes -/

/-- A byte of a memory; a byte that nothing has written reads 0 (log 4). -/
def Memory.get (m : List Host.Cell) (a : Nat) : Byte := smGet 0 m a
/-- Write a byte. -/
def Memory.put (m : List Host.Cell) (a : Nat) (b : Byte) : List Host.Cell := smSet 0 m a b
/-- The canonical form: rising addresses, no byte that reads as an unlisted one. -/
def Memory.wf (m : List Host.Cell) : Bool := smWf 0 m
/-- `n` bytes from an address. -/
def Memory.read (m : List Host.Cell) (a n : Nat) : List Byte := (List.range n).map fun i => Memory.get m (a + i)
/-- Write bytes from an address on. -/
def Memory.write (m : List Host.Cell) (a : Nat) : List Byte → List Host.Cell
  | [] => m
  | b :: bs => Memory.write (Memory.put m a b) (a + 1) bs

/-- A little-endian number (R4). -/
def natOfBytes (bs : List Byte) : Nat := bs.foldr (fun b n => b.toNat + 256 * n) 0

/-- A little-endian number in a memory. -/
def Memory.num (m : List Host.Cell) (a n : Nat) : Nat := natOfBytes (Memory.read m a n)

/-- LPDDR-6, or host memory across the Nynak link. -/
def Mem.store (m : Mem) (host : Bool) : List Host.Cell := if host then m.host else m.phys
/-- Replace one of the two. -/
def Mem.setStore (m : Mem) (host : Bool) (x : List Host.Cell) : Mem := if host then { m with host := x } else { m with phys := x }
/-- Write bytes to LPDDR-6 or host memory. -/
def Mem.writeAt (m : Mem) (host : Bool) (a : Nat) (bs : List Byte) : Mem := m.setStore host (Memory.write (m.store host) a bs)

/-! ## Lines -/

/-- Byte i of a line. -/
def lineByte (d : LineData) (i : Nat) : Byte := d.extractLsb' (8 * i) 8
/-- A line from its bytes. -/
def lineOf (bs : List Byte) : LineData := BitVec.ofNat 1024 (natOfBytes bs)
/-- The 128 bytes of a line. -/
def lineBytes (d : LineData) : List Byte := (List.range 128).map (lineByte d)
/-- The bytes of `new` where the mask is set, of `old` elsewhere. -/
def mergeLine (old new : LineData) (m : ByteMask) : LineData :=
  lineOf ((List.range 128).map fun i => if m.getLsbD i then lineByte new i else lineByte old i)
/-- Put bytes at an offset of a line. -/
def lineSet (d : LineData) (off : Nat) (bs : List Byte) : LineData :=
  lineOf ((List.range 128).map fun i => if off ≤ i ∧ i < off + bs.length then bs.getD (i - off) 0 else lineByte d i)
/-- The mask of n bytes from an offset. -/
def spanMask (off n : Nat) : ByteMask := BitVec.ofNat 128 ((2 ^ n - 1) * 2 ^ off)

/-- Window of an address: bits [63:56] (R202). -/
def windowOf (a : Nat) : Nat := a / 2 ^ 56 % 256

/-- The line's address in canonical form: bits [6:0] zero, an arena's generation cleared (R209, R238). -/
def lineAddr (a : Nat) : Nat :=
  let a := a % 2 ^ 64 / 128 * 128
  if windowOf a = 2 then a / 2 ^ 56 * 2 ^ 56 + a % 2 ^ 46 else a
/-- The key of a line of an address space. -/
def lineKey (asid a : Nat) : Nat := asid * 2 ^ 64 + lineAddr a
/-- The address of a key. -/
def keyAddr (k : Nat) : Nat := k % 2 ^ 64
/-- The address space of a key. -/
def keyAsid (k : Nat) : Nat := k / 2 ^ 64
/-- Home die, slice and set of a line address (R238). -/
def homeDie (a : Nat) : Nat := a / 2 ^ 21 % 4
/-- Slice number of the module: 32 × die + slice. -/
def homeSlice (a : Nat) : Nat := 32 * homeDie a + a / 2 ^ 7 % 32
/-- Set of a line address. -/
def homeSet (a : Nat) : Nat := a / 2 ^ 23 % 8 * 512 + a / 2 ^ 12 % 512
/-- Vault number 32d + q of a vault address (R202). -/
def vaultOf (a : Nat) : Nat := a / 2 ^ 33 % 4 * 32 + a / 2 ^ 28 % 32
/-- Offset in the vault. -/
def vaultOff (a : Nat) : Nat := a % 2 ^ 27
/-- Where a vault byte lies in the vaults' memory. -/
def vaultCell (a : Nat) : Nat := vaultOf a * 2 ^ 27 + vaultOff a
/-- Arena slot of an address (R202). -/
def arenaSlot (a : Nat) : Nat := a / 2 ^ 34 % 4096
/-- Generation of an arena pointer. -/
def arenaGen (a : Nat) : Nat := a / 2 ^ 46 % 1024
/-- Key of an arena: 4096 × ASID + slot. -/
def arenaKey (asid slot : Nat) : Nat := 4096 * asid + slot

/-! ## Answers -/

/-- What an access answers. -/
inductive MR (α : Type) where
  | ok (v : α) (s : State)
  /-- a failing walk, with the reason of R221; the state holds the frames that were taken before a pool ran empty (R403) -/
  | page (reason : Nat) (s : State)
  /-- a refusal, with the reason of R219 -/
  | perm (reason : Nat)
  /-- an uncorrectable error (R457) -/
  | data
  /-- a gated quad (R493) -/
  | gated
  deriving Repr

/-- The state that an access leaves: of a failure, what it took before (R403), else the state it began in. -/
def MR.after {α : Type} (x : MR α) (s : State) : State :=
  match x with
  | .page _ t => t
  | _ => s

/-- Go on where the access succeeded. -/
def MR.bind {α β : Type} (x : MR α) (f : α → State → MR β) : MR β :=
  match x with
  | .ok v s => f v s
  | .page r s => .page r s
  | .perm r => .perm r
  | .data => .data
  | .gated => .gated

/-! ## Translation (R212-R218) -/

/-- A field of a table entry (R213). -/
def leafBits (e : BitVec 128) (hi lo : Nat) : Nat := bitsOf e.toNat hi lo
/-- FRAME as a physical address. -/
def leafFrame (e : BitVec 128) : Nat := leafBits e 47 16 * 2 ^ 16
/-- R of a leaf. -/
def leafR (e : BitVec 128) : Bool := e.getLsbD 3
/-- W of a leaf. -/
def leafW (e : BitVec 128) : Bool := e.getLsbD 4
/-- X of a leaf. -/
def leafX (e : BitVec 128) : Bool := e.getLsbD 5
/-- HOST of a leaf. -/
def leafHost (e : BitVec 128) : Bool := e.getLsbD 7
/-- PUB of a leaf. -/
def leafPub (e : BitVec 128) : Bool := e.getLsbD 8

/-- An entry is malformed at its level (R214); `nextSize` is the size of the table a pointer names. -/
def malformed (e : BitVec 128) (level nextSize : Nat) : Bool :=
  let leaf := e.getLsbD 1
  (leaf && level == 1) || (!leaf && level == 3) ||
    leafBits e 71 48 != 0 || leafBits e 15 10 != 0 || e.getLsbD 6 || e.getLsbD 2 ||
    (leaf && level == 2 && leafBits e 28 16 != 0) || (leafW e && !leafR e) || (leafPub e && leafW e) ||
    (!leaf && leafFrame e % nextSize != 0)

/-- Read a table entry from physical memory, bypassing every cache (R212). -/
def Mem.entryAt (m : Mem) (a : Nat) : BitVec 128 := BitVec.ofNat 128 (Memory.num m.phys a 16)

/-- What a walk finds. -/
inductive Walk where
  | fault (reason : Nat)
  | leaf (e : BitVec 128) (big : Bool)
  /-- an arena page without a frame (R218) -/
  | unbacked
  deriving DecidableEq, Repr

/-- Walk the tables of a deep address (R212, R214). A level-3 leaf maps its own 64 KiB page by its own FRAME, whatever its CONTIG bit: 32
entries that form a 2 MiB page as R214 asks give the same addresses, and for a misused group, which R214 gives the outcome of R9, each
entry acts alone (DESIGN CHOICE, log 70). An access of an ASID whose descriptor is not valid (R215) meets a failing walk of level 1
(DESIGN CHOICE, log 71). -/
def Mem.walkDeep (m : Mem) (asid a : Nat) : Walk :=
  let d := smGet {} m.asids asid
  if !d.valid then .fault 1
  else
    let e1 := m.entryAt (d.base + 16 * (a / 2 ^ 42 % 2 ^ 14))
    if !e1.getLsbD 0 then .fault 1 else if malformed e1 1 (2 ^ 17) then .fault 5
    else
      let e2 := m.entryAt (leafFrame e1 + 16 * (a / 2 ^ 29 % 2 ^ 13))
      if !e2.getLsbD 0 then .fault 2 else if malformed e2 2 (2 ^ 17) then .fault 5
      else if e2.getLsbD 1 then .leaf e2 true
      else
        let e3 := m.entryAt (leafFrame e2 + 16 * (a / 2 ^ 16 % 2 ^ 13))
        if !e3.getLsbD 0 then .fault 3 else if malformed e3 3 1 then .fault 5 else .leaf e3 false

/-- The leaf the graph unit maps an arena page with: valid, readable, writable (R218). -/
def arenaLeaf (asid page frame : Nat) : BitVec 128 :=
  BitVec.ofNat 128 (asid * 2 ^ 112 + page * 2 ^ 72 + frame + 0x1B)

/-- The entry by which a level-2 table of an arena names a level-3 table: valid, a pointer (R213, R218). -/
def arenaPointer (table : Nat) : BitVec 128 := BitVec.ofNat 128 (table + 1)

/-- The address of the level-2 table of an address's arena slot, as the arena table in memory gives it; 0 while no page is backed
(R218, R397). -/
def Mem.arenaTwo (m : Mem) (asid a : Nat) : Nat :=
  leafBits (m.entryAt ((smGet ({} : Asid) m.asids asid).arena + 16 * arenaSlot a)) 102 64 * 2 ^ 9

/-- The place of an arena address's entry in a level-2 table, and in a level-3 table (R218). -/
def twoAt (table a : Nat) : Nat := table + 16 * (a / 2 ^ 29 % 32)
/-- Level 3. -/
def threeAt (table a : Nat) : Nat := table + 16 * (a / 2 ^ 16 % 2 ^ 13)

/-- Translate an arena address by the slot's tables in memory (R218): an entry with V clear is an unbacked page. -/
def Mem.walkArena (m : Mem) (asid a : Nat) : Walk :=
  let two := m.arenaTwo asid a
  if two = 0 then .unbacked
  else
    let e2 := m.entryAt (twoAt two a)
    if !e2.getLsbD 0 then .unbacked else if malformed e2 2 (2 ^ 17) || e2.getLsbD 1 then .fault 5
    else
      let e3 := m.entryAt (threeAt (leafFrame e2) a)
      if !e3.getLsbD 0 then .unbacked else if malformed e3 3 1 then .fault 5 else .leaf e3 false

/-- The translation a TLB of the home die holds for an address (R212). -/
def Mem.tlbHit (m : Mem) (asid a : Nat) : Option Tlb :=
  m.tlb.find? fun t => t.die == homeDie a && t.asid == asid && t.arena == (windowOf a == 2) &&
    (if t.big then t.page / 2 ^ 13 == a % 2 ^ 56 / 2 ^ 29 else t.page == (if t.arena then a % 2 ^ 46 else a % 2 ^ 56) / 2 ^ 16)

/-- Translate: the TLB, or a walk that the TLB then keeps. The spec gives the TLBs neither size nor replacement, and one stands beside
each LPDDR-6 controller; the model keeps one list for a die and drops a leaf only where a command or a sweep does (DESIGN CHOICE,
log 72). -/
def State.translate (s : State) (asid a : Nat) : Walk × State :=
  match s.mem.tlbHit asid a with
  | some t => (.leaf t.leaf t.big, s)
  | none =>
    let w := if windowOf a = 2 then s.mem.walkArena asid a else s.mem.walkDeep asid a
    match w with
    | .leaf e big =>
      let p := (if windowOf a = 2 then a % 2 ^ 46 else a % 2 ^ 56) / 2 ^ 16
      (w, s.updMem fun m => { m with tlb := ⟨homeDie a, asid, windowOf a == 2, p, e, big⟩ :: m.tlb })
    | _ => (w, s)

/-- A writable leaf names another address than this one (R217). -/
def aliased (e : BitVec 128) (big : Bool) (asid a : Nat) : Bool :=
  let va := (if windowOf a = 2 then a % 2 ^ 46 else a % 2 ^ 56) / 2 ^ 16
  let cva := leafBits e 111 72
  leafW e && (leafBits e 127 112 != asid || (if big then cva % 2 ^ 13 != 0 || cva / 2 ^ 13 != va / 2 ^ 13 else cva != va))

/-- The byte address in the frame. -/
def frameAddr (e : BitVec 128) (big : Bool) (a : Nat) : Nat :=
  leafFrame e + (if big then a % 2 ^ 29 else a % 2 ^ 16)

/-! ## Format windows (R161-R163) -/

/-- The lowest-numbered window that contains a granule (R162). -/
def findWindow (get : Nat → BitVec 128) (granule : Nat) : Option (BitVec 128) :=
  ((List.range 64).map get).find? fun w =>
    w.getLsbD 31 && decide (1 ≤ bitsOf w.toNat 3 0) && decide (bitsOf w.toNat 3 0 ≤ 6) &&
      decide (bitsOf w.toNat 63 32 ≤ granule) && decide (granule ≤ bitsOf w.toNat 95 64)

/-- The window of a physical address. -/
def Mem.deepWindow (m : Mem) (pa : Nat) : Option (BitVec 128) := findWindow (fun n => smGet 0 m.fmtw n) (pa / 2 ^ 16)
/-- The window of a vault address. -/
def Mem.vaultWindow (m : Mem) (a : Nat) : Option (BitVec 128) :=
  findWindow (fun n => smGet 0 m.vfmtw (64 * vaultOf a + n)) (vaultOff a / 2 ^ 16)
/-- FMT of a window; none is 0 (R149). -/
def windowFmt : Option (BitVec 128) → Nat
  | some w => bitsOf w.toNat 3 0
  | none => 0

/-! ## Tags and entries (R238-R249) -/

/-- Key of a data entry: slice and index. -/
def entryKey (slice i : Nat) : Nat := slice * 32768 + i

/-- What a tag reads as (R241). -/
def Mem.content (m : Mem) (key : Nat) (t : Tag) : LineData :=
  if t.zero then 0 else (smGet {} m.entries (entryKey (homeSlice (keyAddr key)) t.index)).content

/-- The format tag a tag carries (R163, R241). -/
def Mem.tagFmt (m : Mem) (key : Nat) (t : Tag) : Nat :=
  if t.zero then t.zfmt else (smGet {} m.entries (entryKey (homeSlice (keyAddr key)) t.index)).fmt

/-- Entries of a slice. -/
def Mem.sliceEntries (m : Mem) (slice : Nat) : SMap Entry := m.entries.filter fun e => e.1 / 32768 == slice

/-- The bucket of content in its slice (R242, R244). -/
def bucketOf (e : Entry) : Nat := (Config.hallmark e.dom e.content e.fmt).toNat % 8192

/-- An entry's bucket has room (R244). -/
def Mem.roomFor (m : Mem) (slice : Nat) (e : Entry) : Bool :=
  decide (((m.sliceEntries slice).filter fun x => x.2.indexed && bucketOf x.2 == bucketOf e).length < 4)

/-- An entry of the slice that a placement may join (R243). -/
def Mem.sharer (m : Mem) (slice : Nat) (c : LineData) (fmt dom : Nat) (own : Option Nat) : Option (Nat × Entry) :=
  (m.sliceEntries slice).find? fun e =>
    e.2.indexed && e.2.content == c && e.2.fmt == fmt && e.2.dom == dom && decide (e.2.count < 255) && own != some (e.1 % 32768)

/-- Add to an ASID's share hits or un-shares (R261). -/
def Mem.addShare (m : Mem) (asid : Nat) : Mem :=
  let d := smGet {} m.asids asid
  { m with asids := smSet {} m.asids asid { d with sharehit := d.sharehit + 1 } }
/-- Count an un-share (R246). -/
def Mem.addUnshare (m : Mem) (asid : Nat) : Mem :=
  let d := smGet {} m.asids asid
  { m with asids := smSet {} m.asids asid { d with unshare := d.unshare + 1 } }

/-- A tag leaves its entry: COUNT falls, at 0 the entry is free, below 255 it may enter the index again (R240, R244). -/
def Mem.unref (m : Mem) (key : Nat) (t : Tag) : Mem :=
  if t.zero then m
  else
    let slice := homeSlice (keyAddr key)
    let k := entryKey slice t.index
    match smFind m.entries k with
    | none => m
    | some e =>
      if e.count ≤ 1 then { m with entries := smDel k m.entries }
      else
        let e' := { e with count := e.count - 1 }
        let e' := if e.count = 255 then { e' with indexed := !e.bad && m.roomFor slice e' } else e'
        { m with entries := smPut k e' m.entries }

/-- A node as the loss of a line of arena slot k leaves it: failed where it owns the slot and has not failed (R406). -/
def Node.loseLine (asid k : Nat) (n : Node) : Node :=
  if n.asid == asid && n.slot.map Prod.fst == some k && n.state != .dead && n.failed == 0 then { n with failed := 1 } else n

/-- The node that owns an arena line fails by a data error, and a machine check is raised (R254, R406). -/
def State.failOwner (s : State) (key : Nat) : State :=
  let a := keyAddr key
  let lose := fun (n : Nat × Node) => (n.1, n.2.loseLine (keyAsid key) (arenaSlot a))
  let s := if windowOf a = 2 then s.updGraph fun g => { g with nodes := g.nodes.map lose } else s
  s.irq 3 key

/-- The entry that a tag points at holds an uncorrectable error: every tag that points at it sees it (R254). The zero entry has no
storage that could. -/
def Mem.badTag (m : Mem) (key : Nat) (t : Tag) : Bool :=
  !t.zero && (smGet ({} : Entry) m.entries (entryKey (homeSlice (keyAddr key)) t.index)).bad

/-- The line lies on an uncorrectable error (R254, R457). -/
def Mem.badLine (m : Mem) (key : Nat) : Bool := (smFind m.tags key).elim false (m.badTag key)

/-- A line's content goes to its frame (R249, R250). -/
def State.writeFrame (s : State) (key : Nat) (t : Tag) : State :=
  match t.frame with
  | none => s
  | some (host, pa) =>
    if s.mem.badTag key t then s.failOwner key
    else s.updMem fun m => m.writeAt host pa (lineBytes (m.content key t))

/-- Drop a tag without writing it: its pin, its entry (R253, R259). -/
def State.dropTag (s : State) (key : Nat) : State :=
  match smFind s.mem.tags key with
  | none => s
  | some t =>
    let s := s.updMem fun m => { m.unref key t with tags := smDel key m.tags }
    if t.pin then s.updAsid (keyAsid key) fun d => { d with pins := d.pins - 1 } else s

/-- Evict a tag: dirty content goes to memory first (R249). -/
def State.evictTag (s : State) (key : Nat) : State :=
  match smFind s.mem.tags key with
  | none => s
  | some t => (if t.dirty then s.writeFrame key t else s).dropTag key

/-- Choose a victim of a list: the implementation's choice (R249). -/
def State.victim (s : State) (xs : List Nat) : Option Nat := xs[Config.freeVictim s.draws % xs.length]?

/-- Make room for one more tag in a line's set (R249). -/
def State.makeWay (s : State) (key : Nat) : State :=
  let a := keyAddr key
  let set := s.mem.tags.filter fun t => homeSlice (keyAddr t.1) == homeSlice a && homeSet (keyAddr t.1) == homeSet a
  if set.length < 16 then s
  else match s.victim ((set.filter fun t => !t.2.pin).map Prod.fst) with
    | some k => (s.evictTag k)
    | none => s

/-- The lowest index that no listed key of a slice takes, from `i` up. -/
def firstFree (i : Nat) : List Nat → Nat
  | [] => i
  | k :: ks => if k = i then firstFree (i + 1) ks else i

/-- A free entry of a slice, evicting every tag of one unpinned entry where none is free (R249). R252 keeps entries unpinned; where
none were, the tags of the lowest would go. -/
def State.freeEntry (s : State) (slice : Nat) : Nat × State :=
  let used := (s.mem.sliceEntries slice).map fun e => e.1 % 32768
  if used.length < 32768 then (firstFree 0 used, s)
  else
    let tagsOf := fun (i : Nat) => s.mem.tags.filter fun t => homeSlice (keyAddr t.1) == slice && !t.2.zero && t.2.index == i
    match s.victim (used.filter fun i => (tagsOf i).all fun t => !t.2.pin) with
    | some i => (i, (tagsOf i).foldl (fun s t => s.evictTag t.1) s)
    | none => let i := used.headD 0; (i, (tagsOf i).foldl (fun s t => s.evictTag t.1) s)

/-- Place (R243): the tag and the state after content `c` has come to rest. `own` is the entry written in place. -/
def State.place (s : State) (key : Nat) (t : Tag) (c : LineData) (fmt dom : Nat) (own : Option Nat) : Tag × State :=
  let slice := homeSlice (keyAddr key)
  let freeOwn : Mem → Mem := fun m => match own with
    | some i => { m with entries := smDel (entryKey slice i) m.entries }
    | none => m
  if c = 0 then
    ({ t with zero := true, zfmt := fmt, index := 0 }, s.updMem fun m => (freeOwn m).addShare (keyAsid key))
  else match s.mem.sharer slice c fmt dom own with
    | some (k, e) =>
      let s := s.updMem fun m =>
        let e' := { e with count := e.count + 1 }
        let e' := if e'.count = 255 then { e' with indexed := false } else e'
        { (freeOwn m).addShare (keyAsid key) with entries := smPut k e' (freeOwn m).entries }
      ({ t with zero := false, zfmt := 0, index := k % 32768 }, s)
    | none =>
      let r := match own with
        | some i => (i, s)
        | none => s.freeEntry slice
      let e : Entry := { content := c, count := 1, fmt := fmt, dom := dom, indexed := false }
      let s := r.2.updMem fun m =>
        let m := { m with entries := smDel (entryKey slice r.1) m.entries }
        { m with entries := smPut (entryKey slice r.1) { e with indexed := m.roomFor slice e } m.entries }
      ({ t with zero := false, zfmt := 0, index := r.1 }, s)

/-- Put a tag in its set. -/
def State.setTag (s : State) (key : Nat) (t : Tag) : State := s.updMem fun m => { m with tags := smPut key t m.tags }

/-! ## The home -/

/-- What an access needs of its leaf (R214). -/
inductive Need where
  | read | write | fetch
  deriving DecidableEq, Repr

/-- The refusal of a leaf's permissions, if any (R219). -/
def Need.deny (n : Need) (r w x : Bool) : Option Nat :=
  match n with
  | .read => if r then none else some 1
  | .write => if w then none else some 0
  | .fetch => if x then none else some 5

/-- What a walk gives a line: its leaf's permissions, its frame (none for an unbacked arena page), its domain and its format. -/
structure LeafInfo where
  r : Bool
  w : Bool
  x : Bool
  frame : Option (Bool × Nat)
  dom : Nat
  fmt : Nat
  deriving DecidableEq, Repr

/-- The leaf of a deep or arena line (R212-R218, R163). A format window covers physical addresses of LPDDR-6; the spec gives none to
a line of host memory, whose format is none (DESIGN CHOICE, log 73). -/
def State.leafOf (s : State) (key : Nat) : MR LeafInfo :=
  let asid := keyAsid key
  let a := keyAddr key
  let r := s.translate asid a
  match r.1 with
  | .fault n => .page n s
  | .unbacked => .ok ⟨true, true, false, none, (s.asid asid).dom, 0⟩ r.2
  | .leaf e big =>
    if aliased e big asid a then .perm 2
    else
      let pa := frameAddr e big a
      .ok ⟨leafR e, leafW e, leafX e, some (leafHost e, pa), if leafPub e then 0 else (s.asid asid).dom,
        if leafHost e then 0 else windowFmt (s.mem.deepWindow pa)⟩ r.2

/-- A tag for a line that the slice does not hold, and room for it; it points nowhere yet (R243, R249). -/
def LeafInfo.tag (x : LeafInfo) : Tag := { r := x.r, w := x.w, x := x.x, frame := x.frame, dom := x.dom, zfmt := x.fmt }

/-- Fill a line into its home slice: translate, read memory, take the format tag, place (R163, R243). -/
def State.fillHome (s : State) (key : Nat) : MR Tag :=
  (s.leafOf key).bind fun x s =>
    let s := s.makeWay key
    match x.frame with
    | none => .ok x.tag ((s.updMem fun m => m.addShare (keyAsid key)).setTag key x.tag)
    | some (host, pa) =>
      let c := lineOf (Memory.read (s.mem.store host) pa 128)
      let p := s.place key x.tag c x.fmt x.dom none
      .ok p.1 (p.2.setTag key p.1)

/-- The permissions of a line that no reader consumes: of its tag, or of its leaf where the slice does not hold the line, which it then
does not fill (R210, R212, R239). Also its format. -/
def State.permOf (s : State) (key : Nat) (n : Need) : MR Nat :=
  match smFind s.mem.tags key with
  | some t => match n.deny t.r t.w t.x with
    | some r => .perm r
    | none => .ok (s.mem.tagFmt key t) s
  | none => (s.leafOf key).bind fun x s => match n.deny x.r x.w x.x with
    | some r => .perm r
    | none => .ok x.fmt s

/-- The tag of a line at its home, filled where it is absent, with the permission the access needs. -/
def State.homeTag (s : State) (key : Nat) (n : Need) : MR Tag :=
  let x := match smFind s.mem.tags key with
    | some t => MR.ok t s
    | none => s.fillHome key
  x.bind fun t s => match n.deny t.r t.w t.x with
    | some r => .perm r
    | none => .ok t s

/-- The content of a deep or arena line at its home, for a reader that consumes it. -/
def State.homeRead (s : State) (key : Nat) (n : Need) : MR LineData :=
  (s.homeTag key n).bind fun t s => if s.mem.badLine key then .data else .ok (s.mem.content key t) s

/-- An arena table entry (R397). -/
def Arena.entry (x : Arena) : Nat := x.ltwo / 2 ^ 9 % 2 ^ 39 * 2 ^ 64 + x.size % 2 ^ 32 * 2 ^ 32 + x.gen % 1024 * 2 ^ 12 + x.state % 4 * 4

/-- The graph unit writes the entry of a slot (R397): what it holds, and the table in memory. -/
def State.putArena (s : State) (asid slot : Nat) (x : Arena) : State :=
  s.updMem fun m => { m.writeAt false ((smGet ({} : Asid) m.asids asid).arena + 16 * slot) (bytesOfNat 16 x.entry) with
    arenas := smSet {} m.arenas (arenaKey asid slot) x }

/-- The graph unit takes the first frame of an ASID's pool for an arena (R403). -/
def State.takeFrame (s : State) (asid slot : Nat) (p : Nat → List Nat → Bool) : Option (Nat × State) :=
  let pool := (s.asid asid).pool
  (pool.find? fun f => p f pool).map fun f =>
    let k := arenaKey asid slot
    (f, (s.updAsid asid fun d => { d with pool := d.pool.erase f }).updMem fun m =>
      let r := smGet ({} : Arena) m.arenas k
      { m with arenas := smSet {} m.arenas k { r with frames := r.frames ++ [f] } })

/-- An arena's level-2 table, taken from the pool where the slot has none (R218). -/
def State.needTwo (s : State) (asid a : Nat) : Option (Nat × State) :=
  let k := arenaKey asid (arenaSlot a)
  let two := s.mem.arenaTwo asid a
  let kept := (smGet ({} : Arena) s.mem.arenas k).two
  if two ≠ 0 then some (two, s)
  else if kept ≠ 0 then some (kept, s)
  else (s.takeFrame asid (arenaSlot a) fun _ _ => true).map fun r =>
    (r.1, r.2.updMem fun m => { m with arenas := smSet {} m.arenas k { smGet ({} : Arena) m.arenas k with two := r.1 } })

/-- A page of the slot is backed: LTWO names the level-2 table from now on (R397). -/
def State.nameTwo (s : State) (asid a two : Nat) : State :=
  if s.mem.arenaTwo asid a ≠ 0 then s
  else s.putArena asid (arenaSlot a) { smGet ({} : Arena) s.mem.arenas (arenaKey asid (arenaSlot a)) with ltwo := two }

/-- The level-3 table of an arena address: two frames of the pool that follow each other at a multiple of the table's size, 128 KiB
(R212, log 7). -/
def State.needThree (s : State) (asid two a : Nat) : Option (Nat × State) :=
  let e := s.mem.entryAt (twoAt two a)
  if e.getLsbD 0 then some (leafFrame e, s)
  else (s.takeFrame asid (arenaSlot a) fun f pool => f % 2 ^ 17 == 0 && pool.contains (f + 2 ^ 16)).bind fun r =>
    (r.2.takeFrame asid (arenaSlot a) fun f _ => f == r.1 + 2 ^ 16).map fun q =>
      (r.1, q.2.updMem fun m => m.writeAt false (twoAt two a) (bytesOfNat 16 (arenaPointer r.1).toNat))

/-- Give an unbacked arena page its frame, with the tables it needs, one frame at a time: what has been taken when the pool runs empty
stays taken (R218, R403; log 7). The frame, where the pool held enough. -/
def State.backPage (s : State) (asid a : Nat) : Option Nat × State :=
  match s.needTwo asid a with
  | none => (none, s)
  | some (two, s) =>
    match s.needThree asid two a with
    | none => (none, s)
    | some (three, s) =>
      match s.takeFrame asid (arenaSlot a) fun _ _ => true with
      | none => (none, s)
      | some (f, s) =>
        (some f, (s.updMem fun m => m.writeAt false (threeAt three a) (bytesOfNat 16 (arenaLeaf asid (a % 2 ^ 46 / 2 ^ 16) f).toNat)).nameTwo
          asid a two)

/-- A write makes sure the line has a frame (R218): the page's own, or one that the graph unit takes; or the pool is empty. -/
def State.backed (s : State) (key : Nat) (t : Tag) : MR Tag :=
  match t.frame with
  | some _ => .ok t s
  | none => (s.leafOf key).bind fun x s => match x.frame with
    | some f => .ok { t with frame := some f } s
    | none =>
      match s.backPage (keyAsid key) (keyAddr key) with
      | (some f, s) => .ok { t with frame := some (false, f + keyAddr key % 2 ^ 16) } s
      | (none, s) => .page 4 s

/-- How a write at the home treats sharing afterwards (R246). -/
inductive WriteKind where
  /-- merged, then placed: a write-back, `st.rel` -/
  | place
  /-- keeps its own entry: atomics, `st.cv`, part of a line by an engine -/
  | keep
  deriving DecidableEq, Repr

/-- Tags that point at the entry of a tag; 0 at the zero entry (R240, R241). -/
def Mem.countOf (m : Mem) (key : Nat) (t : Tag) : Nat :=
  if t.zero then 0 else (smGet ({} : Entry) m.entries (entryKey (homeSlice (keyAddr key)) t.index)).count

/-- The entry a tag owns before a write: its own where no other tag points at it, else a free one, after un-sharing (R246). -/
def State.ownEntry (s : State) (key : Nat) (t : Tag) : Nat × State :=
  if s.mem.countOf key t = 1 then (t.index, s)
  else
    let f := s.freeEntry (homeSlice (keyAddr key))
    (f.1, f.2.updMem fun m => (m.unref key t).addUnshare (keyAsid key))

/-- Make the tag own its content and write `c` there (R246); `bad`: bytes that hold an uncorrectable error stay in the line, which
then takes no sharers (R254). -/
def State.ownWrite (s : State) (key : Nat) (t : Tag) (c : LineData) (kind : WriteKind) (bad : Bool) : State :=
  let slice := homeSlice (keyAddr key)
  let fmt := s.mem.tagFmt key t
  let t := { t with dirty := true }
  let r := s.ownEntry key t
  let own := r.1
  let e : Entry := { content := c, count := 1, fmt := fmt, dom := t.dom, bad := bad }
  match kind with
  | .place =>
    let s := r.2.updMem fun m => { m with entries := smPut (entryKey slice own) e m.entries }
    let t := { t with zero := false, zfmt := 0, index := own }
    if bad then s.setTag key t
    else
      let p := s.place key t c fmt t.dom (some own)
      p.2.setTag key p.1
  | .keep =>
    let s := r.2.updMem fun m =>
      let m := { m with entries := smDel (entryKey slice own) m.entries }
      { m with entries := smPut (entryKey slice own) { e with indexed := !bad && m.roomFor slice e } m.entries }
    s.setTag key { t with zero := false, zfmt := 0, index := own }

/-- Bytes written at the home under a mask (R246). -/
def State.homeWrite (s : State) (key : Nat) (new : LineData) (m : ByteMask) (kind : WriteKind) : MR Unit :=
  (s.homeTag key .write).bind fun t s =>
    (s.backed key t).bind fun t s =>
      .ok () (s.ownWrite key t (mergeLine (s.mem.content key t) new m) kind (s.mem.badTag key t && m != ~~~0))

/-- The tag of a line that is to be written whole: the slice's, or a new one that no content has been filled into (R243). -/
def State.tagForAll (s : State) (key : Nat) : MR (Tag × Bool) :=
  match smFind s.mem.tags key with
  | some t => match Need.write.deny t.r t.w t.x with
    | some r => .perm r
    | none => .ok (t, false) s
  | none => (s.leafOf key).bind fun x s => match Need.write.deny x.r x.w x.x with
    | some r => .perm r
    | none => .ok (x.tag, true) (s.makeWay key)

/-- An engine write of all 128 bytes: the tag leaves a shared entry with no copy, before a free one is sought; a new tag leaves none (R243,
R246, R249). -/
def State.homeWriteAll (s : State) (key : Nat) (c : LineData) : MR Unit :=
  (s.tagForAll key).bind fun x s =>
    (s.backed key x.1).bind fun t s =>
      let fmt := s.mem.tagFmt key t
      let own := if !x.2 && s.mem.countOf key t == 1 then some t.index else none
      let s := if x.2 ∨ own.isSome then s
        else (s.updMem fun m => (m.unref key t).addUnshare (keyAsid key)).setTag key { t with zero := true, zfmt := fmt, index := 0 }
      let p := s.place key { t with dirty := true } c fmt t.dom own
      .ok () (p.2.setTag key p.1)

/-! ## Vaults (R208, R493, R494) -/

/-- The grant bits of an (ASID, vault) pair: cached, or read from the table (R208). -/
def State.grant (s : State) (asid vault : Nat) : Nat × State :=
  match smFind s.mem.grants (128 * asid + vault) with
  | some g => (g, s)
  | none =>
    let base := (smGet 0 s.mem.grantbase (vault / 32)).toNat
    let g := Memory.num s.mem.phys (base + (asid * 32 + vault % 32) * 32) 24
    (g, s.updMem fun m => { m with grants := smPut (128 * asid + vault) g m.grants })

/-- A vault access is allowed at the vault controller. -/
def State.vaultOk (s : State) (asid a : Nat) (write : Bool) : MR Unit :=
  if s.mod.gated.contains (vaultOf a) then .gated
  else if s.mem.badBanks.contains (vaultCell a / 2 ^ 23) then .data
  else
    let g := s.grant asid (vaultOf a)
    let granule := vaultOff a / 2 ^ 20
    if g.1.testBit (2 * granule + if write then 1 else 0) then .ok () g.2 else .perm 4

/-- A vault line holds an uncorrectable error. -/
def Mem.vaultBad (m : Mem) (a : Nat) : Bool := m.badVault.contains (vaultCell a / 128 * 128)

/-- Read a line from its vault. -/
def State.vaultRead (s : State) (asid a : Nat) : MR LineData :=
  (s.vaultOk asid a false).bind fun _ s =>
    if s.mem.vaultBad a then .data else .ok (lineOf (Memory.read s.mem.vault (vaultCell a / 128 * 128) 128)) s

/-- Write bytes of a line to its vault. -/
def State.vaultWrite (s : State) (asid a : Nat) (new : LineData) (m : ByteMask) : MR Unit :=
  (s.vaultOk asid a true).bind fun _ s =>
    let base := vaultCell a / 128 * 128
    let old := lineOf (Memory.read s.mem.vault base 128)
    .ok () (s.updMem fun x => { x with
      vault := Memory.write x.vault base (lineBytes (mergeLine old new m))
      badVault := if m = ~~~0 then x.badVault.filter fun b => b != base else x.badVault })

/-! ## The place beyond the L1: home or vault -/

/-- Read a line where it lives. -/
def State.backRead (s : State) (key : Nat) : MR LineData :=
  if windowOf (keyAddr key) = 1 then s.vaultRead (keyAsid key) (keyAddr key) else s.homeRead key .read

/-- Write bytes of a line where it lives. -/
def State.backWrite (s : State) (key : Nat) (new : LineData) (m : ByteMask) (kind : WriteKind) : MR Unit :=
  if windowOf (keyAddr key) = 1 then s.vaultWrite (keyAsid key) (keyAddr key) new m else s.homeWrite key new m kind

/-- The format tag of a line where it lives (R163), once its permission has been checked: of the vault's windows, or as `permOf`. -/
def State.permAt (s : State) (key : Nat) (n : Need) : MR Nat :=
  let a := keyAddr key
  if windowOf a = 1 then (s.vaultOk (keyAsid key) a (n == .write)).bind fun _ s => .ok (windowFmt (s.mem.vaultWindow a)) s
  else s.permOf key n

/-- The format tag and the frame of a deep or arena line: of its tag, or of its leaf where the slice does not hold it (R163). -/
def State.homeInfo (s : State) (key : Nat) : Nat × Option (Bool × Nat) :=
  match smFind s.mem.tags key with
  | some t => (s.mem.tagFmt key t, t.frame)
  | none => match s.leafOf key with
    | .ok x _ => (x.fmt, x.frame)
    | _ => (0, none)

/-- The format tag of a line where it lives (R163); of a vault line, that of the vault's windows now. -/
def State.backFmt (s : State) (key : Nat) : Nat :=
  if windowOf (keyAddr key) = 1 then windowFmt (s.mem.vaultWindow (keyAddr key)) else (s.homeInfo key).1

/-- The permission probe of a store (R210): W at the home or the grant, and no cb4x line (R158). -/
def State.probeW (s : State) (key : Nat) : MR Unit :=
  (s.permAt key .write).bind fun f s => if f = 2 then .perm 3 else .ok () s

/-! ## The L1 (R209, R210) -/

/-- A line of a core's L1. -/
def State.l1 (s : State) (core key : Nat) : Option L1Line := smFind (s.core core).l1 key
/-- Put a line into an L1; a line with no valid byte is absent. -/
def State.setL1 (s : State) (core key : Nat) (x : L1Line) : State :=
  s.updCore core fun c => { c with l1 := if x.valid = 0 then smDel key c.l1 else smPut key x c.l1 }
/-- Drop a line of an L1. -/
def State.dropL1 (s : State) (core key : Nat) : State := s.updCore core fun c => { c with l1 := smDel key c.l1 }

/-- A write-back of this line by this core is on its way. -/
def Mem.wbOut (m : Mem) (core key : Nat) : Bool := m.wbs.any fun w => w.core == core && w.key == key

/-- Fill a line: bytes that are not dirty come from where it lives (R210). -/
def State.fillL1 (s : State) (core key : Nat) : MR L1Line :=
  (s.backRead key).bind fun d s =>
    let old := (s.l1 core key).getD {}
    let w := match s.probeW key with
      | .ok _ _ => true
      | _ => false
    let x : L1Line := { data := mergeLine d old.data old.dirty, valid := BitVec.allOnes 128, dirty := old.dirty, bad := old.bad &&& old.dirty,
                        r := true, w := w }
    .ok x (s.setL1 core key x)

/-- Load n bytes through an L1; also whether it hit (R210, R462). A byte with an uncorrectable error is not to be had (R457). -/
def State.loadL1 (s : State) (core asid a n : Nat) : MR (List Byte × Bool) :=
  let key := lineKey asid a
  let m := spanMask (a % 128) n
  let bytes := fun (x : L1Line) (hit : Bool) (s : State) =>
    if x.bad &&& m = 0 then MR.ok ((List.range n).map fun i => lineByte x.data (a % 128 + i), hit) s else .data
  match s.l1 core key with
  | some x => if x.valid &&& m = m then bytes x true s else (s.fillL1 core key).bind fun x s => bytes x false s
  | none => (s.fillL1 core key).bind fun x s => bytes x false s

/-- Store bytes into an L1 without a fill; whether the line's W permission is known (R210). -/
def State.storeL1 (s : State) (core asid a : Nat) (bs : List Byte) : Bool × State :=
  let key := lineKey asid a
  let m := spanMask (a % 128) bs.length
  let x := (s.l1 core key).getD {}
  let y := { x with data := lineSet x.data (a % 128) bs, valid := x.valid ||| m, dirty := x.dirty ||| m,
                     bad := x.bad &&& ~~~m }
  (x.w, s.setL1 core key y)

/-- A denied probe discards the store's bytes (R210). -/
def State.discardL1 (s : State) (core asid a n : Nat) : State :=
  let key := lineKey asid a
  match s.l1 core key with
  | none => s
  | some x =>
    let m := spanMask (a % 128) n
    s.setL1 core key { x with valid := x.valid &&& ~~~m, dirty := x.dirty &&& ~~~m }

/-- Start the write-back of a line's dirty bytes (R210). The line stays, clean. -/
def State.startWb (s : State) (core key : Nat) : State :=
  match s.l1 core key with
  | none => s
  | some x =>
    if x.dirty = 0 then s
    else
      let s := s.setL1 core key { x with dirty := 0 }
      s.updMem fun m => { m with wbs := m.wbs ++ [⟨m.nextWb, core, key, x.data, x.dirty, false, x.bad &&& x.dirty != 0⟩], nextWb := m.nextWb + 1 }

/-- Start the write-back of every dirty line of an L1 that a test selects. -/
def State.startWbs (s : State) (core : Nat) (p : Nat → Bool) : State :=
  ((s.core core).l1.map Prod.fst).foldl (fun s k => if p k then s.startWb core k else s) s

/-- Write-backs of a core that are not acknowledged. -/
def State.wbIds (s : State) (core : Nat) : List Nat := (s.mem.wbs.filter fun w => w.core == core).map Wb.id

/-- Every byte of an L1 that is not dirty is invalidated (R210, R263). -/
def State.invalClean (s : State) (core : Nat) : State :=
  s.updCore core fun c => { c with l1 := c.l1.filterMap fun x =>
    if x.2.dirty = 0 then none else some (x.1, { x.2 with valid := x.2.dirty, r := false }) }

/-- The arena line's generation of bytes is dead: writes to it are discarded at the home (R402). -/
def Mem.arenaDying (m : Mem) (key : Nat) : Bool :=
  windowOf (keyAddr key) == 2 && (smGet ({} : Arena) m.arenas (arenaKey (keyAsid key) (arenaSlot (keyAddr key)))).state != 1

/-- An earlier write-back of the same line by the same core is still on its way: write-backs of one line arrive in the order in which
they were sent (R211). -/
def Mem.wbBehind (m : Mem) (w : Wb) : Bool := m.wbs.any fun x => decide (x.id < w.id) && x.core == w.core && x.key == w.key

/-- A write-back reaches its home: performed, discarded where its arena is dying or its leaf denies it, or held for a frame
(R210, R218, R402). One with an uncorrectable error is lost, and its owning node fails (R457). -/
def State.wbArrive (s : State) (id : Nat) : State :=
  match s.mem.wbs.find? (fun w => w.id == id) with
  | none => s
  | some w =>
    let gone := fun (s : State) => s.updMem fun m => { m with wbs := m.wbs.filter fun x => x.id != id }
    if s.mem.wbBehind w then s
    else if s.mem.arenaDying w.key then gone s
    else if w.bad then gone (s.failOwner w.key)
    else match s.backWrite w.key w.data w.mask .place with
      | .ok _ s => gone s
      | .page 4 s => ((s.updMem fun m => { m with wbs := m.wbs.map fun x => if x.id == id then { x with held := true } else x }).irq 4 (keyAsid w.key))
      | _ => gone s

end Sys2Proof.Machine
end

