-- ==== Sys2Proof/Machine/Convert.lean ====
section
/-!
DEFINITION. Element formats (R149-R159): decoding an element to its exact value, delivering it, encoding a store, and the
conversion port of a line's home (R164, R228). The chunk sum of the matrix path (R166).
-/

namespace Sys2Proof.Machine

/-- The code of an element format (R149). -/
def fmtCode : Fmt → Nat
  | .cb4 => 1 | .cb4x => 2 | .fe4m3 => 3 | .fe5m2 => 4 | .i8 => 5 | .bf16 => 6

/-- Bits of an element (R149); raw bytes are read as f32. -/
def elemBits : Nat → Nat
  | 1 | 2 => 4 | 3 | 4 | 5 => 8 | 6 => 16 | _ => 32

/-- Elements per line (R228). -/
def elemsPerLine (f : Nat) : Nat := 1024 / elemBits f

/-- Entry i of a codebook slot (R152). -/
def Mem.cbEntry (m : Mem) (slot i : Nat) : Nat := bitsOf (smGet 0 m.cbook slot).toNat (16 * i + 15) (16 * i)

/-- The 16 entries of a codebook slot. -/
def Mem.codebook (m : Mem) (slot : Nat) : List Nat := (List.range 16).map (m.cbEntry slot)

/-- The exact value of an element (R150, R151, R153, R159): its bits, its codebook and its block's scale byte. -/
def decodeElem (f raw : Nat) (cb : List Nat) (scale : Nat) : FV :=
  match f with
  | 1 => ffBf16.val (cb.getD raw 0)
  | 2 =>
    if scale = 0xFF then .nan false
    else match ffBf16.val (cb.getD raw 0) with
      | .fin neg m e => .fin neg m (e + scale - 127)
      | x => x
  | 3 => ffFe4m3.val raw
  | 4 => ffFe5m2.val raw
  | 5 => if raw < 128 then .fin false raw 0 else .fin true (256 - raw) 0
  | 6 => ffBf16.val raw
  | _ => ffF32.val raw

/-- Deliver a decoded value in a format: rounded once where it must be (R159). -/
def FF.deliver (F : FF) (x : FV) : Nat × Events :=
  match x with
  | .nan _ => (F.nan, [])
  | .inf neg => (F.signed neg F.infMag, [])
  | .fin neg m e => if m = 0 then (F.signed neg 0, []) else F.round .rn neg m e

/-! ## Encoding (R156, R157) -/

/-- Events of a clamp. -/
def clampEv : Events := [.sat, .inx]

/-- Encode into a floating format (R156). -/
def FF.encode (F : FF) (sat : Bool) (r : Rnd) (x : Nat) : Nat × Events :=
  match ffF32.val x with
  | .nan _ => (F.nan, [])
  | .inf neg =>
    if F.finOnly || sat then (F.signed neg F.maxMag, clampEv) else (F.overflow r neg, [])
  | .fin neg m e =>
    if m = 0 then (F.signed neg 0, [])
    else
      let y := F.roundMag r neg m e
      if F.maxMag < y.1 then
        if F.finOnly || sat then (F.signed neg F.maxMag, clampEv) else (F.overflow r neg, [.ovf, .inx])
      else (F.signed neg y.1, roundEvents y.2.1 y.2.2)

/-- Encode into i8 (R156). -/
def encodeI8 (r : Rnd) (x : Nat) : Nat × Events :=
  match ffF32.val x with
  | .nan _ => (0, [.inv])
  | .inf neg => (if neg then 0x80 else 0x7F, clampEv)
  | .fin neg m e =>
    let y := roundInteger r neg m e
    let v := signedMant neg y.1
    if v < -128 then (0x80, clampEv) else if 127 < v then (0x7F, clampEv)
    else ((v % 256).toNat, if y.2 then [.inx] else [])

/-- The distance of two finite values as a mantissa on 2^-149. -/
def fvDist (x y : FV) : Nat :=
  match x, y with
  | .fin s m e, .fin t n f =>
    let d := addDyadic (signedMant s m) e (-(signedMant t n)) f
    d.1.natAbs * 2 ^ (d.2 + 300).toNat
  | _, _ => 0

/-- The best of numbered candidates: the first is kept on ties. -/
def pickFirst (better : FV → FV → Bool) : List (Nat × FV) → Option (Nat × FV)
  | [] => none
  | x :: xs =>
    match pickFirst better xs with
    | some y => if better y.2 x.2 then some y else some x
    | none => some x

/-- The value is finite. -/
def FV.isFin : FV → Bool
  | .fin _ _ _ => true
  | _ => false

/-- A cb4 store's index (R157). -/
def cbEncode (cb : List Nat) (x : Nat) : Nat × Events :=
  let v := ffF32.val x
  let es := (List.range 16).map fun i => (i, ffBf16.val (cb.getD i 0))
  let fin := es.filter fun y => y.2.isFin
  let least := pickFirst (fun a b => a.cmp b == -1) fin
  let most := pickFirst (fun a b => a.cmp b == 1) fin
  let idx := fun (y : Option (Nat × FV)) => (y.map Prod.fst).getD 0
  match v with
  | .nan _ =>
    match es.find? (fun y => y.2.isNan) with
    | some y => (y.1, [])
    | none => (idx least, [.inv])
  | .inf neg =>
    match es.find? (fun y => y.2 == .inf neg) with
    | some y => (y.1, [])
    | none => if fin.isEmpty then (0, [.inv]) else (idx (if neg then least else most), [.cbc, .inx])
  | .fin _ _ _ =>
    match least, most with
    | some lo, some hi =>
      if v.cmp lo.2 == -1 then (lo.1, [.cbc, .inx])
      else if v.cmp hi.2 == 1 then (hi.1, [.cbc, .inx])
      else match pickFirst (fun a b => decide (fvDist v a < fvDist v b)) fin with
        | some y => (y.1, if v.cmp y.2 == 0 then [] else [.inx])
        | none => (0, [.inv])
    | _, _ => (0, [.inv])

/-- Encode an f32 for a line of format f (R156): the element's bits. A cb4x line takes none (R158). -/
def encodeElem (f : Nat) (cb : List Nat) (sat : Bool) (r : Rnd) (x : Nat) : Nat × Events :=
  match f with
  | 1 => cbEncode cb x
  | 3 => ffFe4m3.encode sat r x
  | 4 => ffFe5m2.encode sat r x
  | 5 => encodeI8 r x
  | 6 => ffBf16.encode sat r x
  | _ => (x, [])

/-! ## The conversion port (R153, R162, R164, R228) -/

/-- How a line converts now: its format, codebook, saturate bit, and the scale bytes of its four blocks. -/
structure Port where
  fmt : Nat
  cb : List Nat
  sat : Bool
  scales : List Nat
  deriving DecidableEq, Repr

/-- The port of a line at byte address `a` of its memory, given the window that now contains it. Without a window the
codebook slot is 0 and SAT is 0 (R228); the scale bytes are then unstated (log 10). -/
def Mem.portOf (m : Mem) (draw fmt a : Nat) (w : Option (BitVec 128)) (byteAt : Nat → Byte) : Port :=
  match w with
  | some x =>
    let n := x.toNat
    ⟨fmt, m.codebook (bitsOf n 19 12), n.testBit 8,
      (List.range 4).map fun i => (byteAt (bitsOf n 127 96 * 65536 + (a - bitsOf n 63 32 * 65536) / 32 + i)).toNat⟩
  | none => ⟨fmt, m.codebook 0, false, (List.range 4).map fun i => (Config.freeByte (4 * draw + i)).toNat⟩

/-- The port of a line where it lives. Its scale bytes are read raw (R153) in the memory under the window: the spec does not say whether
a Hallmark line that holds newer bytes of the scale array is read instead, and the model reads past the cache (DESIGN CHOICE, log 74). A
vault window whose SCALE is 1,536 or more is in force, and the bytes its scale array names lie past the vault (DESIGN CHOICE, log 91). -/
def State.port (s : State) (key : Nat) : Port :=
  let a := keyAddr key
  let m := s.mem
  if windowOf a = 1 then
    let w := m.vaultWindow a
    let off := vaultOff a / 128 * 128
    m.portOf s.draws (windowFmt w) off w fun i => Memory.get m.vault (vaultOf a * 2 ^ 27 + i)
  else
    let pa := match (s.homeInfo key).2 with
      | some (false, p) => some p
      | _ => none
    m.portOf s.draws (s.backFmt key) (pa.getD 0) (pa.bind m.deepWindow) fun i => Memory.get m.phys i

/-- The bits of element i of a line. -/
def elemRaw (f : Nat) (d : LineData) (i : Nat) : Nat := d.toNat / 2 ^ (elemBits f * i) % 2 ^ elemBits f

/-- The scale byte of element i: blocks of 64 (R153). -/
def Port.scale (p : Port) (i : Nat) : Nat := p.scales.getD (i / 64) 0

/-- Element i of a line, exactly. -/
def Port.elem (p : Port) (d : LineData) (i : Nat) : FV := decodeElem p.fmt (elemRaw p.fmt d i) p.cb (p.scale i)

/-- One `ld.cv` element as f32 (R228): an index past the line is a NaN and INV. -/
def Port.readF32 (p : Port) (d : LineData) (i : Nat) : Nat × Events :=
  if elemsPerLine p.fmt ≤ i then (ffF32.nan, [.inv])
  else if elemBits p.fmt = 32 then (elemRaw p.fmt d i, [])
  else ffF32.deliver (p.elem d i)

/-- One `ld.cv` element as bf16. -/
def Port.readBf16 (p : Port) (d : LineData) (i : Nat) : Nat × Events :=
  if elemsPerLine p.fmt ≤ i then (ffBf16.nan, [.inv]) else ffBf16.deliver (p.elem d i)

/-- Put the bits of element i into a line. -/
def elemPut (f : Nat) (d : LineData) (i raw : Nat) : LineData :=
  let b := elemBits f
  let n := d.toNat
  let old := n / 2 ^ (b * i) % 2 ^ b
  BitVec.ofNat 1024 (n - old * 2 ^ (b * i) + raw % 2 ^ b * 2 ^ (b * i))

/-! ## The matrix path (R160, R166) -/

/-- One chunk of sixteen products rounded once to f32. -/
def chunkSum (ps : List FV) : Nat :=
  let F := ffF32
  if ps.any FV.isNan || (ps.any (fun p => p.isInf && p.neg) && ps.any (fun p => p.isInf && !p.neg)) then F.nan
  else match ps.find? FV.isInf with
    | some p => F.signed p.neg F.infMag
    | none =>
      let v := sumFV ps
      (F.roundInt .rn v.1 v.2 (F.signed (ps.all fun p => p.isZero && p.neg) 0)).1

/-- Accumulate the chunks of one output element in order (R166). -/
def mmaChunks (acc : Nat) : List (List FV) → Nat
  | [] => acc
  | c :: cs => mmaChunks (ffF32.fma .rn acc 0x3F800000 (chunkSum c)).1 cs

/-- Cut a list into chunks of sixteen: `n` chunks. -/
def chunks16 (xs : List FV) : Nat → List (List FV)
  | 0 => []
  | n + 1 => xs.take 16 :: chunks16 (xs.drop 16) n

end Sys2Proof.Machine
end

