-- ==== Sys2Proof/Machine/Fetch.lean ====
section
/-!
DEFINITION. Code lines and clauses (R52-R61), the checks of a line and of a target (R56, R77, R79, R103, R105), arrival at
a header with merging and merge holds (R93-R96), and how a split goes on (R57, R91).
-/

namespace Sys2Proof.Machine

/-! ## Code positions -/

/-- Line number of a PC (R52). -/
def lineNum (pc : W64) : Nat := pc.toNat / 128 % 2 ^ 49
/-- Word index of a PC. -/
def wordIdx (pc : W64) : Nat := pc.toNat / 8 % 16
/-- The PC of a word; line numbers wrap at the end of the deep space (log 8). -/
def pcAt (line w : Nat) : W64 := BitVec.ofNat 64 (line % 2 ^ 49 * 128 + 8 * w)
/-- Bits [2:0] and [63:56] are zero (R103, R446). -/
def pcShape (pc : W64) : Bool := pc.toNat % 8 == 0 && pc.toNat / 2 ^ 56 == 0

/-! ## Lines (R53-R56) -/

/-- Word w of a line. -/
def Line.word (x : Line) (w : Nat) : W64 := x.words.getD w 0
/-- VER of the header. -/
def Line.ver (x : Line) : Nat := bitsOf (x.word 0).toNat 58 56
/-- KIND of the header. -/
def Line.kind (x : Line) : Nat := bitsOf (x.word 0).toNat 55 48
/-- Word w is a legal target. -/
def Line.isTarget (x : Line) (w : Nat) : Bool := decide (1 ≤ w) && (x.word 0).toNat.testBit (31 + w)
/-- Word w is a clause header. -/
def Line.isHdr (x : Line) (w : Nat) : Bool := decide (1 ≤ w) && (x.word 0).toNat.testBit (15 + w)
/-- Word w is a clause header or an instruction word. -/
def Line.isStart (x : Line) (w : Nat) : Bool := decide (1 ≤ w) && (x.word 0).toNat.testBit (w - 1)
/-- LEN of the clause header at word w. -/
def Line.len (x : Line) (w : Nat) : Nat := bitsOf (x.word w).toNat 25 22

/-- A line from its bytes. -/
def Line.ofData (num : Nat) (d : LineData) : Line := ⟨num, (List.range 16).map fun i => d.extractLsb' (64 * i) 64⟩

/-- The body words from w on, `n` of them: an instruction word, or the extension word of the one before (R55 items 4, 5). -/
def Line.bodyOk (x : Line) : Nat → Nat → Bool → Bool
  | 0, _, _ => true
  | n + 1, w, ext =>
    !x.isHdr w && (if ext then !x.isStart w && x.bodyOk n (w + 1) false
      else x.isStart w && x.bodyOk n (w + 1) (hasExt (x.word w)))

/-- Clauses from word w to the end of the line, then fill words (R55 items 3 to 7). -/
def Line.clausesOk (x : Line) : Nat → Nat → Bool
  | 0, _ => true
  | n + 1, w =>
    if 16 ≤ w then true
    else if x.isHdr w then decide (w + x.len w ≤ 15) && x.bodyOk (x.len w) (w + 1) false && x.clausesOk n (w + x.len w + 1)
    else (List.range 16).all fun i => decide (i < w) || !x.isStart i

/-- The masks are consistent (R55). -/
def Line.masksOk (x : Line) : Bool :=
  ((List.range 16).all fun w => (!x.isTarget w || x.isHdr w) && (!x.isHdr w || x.isStart w)) && x.isHdr 1 && x.clausesOk 15 1

/-- A reserved bit of the line header is set (R53). -/
def Line.reserved (x : Line) : Bool :=
  let h := (x.word 0).toNat
  bitsOf h 63 59 != 0 || h.testBit 47 || h.testBit 31 || h.testBit 15

/-- The check of a line at the first word a split executes in it (R56). -/
def Line.check (x : Line) (ver : Nat) : Option Detail :=
  if x.reserved || !(x.kind == 1 || x.kind == 2 || x.kind == 3) || !x.masksOk then some .header
  else if x.ver != ver then some .version
  else none

/-! ## Clauses (R57, R59, R60) -/

/-- The fields of a clause header (R59). -/
structure Clause where
  wait : Nat
  fa : Nat
  av : Bool
  fb : Nat
  bv : Bool
  len : Nat
  safe : Bool
  safen : Nat
  yld : Bool
  merge : Bool
  patch : Bool
  deriving DecidableEq, Repr

/-- Read the clause header at word w. -/
def Line.clause (x : Line) (w : Nat) : Clause :=
  let h := (x.word w).toNat
  ⟨bitsOf h 11 0, bitsOf h 15 12, h.testBit 16, bitsOf h 20 17, h.testBit 21, bitsOf h 25 22, h.testBit 26, bitsOf h 38 27,
    h.testBit 39, h.testBit 40, h.testBit 41⟩

/-- The word of a patch site passes the clause check (R60). -/
def patchWordOk (x : W64) : Bool :=
  let m := x.toNat / 2 ^ 56
  m == 0x0F || ((m == 0x0C || m == 0x0D) && !x.getLsbD 55)

/-- The check of a clause header at arrival (R60). -/
def Line.clauseCheck (x : Line) (w : Nat) : Option Detail :=
  let c := x.clause w
  if bitsOf (x.word w).toNat 63 42 != 0 || c.len == 0 || c.len == 15 || decide (15 < w + c.len) || decide (11 < c.fa) ||
      decide (11 < c.fb) || (!c.av && c.fa != 0) || (!c.bv && c.fb != 0) || (c.av && c.bv && c.fa == c.fb) ||
      (!c.safe && c.safen != 0) || (c.patch && c.len != 1) || (c.safe && !x.isTarget w) then some .clause
  else if c.patch && !patchWordOk (x.word (w + 1)) then some .patch
  else none

/-- The header of the clause whose body holds word w: the nearest header below it (R55). -/
def Line.cover (x : Line) (w : Nat) : Option Nat :=
  match ((List.range w).filter x.isHdr).getLast? with
  | some h => if w ≤ h + x.len h then some h else none
  | none => none

/-- The point at which a split goes on after the clause at header h: the next header of the line, or word 1 of the next
line (R57). -/
def Line.fall (x : Line) (h : Nat) : W64 :=
  let w := h + x.len h + 1
  if w ≤ 15 ∧ x.isHdr w then pcAt x.num w else pcAt (x.num + 1) 1

/-- A control word other than `nop`, `mloop` or `trapret` must be the last instruction of its clause (R64, R369, R469). So must a word of the
control majors that is no instruction: where it is not the last, its detail is "clause", not "opcode" (DESIGN CHOICE, log 88). -/
def endsClause (w : W64) : Bool :=
  let m := w.toNat / 2 ^ 56
  let f := bitsOf w.toNat 13 2
  (decide (m ≤ 0x0F) && !(m == 0 && f == 0)) || m == 0x72 || (m == 0x7B && f == 1)

/-! ## Reading code (R58) -/

/-- Read a code line from its home. -/
def State.codeLine (s : State) (asid line : Nat) : MR Line :=
  (s.homeRead (lineKey asid (line % 2 ^ 49 * 128)) .fetch).bind fun d s => .ok (Line.ofData (line % 2 ^ 49) d) s

/-- A line's header as a branch reads it; none where it cannot be read (R77). -/
def State.peekLine (s : State) (asid line : Nat) : Option Line × State :=
  match s.codeLine asid line with
  | .ok x s => (some x, s)
  | _ => (none, s)

/-! ## Targets (R77, R79, R103, R105, R392, R446) -/

/-- Every line from `a` to `b` is a readable patch line: one run (R77 item 2). -/
def State.patchRun (s : State) (asid a b : Nat) : Bool :=
  (List.range (max a b - min a b + 1)).all fun i =>
    match (s.peekLine asid (min a b + i)).1 with
    | some x => x.kind == 3
    | none => false

/-- A trampoline word (R78): majors 0x0C to 0x0F. -/
def isTramp (x : W64) : Bool := decide (0x0C ≤ x.toNat / 2 ^ 56) && decide (x.toNat / 2 ^ 56 ≤ 0x0F)

/-- A word directly after a clause body, or after a trampoline inside one: a PC from which a split could go on by R57 (R79). -/
def Line.afterBody (x : Line) (w : Nat) : Bool :=
  ((List.range w).any fun h => x.isHdr h && h + x.len h + 1 == w) ||
    ((x.cover w).isSome && x.isStart w && (List.range w).any fun i =>
      x.isStart i && !x.isHdr i && isTramp (x.word i) && i + (if hasExt (x.word i) then 2 else 1) == w)

/-- The target passes the check that is due of it. -/
def State.targetOk (s : State) (asid : Nat) (d : Due) (x : Line) (w : Nat) : Bool :=
  let fn := w == 1 && (x.kind == 2 || x.kind == 3)
  let any := x.kind == 1 || x.kind == 2 || x.kind == 3
  let rel := fun (src : Option Nat) => x.isTarget w && (x.kind == 1 || x.kind == 2 || (x.kind == 3 && match src with
    | some n => s.patchRun asid n x.num
    | none => false))
  match d with
  | .none | .vector => true
  | .branch src => rel src
  | .call src => rel src && fn
  | .indirect => any && x.isTarget w
  | .callInd => any && x.isTarget w && fn
  | .tramp => fn
  | .back => x.isTarget w || x.isHdr w || x.afterBody w
  | .ret => any && x.isHdr w
  | .entry => x.kind == 2 && w == 1

/-- A target whose form alone refuses it: outside the deep space, or word 0. -/
def targetShape (d : Due) (pc : W64) : Bool := pcShape pc && (d == .back || wordIdx pc != 0)

/-- Check a target when a branch is taken: refused, passed, or due at the fetch of its line because its header cannot be
read (R77). -/
def State.checkTarget (s : State) (asid : Nat) (d : Due) (pc : W64) : Option (Due × State) :=
  if !targetShape d pc then none
  else
    let r := s.peekLine asid (lineNum pc)
    match r.1 with
    | none => some (d, r.2)
    | some x => if r.2.targetOk asid d x (wordIdx pc) then some (.none, r.2) else none

/-- Where a return by `trr` stands: past fill words at the next line's word 1 (R55, R57, R79). -/
def Line.land (x : Line) (pc : W64) : W64 := if x.isStart (wordIdx pc) then pc else pcAt (x.num + 1) 1

/-! ## Traces (R460) -/

/-- Write a record of kind `kind` for a split, with the sync records that R460 asks for. -/
def State.trace (s : State) (u e : Nat) (kind : Nat) (body : List Byte) : State :=
  match s.wave? u with
  | none => s
  | some w =>
    match w.split? e with
    | none => s
    | some x =>
      if !(s.bank w).tracectl.getLsbD 0 then s
      else
        let hd := fun k => [BitVec.ofNat 8 k, BitVec.ofNat 8 w.slot, if e = 4 then 0xFF else BitVec.ofNat 8 e, BitVec.ofNat 8 x.ver]
        let sync := hd 1 ++ le 4 x.mask.toNat ++ le 8 x.pc.toNat
        let one := hd kind ++ padTo 12 body
        let out := match x.traced with
          | none => ([sync, one], 1)
          | some n => if n + 1 = 512 then ([one, sync], 0) else ([one], n + 1)
        s.setWave u ({ w with traces := w.traces ++ out.1 }.updSplit e fun y => { y with traced := some out.2 })

/-- A taken control transfer, where BRANCH records are on (R460). -/
def State.traceBranch (s : State) (u e : Nat) (pc : W64) : State :=
  match s.wave? u with
  | some w => if (s.bank w).tracectl.getLsbD 1 then s.trace u e 2 (le 8 pc.toNat) else s
  | none => s

/-! ## Traps at a line or a header -/

/-- A cause at the PC where a split stands, for all its lanes; the detail takes the serial current now (R443). -/
def State.trapHere (s : State) (u e : Nat) (c : Cause) (code : Nat) (info : List Byte) : State :=
  match s.wave? u with
  | none => s
  | some w =>
    match w.split? e with
    | none => s
    | some x =>
      let d : TDetail := ⟨w.serial, x.pc, c.num, code, if e = 4 then 0xFF else e, x.ver, x.mask, padTo 16 info⟩
      s.pend u c x.mask (e == 4) (some d)

/-- ILLEGAL at the PC where a split stands, with the word there. -/
def State.illegalHere (s : State) (u e : Nat) (d : Detail) (x : Line) (pc : W64) : State :=
  s.trapHere u e .illegal d.code (le 8 (x.word (wordIdx pc)).toNat)

/-! ## Arrival (R93) -/

/-- The version a core holds for a wave's kernel (R425). -/
def State.kverAt (s : State) (w : Wave) : Nat :=
  match s.kernel? w.kernel with
  | some k => ((k.lag.find? fun x => x.1 == w.core).map Prod.snd).getD k.kver
  | none => 0

/-- Q is a split that an arriving S may merge with (R94). A split that sleeps arrives at the header it goes on at, and may merge there, only
when its sleep is over (DESIGN CHOICE, log 75). -/
def Split.joins (x q : Split) : Bool :=
  q.arrived && q.pc == x.pc && q.ver == x.ver && q.lr == x.lr && q.tlr == x.tlr && !x.stop && !q.stop && !q.xfer &&
    !q.xferDone && !x.xferDone && q.sleepTo.isNone

/-- Merge the splits of entries e and q into the lower one (R94). -/
def Wave.mergeSplits (w : Wave) (e q : Nat) (x y : Split) : Wave :=
  let m : Split := { x with mask := x.mask ||| y.mask, w := max x.w y.w, mergeTo := none, yieldTo := 0, arrived := true,
                            stall := x.stall ||| y.stall, traced := none }
  (w.setSplit (max e q) none).setSplit (min e q) (some m)

/-- Arrival from step 2 of R93 on, at the header of clause c: merge, merge hold, YIELD. -/
def State.arriveAt (s : State) (u e : Nat) (c : Clause) : State :=
  match s.wave? u with
  | none => s
  | some w =>
    match w.split? e with
    | none => s
    | some x =>
      let mate := if e = 4 then none else w.liveSplits.find? fun q => q.1 != e && x.joins q.2
      match mate with
      | some (q, y) =>
        let k := min e q
        let w := w.mergeSplits e q x y
        s.setWave u (if c.yld then w.updSplit k fun z => { z with w := 0, yieldTo := s.clk + 2 } else w)
      | none =>
        let wait := bitsOf (s.bank w).issuectl.toNat 25 16
        let held := c.merge && wait != 0 && e != 4 && w.liveSplits.any fun q => q.1 != e && q.2.ver == x.ver
        let x := { x with arrived := true, mergeTo := if held then some (s.clk + wait) else none }
        s.setWave u (w.setSplit e (some (if c.yld then { x with w := 0, yieldTo := s.clk + 2 } else x)))

/-- A `recast`. -/
def isRecast (i : Instr) : Bool :=
  match i with
  | .recast .. => true
  | _ => false

/-- The transfer unit takes a split that arrives at a SAFE header (R427, R428): the core's KVER is another version, or may be one when the
hold ends, a `recast` of the split's own being outstanding (24_program_recast.md, on lines 048-055 and 064-071). -/
def State.xferHere (s : State) (w : Wave) (x : Split) : Bool :=
  s.kverAt w != x.ver || w.ops.any fun o => isRecast o.ins && o.issued &&& x.mask != 0

/-- A split whose line is in its buffer and passed its checks stands at its PC: at a header it arrives (R60, R93); inside
a body it goes on without WAIT (R64, R79); elsewhere there is nothing to execute. -/
def State.arrive (s : State) (u e : Nat) : State :=
  match s.wave? u with
  | none => s
  | some w =>
    match w.split? e with
    | none => s
    | some x =>
      match x.buf with
      | none => s
      | some b =>
        let n := wordIdx x.pc
        if b.num != lineNum x.pc || x.sleepTo.isSome || x.arrived then s
        else if b.isHdr n then
          match b.clauseCheck n with
          | some d => s.illegalHere u e d b x.pc
          | none =>
            let c := b.clause n
            if c.safe && e != 4 && (b.kind == 1 || b.kind == 2) && !x.xferDone && s.xferHere w x
            then s.setWave u (w.setSplit e (some { x with xfer := true }))
            else s.arriveAt u e c
        else if (b.cover n).isSome && b.isStart n then s
        else s.illegalHere u e .target b x.pc

/-- Check the line in a split's buffer and what is due of its target, then arrive (R56, R77). A handler split and a task
wave take the version of their first line (R392, R445). -/
def State.enterLine (s : State) (u e : Nat) (b : Line) : State :=
  match s.wave? u with
  | none => s
  | some w =>
    match w.split? e with
    | none => s
    | some x =>
      let x := if x.due = .vector ∨ x.due = .entry then { x with ver := b.ver } else x
      let s := s.setWave u (w.setSplit e (some x))
      match (if x.due == .entry && !s.targetOk w.asid .entry b (wordIdx x.pc) then some Detail.target else b.check x.ver) with
      | some d => s.illegalHere u e d b x.pc
      | none =>
        if !s.targetOk w.asid x.due b (wordIdx x.pc) then s.illegalHere u e .target b x.pc
        else
          let pc := if x.due = .back then b.land x.pc else x.pc
          (s.updSplit u e fun y => { y with due := .none, pc := pc, buf := some b }).arrive u e

/-- A split moves to a PC: it keeps its line only while it stays in it (R58). A target whose line is kept arrives at once. -/
def State.moveTo (s : State) (u e : Nat) (pc : W64) (due : Due) : State :=
  let s := s.updSplit u e fun x =>
    let keep := match x.buf with
      | some b => b.num == lineNum pc
      | none => false
    { x with pc := pc, arrived := false, due := due, xferDone := false, released := false, feLeft := none, block := .none,
             mergeTo := none, buf := if keep && due == .none then x.buf else none }
  s.arrive u e

/-! ## Redirect (R91) -/

/-- Lanes that go to one PC. -/
structure Group where
  pc : W64
  called : Bool
  mask : Mask
  deriving DecidableEq, Repr

/-- Add a lane to its group. -/
def addLane (pc : W64) (called : Bool) (l : Nat) : List Group → List Group
  | [] => [⟨pc, called, laneBit l⟩]
  | g :: gs => if g.pc = pc ∧ g.called = called then { g with mask := g.mask ||| laneBit l } :: gs else g :: addLane pc called l gs

/-- The larger group first, then the one with the lower lane. -/
def Group.before (a b : Group) : Bool :=
  decide (laneCount b.mask < laneCount a.mask) || (laneCount a.mask == laneCount b.mask && decide (lowLane a.mask < lowLane b.mask))

/-- Insert a group in its order. -/
def insertGroup (g : Group) : List Group → List Group
  | [] => [g]
  | x :: xs => if g.before x then g :: x :: xs else x :: insertGroup g xs

/-- The groups of a split's lanes by destination, ordered as R91 orders them. -/
def groupsOf (m : Mask) (dest : Nat → W64) (called : Nat → Bool) : List Group :=
  ((lanesOf m).foldl (fun gs l => addLane (dest l) (called l) l gs) []).foldr insertGroup []

/-- Give the groups beyond the first their entries: the free live entries, then the overflow stack (R91). -/
def Wave.fillEntries (w : Wave) (sp : Split) (link : W64) (due : W64 → Due) : List Nat → List Group → Wave
  | _, [] => w
  | free, g :: gs =>
    let x : Split := { pc := g.pc, mask := g.mask, ver := sp.ver, lr := if g.called then link else sp.lr, tlr := sp.tlr, due := due g.pc }
    match free with
    | e :: es => (w.setSplit e (some x)).fillEntries sp link due es gs
    | [] => { w with ovf := x :: w.ovf }.fillEntries sp link due [] gs

/-- Send the lanes of the issuing split to their destinations (R91); a handler split never divides (R447). `due` says what
is due of a target; the fall-through point needs no check. `taken` are the targets, for the trace. `s0` is the state before the word's
reads, which a trap leaves (R92). -/
def State.redirect (s0 s : State) (v : Env) (dest : Nat → W64) (called : Nat → Bool) (due : W64 → Due) (taken : List W64) : State :=
  let gs := groupsOf v.sp.mask dest called
  let link := v.ctx.next
  match gs with
  | [] => s
  | g :: rest =>
    if v.isHandler && !rest.isEmpty then s0.illegal v .target
    else
      let free := (List.range 4).filter fun e => (v.w.split? e).isNone
      if 12 < v.w.ovf.length + (rest.length - free.length) then s0.trapAt v .splitovf 0 v.sp.mask []
      else
        let s := taken.foldl (fun s t => s.traceBranch v.u v.e t) s
        let s := s.updWave v.u fun w =>
          let w := w.updSplit v.e fun x => { x with mask := g.mask, w := 0, lr := if g.called then link else x.lr }
          w.fillEntries v.sp link due free rest
        let s := s.moveTo v.u v.e g.pc (due g.pc)
        let line := v.sp.buf
        (free.take rest.length).foldl (fun s e =>
          match (s.wave? v.u).bind fun w => w.split? e with
          | some x =>
            let s := s.updSplit v.u e fun y => { y with buf := line }
            s.moveTo v.u e x.pc x.due
          | none => s) s

/-! ## Going on after a word -/

/-- The issuing split goes on at its next word; at the end of a clause it arrives at the fall-through point (R57, R93). -/
def State.goOn (s : State) (v : Env) : State :=
  if v.ctx.hdr then s.moveTo v.u v.e v.ctx.next .none
  else s.updSplit v.u v.e fun x => { x with pc := v.ctx.next, arrived := false, released := false, feLeft := none, block := .none }

/-- Lanes leave the wave (R106): from every split, the overflow stack and the handler. An empty split frees its entry. -/
def Wave.dropLanes (w : Wave) (m : Mask) : Wave :=
  let cut := fun (x : Split) => { x with mask := x.mask &&& ~~~m }
  let keep := fun (x : Option Split) => match x with
    | some y => if (cut y).mask = 0 then none else some (cut y)
    | none => none
  { w with exited := w.exited ||| m, live := w.live.map keep, ovf := (w.ovf.map cut).filter fun x => x.mask != 0,
           t := { w.t with handler := w.t.handler.map cut } }

end Sys2Proof.Machine
end

