-- ==== Sys2Proof/Machine/Issue.lean ====
section
/-!
DEFINITION. What every instruction word shares at issue: the issuer, the flag and role checks (R62, R89), the counts of an
issue (R86, R443, R459, R462), the reads of its registers (R117, R121, R457), holds (R84), and the writing of results with
their events (R185).
-/

namespace Sys2Proof.Machine

/-! ## Roles (R89) -/

/-- The rows of R89's table, by what they allow. -/
inductive RoleRow where
  | any | load | store | vecOnly | start | ring | acc | none | handler
  deriving DecidableEq, Repr

/-- A role may issue the instructions of a row; `h` says that a handler split issues. -/
def RoleRow.allows (x : RoleRow) (r : Role) (h : Bool) : Bool :=
  match x with
  | .any => true
  | .none => false
  | .handler => h
  | .load => h || r != .storer
  | .store => h || r != .loader
  | .vecOnly => h || r == .vector || r == .task
  | .start => h || r == .loader
  | .ring => h || r == .loader || r == .storer
  | .acc => h || r == .storer

/-! ## The counts of an issue -/

/-- The primary stall reason: the lowest set bit (R459). -/
def primaryStall (m : Nat) : Nat := ((List.range 8).find? m.testBit).getD 0xFF

/-- The sampling interval of a bank: 2^SHIFT clocks (R459, R466). -/
def Bank.interval (b : Bank) : Nat :=
  let n := bitsOf b.sampctl.toNat 12 8
  if 8 ≤ n ∧ n ≤ 24 then 2 ^ n else 2 ^ 16

/-- The first word that a partition issues at or after its drawn clock is tagged (R459): the record as far as the issue
knows it. Gathering takes one clock where the word reads no register (R117). -/
def State.sampleIssue (s : State) (u : Nat) (w : Wave) (e : Nat) (x : Split) (c : Ctx) (act : Mask) : State :=
  let b := s.bank w
  let core := s.core w.core
  let part := w.slot % 4
  match smFind core.sampDraw part with
  | none => s
  | some (start, r) =>
    if !b.sampctl.getLsbD 0 ∨ s.clk < start + r then s
    else
      let pair := c.word.toNat / 2 ^ 62 == 2
      let uni := !pair && bitsOf c.word.toNat 51 43 / 64 == 4
      let flags := (if pair then 2 else 0) + (if uni then 4 else 0)
      let rec0 := le 8 c.pc.toNat ++ le 8 s.clk ++ le 1 w.slot ++ le 1 part ++ le 1 (if e = 4 then 0xFF else e) ++ le 1 x.ver ++
        le 4 act.toNat ++ le 2 w.t.smark.toNat ++ le 2 0 ++ le 1 0 ++ le 1 x.stall ++ le 1 (primaryStall x.stall) ++ le 1 flags ++
        le 2 (min 65535 x.stallFetch) ++ le 2 (min 65535 x.stallWait) ++ le 2 1 ++ le 2 0 ++ le 2 0 ++ le 6 0 ++
        le 8 c.word.toNat ++ le 2 w.asid ++ le 4 w.node ++ le 2 0
      (s.updCore w.core fun k => { k with sampDraw := smDel part k.sampDraw }).updWave u fun y =>
        { y with samples := y.samples ++ [(w.serial, rec0)] }

/-- The issue of a word: serial, W, counters, and the state the word starts from. -/
def State.issue (s : State) (u e : Nat) (c : Ctx) (act : Mask) : State :=
  match s.wave? u with
  | none => s
  | some w =>
    match w.split? e with
    | none => s
    | some x =>
      let w := { w with serial := w.serial + 1 }
      let y := { x with w := 0, issued := s.clk + 1, block := .none, stall := 0, stallFetch := 0, stallWait := 0 }
      let s1 := { s with draws := s.draws + 1 }.setWave u (w.setSplit e (some y))
      let s2 := s1.updBank w fun b =>
        let p := smSet 0 b.pmc 0 (smGet 0 b.pmc 0 + 1)
        { b with pmc := smSet 0 p 1 (smGet 0 p 1 + BitVec.ofNat 64 (laneCount act)) }
      s2.sampleIssue u w e x c act

/-- What refuses the word before it has issued: the unit it goes to, its flag, a held access (R84 items 4 and 5, R314). -/
def Block.refuses (b : Block) : Bool := b == .unit || b == .flag || b == .barc

/-- The issuing split cannot go on in this clock: it stands at its word with a hold, the state is as before the issue, and
its partition chooses again (R84, R86). A split whose first word is refused stands at its header still (R94). -/
def State.holdAt (s : State) (u e : Nat) (b : Block) : State :=
  match s.wave? u with
  | none => s
  | some w =>
    { s with turns := (w.core, w.slot % 4) :: s.turns }.updSplit u e fun x =>
      match if b.refuses then s.cur.bind Ctx.head else none with
      | some h => { x with block := b, pc := h, arrived := true }
      | none => { x with block := b }

/-! ## Engine issuers -/

/-- The engine program's word failed: it has no effect and the program stops (R347). -/
def State.engineFail (s : State) (core code detail : Nat) (addr : W64) : State :=
  s.updEngine core fun e => { e with fault := some (code, detail, addr) }

/-- ILLEGAL in the engine program. -/
def State.engineIllegal (s : State) (core : Nat) (d : Detail) : State := s.engineFail core 3 d.code 0

/-! ## The wrappers -/

/-- The lanes of a split in which a guard is true. -/
def Wave.activeOf (w : Wave) (x : Split) (g : Guard) : Mask :=
  x.mask &&& (if g.neg then ~~~(w.getP g.p) else w.getP g.p)

/-- Predicates that a word names as sources beside its guard: those of the register class (R127, R128, R137, R197), and the one that COMB
joins a comparison with (R144). -/
def predSources (i : Instr) : List Nat :=
  match i with
  | .sel _ _ _ ps .. | .vote _ _ _ ps .. | .iaddc _ _ ps .. => [ps]
  | .pand _ _ pa pb | .por _ _ pa pb | .pxor _ _ pa pb => [pa, pb]
  | .pnot _ _ pa | .pmov _ _ pa => [pa]
  | .icmp _ _ _ _ pd comb .. | .fcmp _ _ pd comb .. => if comb = .set then [] else [pd]
  | _ => []

/-- A word reads its predicates: an uncorrectable error in one is DATAERR, precise, for the whole split, and nothing happens (R457). Its
operand code is 512 and the predicate's number (DESIGN CHOICE, log 20). -/
def State.withPreds (s : State) (v : Env) (g : Guard) (k : State → Env → State) : State :=
  match (g.p :: v.ctx.preds).find? fun p => smGet false v.w.r.badP p with
  | some p => s.trapAt v .dataerr 0 v.sp.mask (le 8 (512 + p))
  | none => k s v

/-- Run a word of a wave: the flag it selects, its role, its predicates, then the meaning `k` on the state after the issue's counts. -/
def onWave (row : RoleRow) (fs : Option Bool) (g : Guard) (s : State) (k : State → Env → State) : Out :=
  match s.cur with
  | none => .fault .noIssuer
  | some c =>
    match c.who with
    | .engine core => .next (s.engineIllegal core .role)
    | .split u e =>
      match s.wave? u with
      | none => .fault .noIssuer
      | some w =>
        match w.split? e with
        | none => .fault .noIssuer
        | some x =>
          let s1 := s.issue u e c (w.activeOf x g)
          match s1.wave? u with
          | none => .fault .noIssuer
          | some w1 =>
            let v : Env := ⟨u, e, w1, (w1.split? e).getD x, c, w1.serial, s.draws⟩
            match fs.map c.flag with
            | some none => .next (s1.illegal v .flag)
            | some (some n) =>
              if !row.allows w.role (e == 4) then .next (s1.illegal v .role)
              else if 63 ≤ w.getF n then .next (s.holdAt u e .flag)
              else .next (s1.withPreds v g k)
            | none =>
              if !row.allows w.role (e == 4) then .next (s1.illegal v .role) else .next (s1.withPreds v g k)

/-- Run a word that only the engine program may issue (R346, R356). -/
def onEngine (fs : Option Bool) (g : Guard) (s : State) (k : State → Nat → Ctx → Engine → State) : Out :=
  match s.cur with
  | none => .fault .noIssuer
  | some c =>
    match c.who with
    | .split _ _ => onWave .none none g s fun s _ => s
    | .engine core =>
      if g ≠ Guard.always then .next (s.engineIllegal core .reserved)
      else match fs.map c.flag with
        | some none => .next (s.engineIllegal core .flag)
        | _ => .next (k s core c (s.engine core))

/-- Run a word that a wave and the engine program may both issue, each in its own way. -/
def onEither (row : RoleRow) (fs : Option Bool) (g : Guard) (s : State) (k : State → Env → State)
    (ke : State → Nat → Ctx → Engine → State) : Out :=
  match s.cur with
  | none => .fault .noIssuer
  | some c =>
    match c.who with
    | .split _ _ => onWave row fs g s k
    | .engine _ => onEngine none g s ke

/-! ## Reads -/

/-- Bank reads of a source of n registers (R117). -/
def srcBanks (x : Src) (n : Nat) : List Nat :=
  match x with
  | .v m => (List.range n).map (m + ·)
  | _ => []

/-- Clocks that gathering takes with G grants (R117). -/
def gatherClocks (g : Nat) (rs : List Nat) : Nat :=
  let m := ((List.range 4).map fun b => (rs.filter fun r => r % 4 == b).length).foldl max 0
  max 1 (max m ((rs.length + g - 1) / g))

/-- Read grants of a core: the fewest among the gangs that stand there (R118). -/
def State.grants (s : State) (core : Nat) : Nat :=
  (s.graph.teams.map Prod.snd).foldl (fun n t => if t.core = some core then min n (4 - t.bank.pwrctx.toNat % 4) else n) 4

/-- The clocks that the gathering of a word takes go into its record, where it is tagged (R459). -/
def Wave.noteGather (w : Wave) (serial n : Nat) : Wave :=
  { w with samples := w.samples.map fun x => if x.1 == serial then (x.1, x.2.take 0x24 ++ le 2 n ++ x.2.drop 0x26) else x }

/-- The partition gathers the reads of a word; a stretch beyond what four grants need records stall reason 6 (R119). A word, or a slot of a
pair word, without an active lane needs no reads (DESIGN CHOICE, log 83). -/
def State.gather (s : State) (v : Env) (rs : List Nat) : State :=
  let n := gatherClocks (s.grants v.w.core) rs
  let s := (s.updCore v.w.core fun k => { k with busy := smSet 0 k.busy (v.w.slot % 4) (s.clk + n) }).updWave v.u fun w => w.noteGather v.serial n
  if gatherClocks 4 rs < n then s.updSplit v.u v.e fun x => { x with stall := x.stall ||| 64 } else s

/-- An operand read meets an uncorrectable error in a register granule or a slot store (R457): the operand's code. -/
def State.badRead (_s : State) (v : Env) (m : Mask) (xs : List (Src × Nat)) : Option Nat :=
  if v.w.r.badV.isEmpty && v.w.r.badK.isEmpty then none
  else xs.findSome? fun x =>
    match x.1 with
    | .v n => ((List.range x.2).map (n + ·)).find? fun r => (lanesOf m).any fun l => smGet false v.w.r.badV (vkey r l)
    | .k n => (((List.range x.2).map (n + ·)).find? fun r => smGet false v.w.r.badK r).map (256 + ·)
    | _ => none

/-- Read the registers of a word in the lanes `m`: DEADREAD and DATAERR are precise and nothing happens; else the consumer
counts fall (R121). -/
def State.reads (s : State) (v : Env) (m : Mask) (xs : List (Src × Nat)) (k : State → State) : State :=
  match v.consume m xs with
  | .error (n, bad) => s.trapAt v .deadread 0 bad (le 2 n)
  | .ok w =>
    match s.badRead v m xs with
    | some c => s.trapAt v .dataerr 0 m (le 8 c)
    | none => k ((s.setWave v.u w).gather v (xs.flatMap fun x => srcBanks x.1 x.2))

/-! ## Results with events -/

/-- The lane an event of a form belongs to: 32 for the wave, in a uniform form (R184). -/
def evLane (d : Dst) (l : Nat) : Nat :=
  match d with
  | .v _ => l
  | .k _ => 32

/-- A word that reads sources of one register each, writes f(l) to D in every lane of the form, and counts the events. -/
def aluOp (s : State) (g : Guard) (d : Dst) (cc : Nat) (xs : List (Src × Nat)) (f : State → Env → Nat → W32 × Events) : Out :=
  onWave .any none g s fun s v =>
    let m := v.active g
    if m = 0 then s.goOn v
    else s.reads v m xs fun s =>
      let rs := (dstLanes d m).map fun l => (l, f s v l)
      let s := s.updWave v.u fun w => rs.foldl (fun w r => w.put v.e d cc r.1 r.2.1) w
      (s.count (v.evSrc m) (rs.flatMap fun r => evAt (evLane d r.1) r.2.2)).goOn v

/-- A word whose results are 64-bit pairs and count nothing. -/
def aluOp64 (s : State) (g : Guard) (d : Dst) (cc : Nat) (xs : List (Src × Nat)) (f : State → Env → Nat → W64) : Out :=
  onWave .any none g s fun s v =>
    let m := v.active g
    if m = 0 then s.goOn v
    else s.reads v m xs fun s => (s.updWave v.u fun w => w.putAll64 v.e d cc m (f s v)).goOn v

/-- A word that writes a predicate by COMB from a test of each active lane (R128, R144, R175). -/
def predOp (s : State) (g : Guard) (pd : Nat) (comb : Comb) (xs : List (Src × Nat)) (f : State → Env → Nat → Bool × Events) : Out :=
  onWave .any none g s fun s v =>
    let m := v.active g
    if m = 0 then s.goOn v
    else s.reads v m xs fun s =>
      let rs := (lanesOf m).map fun l => (l, f s v l)
      let bits := maskOf ((rs.filter fun r => r.2.1).map Prod.fst)
      let s := s.updWave v.u fun w => w.comb comb pd m bits
      (s.count (v.evSrc m) (rs.flatMap fun r => evAt r.1 r.2.2)).goOn v

/-! ## The engine's own registers (R346) -/

/-- A source the engine program may name, and its value; none is ILLEGAL "operand". -/
def State.engineRd (s : State) (core : Nat) (e : Engine) : Src → Option W32
  | .k n => if n < 16 then some (smGet 0 e.k n) else none
  | .int n => some (BitVec.ofNat 32 n)
  | .flt n => some (inlineFloat n)
  | .imm signed x => some (if signed then x.signExtend 32 else x.zeroExtend 32)
  | .lit x => some (lo32 x)
  | .sp .core => some (BitVec.ofNat 32 (core % 128))
  | .sp .quad => some (BitVec.ofNat 32 (quadOf core % 32))
  | .sp .die => some (BitVec.ofNat 32 (dieOf core))
  | .sp .clk => some (BitVec.ofNat 32 s.clk)
  | _ => none

/-- The engine program goes on at the next word. -/
def State.engineGo (s : State) (core : Nat) (c : Ctx) : State :=
  s.updEngine core fun e =>
    let keep := match e.buf with
      | some b => b.num == lineNum c.next
      | none => false
    { e with mepc := c.next, arrived := !c.hdr, buf := if keep then e.buf else none }

/-- A uniform move or sum of the engine program. -/
def engineAlu (s : State) (core : Nat) (c : Ctx) (e : Engine) (d : Dst) (xs : List Src) (f : List W32 → W32) : State :=
  match d with
  | .v _ => s.engineIllegal core .operand
  | .k n =>
    let vals := xs.filterMap (s.engineRd core e)
    if 16 ≤ n ∨ vals.length ≠ xs.length then s.engineIllegal core .operand
    else (s.setEngine core { e with k := smSet 0 e.k n (f vals) }).engineGo core c

end Sys2Proof.Machine
end

