-- ==== Sys2Proof/Machine/EngineRegs.lean ====
section
/-!
DEFINITION. The registers of a matrix engine and its image (R131, R132, R337-R343, R355), who owns it, and how it is claimed
(R337, R354).
-/

namespace Sys2Proof.Machine

/-! ## Registers of the engine -/

/-- MESTAT (R340). -/
def Engine.mestat (e : Engine) : W32 :=
  BitVec.ofNat 32 ((if e.run then 2 ^ 31 else 0) + (if e.slave then 2 ^ 30 else 0) + e.stopCode * 2 ^ 26 + e.ver * 2 ^ 23 +
    e.start * 2 ^ 16 + e.detail * 2 ^ 8)

/-- Token state of an accumulator (R342). -/
def Engine.token (e : Engine) (n : Nat) : Nat := smGet 0 e.tok n
/-- ACCTOK (R342). -/
def Engine.acctok (e : Engine) : W32 := BitVec.ofNat 32 ((List.range 16).foldl (fun x n => x + e.token n * 4 ^ n) 0)
/-- Set a token's state; `h` is the holding wave. -/
def Engine.setToken (e : Engine) (n st : Nat) (h : Option Nat) : Engine :=
  { e with tok := smSet 0 e.tok n st, holder := match h with
      | some u => smPut n u e.holder
      | none => smDel n e.holder }
/-- Offer a token at a clock (R349): waves may take it from the next (R372). -/
def Engine.offer (e : Engine) (n clk : Nat) : Engine := { e.setToken n 1 none with offered := smSet 0 e.offered n (clk + 1) }
/-- A wave may take the token of an accumulator at a clock (R349, R372). -/
def Engine.takable (e : Engine) (n clk : Nat) : Bool := e.token n == 1 && decide (smGet 0 e.offered n ≤ clk)
/-- A wave holds the token of an accumulator. -/
def Engine.holds (e : Engine) (n u : Nat) : Bool := e.token n == 2 && smFind e.holder n == some u

/-- Element (i, j) of an accumulator (R343). -/
def Engine.accAt (e : Engine) (n i j : Nat) : W32 := smGet 0 e.acc (4096 * n + 64 * i + j)
/-- Write a whole accumulator. -/
def Engine.setAcc (e : Engine) (n : Nat) (f : Nat → Nat → W32) : Engine :=
  { e with acc := (List.range 4096).foldl (fun m i => smSet 0 m (4096 * n + i) (f (i / 64) (i % 64))) e.acc }

/-- Ring descriptor fields (R341). -/
structure RingDesc where
  en : Bool
  nslot : Nat
  slotsz : Nat
  base : Nat
  deriving DecidableEq, Repr

/-- A ring descriptor. -/
def Engine.ring (e : Engine) (n : Nat) : RingDesc :=
  let x := (smGet 0 e.ringd n).toNat
  ⟨x.testBit 31, bitsOf x 29 22, bitsOf x 21 14, bitsOf x 13 0⟩
/-- The ring and slot may be named (R348, R367). -/
def RingDesc.names (r : RingDesc) (slot : Nat) : Bool := r.en && decide (slot ≤ r.nslot)
/-- A phase bit. -/
def Engine.phaseBit (e : Engine) (ring slot : Nat) : Bool := smGet false e.phase (256 * ring + slot)
/-- Flip a phase bit (R348). -/
def Engine.flip (e : Engine) (ring slot : Nat) : Engine :=
  { e with phase := smSet false e.phase (256 * ring + slot) (!e.phaseBit ring slot) }

/-- A shape register. -/
def Engine.shape (e : Engine) (n : Nat) : TShape :=
  let x := (smGet 0 e.tshape n).toNat
  ⟨bitsOf x 3 0, bitsOf x 9 4, bitsOf x 18 12, bitsOf x 27 20⟩

/-- Fields of OMAP (R132). -/
structure OMap where
  fmt : Nat
  phase : Bool
  slot : Nat
  ring : Nat
  stride : Nat
  deriving DecidableEq, Repr

/-- An operand map. -/
def Engine.omapAt (e : Engine) (n : Nat) : OMap :=
  let x := (smGet 0 e.omap n).toNat
  ⟨bitsOf x 3 0, x.testBit 7, bitsOf x 15 8, bitsOf x 19 16, bitsOf x 31 20⟩

/-! ## Tiles -/

/-- A byte of a tile; one that no `tld` has written since the claim is a free value (log 11). -/
def Engine.tileByte (e : Engine) (n r b : Nat) : Nat :=
  ((smFind e.tile (8192 * n + 128 * r + b)).getD (Config.freeByte (2 ^ 60 + 8192 * n + 128 * r + b))).toNat
/-- A scale byte of a tile, in the same way. -/
def Engine.scaleByte (e : Engine) (n r b : Nat) : Nat :=
  ((smFind e.scale (256 * n + 4 * r + b)).getD (Config.freeByte (2 ^ 61 + 256 * n + 4 * r + b))).toNat

/-! ## The image (R355) -/

/-- Pieces of an image: offset and bytes. -/
abbrev Pieces := List (Nat × List Byte)

/-- Length of a spilled engine's image (R355). -/
def engineImageLen : Nat := 0x50C00

/-- Write pieces into the 64 KiB frames of an image. -/
def Mem.writePieces (m : Mem) (frame : Nat → Option Nat) (ps : Pieces) : Mem :=
  ps.foldl (fun m p => p.2.zipIdx.foldl (fun m b =>
    let o := p.1 + b.2
    match frame (o / 65536) with
    | some f => { m with phys := Memory.put m.phys (f + o % 65536) b.1 }
    | none => m) m) m

/-- The image of an engine (R355). `slot` gives the slot of a wave. -/
def Engine.pieces (e : Engine) (base : Nat) (slot : Nat → Nat) : Pieces :=
  let tiles := (List.range 8).map fun n =>
    (base + 8192 * n, (List.range 8192).map fun i => BitVec.ofNat 8 (e.tileByte n (i / 128) (i % 128)))
  let accs := (List.range 16).map fun n => (base + 0x10000 + 16384 * n, (List.range 4096).flatMap fun i => le 4 (smGet 0 e.acc (4096 * n + i)).toNat)
  let scales := (List.range 8).map fun n =>
    (base + 0x50000 + 256 * n, (List.range 256).map fun i => BitVec.ofNat 8 (e.scaleByte n (i / 4) (i % 4)))
  let words := fun (m : SMap W32) (n : Nat) => (List.range n).flatMap fun i => le 4 (smGet 0 m i).toNat
  let ctl := le 4 e.mectl.toNat ++ le 4 e.mestat.toNat ++ le 8 e.mepc.toNat ++ le 4 0 ++ le 4 e.acctok.toNat ++
    (List.range 16).flatMap (fun n => le 1 ((smFind e.holder n).elim 0xFF slot)) ++ (List.range 12).flatMap (fun n => le 1 (smGet 0 e.f n)) ++
    le 12 0 ++ words e.tshape 8 ++ words e.omap 8 ++ words e.ringd 16 ++ words e.k 16
  let ph := (List.range 512).map fun i =>
    BitVec.ofNat 8 (((List.range 8).map fun j => if smGet false e.phase (8 * i + j) then 2 ^ j else 0).sum)
  tiles ++ accs ++ scales ++ [(base + 0x50800, ctl ++ ph ++ le 256 0)]

/-! ## Owners -/

/-- An unowned engine: what belongs to its core stays, FORCE among it (log 65). -/
def Engine.idle (e : Engine) : Engine := { retired := e.retired, bad := e.bad, mism := e.mism, mectl := e.mectl &&& 2 }

/-- The loads of an engine that wait for their phase are withdrawn, and their flags fall; the rest of its work goes on. -/
def Engine.dropLoads (e : Engine) : Engine :=
  { e with
    jobs := e.jobs.filter fun j => j.load.isNone
    f := (e.jobs.filterMap fun j => j.load.bind fun _ => j.flag).foldl (fun f n => smSet 0 f n (smGet 0 f n - 1)) e.f }

/-- A program is stopped from outside (R354, R360): what waits is withdrawn, and MEPC names the first word not completed. -/
def Engine.withdraw (e : Engine) : Engine :=
  { e.dropLoads with mepc := (e.jobs.findSome? Job.load).elim e.mepc Load.pc, pairing := false }

/-- An engine as its owner's gang leaves it (R337, R378): unowned, no program of it runs; its registers keep what they hold, unseen,
until a team claims it (R497). -/
def Engine.freed (e : Engine) : Engine :=
  { e with owner := none, holder := [], wanted := false, run := false, starter := none, jobs := [], buf := none, arrived := false,
           due := .none, stopping := none, fault := none, record := none, pairing := false }

/-- An engine as a team claims it (R337). -/
def Engine.claimed (e : Engine) (team : Nat) : Engine := { e.idle with owner := some team }

/-- The team that owns an engine, as another team sees it: the engine of a saved context is free to be claimed (R354). -/
def State.ownerAt (s : State) (core : Nat) : Option Nat :=
  (s.engine core).owner.filter fun t => ((s.team? t).bind Team.core) == some core

/-- The core in which the engine state of a team stands. -/
def State.engineOf (s : State) (key : Nat) : Option Nat := (s.engines.find? fun e => e.2.owner == some key).map Prod.fst

/-- The image of a team's spilled engine is written into its frames (R355). -/
def State.imageEngine (s : State) (key : Nat) : State :=
  match s.team? key with
  | none => s
  | some t => match t.engine with
    | none => s
    | some e => s.updMem fun m => m.writePieces (fun i => t.engFrames[i]?) (e.pieces 0 fun u => (s.wave? u).elim 0xFF Wave.slotSeen)

/-- Update the engine state of a team, in its core or in its image. -/
def State.updOwned (s : State) (key : Nat) (f : Engine → Engine) : State :=
  match s.engineOf key with
  | some c => s.updEngine c f
  | none => (s.updTeam key fun t => { t with engine := t.engine.map f }).imageEngine key

/-- Frames of an engine's image. -/
def engineFrames : Nat := (engineImageLen + 65535) / 65536

/-- The state that stands in an engine goes into frames of the save pool, and the engine is unowned (R354, R450). -/
def State.spillEngine (s : State) (core : Nat) : State :=
  match (s.engine core).owner with
  | none => s
  | some t =>
    let e := s.engine core
    let s := s.updTeam t fun x => { x with engine := some { e with wanted := false }, engFrames := s.mem.savePool.take engineFrames }
    let s := (s.updMem fun m => { m with savePool := m.savePool.drop engineFrames }).imageEngine t
    s.setEngine core e.idle

/-- The engine is free to be claimed, but the state of a saved context stands in it and is to be spilled first (R354, R450). -/
def State.engineHeld (s : State) (core : Nat) : Bool := (s.ownerAt core).isNone && (s.engine core).owner.isSome

/-- The state that stands in an engine is to be spilled. -/
def State.wantEngine (s : State) (core : Nat) : State := s.updEngine core fun e => { e with wanted := true }

/-- A wave of `team` reaches its core's engine, in which no saved context's state stands: claimed where unowned; refused where another
team owns it (R337). -/
def State.claim (s : State) (core team : Nat) : Option State :=
  match s.ownerAt core with
  | none => some (s.updEngine core fun e => e.claimed team)
  | some t => if t = team then some s else none

end Sys2Proof.Machine
end

