-- ==== Sys2Proof/Machine/Moves.lean ====
section
/-!
DEFINITION. The moves (R123-R130) and the pair word (R73-R76).
-/

namespace Sys2Proof.Machine

/-! ## Moves (R125, R126, R127) -/

/-- `mov` (R125). -/
def execMov (g : Guard) (d : Dst) (a : Src) (cc : Nat) (s : State) : Out :=
  match s.cur.map Ctx.who with
  | some (.engine _) => onEngine none g s fun s core c e => engineAlu s core c e d [a] fun xs => xs.headD 0
  | _ => aluOp s g d cc [(a, 1)] fun s v l => (s.rd v l a, [])

/-- `movi` (R125). -/
def execMovi (g : Guard) (d : Dst) (b : Src) (cc : Nat) (s : State) : Out :=
  match s.cur.map Ctx.who with
  | some (.engine _) => onEngine none g s fun s core c e => engineAlu s core c e d [b] fun xs => xs.headD 0
  | _ => aluOp s g d cc [(b, 1)] fun s v l => (s.rd v l b, [])

/-- `movx` (R125). -/
def execMovx (g : Guard) (d : Dst) (b : Src) (cc : Nat) (s : State) : Out :=
  aluOp64 s g d cc [(b, 2)] fun s v l => s.rd64 v l b

/-- `movk` (R126): the lowest active lane only. -/
def execMovk (g : Guard) (d : Nat) (a : Src) (s : State) : Out :=
  onWave .any none g s fun s v =>
    let m := v.active g
    if m = 0 then s.goOn v
    else
      let l := lowLane m
      s.reads v (laneBit l) [(a, 1)] fun s => (s.updWave v.u fun w => w.setK v.e d (s.rd v l a)).goOn v

/-- Lane n of A as `vtok` reads it outside Active(): no tag check; a released slot gives a free value (R126). -/
def State.peekLane (s : State) (v : Env) (n : Nat) (a : Src) : W32 :=
  match a with
  | .v r => if v.w.dead r n || hasLane v.w.exited n then v.free r n else v.w.getV r n
  | x => s.rd v n x

/-- `vtok` (R126). -/
def execVtok (g : Guard) (d : Nat) (a b : Src) (s : State) : Out :=
  onWave .any none g s fun s v =>
    let m := v.active g
    if m = 0 then s.goOn v
    else
      let n := (s.rd v 0 b).toNat % 32
      if hasLane m n then
        s.reads v (laneBit n) [(a, 1), (b, 1)] fun s => (s.updWave v.u fun w => w.setK v.e d (s.rd v n a)).goOn v
      else s.reads v m [(b, 1)] fun s => (s.updWave v.u fun w => w.setK v.e d (s.peekLane v n a)).goOn v

/-- `ktov` (R126). -/
def execKtov (g : Guard) (d : Nat) (a b : Src) (cc : Nat) (s : State) : Out :=
  onWave .any none g s fun s v =>
    let m := v.active g
    if m = 0 then s.goOn v
    else s.reads v m [(a, 1), (b, 1)] fun s =>
      let n := (s.rd v 0 b).toNat % 32
      if hasLane m n then (s.updWave v.u fun w => w.setV d n (s.rd v n a) cc).goOn v else s.goOn v

/-- `sel` (R127). -/
def execSel (g : Guard) (w64 pn : Bool) (ps : Nat) (d : Dst) (a b : Src) (cc : Nat) (s : State) : Out :=
  let pick := fun (v : Env) (l : Nat) => hasLane (v.w.getP ps) l != pn
  if w64 then aluOp64 s g d cc [(a, 2), (b, 2)] fun s v l => if pick v l then s.rd64 v l a else s.rd64 v l b
  else aluOp s g d cc [(a, 1), (b, 1)] fun s v l => (if pick v l then s.rd v l a else s.rd v l b, [])

/-! ## Predicates (R128) -/

/-- `pset.ne`. -/
def execPsetNe (g : Guard) (pd : Nat) (a : Src) (s : State) : Out :=
  predOp s g pd .set [(a, 1)] fun s v l => (s.rd v l a != 0, [])

/-- `pset.mask`. -/
def execPsetMask (g : Guard) (pd : Nat) (a : Src) (s : State) : Out :=
  predOp s g pd .set [(a, 1)] fun s v l => ((s.rd v l a).getLsbD l, [])

/-- `pand`. -/
def execPand (g : Guard) (pd pa pb : Nat) (s : State) : Out :=
  predOp s g pd .set [] fun _ v l => (hasLane (v.w.getP pa) l && hasLane (v.w.getP pb) l, [])

/-- `por`. -/
def execPor (g : Guard) (pd pa pb : Nat) (s : State) : Out :=
  predOp s g pd .set [] fun _ v l => (hasLane (v.w.getP pa) l || hasLane (v.w.getP pb) l, [])

/-- `pxor`. -/
def execPxor (g : Guard) (pd pa pb : Nat) (s : State) : Out :=
  predOp s g pd .set [] fun _ v l => (hasLane (v.w.getP pa) l != hasLane (v.w.getP pb) l, [])

/-- `pnot`. -/
def execPnot (g : Guard) (pd pa : Nat) (s : State) : Out :=
  predOp s g pd .set [] fun _ v l => (!hasLane (v.w.getP pa) l, [])

/-- `pmov`. -/
def execPmov (g : Guard) (pd pa : Nat) (s : State) : Out :=
  predOp s g pd .set [] fun _ v l => (hasLane (v.w.getP pa) l, [])

/-- `rel` (R129). -/
def execRel (g : Guard) (d n : Nat) (s : State) : Out :=
  onWave .any none g s fun s v =>
    let m := v.active g
    (s.updWave v.u fun w =>
      (List.range n).foldl (fun w i => (lanesOf m).foldl (fun w l => w.setTag (d + i) l 4) w) w).goOn v

/-! ## Shape registers (R130, R337) -/

/-- A write of a shape register by a wave: refused while a program runs or where another team owns the engine. -/
def waveShape (g : Guard) (b : Src) (s : State) (put : Engine → W32 → Engine) : Out :=
  onWave .any none g s fun s1 v =>
    let m := v.active g
    if m = 0 then s1.goOn v
    else s1.reads v m [(b, 1)] fun t =>
      match t.claim v.w.core v.w.teamKey with
      | none => s1.trapAt v .engine 0 m []
      | some c =>
        if s.engineHeld v.w.core then (s.wantEngine v.w.core).holdAt v.u v.e .unit
        else if (c.engine v.w.core).run then s1.trapAt v .engine 0 m []
        else (c.updEngine v.w.core fun e => put e (t.rd v 0 b)).goOn v

/-- A write of a shape register by the engine program. -/
def engineShape (g : Guard) (b : Src) (s : State) (put : Engine → W32 → Engine) : Out :=
  onEngine none g s fun s core c e =>
    match s.engineRd core e b with
    | none => s.engineIllegal core .operand
    | some x => (s.setEngine core (put e x)).engineGo core c

/-- Who issues is an engine program. -/
def State.byEngine (s : State) : Bool :=
  match s.cur.map Ctx.who with
  | some (.engine _) => true
  | _ => false

/-- TSHAPEn without its reserved bits (R131). -/
def Engine.putShape (n : Nat) (e : Engine) (x : W32) : Engine := { e with tshape := smSet 0 e.tshape n (x &&& 0x0FF7F3FF) }
/-- OMAPn without its reserved bits (R132). -/
def Engine.putMap (n : Nat) (e : Engine) (x : W32) : Engine := { e with omap := smSet 0 e.omap n (x &&& 0xFFFFFF8F) }

/-- `tcfg` (R130). -/
def execTcfg (g : Guard) (n : Nat) (b : Src) (s : State) : Out :=
  if s.byEngine then engineShape g b s (Engine.putShape n) else waveShape g b s (Engine.putShape n)

/-- `omcfg` (R130). -/
def execOmcfg (g : Guard) (n : Nat) (b : Src) (s : State) : Out :=
  if s.byEngine then engineShape g b s (Engine.putMap n) else waveShape g b s (Engine.putMap n)

end Sys2Proof.Machine
end

