-- ==== Sys2Proof/Machine/Hold.lean ====
section
/-!
DEFINITION. Holds and eligibility (R84), releases and acquires (R263, R305), lanes that leave (R106), and the return from
the handler (R446, R469).
-/

namespace Sys2Proof.Machine

/-! ## Releases and acquires -/

/-- A scope with cache actions (R263). -/
def scopeWide (x : Scope) : Bool := x != .wave && x != .core

/-- The instruction makes accesses that a release of its split waits for (R264, R305): memory, residency and atomics, not
engine commands, messages and what the graph unit or a host answers. -/
def isAccess (i : Instr) : Bool :=
  match i with
  | .ld .. | .ldk .. | .st .. | .stk .. | .ldCv .. | .stCv .. | .stFeFill .. | .feSet .. | .fePeek .. | .pin .. | .unpin ..
  | .flushL1 .. | .flushHm .. | .invalL1 .. | .invalHm .. | .hmzero .. | .atom .. | .atomCas .. | .ldAcq .. | .stRel ..
  | .accrd .. => true
  | _ => false

/-- An acquire follows the accesses of the instruction (R304, R306). -/
def acquires (i : Instr) : Bool :=
  match i with
  | .atom _ o .. | .atomCas _ o .. => o == .acq || o == .acqrel
  | .ldAcq .. => true
  | _ => false

/-- The operation was issued by the split that now holds the lanes `m`, or by one that it came from (R91, R94): also by an interrupted split
where the handler split holds its lanes, and by the handler split after `trapret` (R265). -/
def Op.ofSplit (o : Op) (m : Mask) : Bool := o.smask &&& m != 0

/-- An access of a split is outstanding. -/
def Wave.accessOut (w : Wave) (m : Mask) : Bool := w.ops.any fun o => isAccess o.ins && o.ofSplit m

/-- An acquire of a split is to come (R305). -/
def Wave.acquireOut (w : Wave) (m : Mask) : Bool := w.ops.any fun o => acquires o.ins && o.ofSplit m

/-- Release at a scope before a word acts (R305): the split waits for its earlier accesses, then for the acknowledgement
of the write-backs that the release starts. `s0` is the state before the issue; `two`: the hold records stall reason 2 (R300, R368). -/
def withRelease (s0 s : State) (v : Env) (sc : Scope) (two : Bool) (k : State → State) : State :=
  if v.sp.released then k s
  else if v.w.accessOut v.sp.mask then s0.holdAt v.u v.e (.ops two)
  else if scopeWide sc then
    let t := s0.startWbs v.w.core fun _ => true
    if (t.wbIds v.w.core).isEmpty then k s
    else (t.updSplit v.u v.e fun x => { x with released := true }).holdAt v.u v.e (.drain (t.wbIds v.w.core) two)
  else k s

/-- Acquire at a scope by a core (R263). -/
def State.acquire (s : State) (core : Nat) (sc : Scope) : State := if scopeWide sc then s.invalClean core else s

/-- The cache actions of a release that waits for nothing (a save, a graph unit's own). -/
def State.flushCore (s : State) (core : Nat) : State := s.startWbs core fun _ => true

/-! ## Eligibility (R84) -/

/-- The wave's gang stands on its cores and the wave may issue. -/
def State.waveUp (s : State) (w : Wave) : Bool :=
  w.place.isSome && !w.fresh && !w.parked && !w.t.halted && w.t.halting.isNone && (s.gang? w.gang).elim false fun g => g.state == .placed

/-- The split's line is in its buffer and it stands at a word that may issue: at a header it has arrived and WAIT is
clear. -/
def Wave.atWord (w : Wave) (x : Split) : Bool :=
  match x.buf with
  | none => false
  | some b =>
    let n := wordIdx x.pc
    b.num == lineNum x.pc && x.due == .none && (!b.isHdr n || (x.arrived && w.waitClear (b.clause n).wait))

/-- A split meets R84 but for what holds it inside an instruction. -/
def State.ready (s : State) (w : Wave) (e : Nat) (x : Split) : Bool :=
  s.waveUp w && (w.t.handler.isNone || e == 4) && w.atWord x && !x.stop && !x.xfer && x.sleepTo.isNone && x.mergeTo.isNone &&
    decide (x.yieldTo ≤ s.clk)

/-- A wave of a lower slot blocks on the token of accumulator `acc` and can take it first (R349, R372). -/
def State.lowerWaits (s : State) (w : Wave) (acc : Nat) : Bool :=
  s.waves.any fun q => q.2.place.elim false (fun p => p.1 == w.core && decide (p.2 < w.slot)) &&
    (List.range 5).any fun e => (q.2.split? e).elim false fun x => x.block == .token acc && s.ready q.2 e x

/-- What holds a split has ended. -/
def State.blockOver (s : State) (w : Wave) (x : Split) : Bool :=
  match x.block with
  | .none => true
  | .barrier .. => false
  | .fe .. => false
  | .token a => ((s.engine w.core).takable a s.clk && !s.lowerWaits w a) || s.ownerAt w.core != some w.teamKey
  | .ring core r slot ph => (smGet false (s.engine core).phase (256 * r + slot) == ph) || (s.ownerAt core).isNone
  | .ops _ => !w.accessOut x.mask
  | .drain ids _ => ids.all fun i => !(s.mem.wbs.any fun b => b.id == i)
  | .barc => !((s.team? w.teamKey).elim false Team.barc)
  | .unit => false
  | .flag => false

/-- A split is eligible (R84). Items 4 and 5, the unit and the selected flag, stand in its block: `State.refuseUnits` tries them at
both ends of each clock, and a word that is refused in a clock is so for that clock. -/
def State.eligible (s : State) (u e : Nat) : Bool :=
  match s.wave? u with
  | none => false
  | some w =>
    match w.split? e with
    | none => false
    | some x => s.ready w e x && s.blockOver w x

/-! ## Lanes that leave (R97, R106) -/

/-- A task of a node has completed (R404). -/
def State.taskDone (s : State) (key : Nat) : State := s.updNode key fun n => { n with tasksDone := n.tasksDone + 1 }

/-- Settle the fault records of a wave that a test selects (R224). -/
def State.settleRecords (s : State) (u : Nat) (p : FaultRec → Bool) : State :=
  s.updFront fun f => { f with faults := f.faults.map fun r => if r.wave == u && p r then { r with settled := true } else r }

/-- A record of a wave's own instruction, fetch or transfer (R221, R222). -/
def FaultRec.parks (r : FaultRec) : Bool := decide (r.kind ≤ 1)

/-- A blocking receive (R318). -/
def isRecv (i : Instr) : Bool :=
  match i with
  | .mbrecv _ _ try_ .. => !try_
  | _ => false

/-- Drop the operations that a test selects, with their flags. -/
def Wave.dropOps (w : Wave) (p : Op → Bool) : Wave :=
  let w := (w.ops.filter p).foldl (fun w o => w.dropFlag o.flag) w
  { w with ops := w.ops.filter fun o => !p o }

/-- The last lane of a wave has left: a receive is withdrawn (R97, R318), and a parked wave's operations are dropped with the records of its own
(R224); an engine command and an engine program go on, and their records still wait for their answer (R327, R347). -/
def State.lastLane (s : State) (u : Nat) : State :=
  match s.wave? u with
  | none => s
  | some w =>
    if w.parked then
      ((s.setWave u { w.dropOps (fun o => isRecv o.ins || o.parked) with parked := false, fetchFaults := [] }).settleRecords u FaultRec.parks)
    else s.setWave u (w.dropOps fun o => isRecv o.ins)

/-- The lanes `m` leave the wave (R106). -/
def State.exitLanes (s : State) (u : Nat) (m : Mask) : State :=
  match s.wave? u with
  | none => s
  | some w =>
    let m := m &&& w.present
    let gone := w.wk.tasks.filter fun t => hasLane m t.lane
    let w := w.dropLanes m
    let w := { w with wk := { w.wk with tasks := w.wk.tasks.filter fun t => !hasLane m t.lane } }
    let s := gone.foldl (fun s t => s.taskDone (nodeKey w.asid t.node)) (s.setWave u w)
    if w.present = 0 ∧ m ≠ 0 then s.lastLane u else s

/-! ## The return from the handler (R446, R469) -/

/-- The split table as `trapret` checks it: no dead lane, disjoint, no empty mask, well-formed PCs, at most 12 overflow
entries. -/
def Wave.tableOk (w : Wave) : Bool :=
  let xs := (w.liveSplits.map Prod.snd) ++ w.ovf
  let r := xs.foldl (fun (p : Bool × Mask) x => (p.1 && x.mask &&& p.2 == 0 && x.mask &&& w.exited == 0 && x.mask != 0 &&
    pcShape x.pc, p.2 ||| x.mask)) (true, (0 : Mask))
  r.1 && decide (w.ovf.length ≤ 12)

/-- Lanes that a split table holds. -/
def Wave.held (w : Wave) : Mask := ((w.liveSplits.map Prod.snd) ++ w.ovf).foldl (fun m x => m ||| x.mask) 0

/-- The handler has changed the PC of entry i of the split table (R446). -/
def Wave.pcMoved (w : Wave) (i : Nat) (x : Split) : Bool := (w.t.entryPcs[i]?).join != some x.pc

/-- The return from the handler split: the table is checked, the head detail goes, lanes in no entry leave, and every split
resumes: one whose PC the handler changed as by a taken branch. A handler that is still wanted is entered again next. -/
def State.trapReturn (s : State) (v : Env) : State :=
  match s.wave? v.u with
  | none => s
  | some w =>
    if !w.tableOk then s.illegal v .operand
    else
      let gone := w.present &&& ~~~w.held
      let moved := w.pcMoved
      let n := w.ovf.length
      let ovf := (w.ovf.zipIdx).map fun x => if moved (4 + (n - 1 - x.2)) x.1 then { x.1 with due := .branch none } else x.1
      let dq := w.t.dq.tail
      let planes := match dq with
        | d :: _ => w.t.planes ||| d.lanes
        | [] => w.t.planes
      let t := { w.t with dq := dq, lost := if dq.isEmpty then 0 else w.t.lost, handler := none, planes := planes, entryPcs := [],
                          spare := [] }
      let w := { w with t := t, ovf := ovf }.mapLive fun x => { x with stop := false }
      let s := s.setWave v.u w
      let s := if gone = 0 then s else s.exitLanes v.u gone
      w.liveSplits.foldl (fun s x => if moved x.1 x.2 then s.moveTo v.u x.1 x.2.pc (.branch none) else s) s

end Sys2Proof.Machine
end

