-- ==== Sys2Proof/Machine/Control.lean ====
section
/-!
DEFINITION. The control class (R98-R106), the trampolines (R78-R80), and what ends a hold or fills an entry (R95-R97).
-/

namespace Sys2Proof.Machine

/-! ## Targets -/

/-- Word TWORD of line (the line of `pc` + LDISP + i); none outside the deep space, where no line can pass the check
(R77, R102). -/
def targetAt (pc : W64) (t : Target) (i : Nat) : Option W64 :=
  let n : Int := (lineNum pc : Int) + t.line.toInt + (i : Int)
  if 0 ≤ n ∧ n < 2 ^ 49 then some (pcAt n.toNat t.word.toNat) else none

/-- The line of a relative branch, where it is a patch line (R77 item 2). -/
def Ctx.patchSrc (c : Ctx) : Option Nat := if c.patch then some (lineNum c.pc) else none

/-- Check every distinct target (R98): refused, or what is still due of each. -/
def State.checkAll (s : State) (asid : Nat) (d : Due) : List W64 → Option (List (W64 × Due) × State)
  | [] => some ([], s)
  | t :: ts =>
    match s.checkTarget asid d t with
    | none => none
    | some (x, s) =>
      match s.checkAll asid d ts with
      | none => none
      | some (xs, s) => some ((t, x) :: xs, s)

/-- The destinations of a branch: each active lane's target, none for the fall-through point. A target outside the deep
space refuses the branch; no taken lane checks nothing (R98). A branch that traps has read nothing: `s0` is the state before its reads
(R92, R98). -/
def State.branchTo (s0 s : State) (v : Env) (d : Due) (link : Bool) (m : Mask) (dest : Nat → Option (Option W64)) : State :=
  let ds := ((lanesOf m).filterMap dest).eraseDups
  if ds.isEmpty then s.goOn v
  else if ds.contains none then s0.illegal v .target
  else
    let ts := ds.filterMap id
    match s.checkAll v.w.asid d ts with
    | none => s0.illegal v .target
    | some (xs, t) =>
      let dst := fun (l : Nat) => if hasLane m l then ((dest l).join).getD v.ctx.next else v.ctx.next
      t.redirect s0 v dst (fun l => link && hasLane m l) (fun pc => ((xs.find? fun x => x.1 == pc).map Prod.snd).getD .none) ts

/-- The engine program goes to a PC (R345). -/
def State.engineJump (s : State) (core : Nat) (pc : W64) (due : Due) : State :=
  s.updEngine core fun e =>
    let keep : Bool := match e.buf with
      | some b => b.num == lineNum pc && due == .none
      | none => false
    { e with mepc := pc, arrived := false, due := due, buf := if keep then e.buf else none }

/-- Address space of the engine's owning team. -/
def State.engineAsid (s : State) (e : Engine) : Nat :=
  match (e.owner.bind fun t => s.gang? (t / 4)).bind fun g => s.kernel? g.kernel with
  | some k => k.asid
  | none => 0

/-- The target of a taken branch of the engine program, once it has passed its check (R77, R346). -/
def State.engineTarget (s : State) (c : Ctx) (e : Engine) (t : Target) : Option (W64 × Due × State) :=
  (targetAt c.pc t 0).bind fun pc => s.checkTarget (s.engineAsid e) (.branch c.patchSrc) pc |>.map fun r => (pc, r)

/-- A taken branch of the engine program. -/
def State.engineBranch (s : State) (core : Nat) (c : Ctx) (e : Engine) (t : Target) : State :=
  match s.engineTarget c e t with
  | none => s.engineIllegal core .target
  | some (pc, d, s) => s.engineJump core pc d

/-! ## The control majors -/

/-- `nop` (R100). -/
def execNop (g : Guard) (s : State) : Out :=
  onEither .any none g s (fun s v => s.goOn v) fun s core c _ => s.engineGo core c

/-- Not eligible in the next clock, W back to 0 (R100). -/
def State.yieldNow (s : State) (v : Env) : State := s.updSplit v.u v.e fun x => { x with w := 0, yieldTo := s.clk + 2 }

/-- `yield` (R100). -/
def execYield (g : Guard) (s : State) : Out :=
  onWave .any none g s fun s v => if v.active g = 0 then s.goOn v else (s.yieldNow v).goOn v

/-- `sleep` (R100). -/
def execSleep (g : Guard) (b : Src) (s : State) : Out :=
  onWave .any none g s fun s v =>
    if v.active g = 0 then s.goOn v
    else s.reads v (v.active g) [(b, 1)] fun s =>
      let n := min (s.rd v 0 b).toNat (2 ^ 24)
      if n = 0 then (s.yieldNow v).goOn v
      else (s.updSplit v.u v.e fun x => { x with sleepTo := some (s.ctxclk v.w.gang + n) }).goOn v

/-- A sleep is over: CTXCLK has advanced far enough, or a message has come (R100). -/
def execSleepEnd (u e : Nat) (s : State) : Out :=
  match (s.wave? u).bind fun w => (w.split? e).map fun x => (w, x) with
  | none => .next s
  | some (w, x) =>
    match x.sleepTo with
    | none => .next s
    | some t =>
      if s.ctxclk w.gang < t then .next s else .next ((s.updSplit u e fun y => { y with sleepTo := none }).arrive u e)

/-- `bra` (R101). -/
def execBra (g : Guard) (t : Target) (s : State) : Out :=
  onEither .any none g s (fun s v => s.branchTo s v (.branch v.ctx.patchSrc) false (v.active g) fun _ => some (targetAt v.ctx.pc t 0))
    fun s core c e => s.engineBranch core c e t

/-- `bra.ind` (R103). -/
def execBraInd (g : Guard) (a : Src) (s : State) : Out :=
  onWave .any none g s fun s0 v =>
    if v.active g = 0 then s0.goOn v
    else s0.reads v (v.active g) [(a, 2)] fun s => s.branchTo s0 v .indirect false (v.active g) fun l => some (some (s.rd64 v l a))

/-- `call` (R104). -/
def execCall (g : Guard) (t : Target) (s : State) : Out :=
  onWave .any none g s fun s v =>
    s.branchTo s v (.call v.ctx.patchSrc) true (v.active g) fun _ => some (targetAt v.ctx.pc t 0)

/-- `call.ind` (R103, R104). -/
def execCallInd (g : Guard) (a : Src) (s : State) : Out :=
  onWave .any none g s fun s0 v =>
    if v.active g = 0 then s0.goOn v
    else s0.reads v (v.active g) [(a, 2)] fun s => s.branchTo s0 v .callInd true (v.active g) fun l => some (some (s.rd64 v l a))

/-- `ret` (R105). -/
def execRet (g : Guard) (s : State) : Out :=
  onWave .any none g s fun s v => s.branchTo s v .ret false (v.active g) fun _ => some (some v.sp.lr)

/-- `brx` (R102): an entry that is the fall-through point is not checked and sends its lane there. -/
def execBrx (g : Guard) (t : Target) (x : Src) (n : Nat) (s : State) : Out :=
  onWave .any none g s fun s0 v =>
    if v.active g = 0 then s0.goOn v
    else s0.reads v (v.active g) [(x, 1)] fun s =>
      s.branchTo s0 v (.branch v.ctx.patchSrc) false (v.active g) fun l =>
        let i := (s.rd v l x).toNat
        if i < n ∧ targetAt v.ctx.pc t i ≠ some v.ctx.next then some (targetAt v.ctx.pc t i) else none

/-- `exit` (R106; in a handler R447; in the engine program R346). -/
def execExit (g : Guard) (s : State) : Out :=
  onEither .any none g s (fun s v =>
    let m := v.active g
    if m = 0 then s.goOn v
    else
      let s := s.trace v.u v.e 8 (le 4 m.toNat ++ le 8 v.ctx.pc.toNat)
      let s := s.exitLanes v.u m
      if v.sp.mask &&& ~~~m ≠ 0 then s.goOn v
      else if v.isHandler then s.trapReturn v
      else s)
    fun s core c _ => (s.engineGo core c).updEngine core fun e => { e with stopping := some 1 }

/-- The top overflow entry moves into a live entry that became unused in an earlier clock, and arrives (R95). While a handler runs, only an
entry that was in use at its entry and has lost its last lane is filled. -/
def execOverflowPop (u e : Nat) (s : State) : Out :=
  match s.wave? u with
  | none => .next s
  | some w =>
    match w.ovf with
    | [] => .next s
    | x :: xs =>
      if 4 ≤ e ∨ (w.split? e).isSome ∨ !w.pops.contains e then .next s
      else match w.t.handler with
        | none =>
          let s := s.setWave u ({ w with ovf := xs, pops := w.pops.erase e }.setSplit e (some { x with w := 0, stop := x.mask &&& w.t.planes != 0, buf := none }))
          .next (s.moveTo u e x.pc x.due)
        | some _ =>
          if ((w.t.entryPcs[e]?).join).isNone then .next s
          else
            let t := { w.t with entryPcs := (w.t.entryPcs.set e (some x.pc)).dropLast }
            .next (s.setWave u ({ w with ovf := xs, t := t, pops := w.pops.erase e }.setSplit e (some { x with w := 0, stop := true, buf := none, arrived := false })))

/-- A merge hold ends after MERGEWAIT clocks, or when every other live split of the version is held or not eligible (R96). -/
def execMergeHoldExpiry (u e : Nat) (s : State) : Out :=
  match (s.wave? u).bind fun w => (w.split? e).map fun x => (w, x) with
  | none => .next s
  | some (w, x) =>
    match x.mergeTo with
    | none => .next s
    | some t =>
      let alone := w.liveSplits.all fun q => q.1 == e || q.2.ver != x.ver || !s.eligible u q.1
      if t ≤ s.clk ∨ alone then .next (s.updSplit u e fun y => { y with mergeTo := none }) else .next s

/-! ## Trampolines (R78, R79) -/

/-- A trampoline sends the whole split to a PC that has been checked. -/
def State.trampTo (s : State) (v : Env) (pc : W64) (d : Due) (link : Bool) : State :=
  let s := s.traceBranch v.u v.e pc
  let s := if link then s.updSplit v.u v.e fun y => { y with tlr := v.ctx.pc + BitVec.ofNat 64 (8 * v.ctx.size) } else s
  s.moveTo v.u v.e pc d

/-- A trampoline to a target. -/
def State.tramp (s : State) (v : Env) (d : Due) (pc : W64) (link : Bool) : State :=
  match s.checkTarget v.w.asid d pc with
  | none => s.illegal v .target
  | some (x, s) => s.trampTo v pc x link

/-- Where a return through `tlr` goes on (R57, R79): the return point, past fill words; a return point after word 15 stands for word 1
of that line, and the line before it is the one that is checked; where that line cannot be read, the return goes on unchecked (DESIGN CHOICE, log 60).
None is ILLEGAL; what cannot be read is due at the fetch. -/
def State.backTo (s : State) (asid : Nat) (t : W64) : Option (W64 × Due × State) :=
  if !pcShape t then none
  else if wordIdx t = 0 then
    let r := s.peekLine asid ((lineNum t + (2 ^ 49 - 1)) % 2 ^ 49)
    match r.1 with
    | none => some (pcAt (lineNum t) 1, .none, r.2)
    | some x => if x.afterBody 16 then some (pcAt (lineNum t) 1, .none, r.2) else none
  else
    let r := s.peekLine asid (lineNum t)
    match r.1 with
    | none => some (t, .back, r.2)
    | some x => if r.2.targetOk asid .back x (wordIdx t) then some (x.land t, .none, r.2) else none

/-- The PC of a trampoline's target field. -/
def trampPc (tgt : BitVec 53) : W64 := tgt.zeroExtend 64 <<< 3

/-- `trj`. -/
def execTrj (_long : Bool) (tgt : BitVec 53) (s : State) : Out :=
  onWave .any none .always s fun s v => s.tramp v .indirect (trampPc tgt) false

/-- `trc`: `tlr` takes the PC after the trampoline. -/
def execTrc (_long : Bool) (tgt : BitVec 53) (s : State) : Out :=
  onWave .any none .always s fun s v => s.tramp v .tramp (trampPc tgt) true

/-- `trr`. -/
def execTrr (s : State) : Out :=
  onWave .any none .always s fun s v =>
    match s.backTo v.w.asid v.sp.tlr with
    | none => s.illegal v .target
    | some (pc, d, s) => s.trampTo v pc d false

/-- `trn`. -/
def execTrn (s : State) : Out := onWave .any none .always s fun s v => s.goOn v

/-- A tool's aligned 64-bit store of a patch word over a patch site (R80); the line's own W permission is the tool's
concern, and the store is made at the line's home. Anything else changes nothing. -/
def execPatchStore (asid addr : Nat) (x : W64) (s : State) : Out :=
  if addr % 8 ≠ 0 ∨ windowOf addr ≠ 0 ∨ !patchWordOk x then .next s
  else
    let key := lineKey asid addr
    match (s.homeTag key .fetch).bind fun t s => s.backed key t with
    | .ok t s1 =>
      let d := s1.mem.content key t
      let b := Line.ofData (addr / 128) d
      let n := addr / 8 % 16
      let site := match b.cover n with
        | some h => (b.clause h).patch && h + 1 == n && patchWordOk (b.word n)
        | none => false
      if site then .next (s1.ownWrite key t (lineSet d (8 * n) (le 8 x.toNat)) .place (s1.mem.badTag key t)) else .next s
    | _ => .next s

end Sys2Proof.Machine
end

