-- ==== Sys2Proof/Machine/Integer.lean ====
section
/-!
DEFINITION. The integer and address class (R133-R148).
-/

namespace Sys2Proof.Machine

/-! ## What each operation computes -/

/-- Shift left (R139). -/
def shl32 (a n : W32) : W32 := if 32 ≤ n.toNat then 0 else a <<< n.toNat
/-- Shift right (R139). -/
def shr32 (a n : W32) : W32 := if 32 ≤ n.toNat then 0 else a >>> n.toNat
/-- Shift right with the sign (R139). -/
def sar32 (a n : W32) : W32 := a.sshiftRight (min 31 n.toNat)
/-- 64-bit shift left. -/
def shl64 (a : W64) (n : W32) : W64 := if 64 ≤ n.toNat then 0 else a <<< n.toNat
/-- 64-bit shift right. -/
def shr64 (a : W64) (n : W32) : W64 := if 64 ≤ n.toNat then 0 else a >>> n.toNat
/-- 64-bit shift right with the sign. -/
def sar64 (a : W64) (n : W32) : W64 := a.sshiftRight (min 63 n.toNat)
/-- Signed minimum (R143). -/
def smin32 (a b : W32) : W32 := if b.slt a then b else a
/-- Signed maximum. -/
def smax32 (a b : W32) : W32 := if a.slt b then b else a
/-- Unsigned minimum. -/
def umin32 (a b : W32) : W32 := if b < a then b else a
/-- Unsigned maximum. -/
def umax32 (a b : W32) : W32 := if a < b then b else a
/-- The high half of a signed product (R138). -/
def mulh32 (a b : W32) : W32 := BitVec.ofInt 32 (a.toInt * b.toInt / 2 ^ 32)
/-- The high half of an unsigned product. -/
def mulhu32 (a b : W32) : W32 := BitVec.ofNat 32 (a.toNat * b.toNat / 2 ^ 32)
/-- Number of one bits (R142). -/
def popc32 (a : W32) : W32 := BitVec.ofNat 32 ((List.range 32).filter a.getLsbD).length
/-- Zero bits above the highest one bit (R142). -/
def clz32 (a : W32) : W32 := if a = 0 then 32 else BitVec.ofNat 32 (31 - Nat.log2 a.toNat)
/-- The bits in reverse (R142). -/
def brev32 (a : W32) : W32 :=
  (List.range 32).foldl (fun r i => if a.getLsbD i then r ||| ((1 : W32) <<< (31 - i)) else r) 0
/-- The absolute value; the least integer stays (R143). -/
def abs32 (a : W32) : W32 := if a.msb then -a else a

/-- Position and length cut to the word (R141). -/
def fieldLen (p n : Nat) : Nat := if 32 ≤ p then 0 else min n (32 - p)
/-- The field, zero-extended. -/
def bfeU (a : W32) (p n : Nat) : W32 := BitVec.ofNat 32 (a.toNat / 2 ^ p % 2 ^ fieldLen p n)
/-- The field, sign-extended. -/
def bfeS (a : W32) (p n : Nat) : W32 :=
  let k := fieldLen p n
  if k = 0 then 0
  else
    let f := a.toNat / 2 ^ p % 2 ^ k
    BitVec.ofInt 32 (if f < 2 ^ (k - 1) then (f : Int) else (f : Int) - 2 ^ k)
/-- The low bits of `a` put into `d` at position p. -/
def bfi (d a : W32) (p n : Nat) : W32 :=
  let k := fieldLen p n
  let m : W32 := BitVec.ofNat 32 ((2 ^ k - 1) * 2 ^ p)
  (d &&& ~~~m) ||| (BitVec.ofNat 32 (a.toNat * 2 ^ p) &&& m)

/-- COND on signed or unsigned numbers (R144). -/
def condHolds (c : Cond) (a b : Int) : Bool :=
  match c with
  | .eq => a == b
  | .ne => a != b
  | .lt => decide (a < b)
  | .le => decide (a ≤ b)
  | .gt => decide (b < a)
  | .ge => decide (b ≤ a)

/-- Clamp (R145). -/
def clamp (lo hi x : Int) : W32 := BitVec.ofInt 32 (max lo (min hi x))

/-- A conversion that reads 32 bits and writes 32 (R145). -/
def i2iNarrow (op : I2i) (a : W32) : W32 :=
  match op with
  | .s8 => (a.extractLsb' 0 8).signExtend 32
  | .u8 => (a.extractLsb' 0 8).zeroExtend 32
  | .s16 => (a.extractLsb' 0 16).signExtend 32
  | .u16 => (a.extractLsb' 0 16).zeroExtend 32
  | .satS8 => clamp (-128) 127 a.toInt
  | .satU8 => clamp 0 255 a.toInt
  | .satS16 => clamp (-32768) 32767 a.toInt
  | .satU16 => clamp 0 65535 a.toInt
  | _ => a

/-- An arena pointer from a handle and an offset (R148). -/
def leaArF (h : W32) (o : W64) : W64 :=
  let x := bitsOf h.toNat 21 12 * 2 ^ 46 + bitsOf h.toNat 11 0 * 2 ^ 34 + o.toNat % 2 ^ 34
  BitVec.ofNat 64 ((if h.toNat / 2 ^ 22 ≠ 0 ∨ 2 ^ 34 ≤ o.toNat then 4 else 2) * 2 ^ 56 + x)

/-- An arena pointer moved by a signed delta (R148). -/
def leaArAddF (a b : W64) : W64 :=
  let o : Int := (a.toNat % 2 ^ 34 : Nat) + b.toInt
  let x := a.toNat / 2 ^ 34 * 2 ^ 34 + (o % 2 ^ 34).toNat
  if a.toNat / 2 ^ 56 ≠ 2 ∨ o < 0 ∨ 2 ^ 34 ≤ o then BitVec.ofNat 64 (4 * 2 ^ 56 + x % 2 ^ 56) else BitVec.ofNat 64 x

/-! ## The shared shapes -/

/-- Two sources to one result. -/
def alu2 (s : State) (g : Guard) (d : Dst) (a b : Src) (cc : Nat) (f : W32 → W32 → W32) : Out :=
  aluOp s g d cc [(a, 1), (b, 1)] fun s v l => (f (s.rd v l a) (s.rd v l b), [])

/-- One source to one result. -/
def alu1 (s : State) (g : Guard) (d : Dst) (a : Src) (cc : Nat) (f : W32 → W32) : Out :=
  aluOp s g d cc [(a, 1)] fun s v l => (f (s.rd v l a), [])

/-- A 64-bit source and a shift amount. -/
def shift64 (s : State) (g : Guard) (d : Dst) (a b : Src) (cc : Nat) (f : W64 → W32 → W64) : Out :=
  aluOp64 s g d cc [(a, 2), (b, 1)] fun s v l => f (s.rd64 v l a) (s.rd v l b)

/-! ## Sums and products -/

/-- `iadd` (R49). -/
def execIadd (g : Guard) (d : Dst) (a b : Src) (cc : Nat) (s : State) : Out :=
  if s.byEngine then onEngine none g s fun s core c e => engineAlu s core c e d [a, b] fun xs => xs.headD 0 + xs.getD 1 0
  else alu2 s g d a b cc (· + ·)

/-- `isub` (R136). -/
def execIsub (g : Guard) (d : Dst) (a b : Src) (cc : Nat) (s : State) : Out :=
  if s.byEngine then onEngine none g s fun s core c e => engineAlu s core c e d [a, b] fun xs => xs.headD 0 - xs.getD 1 0
  else alu2 s g d a b cc (· - ·)

/-- The exact sum of `iaddc` (R137). -/
def addCarry (sub c : Bool) (a b : W32) : Nat := a.toNat + (if sub then ~~~b else b).toNat + (if c then 1 else 0)

/-- `iaddc` (R137): the carry comes from p[PC] and goes back to it. -/
def execIaddc (g : Guard) (sub : Bool) (pc : Nat) (d : Dst) (a b : Src) (cc : Nat) (s : State) : Out :=
  onWave .any none g s fun s v =>
    let m := v.active g
    if m = 0 then s.goOn v
    else s.reads v m [(a, 1), (b, 1)] fun s =>
      let sum := fun (l : Nat) => addCarry sub (hasLane (v.w.getP pc) l) (s.rd v l a) (s.rd v l b)
      let at_ := fun (l : Nat) => match d with
        | .v _ => l
        | .k _ => lowLane m
      let bits := maskOf ((lanesOf m).filter fun l => decide (2 ^ 32 ≤ sum (at_ l)))
      (s.updWave v.u fun w => (w.putAll v.e d cc m fun l => BitVec.ofNat 32 (sum l)).setP pc m bits).goOn v

/-- `imul` (R138). -/
def execImul (g : Guard) (d : Dst) (a b : Src) (cc : Nat) (s : State) : Out := alu2 s g d a b cc (· * ·)
/-- `imulh` (R138). -/
def execImulh (g : Guard) (d : Dst) (a b : Src) (cc : Nat) (s : State) : Out := alu2 s g d a b cc mulh32
/-- `imulh.u` (R138). -/
def execImulhU (g : Guard) (d : Dst) (a b : Src) (cc : Nat) (s : State) : Out := alu2 s g d a b cc mulhu32

/-- `imad` (R138). -/
def execImad (g : Guard) (d : Dst) (a b c : Src) (cc : Nat) (s : State) : Out :=
  aluOp s g d cc [(a, 1), (b, 1), (c, 1)] fun s v l => (s.rd v l a * s.rd v l b + s.rd v l c, [])
/-- `imad.wide` (R138). -/
def execImadWide (g : Guard) (d : Dst) (a b c : Src) (cc : Nat) (s : State) : Out :=
  aluOp64 s g d cc [(a, 1), (b, 1), (c, 2)] fun s v l =>
    (s.rd v l a).signExtend 64 * (s.rd v l b).signExtend 64 + s.rd64 v l c
/-- `imad.wide.u` (R138). -/
def execImadWideU (g : Guard) (d : Dst) (a b c : Src) (cc : Nat) (s : State) : Out :=
  aluOp64 s g d cc [(a, 1), (b, 1), (c, 2)] fun s v l =>
    (s.rd v l a).zeroExtend 64 * (s.rd v l b).zeroExtend 64 + s.rd64 v l c

/-! ## Shifts and logic -/

/-- `ishl` (R139). -/
def execIshl (g : Guard) (d : Dst) (a b : Src) (cc : Nat) (s : State) : Out := alu2 s g d a b cc shl32
/-- `ishr` (R139). -/
def execIshr (g : Guard) (d : Dst) (a b : Src) (cc : Nat) (s : State) : Out := alu2 s g d a b cc shr32
/-- `isar` (R139). -/
def execIsar (g : Guard) (d : Dst) (a b : Src) (cc : Nat) (s : State) : Out := alu2 s g d a b cc sar32
/-- `ishl.64` (R139). -/
def execIshl64 (g : Guard) (d : Dst) (a b : Src) (cc : Nat) (s : State) : Out := shift64 s g d a b cc shl64
/-- `ishr.64` (R139). -/
def execIshr64 (g : Guard) (d : Dst) (a b : Src) (cc : Nat) (s : State) : Out := shift64 s g d a b cc shr64
/-- `isar.64` (R139). -/
def execIsar64 (g : Guard) (d : Dst) (a b : Src) (cc : Nat) (s : State) : Out := shift64 s g d a b cc sar64
/-- `iand` (R140). -/
def execIand (g : Guard) (d : Dst) (a b : Src) (cc : Nat) (s : State) : Out := alu2 s g d a b cc (· &&& ·)
/-- `ior` (R140). -/
def execIor (g : Guard) (d : Dst) (a b : Src) (cc : Nat) (s : State) : Out := alu2 s g d a b cc (· ||| ·)
/-- `ixor` (R140). -/
def execIxor (g : Guard) (d : Dst) (a b : Src) (cc : Nat) (s : State) : Out := alu2 s g d a b cc (· ^^^ ·)
/-- `inot` (R140). -/
def execInot (g : Guard) (d : Dst) (a : Src) (cc : Nat) (s : State) : Out := alu1 s g d a cc (~~~·)

/-! ## Bit fields and counts -/

/-- Registers a field's position and length are read from. -/
def fieldSrcs (f : BField) : List (Src × Nat) :=
  match f with
  | .src b c => [(b, 1), (c, 1)]
  | .packed _ _ => []

/-- Position and length in a lane (R141). -/
def State.field (s : State) (v : Env) (l : Nat) (f : BField) : Nat × Nat :=
  match f with
  | .src b c => ((s.rd v l b).toNat % 256, (s.rd v l c).toNat % 256)
  | .packed p n => (p, n)

/-- `ibfe` (R141). -/
def execIbfe (g : Guard) (d : Dst) (a : Src) (f : BField) (cc : Nat) (s : State) : Out :=
  aluOp s g d cc ((a, 1) :: fieldSrcs f) fun s v l => (bfeS (s.rd v l a) (s.field v l f).1 (s.field v l f).2, [])
/-- `ibfe.u` (R141). -/
def execIbfeU (g : Guard) (d : Dst) (a : Src) (f : BField) (cc : Nat) (s : State) : Out :=
  aluOp s g d cc ((a, 1) :: fieldSrcs f) fun s v l => (bfeU (s.rd v l a) (s.field v l f).1 (s.field v l f).2, [])
/-- D as a source. -/
def dstSrc : Dst → Src
  | .v n => .v n
  | .k n => .k n
/-- `ibfi` (R141): D is also a source. -/
def execIbfi (g : Guard) (d : Dst) (a : Src) (f : BField) (cc : Nat) (s : State) : Out :=
  aluOp s g d cc ((a, 1) :: (dstSrc d, 1) :: fieldSrcs f) fun s v l =>
    (bfi (s.rd v l (dstSrc d)) (s.rd v l a) (s.field v l f).1 (s.field v l f).2, [])
/-- `ipopc` (R142). -/
def execIpopc (g : Guard) (d : Dst) (a : Src) (cc : Nat) (s : State) : Out := alu1 s g d a cc popc32
/-- `iclz` (R142). -/
def execIclz (g : Guard) (d : Dst) (a : Src) (cc : Nat) (s : State) : Out := alu1 s g d a cc clz32
/-- `ibrev` (R142). -/
def execIbrev (g : Guard) (d : Dst) (a : Src) (cc : Nat) (s : State) : Out := alu1 s g d a cc brev32

/-! ## Order -/

/-- `imin` (R143). -/
def execImin (g : Guard) (d : Dst) (a b : Src) (cc : Nat) (s : State) : Out := alu2 s g d a b cc smin32
/-- `imax` (R143). -/
def execImax (g : Guard) (d : Dst) (a b : Src) (cc : Nat) (s : State) : Out := alu2 s g d a b cc smax32
/-- `imin.u` (R143). -/
def execIminU (g : Guard) (d : Dst) (a b : Src) (cc : Nat) (s : State) : Out := alu2 s g d a b cc umin32
/-- `imax.u` (R143). -/
def execImaxU (g : Guard) (d : Dst) (a b : Src) (cc : Nat) (s : State) : Out := alu2 s g d a b cc umax32
/-- `iabs` (R143). -/
def execIabs (g : Guard) (d : Dst) (a : Src) (cc : Nat) (s : State) : Out := alu1 s g d a cc abs32

/-- `icmp` (R144). -/
def execIcmp (g : Guard) (w64 u : Bool) (cond : Cond) (pd : Nat) (comb : Comb) (a b : Src) (s : State) : Out :=
  if w64 then
    predOp s g pd comb [(a, 2), (b, 2)] fun s v l =>
      let x := s.rd64 v l a
      let y := s.rd64 v l b
      (if u then condHolds cond x.toNat y.toNat else condHolds cond x.toInt y.toInt, [])
  else
    predOp s g pd comb [(a, 1), (b, 1)] fun s v l =>
      let x := s.rd v l a
      let y := s.rd v l b
      (if u then condHolds cond x.toNat y.toNat else condHolds cond x.toInt y.toInt, [])

/-! ## Addresses and conversions -/

/-- `iadd64` (R136). -/
def execIadd64 (g : Guard) (d : Dst) (a b : Src) (cc : Nat) (s : State) : Out :=
  aluOp64 s g d cc [(a, 2), (b, 2)] fun s v l => s.rd64 v l a + s.rd64 v l b
/-- `lea` (R146). -/
def execLea (g : Guard) (u : Bool) (shift : Nat) (d : Dst) (a b : Src) (cc : Nat) (s : State) : Out :=
  aluOp64 s g d cc [(a, 2), (b, 1)] fun s v l =>
    let i := s.rd v l b
    s.rd64 v l a + ((if u then i.zeroExtend 64 else i.signExtend 64) <<< shift)
/-- `lea.ar` (R148). -/
def execLeaAr (g : Guard) (d : Dst) (a b : Src) (cc : Nat) (s : State) : Out :=
  aluOp64 s g d cc [(a, 1), (b, 2)] fun s v l => leaArF (s.rd v l a) (s.rd64 v l b)
/-- `lea.ar.add` (R148). -/
def execLeaArAdd (g : Guard) (d : Dst) (a b : Src) (cc : Nat) (s : State) : Out :=
  aluOp64 s g d cc [(a, 2), (b, 2)] fun s v l => leaArAddF (s.rd64 v l a) (s.rd64 v l b)

/-- `i2i` (R145). -/
def execI2i (g : Guard) (op : I2i) (d : Dst) (a : Src) (cc : Nat) (s : State) : Out :=
  match op with
  | .s64 => aluOp64 s g d cc [(a, 1)] fun s v l => (s.rd v l a).signExtend 64
  | .u64 => aluOp64 s g d cc [(a, 1)] fun s v l => (s.rd v l a).zeroExtend 64
  | .satS32 => aluOp s g d cc [(a, 2)] fun s v l => (clamp (-(2 ^ 31)) (2 ^ 31 - 1) (s.rd64 v l a).toInt, [])
  | .satU32 => aluOp s g d cc [(a, 2)] fun s v l => (clamp 0 (2 ^ 32 - 1) (s.rd64 v l a).toInt, [])
  | op => alu1 s g d a cc (i2iNarrow op)

end Sys2Proof.Machine
end

