-- ==== Sys2Proof/Machine/FloatClass.lean ====
section
/-!
DEFINITION. The floating-point class (R168-R183), the pair word (R73-R76), and the start of a statistics window (R186).
-/

namespace Sys2Proof.Machine

/-- A result as a register word. -/
def word32 (x : Nat × Events) : W32 × Events := (BitVec.ofNat 32 x.1, x.2)

/-- One f32 source. -/
def fp1 (s : State) (g : Guard) (d : Dst) (a : Src) (cc : Nat) (f : Nat → Nat × Events) : Out :=
  aluOp s g d cc [(a, 1)] fun s v l => word32 (f (s.rd v l a).toNat)
/-- Two sources. -/
def fp2 (s : State) (g : Guard) (d : Dst) (a b : Src) (cc : Nat) (f : Nat → Nat → Nat × Events) : Out :=
  aluOp s g d cc [(a, 1), (b, 1)] fun s v l => word32 (f (s.rd v l a).toNat (s.rd v l b).toNat)
/-- Three sources. -/
def fp3 (s : State) (g : Guard) (d : Dst) (a b c : Src) (cc : Nat) (f : Nat → Nat → Nat → Nat × Events) : Out :=
  aluOp s g d cc [(a, 1), (b, 1), (c, 1)] fun s v l =>
    word32 (f (s.rd v l a).toNat (s.rd v l b).toNat (s.rd v l c).toNat)

/-- Two bf16x2 sources (R69, R172). -/
def half2 (s : State) (g : Guard) (d : Dst) (a b : Src) (cc : Nat) (f : Nat → Nat → Nat × Events) : Out :=
  aluOp s g d cc [(a, 1), (b, 1)] fun s v l => word32 (f (s.rdHalves v l a).toNat (s.rdHalves v l b).toNat)
/-- Three bf16x2 sources (R69, R172). -/
def half3 (s : State) (g : Guard) (d : Dst) (a b c : Src) (cc : Nat) (f : Nat → Nat → Nat → Nat × Events) : Out :=
  aluOp s g d cc [(a, 1), (b, 1), (c, 1)] fun s v l =>
    word32 (f (s.rdHalves v l a).toNat (s.rdHalves v l b).toNat (s.rdHalves v l c).toNat)

/-- `fadd` (R171). -/
def execFadd (g : Guard) (m : Rnd) (d : Dst) (a b : Src) (cc : Nat) (s : State) : Out := fp2 s g d a b cc (ffF32.add m)
/-- `fsub` (R171). -/
def execFsub (g : Guard) (m : Rnd) (d : Dst) (a b : Src) (cc : Nat) (s : State) : Out := fp2 s g d a b cc (ffF32.sub m)
/-- `fmul` (R171). -/
def execFmul (g : Guard) (m : Rnd) (d : Dst) (a b : Src) (cc : Nat) (s : State) : Out := fp2 s g d a b cc (ffF32.mul m)
/-- `ffma` (R51). -/
def execFfma (g : Guard) (m : Rnd) (d : Dst) (a b c : Src) (cc : Nat) (s : State) : Out := fp3 s g d a b c cc (ffF32.fma m)
/-- `fmin` (R174). -/
def execFmin (g : Guard) (d : Dst) (a b : Src) (cc : Nat) (s : State) : Out := fp2 s g d a b cc (fminmaxF false)
/-- `fmax` (R174). -/
def execFmax (g : Guard) (d : Dst) (a b : Src) (cc : Nat) (s : State) : Out := fp2 s g d a b cc (fminmaxF true)
/-- `fcmp` (R175). -/
def execFcmp (g : Guard) (cond : FCond) (pd : Nat) (comb : Comb) (a b : Src) (s : State) : Out :=
  predOp s g pd comb [(a, 1), (b, 1)] fun s v l => fcmpF cond (s.rd v l a).toNat (s.rd v l b).toNat
/-- `fclass` (R176). -/
def execFclass (g : Guard) (d : Dst) (a : Src) (cc : Nat) (s : State) : Out := fp1 s g d a cc fun x => (fclassF x, [])
/-- `frndi` (R180). -/
def execFrndi (g : Guard) (m : Rnd) (d : Dst) (a : Src) (cc : Nat) (s : State) : Out := fp1 s g d a cc (frndiF m)
/-- `fexp` (R181). -/
def execFexp (g : Guard) (d : Dst) (a : Src) (cc : Nat) (s : State) : Out := fp1 s g d a cc fexpF
/-- `fldx` (R182). -/
def execFldx (g : Guard) (d : Dst) (a b : Src) (cc : Nat) (s : State) : Out :=
  aluOp s g d cc [(a, 1), (b, 1)] fun s v l => word32 (fldxF (s.rd v l a).toNat (s.rd v l b).toInt)
/-- `fgetx` (R182). -/
def execFgetx (g : Guard) (d : Dst) (a : Src) (cc : Nat) (s : State) : Out := fp1 s g d a cc fgetxF
/-- `frcp` (R179). -/
def execFrcp (g : Guard) (m : Rnd) (d : Dst) (a : Src) (cc : Nat) (s : State) : Out := fp1 s g d a cc (frcpF m)
/-- `frsq` (R179). -/
def execFrsq (g : Guard) (m : Rnd) (d : Dst) (a : Src) (cc : Nat) (s : State) : Out := fp1 s g d a cc (frsqF m)
/-- `fsqrt` (R179). -/
def execFsqrt (g : Guard) (m : Rnd) (d : Dst) (a : Src) (cc : Nat) (s : State) : Out := fp1 s g d a cc (fsqrtF m)
/-- `flg2` (R179). -/
def execFlg2 (g : Guard) (d : Dst) (a : Src) (cc : Nat) (s : State) : Out := fp1 s g d a cc flg2F
/-- `fex2` (R183). -/
def execFex2 (g : Guard) (d : Dst) (a : Src) (cc : Nat) (s : State) : Out := fp1 s g d a cc fex2F
/-- `fdot2` (R173): A and B are bf16x2, C is f32. -/
def execFdot2 (g : Guard) (m : Rnd) (d : Dst) (a b c : Src) (cc : Nat) (s : State) : Out :=
  aluOp s g d cc [(a, 1), (b, 1), (c, 1)] fun s v l =>
    word32 (fdot2F m (s.rdHalves v l a).toNat (s.rdHalves v l b).toNat (s.rd v l c).toNat)
/-- `fadd.bf16x2` (R172). -/
def execFaddBf16x2 (g : Guard) (m : Rnd) (d : Dst) (a b : Src) (cc : Nat) (s : State) : Out :=
  half2 s g d a b cc (halves (ffBf16.add m))
/-- `fmul.bf16x2` (R172). -/
def execFmulBf16x2 (g : Guard) (m : Rnd) (d : Dst) (a b : Src) (cc : Nat) (s : State) : Out :=
  half2 s g d a b cc (halves (ffBf16.mul m))
/-- `ffma.bf16x2` (R172). -/
def execFfmaBf16x2 (g : Guard) (m : Rnd) (d : Dst) (a b c : Src) (cc : Nat) (s : State) : Out :=
  half3 s g d a b c cc (fmaHalves m)

/-- `cvt.bf16x2.f32` (R178). -/
def toBf16x2F (m : Rnd) (a b : Nat) : Nat × Events :=
  ((toBf16F m b).1 * 65536 + (toBf16F m a).1, (toBf16F m a).2 ++ (toBf16F m b).2)

/-- `cvt` (R177, R178). An inline float reads as its f32 pattern, since R169 does not list A as bf16x2 (DEDUCED, log 69). -/
def execCvt (g : Guard) (op : Cvt) (m : Rnd) (d : Dst) (a : Src) (b : Option Src) (cc : Nat) (s : State) : Out :=
  match op with
  | .bf16Lo => fp1 s g d a cc fun x => fromBf16F (x % 65536)
  | .bf16Hi => fp1 s g d a cc fun x => fromBf16F (x / 65536)
  | .toBf16x2 => fp2 s g d a (b.getD (.int 0)) cc (toBf16x2F m)
  | .fromI32 => aluOp s g d cc [(a, 1)] fun s v l => word32 (cvtFromIntF m (s.rd v l a).toInt)
  | .fromU32 => fp1 s g d a cc fun x => cvtFromIntF m x
  | .toI32 => fp1 s g d a cc (cvtToIntF true m)
  | .toU32 => fp1 s g d a cc (cvtToIntF false m)

/-! ## The pair word (R75) -/

/-- What a slot computes from D and S (R76). -/
def popF (p : Pop) (d x : W32) : W32 × Events :=
  match p with
  | .iadd => (d + x, [])
  | .isub => (d - x, [])
  | .imul => (d * x, [])
  | .iand => (d &&& x, [])
  | .ior => (d ||| x, [])
  | .ixor => (d ^^^ x, [])
  | .ishl => (shl32 d x, [])
  | .ishr => (shr32 d x, [])
  | .isar => (sar32 d x, [])
  | .imin => (smin32 d x, [])
  | .imax => (smax32 d x, [])
  | .iminu => (umin32 d x, [])
  | .imaxu => (umax32 d x, [])
  | .fadd => word32 (ffF32.add .rn d.toNat x.toNat)
  | .fsub => word32 (ffF32.sub .rn d.toNat x.toNat)
  | .fmul => word32 (ffF32.mul .rn d.toNat x.toNat)
  | .fmin => word32 (fminmaxF false d.toNat x.toNat)
  | .fmax => word32 (fminmaxF true d.toNat x.toNat)
  | .faddBf16 => word32 (halves (ffBf16.add .rn) d.toNat x.toNat)
  | .fmulBf16 => word32 (halves (ffBf16.mul .rn) d.toNat x.toNat)
  | .mov => (x, [])

/-- The lanes in which a slot executes. -/
def slotLanes (v : Env) (x : Slot) : Mask := v.active ⟨false, x.p⟩

/-- Vector registers a slot reads: D unless it is a `mov`, and S. -/
def slotReads (x : Slot) : List Nat :=
  (if x.pop = .mov then [] else [x.d]) ++ (match x.s with
    | .v n => [n]
    | _ => [])

/-- Every register the pair reads, once, with the lanes that read it (R75, R121). -/
def pairReads (v : Env) (x y : Slot) : List (Nat × Mask) :=
  ((slotReads x ++ slotReads y).eraseDups).map fun n =>
    (n, (if (slotReads x).contains n then slotLanes v x else 0) ||| (if (slotReads y).contains n then slotLanes v y else 0))

/-- Bank reads of a slot: D, also of a `mov`, and S, where it has an active lane (R117). -/
def slotBanks (v : Env) (x : Slot) : List Nat := if slotLanes v x = 0 then [] else x.d :: srcBanks x.s 1

/-- An uncorrectable error that a slot reads in the lanes in which it executes (R457). -/
def slotErrors (s : State) (v : Env) (x : Slot) : Option Nat :=
  if slotLanes v x = 0 then none
  else s.badRead v (slotLanes v x) ((if x.pop = .mov then [] else [(.v x.d, 1)]) ++ [(x.s, 1)])

/-- Results of a slot, lane by lane. -/
def State.slotResults (s : State) (v : Env) (x : Slot) : List (Nat × W32 × Events) :=
  (lanesOf (slotLanes v x)).map fun l => (l, popF x.pop (v.readV x.d l) (s.rd v l x.s))

/-- A pair word (R75): both slots read before either writes; DEADREAD in either stops both. -/
def execPairWord (x y : Slot) (s : State) : Out :=
  onWave .any none Guard.always s fun s v =>
    let rs := pairReads v x y
    let banks := slotBanks v x ++ slotBanks v y
    let dead := rs.filter fun r => !v.ctx.patch && v.w.deadLanes r.2 r.1 != 0
    match dead with
    | r :: _ => s.trapAt v .deadread 0 (v.w.deadLanes r.2 r.1) (le 2 r.1)
    | [] =>
      match (slotErrors s v x).or (slotErrors s v y) with
      | some c => s.trapAt v .dataerr 0 (slotLanes v x ||| slotLanes v y) (le 8 c)
      | none =>
        let w := if v.ctx.patch then v.w else rs.foldl (fun w r => (lanesOf r.2).foldl (fun w l => w.consume r.1 l) w) v.w
        let px := s.slotResults v x
        let py := s.slotResults v y
        let w := px.foldl (fun w r => w.setV x.d r.1 r.2.1 x.cc) w
        let w := py.foldl (fun w r => w.setV y.d r.1 r.2.1 y.cc) w
        let s := (s.setWave v.u w).gather v banks
        (s.count (v.evSrc v.sp.mask) ((px ++ py).flatMap fun r => evAt r.1 r.2.2)).goOn v

/-- A statistics window of a team's bank begins (R186). -/
def execNumstatWindowStart (team : Nat) (s : State) : Out :=
  match s.team? team with
  | none => .next s
  | some t =>
    let now := s.ctxclk (team / 4)
    if t.bank.windowDue now then .next (s.updTeam team fun t => { t with bank := { t.bank.startWindow with nslast := now } })
    else .next s

end Sys2Proof.Machine
end

