-- ==== Sys2Proof/Machine/Lane.lean ====
section
/-!
DEFINITION. Lane exchange (R193-R201).
-/

namespace Sys2Proof.Machine

/-- Source lane and whether it is in range, by MODE (R196). -/
def shflIdxF (w l b : Nat) : Nat × Bool := (l - l % w + b % w, true)
/-- `up`. -/
def shflUpF (w l b : Nat) : Nat × Bool := (l - b, decide (b < w) && decide (l - l % w + b ≤ l))
/-- `dn`. -/
def shflDnF (w l b : Nat) : Nat × Bool := (l + b, decide (b < w) && decide (l + b < l - l % w + w))
/-- `xor`. -/
def shflXorF (w l b : Nat) : Nat × Bool := (l - l % w + Nat.xor (l % w) (b % w), true)

/-- A shuffle (R196). -/
def shfl (g : Guard) (seg pd d : Nat) (a b : Src) (cc : Nat) (s : State) (f : Nat → Nat → Nat → Nat × Bool) : Out :=
  onWave .any none g s fun s v =>
    let m := v.active g
    if m = 0 then s.goOn v
    else s.reads v m [(a, 1), (b, 1)] fun s =>
      let src := fun (l : Nat) => f (2 ^ seg) l (s.rd v l b).toNat
      let ok := fun (l : Nat) => (src l).2 && hasLane m (src l).1
      let vals := (lanesOf m).map fun l => (l, if ok l then s.rd v (src l).1 a else s.rd v l a)
      (s.updWave v.u fun w =>
        (vals.foldl (fun w r => w.setV d r.1 r.2 cc) w).setP pd m (maskOf ((lanesOf m).filter ok))).goOn v

/-- `shfl.idx`. -/
def execShflIdx (g : Guard) (seg pd d : Nat) (a b : Src) (cc : Nat) (s : State) : Out := shfl g seg pd d a b cc s shflIdxF
/-- `shfl.up`. -/
def execShflUp (g : Guard) (seg pd d : Nat) (a b : Src) (cc : Nat) (s : State) : Out := shfl g seg pd d a b cc s shflUpF
/-- `shfl.dn`. -/
def execShflDn (g : Guard) (seg pd d : Nat) (a b : Src) (cc : Nat) (s : State) : Out := shfl g seg pd d a b cc s shflDnF
/-- `shfl.xor`. -/
def execShflXor (g : Guard) (seg pd d : Nat) (a b : Src) (cc : Nat) (s : State) : Out := shfl g seg pd d a b cc s shflXorF

/-- The result of a vote (R197): `t` is the predicate in the lanes of `m`. -/
def voteF (op : VoteOp) (m t : Mask) : W32 :=
  match op with
  | .all => if t &&& m = m then 1 else 0
  | .any => if t &&& m ≠ 0 then 1 else 0
  | .eq => if t &&& m = 0 ∨ t &&& m = m then 1 else 0
  | .ballot => t &&& m

/-- `vote` (R197). -/
def execVote (g : Guard) (op : VoteOp) (pn : Bool) (ps : Nat) (d : Dst) (cc : Nat) (s : State) : Out :=
  aluOp s g d cc [] fun _ v _ =>
    let p := v.w.getP ps
    (voteF op (v.active g) (if pn then ~~~p else p), [])

/-- One step of a fold (R198). -/
def redStep (op : RedOp) (x y : W32) : W32 × Events :=
  match op with
  | .iadd => (x + y, [])
  | .imin => (smin32 x y, [])
  | .imax => (smax32 x y, [])
  | .iminu => (umin32 x y, [])
  | .imaxu => (umax32 x y, [])
  | .iand => (x &&& y, [])
  | .ior => (x ||| y, [])
  | .ixor => (x ^^^ y, [])
  | .fadd => word32 (ffF32.add .rn x.toNat y.toNat)
  | .fmin => word32 (fminmaxF false x.toNat y.toNat)
  | .fmax => word32 (fminmaxF true x.toNat y.toNat)

/-- The identity of an operation (R198). -/
def redId : RedOp → W32
  | .iadd => 0 | .imin => 0x7FFFFFFF | .imax => 0x80000000 | .iminu => 0xFFFFFFFF | .imaxu => 0 | .iand => 0xFFFFFFFF
  | .ior => 0 | .ixor => 0 | .fadd => 0x80000000 | .fmin => 0x7FC00000 | .fmax => 0x7FC00000

/-- The left fold over lanes in ascending order (R199): each lane with the value after it and the events so far. -/
def prefixes (op : RedOp) (acc : W32) (ev : Events) : List (Nat × W32) → List (Nat × W32 × Events)
  | [] => []
  | (l, x) :: xs =>
    let r := redStep op acc x
    (l, r.1, ev ++ r.2) :: prefixes op r.1 (ev ++ r.2) xs

/-- Every inclusive prefix; the first lane's value is untouched and counts nothing. -/
def foldLanes (op : RedOp) : List (Nat × W32) → List (Nat × W32 × Events)
  | [] => []
  | (l, x) :: xs => (l, x, []) :: prefixes op x [] xs

/-- The exclusive scan: each lane receives the prefix before it. -/
def exclusive (op : RedOp) (ps : List (Nat × W32 × Events)) : List (Nat × W32 × Events) :=
  ((ps.map Prod.fst).zip ((redId op, []) :: ps.map Prod.snd)).map fun x => (x.1, x.2)

/-- `red` (R199). The events of `fmin` and `fmax` can raise NUMSTAT as those of `fadd` do (DEDUCED, log 92). -/
def execRed (g : Guard) (op : RedOp) (d : Dst) (a : Src) (cc : Nat) (s : State) : Out :=
  onWave .any none g s fun s v =>
    let m := v.active g
    if m = 0 then s.goOn v
    else s.reads v m [(a, 1)] fun s =>
      let ps := foldLanes op ((lanesOf m).map fun l => (l, s.rd v l a))
      let r := (ps.getLastD (0, 0, [])).2
      let s := s.updWave v.u fun w => w.putAll v.e d cc m fun _ => r.1
      (s.count (v.evSrc m) (evAt (evLane d (lowLane m)) r.2)).goOn v

/-- `scan` and `scan.exc` (R199), with the events of `red` (log 92). -/
def execScan (g : Guard) (exc : Bool) (op : RedOp) (d : Nat) (a : Src) (cc : Nat) (s : State) : Out :=
  onWave .any none g s fun s v =>
    let m := v.active g
    if m = 0 then s.goOn v
    else s.reads v m [(a, 1)] fun s =>
      let ps := foldLanes op ((lanesOf m).map fun l => (l, s.rd v l a))
      let ps := if exc then exclusive op ps else ps
      let s := s.updWave v.u fun w => ps.foldl (fun w r => w.setV d r.1 r.2.1 cc) w
      (s.count (v.evSrc m) (ps.flatMap fun r => evAt r.1 r.2.2)).goOn v

/-- One byte of `prmt` (R200): the nibble's byte, or eight copies of its sign. -/
def prmtByte (x : W64) (n : Nat) : Nat :=
  let b := x.toNat / 2 ^ (8 * (n % 8)) % 256
  if n / 8 = 1 then (if 128 ≤ b then 0xFF else 0) else b

/-- `prmt` (R200). -/
def prmtF (a sel c : W32) : W32 :=
  let x := join32 c a
  BitVec.ofNat 32 (((List.range 4).map fun i => prmtByte x (sel.toNat / 2 ^ (4 * i) % 16) * 2 ^ (8 * i)).sum)

/-- `prmt` (R200). -/
def execPrmt (g : Guard) (d : Dst) (a b c : Src) (cc : Nat) (s : State) : Out :=
  aluOp s g d cc [(a, 1), (b, 1), (c, 1)] fun s v l => (prmtF (s.rd v l a) (s.rd v l b) (s.rd v l c), [])

/-- The value `match` compares. -/
def State.matchVal (s : State) (v : Env) (w64 : Bool) (l : Nat) (a : Src) : W64 :=
  if w64 then s.rd64 v l a else (s.rd v l a).zeroExtend 64

/-- `match.any` (R201). -/
def execMatchAny (g : Guard) (w64 : Bool) (d : Nat) (a : Src) (cc : Nat) (s : State) : Out :=
  aluOp s g (.v d) cc [(a, if w64 then 2 else 1)] fun s v l =>
    (lanesWhere (v.active g) fun k => s.matchVal v w64 k a == s.matchVal v w64 l a, [])

/-- `match.all` (R201). -/
def execMatchAll (g : Guard) (w64 : Bool) (d : Dst) (a : Src) (cc : Nat) (s : State) : Out :=
  aluOp s g d cc [(a, if w64 then 2 else 1)] fun s v _ =>
    let m := v.active g
    let x := s.matchVal v w64 (lowLane m) a
    (if (lanesOf m).all fun k => s.matchVal v w64 k a == x then m else 0, [])

end Sys2Proof.Machine
end

