-- ==== Sys2Proof/Machine/Access.lean ====
section
/-!
DEFINITION. The address unit (R203, R204) and outstanding accesses: how a memory instruction issues, how its lanes are
performed, left out, parked and replayed, and how it completes (R211, R219-R225).
-/

namespace Sys2Proof.Machine

/-! ## Forms -/

/-- Bytes of an access (R226). -/
def accessBytes (w : Width) : Nat :=
  match w with
  | .b8 | .s8 => 1
  | .b16 | .s16 => 2
  | .b32 => 4
  | .b64 => 8
  | .b128 => 16

/-- Registers that hold the data of an access (R227). -/
def accessRegs (w : Width) : Nat := max 1 (accessBytes w / 4)

/-- What a memory instruction reads at issue: its width, address, offset and data operands, whether it acts once for the
wave, whether it exists in the scratchpad window only (R206), and whether it converts and so not in that window (R228). -/
structure MemForm where
  n : Nat := 1
  a : Src
  off : Option Src := none
  data : List (Src × Nat) := []
  uni : Bool := false
  fe : Bool := false
  cv : Bool := false
  deriving DecidableEq, Repr

/-- A destination makes a uniform form (R72). -/
def dstUni (d : Dst) : Bool :=
  match d with
  | .k _ => true
  | .v _ => false

/-- A uniform source. -/
def srcUni (a : Src) : Bool :=
  match a with
  | .v _ | .sp .lane => false
  | _ => true

/-- The form of each memory instruction; an instruction that makes no access has an empty one. `fe.set`, `fe.peek` and `pref` carry no
width: the checks of R203 and R204 take one byte (DESIGN CHOICE, log 76). -/
def memForm (i : Instr) : MemForm :=
  match i with
  | .ld _ w _ _ a b _ => { n := accessBytes w, a := a, off := some b }
  | .ldk _ w _ _ a b => { n := accessBytes w, a := a, off := some b, uni := true }
  | .st _ w _ a b c => { n := accessBytes w, a := a, off := some b, data := [(c, accessRegs w)] }
  | .stk _ w _ a b c => { n := accessBytes w, a := a, off := some b, data := [(c, accessRegs w)], uni := true }
  | .ldCv _ _ _ _ a b _ => { n := 128, a := a, data := [(b, 1)], cv := true }
  | .stCv _ _ _ a b c => { n := 128, a := a, data := [(b, 1), (c, 1)], cv := true }
  | .ldFe _ w _ _ a b _ => { n := accessBytes w, a := a, off := some b, fe := true }
  | .stFeFill _ w _ a b c => { n := accessBytes w, a := a, off := some b, data := [(c, accessRegs w)], fe := true }
  | .feSet _ _ _ a b => { a := a, off := some b, fe := true }
  | .fePeek _ _ _ a b _ => { a := a, off := some b, fe := true }
  | .pref _ _ a b => { a := a, off := some b }
  | .pin _ _ d a _ => { a := a, uni := dstUni d }
  | .unpin _ _ d a _ => { a := a, uni := dstUni d }
  | .flushL1 _ _ a => { a := a }
  | .flushHm _ _ a => { a := a }
  | .invalL1 _ _ a => { a := a }
  | .invalHm _ _ a => { a := a }
  | .hmzero _ _ a b => { a := a, data := [(b, 1)], uni := true }
  | .atom _ _ _ _ w64 _ d a b _ => { n := if w64 then 8 else 4, a := a, data := [(b, if w64 then 2 else 1)], uni := dstUni d }
  | .atomCas _ _ _ w64 _ d a b c _ =>
    let k := if w64 then 2 else 1
    { n := if w64 then 8 else 4, a := a, data := [(b, k), (c, k)], uni := dstUni d }
  | .ldAcq _ _ w _ d a b _ => { n := accessBytes w, a := a, off := some b, uni := dstUni d }
  | .stRel _ _ w _ a b c => { n := accessBytes w, a := a, off := some b, data := [(c, accessRegs w)] }
  | _ => { a := .int 0 }

/-- The registers of a form with their counts (R121). -/
def MemForm.reads (f : MemForm) : List (Src × Nat) :=
  (f.a, 2) :: ((match f.off with
    | some o => [(o, 1)]
    | none => []) ++ f.data)

/-! ## The address unit -/

/-- Size of an arena in bytes (R397). -/
def Arena.bytes (x : Arena) : Nat := x.size * 65536

/-- A core's cached copy of an arena's entry (R400): the old one until it has applied the broadcast. -/
def State.arenaView (s : State) (core asid slot : Nat) : Arena :=
  let k := arenaKey asid slot
  match s.mem.lags.find? fun x => x.key == k && x.cores.contains core with
  | some x => x.old
  | none => smGet {} s.mem.arenas k

/-- The team whose scratchpad a wave reaches on a core of its quad (R204). -/
def State.spadTeam (s : State) (w : Wave) (core : Nat) : Option Nat :=
  if core = w.core then some w.teamKey
  else ((s.graph.teams.filter fun t => t.1 / 4 == w.gang && t.2.core == some core).map Prod.fst).head?

/-- The core that a scratchpad address names for a core of its quad. -/
def spadCore (core a : Nat) : Nat := core / 4 * 4 + a / 2 ^ 24 % 4

/-- The team and offset of a scratchpad address (R204). -/
def State.spadAt (s : State) (w : Wave) (a : Nat) : Option (Nat × Nat) :=
  (s.spadTeam w (spadCore w.core a)).map fun t => (t, a % 2 ^ 24)

/-- The reason an arena access is refused (R400). -/
def Arena.refuse (x : Arena) (gen : Nat) : Option Nat :=
  if x.state = 1 ∧ x.gen = gen then none
  else if x.state = 0 then some 0
  else if x.gen ≠ gen then some 1
  else some 2

/-- A refused address: cause and code. -/
abbrev AddrBad := Cause × Nat

/-- The address unit's check of n bytes (R204). -/
def State.checkAddr (s : State) (w : Wave) (e n : Nat) : Option AddrBad :=
  match windowOf e with
  | 0 => none
  | 1 => if bitsOf e 55 35 ≠ 0 ∨ e.testBit 27 ∨ 0x06000000 ≤ e % 2 ^ 27 then some (.addr, 0) else none
  | 2 =>
    let x := s.arenaView w.core w.asid (arenaSlot e)
    match x.refuse (arenaGen e) with
    | some r => some (.arena, r)
    | none => if x.bytes < e % 2 ^ 34 + n then some (.addr, 0) else none
  | 3 =>
    if bitsOf e 55 26 ≠ 0 then some (.addr, 0)
    else match s.spadAt w e with
      | none => some (.addr, 0)
      | some (t, off) =>
        if (s.team? t).elim true fun x => decide (x.spadG * 16384 < off + n) then some (.addr, 0) else none
  | _ => some (.addr, 0)

/-- EA(l) (R203) before the check of R204: the address, and whether it breaks R203. -/
def State.effAddr (s : State) (v : Env) (f : MemForm) (l : Nat) : Nat × Bool :=
  let a := s.rd64 v l f.a
  let o : W64 := match f.off with
    | some x => (s.rd v l x).signExtend 64
    | none => 0
  let e := (a + o).toNat
  (e, windowOf e != windowOf a.toNat || (windowOf a.toNat == 2 && e / 2 ^ 34 != a.toNat / 2 ^ 34) || e % f.n != 0 ||
    (f.fe && windowOf e != 3) || (f.cv && windowOf e == 3))

/-- The address of a lane with what refuses it. -/
def State.laneAddr (s : State) (v : Env) (f : MemForm) (l : Nat) : Nat × Option AddrBad :=
  let e := s.effAddr v f l
  (e.1, if e.2 then some (.addr, 0) else s.checkAddr v.w e.1 f.n)

/-- The causes of refused lanes become pending together: one detail for each cause and code, with the lowest lane's
address (R219, R444). -/
def State.addrTraps (s : State) (v : Env) (uni : Mask) (bad : List (Nat × Nat × AddrBad)) : State :=
  let kinds : List AddrBad := [(.addr, 0), (.arena, 0), (.arena, 1), (.arena, 2)]
  kinds.foldl (fun s k =>
    match bad.filter fun b => b.2.2 == k with
    | [] => s
    | b :: bs =>
      let m := if uni ≠ 0 then uni else maskOf ((b :: bs).map Prod.fst)
      s.trapAt v k.1 k.2 m (le 8 b.2.1)) s

/-! ## Issue -/

/-- The operation can park (R453): it reaches memory that is translated. -/
def Op.canPark (o : Op) : Bool := isAccess o.ins && o.args.any fun x => windowOf x.addr.toNat == 0 || windowOf x.addr.toNat == 2

/-- Requests that an operation has outstanding beyond the scratchpads: one for each lane that is not done (DESIGN CHOICE, log 87). -/
def Op.requests (o : Op) : Nat :=
  if isAccess o.ins then (o.args.filter fun x => hasLane o.todo x.lane && windowOf x.addr.toNat != 3).length else 0

/-- Requests outstanding at a core's L1: it takes 8,192 (R1). -/
def State.l1Requests (s : State) (core : Nat) : Nat :=
  ((s.waves.filter fun w => w.2.place.isSome && w.2.core == core).map fun w => (w.2.ops.map Op.requests).sum).sum

/-- The units that an access goes to cannot take it: a later access of a split whose acquire is to come (R305), a 17th instruction that
can park (R453), more requests than the L1 holds (R1). -/
def State.accessFull (s : State) (v : Env) (o : Op) : Bool :=
  v.w.acquireOut v.sp.mask ||
    (o.canPark && decide (16 ≤ (v.w.ops.filter Op.canPark).length + (v.w.fetchFaults.filter FetchFault.xfer).length)) ||
    decide (8192 < s.l1Requests v.w.core + o.requests)

/-- The operation of the issuing word. -/
def Env.op (v : Env) (i : Instr) (fs : Bool) (m : Mask) (uni : Bool) (args : List LaneArg) : Op :=
  { serial := v.serial, ins := i, pc := v.ctx.pc, word := v.ctx.word, ext := v.ctx.ext, entry := if v.e = 4 then 0xFF else v.e,
    ver := v.sp.ver, hmark := v.isHandler, flag := v.ctx.flag fs, issued := m, smask := v.sp.mask, uni := uni, args := args,
    todo := maskOf (args.map LaneArg.lane) }

/-- An operation is outstanding: it holds its flag (R62). -/
def State.begin (s : State) (v : Env) (o : Op) : State :=
  s.updWave v.u fun w =>
    let w := { w with ops := w.ops ++ [o] }
    match o.flag with
    | some n => w.incF n
    | none => w

/-- What a lane reads at issue. -/
def State.laneArg (s : State) (v : Env) (f : MemForm) (l e : Nat) : LaneArg :=
  ⟨l, BitVec.ofNat 64 e, f.data.flatMap fun x => s.rdN v x.2 l x.1⟩

/-- Lanes of `m` in which some register of a word is released; none in a patch line (R111, R121). -/
def Env.deadMask (v : Env) (m : Mask) (xs : List (Src × Nat)) : Mask :=
  if v.ctx.patch then 0 else (vRegs xs).foldl (fun d n => d ||| v.w.deadLanes m n) 0

/-- The lanes that a form works on, with their addresses and what refuses them. -/
def State.laneAddrs (s : State) (v : Env) (f : MemForm) (m : Mask) : List (Nat × Nat × Option AddrBad) :=
  (if f.uni then [0] else lanesOf m).map fun l => (l, s.laneAddr v f l)

/-- The lanes that are refused. -/
def badLanes (es : List (Nat × Nat × Option AddrBad)) : List (Nat × Nat × AddrBad) :=
  es.filterMap fun x => x.2.2.map fun b => (x.1, x.2.1, b)

/-- Read the registers of an access word and check its addresses: lanes that read a released register raise DEADREAD, other lanes whose
address is refused ADDR or ARENA, all together, and nothing else happens (R219); else `k` goes on from the state after the reads. -/
def State.checked (s : State) (v : Env) (f : MemForm) (m : Mask) (k : State → List (Nat × Nat × Option AddrBad) → State) : State :=
  let dead := v.deadMask m f.reads
  let es := s.laneAddrs v f (m &&& ~~~dead)
  let r := s.reads v m f.reads fun t => if (badLanes es).isEmpty then k t es else s.addrTraps v (if f.uni then m else 0) (badLanes es)
  if dead = 0 then r else r.addrTraps v 0 (badLanes es)

/-- A task wave's scratchpad access is held while a `barc` instance of its team completes (R314). -/
def State.barcHolds (s : State) (v : Env) (es : List (Nat × Nat × Option AddrBad)) : Bool :=
  v.w.role == .task && (s.team? v.w.teamKey).elim false Team.barc && es.any fun x => windowOf x.2.1 == 3

/-- Issue the accesses of a word for the lanes `m` (R219, R227): failing lanes trap precisely and nothing else happens; what the units
cannot take yet waits (R305, R314, R453). -/
def State.startAccess (s0 s : State) (v : Env) (fs : Bool) (m : Mask) (i : Instr) : State :=
  let f := memForm i
  s.checked v f m fun t es =>
    let o := v.op i fs m f.uni (es.map fun x => s0.laneArg v f x.1 x.2.1)
    if s0.accessFull v o then s0.holdAt v.u v.e .unit
    else if s0.barcHolds v es then s0.holdAt v.u v.e .barc
    else (t.begin v o).goOn v

/-- A long-latency memory word. -/
def memWord (row : RoleRow) (fs : Bool) (g : Guard) (rel : Option Scope) (i : Instr) (s : State) : Out :=
  onWave row (some fs) g s fun t v =>
    let m := v.active g
    if m = 0 then t.goOn v
    else match rel with
      | none => s.startAccess t v fs m i
      | some sc => withRelease s t v sc false fun t => s.startAccess t v fs m i

/-! ## Scratchpad (R205, R206) -/

/-- Full-empty key of an offset. -/
def feKey (off : Nat) : Nat := off / 16
/-- A bit of a granule. -/
def State.feBit (s : State) (t off : Nat) : Bool := (s.team? t).elim false fun x => smGet false x.fe (feKey off)
/-- Set the bit of a granule. -/
def State.setFe (s : State) (t off : Nat) (b : Bool) : State :=
  s.updTeam t fun x => { x with fe := smSet false x.fe (feKey off) b }
/-- Bytes of a scratchpad; an uncorrectable error in them. -/
def State.spadRead (s : State) (t off n : Nat) : MR (List Byte) :=
  if (List.range n).any (fun i => (s.team? t).elim false fun x => smGet false x.bad (off + i)) then .data
  else .ok ((List.range n).map fun i => (s.team? t).elim 0 fun x => smGet 0 x.spad (off + i)) s
/-- Write bytes of a scratchpad. -/
def State.spadWrite (s : State) (t off : Nat) (bs : List Byte) : State :=
  s.updTeam t fun x => { x with
    spad := bs.zipIdx.foldl (fun p b => smSet 0 p (off + b.2) b.1) x.spad
    bad := x.bad.filter fun b => decide (b.1 < off) || decide (off + bs.length ≤ b.1) }

/-! ## Performing a lane -/

/-- What performing a lane gave: the words for its registers, its events, the level it reached (R459), and whether its W
permission must still be probed (R210). -/
structure LaneOut where
  regs : List W32 := []
  ev : Events := []
  level : Nat := 0
  probe : Bool := false
  deriving DecidableEq, Repr

/-- Words of a load (R226, R227). -/
def loadWords (w : Width) (bs : List Byte) : List W32 :=
  let x := natOfBytes bs
  match w with
  | .s8 => [(BitVec.ofNat 8 x).signExtend 32]
  | .s16 => [(BitVec.ofNat 16 x).signExtend 32]
  | .b64 => [BitVec.ofNat 32 x, BitVec.ofNat 32 (x / 2 ^ 32)]
  | .b128 => (List.range 4).map fun i => BitVec.ofNat 32 (x / 2 ^ (32 * i))
  | _ => [BitVec.ofNat 32 x]

/-- Bytes of a store. -/
def storeBytes (w : Width) (ds : List W32) : List Byte := (ds.flatMap fun x => le 4 x.toNat).take (accessBytes w)

/-- The level that an access which leaves the L1 reaches: a vault, a Hallmark slice, or memory (R459). -/
def State.levelOf (s : State) (core key : Nat) : Nat :=
  let a := keyAddr key
  if windowOf a = 1 then (if vaultOf a = quadOf core then 4 else if vaultOf a / 32 = dieOf core then 5 else 6)
  else match smFind s.mem.tags key with
    | some _ => if homeSlice a = quadOf core then 7 else if homeDie a = dieOf core then 8 else 9
    | none => match (s.translate (keyAsid key) a).1 with
      | .leaf e _ => if leafHost e then 11 else 10
      | _ => 10

/-- The level of a scratchpad access. -/
def spadLevel (core a : Nat) : Nat := if spadCore core a = core then 2 else 3

/-- Count an L1 hit or miss (R462). -/
def State.countL1 (s : State) (w : Wave) (hit : Bool) : State :=
  let n := if hit then 3 else 4
  s.updBank w fun b => { b with pmc := smSet 0 b.pmc n (smGet 0 b.pmc n + 1) }

/-- Load bytes through the bank or the L1 (R210). -/
def State.loadBytes (s : State) (w : Wave) (a n : Nat) : MR (List Byte × Nat) :=
  if windowOf a = 3 then
    match s.spadAt w a with
    | none => .data
    | some (t, off) => (s.spadRead t off n).bind fun bs s => .ok (bs, spadLevel w.core a) s
  else
    let lv := s.levelOf w.core (lineKey w.asid a)
    (s.loadL1 w.core w.asid a n).bind fun r s => .ok (r.1, if r.2 then 1 else lv) (s.countL1 w r.2)

/-- Read bytes at the home, the vault controller or the bank (R303, R306). -/
def State.readHomeBytes (s : State) (w : Wave) (a n : Nat) : MR (List Byte × Nat) :=
  if windowOf a = 3 then s.loadBytes w a n
  else
    let lv := s.levelOf w.core (lineKey w.asid a)
    (s.backRead (lineKey w.asid a)).bind fun d s => .ok ((List.range n).map fun i => lineByte d (a % 128 + i), lv) s

/-- Store bytes to the bank or the L1 (R210). A store hits where the line is present before it (R462; DESIGN CHOICE, log 84). -/
def State.storeBytesAt (s : State) (w : Wave) (a : Nat) (bs : List Byte) : MR LaneOut :=
  if windowOf a = 3 then
    match s.spadAt w a with
    | none => .data
    | some (t, off) => .ok { level := spadLevel w.core a } (s.spadWrite t off bs)
  else
    let hit := (s.l1 w.core (lineKey w.asid a)).isSome
    let r := s.storeL1 w.core w.asid a bs
    .ok { level := 1, probe := !r.1 } (r.2.countL1 w hit)

/-- Write bytes at the home or the vault controller, and drop the issuing core's copy of the line (R303, R307). -/
def State.writeHomeBytes (s : State) (w : Wave) (a : Nat) (bs : List Byte) (kind : WriteKind) : MR Unit :=
  let key := lineKey w.asid a
  (s.backWrite key (lineSet 0 (a % 128) bs) (spanMask (a % 128) bs.length) kind).bind fun _ s => .ok () (s.dropL1 w.core key)

/-! ## The lanes of an outstanding operation -/

/-- The operation of a wave with this serial. -/
def Wave.op? (w : Wave) (n : Nat) : Option Op := w.ops.find? fun o => o.serial == n
/-- Update an operation. -/
def Wave.updOp (w : Wave) (n : Nat) (f : Op → Op) : Wave := { w with ops := w.ops.map fun o => if o.serial == n then f o else o }
/-- Update an operation of a wave. -/
def State.updOp (s : State) (u n : Nat) (f : Op → Op) : State := s.updWave u fun w => w.updOp n f
/-- What a lane of an operation read. -/
def Op.arg? (o : Op) (l : Nat) : Option LaneArg := o.args.find? fun x => x.lane == l
/-- Lanes that stand for a lane of the operation: all of its mask in a uniform form. -/
def Op.lanesFor (o : Op) (l : Nat) : Mask := if o.uni then o.issued else laneBit l

/-- Lines that a lane of an operation touches: one, or those of `hmzero`. -/
def Op.touches (o : Op) (asid key : Nat) : Bool :=
  o.args.any fun x => hasLane o.todo x.lane && match o.ins with
    | .hmzero .. => decide (lineKey asid x.addr.toNat ≤ key) && decide (key < lineKey asid x.addr.toNat + 128 * ((x.data.headD 0).toNat))
    | .accrd .. => false
    | _ => lineKey asid x.addr.toNat == key

/-- An earlier access of the same split (R211). -/
def Op.precedes (p o : Op) : Bool := decide (p.serial < o.serial) && isAccess p.ins && p.ofSplit o.smask

/-- An earlier access of the same split to the line is outstanding (R211). -/
def Wave.lineBusy (w : Wave) (o : Op) (key : Nat) : Bool := w.ops.any fun p => p.precedes o && p.touches w.asid key

/-- Lanes of an operation that are parked: at a failing walk, or behind an access that is parked (R211, R220). -/
def Op.atRest (o : Op) : Mask := o.stuck ||| o.behind

/-- An earlier access of the same split to the line is parked (R211). -/
def Wave.lineParked (w : Wave) (o : Op) (key : Nat) : Bool :=
  w.ops.any fun p => p.precedes o && { p with todo := p.todo &&& p.atRest }.touches w.asid key

/-- The access is performed beyond the L1, after the core's own dirty bytes of the line (R164, R303, R306, R307). -/
def atHome (i : Instr) : Bool :=
  match i with
  | .ldCv .. | .stCv .. => true
  | .atom _ _ sc .. => scopeWide sc
  | .atomCas _ _ sc .. => scopeWide sc
  | .ldAcq _ sc .. => scopeWide sc
  | .stRel _ sc .. => scopeWide sc
  | _ => false

/-- The access fills a line of the L1 where its bytes are not there. -/
def mayFill (i : Instr) : Bool :=
  match i with
  | .ld .. | .ldk .. | .ldAcq .. | .atom .. | .atomCas .. => true
  | _ => false

/-- Whether a lane may be performed now; where its line is dirty in the L1 and the access is made at the home, its
write-back starts instead. A fill waits for the core's own write-back of the line. -/
def State.prepLane (s : State) (w : Wave) (o : Op) (x : LaneArg) : State × Bool :=
  let a := x.addr.toNat
  let key := lineKey w.asid a
  if windowOf a = 3 then (s, true)
  else if atHome o.ins then
    if ((s.l1 w.core key).elim 0 L1Line.dirty) ≠ 0 then (s.startWb w.core key, false) else (s, !s.mem.wbOut w.core key)
  else if mayFill o.ins then
    let n := (memForm o.ins).n
    let m := spanMask (a % 128) n
    let hit := (s.l1 w.core key).elim false fun y => y.valid &&& m == m
    (s, hit || !s.mem.wbOut w.core key)
  else (s, true)

/-- The entry that now holds the lanes of an operation. -/
def Wave.entryOf (w : Wave) (o : Op) : Nat :=
  if o.hmark then 4
  else match w.liveSplits.find? fun x => x.2.mask &&& o.issued != 0 with
    | some x => x.1
    | none => 0

/-- Write the words of a lane to the destination of its operation; a lane that has left is not written (R225). -/
def Wave.putLane (w : Wave) (o : Op) (d : Dst) (cc l : Nat) (xs : List W32) : Wave :=
  if !o.uni && hasLane w.exited l then w else w.putWords (w.entryOf o) d cc l xs

/-- A cause found in a lane: it is left out (R219). -/
def Op.leave (o : Op) (l : Nat) (c : Cause) (code : Nat) (addr : W64) : Op :=
  { o with todo := o.todo &&& ~~~laneBit l, probe := o.probe &&& ~~~laneBit l, found := o.found ++ [⟨c.num, code, l, addr⟩] }

/-- A lane of an operation answered with something other than success. -/
def State.laneFails (s : State) (u n l : Nat) (addr : W64) {α : Type} (x : MR α) : State :=
  s.updOp u n fun o =>
    match x with
    | .ok _ _ => o
    | .page r _ => { o with
        stuck := o.stuck ||| laneBit l
        probe := o.probe &&& ~~~laneBit l
        parked := true
        reason := if o.stuck &&& ~~~o.asked = 0 then r else o.reason }
    | .perm r => o.leave l .perm r addr
    | .data => o.leave l .dataerr 1 addr
    | .gated => o.leave l .qgated 0 addr

/-- The level reached goes into the record of a tagged word (R459). -/
def State.noteLevel (s : State) (u n level : Nat) : State :=
  s.updWave u fun w => { w with samples := w.samples.map fun x =>
    if x.1 == n then (x.1, x.2.set 0x1C (BitVec.ofNat 8 (max ((x.2.getD 0x1C 0).toNat) level))) else x }

/-- A lane has been performed: its registers, its events, its place in the operation. -/
def State.laneDone (s : State) (u n l : Nat) (d : Option (Dst × Nat)) (x : LaneOut) : State :=
  let s := s.updWave u fun w =>
    match w.op? n with
    | none => w
    | some o =>
      let w := match d with
        | some (d, cc) => w.putLane o d cc l x.regs
        | none => w
      w.updOp n fun o => { o with
        todo := if x.probe then o.todo else o.todo &&& ~~~laneBit l
        probe := if x.probe then o.probe ||| laneBit l else o.probe
        events := o.events ++ evAt (if o.uni then 32 else l) x.ev }
  if x.level = 0 then s else s.noteLevel u n x.level

/-- Causes of a completed operation, by cause and code, with the lowest lane's address (R219). -/
def State.pendFound (s : State) (u : Nat) (o : Op) : State :=
  let kinds := (o.found.map fun f => (f.cause, f.code)).eraseDups
  kinds.foldl (fun s k =>
    match o.found.filter fun f => (f.cause, f.code) == k with
    | [] => s
    | f :: fs =>
      let m := if o.uni then o.issued else maskOf ((f :: fs).map Found.lane)
      let c : Cause := if k.1 = 4 then .perm else if k.1 = 14 then .dataerr else if k.1 = 15 then .qgated else if k.1 = 5 then .arena else .page
      let info := le 8 f.addr.toNat ++ (if k.1 = 3 then le 4 (o.record.getD 0) else [])
      s.pend u c m o.hmark (some ⟨o.serial, o.pc, k.1, k.2, o.entry, o.ver, m, padTo 16 info⟩)) s

/-- An operation whose lanes are all done or left out completes: its flag falls, its events count, its causes become
pending (R184, R219, R225). -/
def State.finishOp (s : State) (u n : Nat) : State :=
  match (s.wave? u).bind fun w => (w.op? n).map fun o => (w, o) with
  | none => s
  | some (w, o) =>
    if o.todo ≠ 0 then s
    else
      let s := s.setWave u ({ w with ops := w.ops.filter fun p => p.serial != n }.dropFlag o.flag)
      let s := s.count ⟨u, o.issued, o.hmark, o.serial, o.pc, o.entry, o.ver⟩ o.events
      s.pendFound u o

/-- The access writes (R221). -/
def isWrite (i : Instr) : Bool :=
  match i with
  | .st .. | .stk .. | .stCv .. | .stFeFill .. | .stRel .. | .atom .. | .atomCas .. | .hmzero .. | .flushL1 .. | .flushHm .. => true
  | _ => false

/-- Lanes that met a failing walk: one record for the operation, and the wave parks (R220, R221). -/
def State.parkOp (s : State) (u n : Nat) : State :=
  match (s.wave? u).bind fun w => (w.op? n).map fun o => (w, o) with
  | none => s
  | some (w, o) =>
    if o.stuck &&& ~~~o.asked = 0 ∨ o.record.isSome then s
    else
      let m := if o.uni then o.issued else o.stuck
      let a := ((o.arg? (lowLane o.stuck)).elim 0 LaneArg.addr).toNat
      let s := s.setWave u ({ w with parked := true }.updOp n fun o => { o with record := some s.front.nextFault })
      s.postFault u (some n) 0 a w.asid (if isWrite o.ins then 1 else 0) (windowOf a) m o.pc w.core w.slot o.reason

/-- Lanes of `m`, of an operation, that its lane `x` comes after: lanes of a write or an atomic that touch its bytes (R225, R304); of a
pin, every lower lane (R258). -/
def Op.lower (o : Op) (m : Mask) (x : LaneArg) : Bool :=
  let n := (memForm o.ins).n
  let meets := fun (y : LaneArg) => decide (y.addr.toNat < x.addr.toNat + n) && decide (x.addr.toNat < y.addr.toNat + n)
  o.args.any fun y => decide (y.lane < x.lane) && hasLane m y.lane && match o.ins with
    | .pin .. | .unpin .. => true
    | i => (isWrite i || acquires i) && meets y

/-- A lower lane that comes first has not been performed; of a pin, one that is parked is not waited for. -/
def Op.lowerFirst (o : Op) (x : LaneArg) : Bool :=
  match o.ins with
  | .pin .. | .unpin .. => o.lower (o.todo &&& ~~~o.atRest) x
  | _ => o.lower o.todo x

/-- The lane waits behind an access that is parked: an earlier one to its line, or a lower lane of its own instruction (R211). -/
def Wave.parksBehind (w : Wave) (o : Op) (x : LaneArg) : Bool :=
  w.lineParked o (lineKey w.asid x.addr.toNat) || match o.ins with
    | .pin .. | .unpin .. => false
    | _ => o.lower (o.todo &&& o.atRest) x

/-- Perform lanes of an operation with the meaning `f` of one lane, in ascending lane order; lanes that must wait stay. -/
def State.performLanes (s : State) (u n : Nat) (lanes : Mask) (d : Op → Option (Dst × Nat))
    (f : State → Wave → Op → LaneArg → MR LaneOut) : State :=
  let s := (lanesOf lanes).foldl (fun s l =>
    match (s.wave? u).bind fun w => (w.op? n).bind fun o => (o.arg? l).map fun x => (w, o, x) with
    | none => s
    | some (w, o, x) =>
      if !hasLane (o.todo &&& ~~~o.atRest &&& ~~~o.probe) l then s
      else if w.parksBehind o x then s.updOp u n fun p => { p with behind := p.behind ||| laneBit l, parked := true }
      else if w.lineBusy o (lineKey w.asid x.addr.toNat) || o.lowerFirst x then s
      else
        let p := s.prepLane w o x
        if !p.2 then p.1
        else match f p.1 w o x with
          | .ok r t => t.laneDone u n l (d o) r
          | r => (r.after p.1).laneFails u n l x.addr r) s
  (s.parkOp u n).finishOp u n

end Sys2Proof.Machine
end

