-- ==== Sys2Proof/Machine/Memory.lean ====
section
/-!
DEFINITION. The memory class (R225-R231), and the steps by which its accesses come about: an access performed, a store's
permission probe, a write-back started and arrived, a fill, a walk, a full-empty granule found full, and FETIME.
-/

namespace Sys2Proof.Machine

/-! ## The words -/

/-- `ld` (R227). -/
def execLd (g : Guard) (w : Width) (fs : Bool) (d : Nat) (a b : Src) (cc : Nat) (s : State) : Out :=
  memWord .load fs g none (.ld g w fs d a b cc) s

/-- `ldk` (R227). -/
def execLdk (g : Guard) (w : Width) (fs : Bool) (d : Nat) (a b : Src) (s : State) : Out :=
  memWord .load fs g none (.ldk g w fs d a b) s

/-- `st` (R227). -/
def execSt (g : Guard) (w : Width) (fs : Bool) (a b c : Src) (s : State) : Out :=
  memWord .store fs g none (.st g w fs a b c) s

/-- `stk` (R227). -/
def execStk (g : Guard) (w : Width) (fs : Bool) (a b c : Src) (s : State) : Out :=
  memWord .store fs g none (.stk g w fs a b c) s

/-- `ld.cv` (R228). -/
def execLdCv (g : Guard) (x2 fs : Bool) (d : Nat) (a b : Src) (cc : Nat) (s : State) : Out :=
  memWord .load fs g none (.ldCv g x2 fs d a b cc) s

/-- `st.cv` (R228). -/
def execStCv (g : Guard) (m : Rnd) (fs : Bool) (a b c : Src) (s : State) : Out :=
  memWord .store fs g none (.stCv g m fs a b c) s

/-- `st.fe.fill`: a release at `.quad`, then the data and the bit (R230, R264). -/
def execStFeFill (g : Guard) (w : Width) (fs : Bool) (a b c : Src) (s : State) : Out :=
  memWord .store fs g (some .quad) (.stFeFill g w fs a b c) s

/-- `fe.set.full` and `fe.set.empty` (R230); only the first releases (R264). -/
def execFeSet (g : Guard) (full fs : Bool) (a b : Src) (s : State) : Out :=
  memWord .store fs g (if full then some .quad else none) (.feSet g full fs a b) s

/-- `fe.peek` (R230). -/
def execFePeek (g : Guard) (fs : Bool) (d : Nat) (a b : Src) (cc : Nat) (s : State) : Out :=
  memWord .load fs g none (.fePeek g fs d a b cc) s

/-- `pref` (R231): the lines come into the L1 or their home slices; whatever would fault is dropped. -/
def execPref (g : Guard) (hm : Bool) (a b : Src) (s : State) : Out :=
  onWave .load none g s fun s v =>
    let m := v.active g
    if m = 0 then s.goOn v
    else
      let f := memForm (.pref g hm a b)
      s.reads v m f.reads fun s =>
        let es := (lanesOf m).map fun l => s.laneAddr v f l
        let one := fun (s : State) (e : Nat × Option AddrBad) =>
          let key := lineKey v.w.asid e.1
          if e.2.isSome ∨ windowOf e.1 = 3 then s
          else if hm then
            if windowOf e.1 = 1 then s
            else match s.homeTag key .read with
              | .ok _ t => t
              | _ => s
          else if (s.l1 v.w.core key).isSome ∨ s.mem.wbOut v.w.core key then s
          else match s.fillL1 v.w.core key with
            | .ok _ t => t
            | _ => s
        (es.foldl one s).goOn v

/-- The split stops at its word with a hold that ends by moving on (R229, R310). -/
def State.holdOn (s : State) (v : Env) (b : Block) : State :=
  s.updSplit v.u v.e fun x => { x with block := b, next := v.ctx.next, nextHdr := v.ctx.hdr, released := false, feLeft := none }

/-- A held split goes on after its word. Where a handler runs, the PC that it finds is not one that it has moved (R446). -/
def State.goHeld (s : State) (u e : Nat) : State :=
  match (s.wave? u).bind fun w => w.split? e with
  | none => s
  | some x =>
    let s := if e = 4 then s else s.updWave u fun w => { w with t := { w.t with entryPcs := w.t.entryPcs.set e (some x.next) } }
    if x.nextHdr then s.moveTo u e x.next .none
    else s.updSplit u e fun y => { y with pc := x.next, arrived := false, block := .none, released := false, feLeft := none }

/-- `ld.fe` (R229): the split is held until every lane has found its granule full. A reissue after a trap or a save takes
the lanes still pending, and reads its registers as a replay does (R223). An acquire of its split that is to come refuses it (R305). -/
def execLdFe (g : Guard) (w : Width) (take : Bool) (d : Nat) (a b : Src) (cc : Nat) (s : State) : Out :=
  onWave .load none g s fun t0 v =>
    let i := Instr.ldFe g w take d a b cc
    let m := match v.sp.feLeft with
      | some left => v.active g &&& left
      | none => v.active g
    if m = 0 then t0.goOn v
    else if v.w.acquireOut v.sp.mask then s.holdAt v.u v.e .unit
    else
      let f := memForm i
      let hold := fun (t : State) (es : List (Nat × Nat × Option AddrBad)) =>
        if s.barcHolds v es then s.holdAt v.u v.e .barc
        else
          let o := { v.op i false m false (es.map fun x => s.laneArg v f x.1 x.2.1) with flag := none }
          t.holdOn v (.fe o (t.ctxclk v.w.gang))
      if v.sp.feLeft.isSome then
        let es := t0.laneAddrs v f m
        if (badLanes es).isEmpty then hold t0 es else t0.addrTraps v 0 (badLanes es)
      else t0.checked v f m hold

/-- A pending lane of a blocked `ld.fe` finds its granule full, no lower lane of it waiting for the same granule and no earlier access of
its split to the line outstanding (R211): it reads, empties for `take`, writes its registers, and acquires (R229, R264). -/
def execLdFeGrant (u e lane : Nat) (s : State) : Out :=
  match (s.wave? u).bind fun w => (w.split? e).map fun x => (w, x) with
  | none => .next s
  | some (w, x) =>
    match x.block with
    | .fe o since =>
      match o.ins, o.arg? lane with
      | .ldFe _ wd take d _ _ cc, some y =>
        let a := y.addr.toNat
        match s.spadAt w a with
        | none => .next s
        | some (t, off) =>
          let lower := (lanesOf o.todo).any fun l => decide (l < lane) && (o.arg? l).elim false fun z =>
            z.addr.toNat / 16 == a / 16 && (s.feBit t off)
          if !hasLane o.todo lane ∨ !s.feBit t off ∨ lower ∨ w.lineBusy o (lineKey w.asid a) then .next s
          else match s.spadRead t off (accessBytes wd) with
            | .ok bs s =>
              let s := if take then s.setFe t off false else s
              let s := s.updWave u fun w => if hasLane w.exited lane then w else w.putWords e (.v d) cc lane (loadWords wd bs)
              let s := s.acquire w.core .quad
              let left := o.todo &&& ~~~laneBit lane
              if left = 0 then .next (s.goHeld u e)
              else .next (s.updSplit u e fun z => { z with block := .fe { o with todo := left } since })
            | _ =>
              let d : TDetail := ⟨o.serial, o.pc, Cause.dataerr.num, 1, o.entry, o.ver, laneBit lane, padTo 16 (le 8 a)⟩
              let left := o.todo &&& ~~~laneBit lane
              let s := if left = 0 then s.goHeld u e else s.updSplit u e fun z => { z with block := .fe { o with todo := left } since }
              .next (s.pend u .dataerr (laneBit lane) o.hmark (some d))
      | _, _ => .next s
    | _ => .next s

/-- A blocked `ld.fe` has been held CLOCKS clocks of CTXCLK: FETIME for its pending lanes (R207, R229). -/
def execFetimeExpiry (u e : Nat) (s : State) : Out :=
  match (s.wave? u).bind fun w => (w.split? e).map fun x => (w, x) with
  | none => .next s
  | some (w, x) =>
    match x.block with
    | .fe o since =>
      let n := (s.bank w).fetimeout.toNat
      if n = 0 ∨ s.ctxclk w.gang < since + n then .next s
      else
        let d : TDetail := ⟨o.serial, o.pc, Cause.fetime.num, 0, o.entry, o.ver, o.todo, padTo 16 []⟩
        .next ((s.updSplit u e fun y => { y with block := .none, feLeft := some o.todo }).pend u .fetime o.todo o.hmark (some d))
    | _ => .next s

/-! ## Performing -/

/-- The destination and consumer count of an instruction that writes registers at completion. -/
def lateDst (o : Op) : Option (Dst × Nat) :=
  match o.ins with
  | .ld _ _ _ d _ _ cc => some (.v d, cc)
  | .ldk _ _ _ d _ _ => some (.k d, 0)
  | .ldCv _ _ _ d _ _ cc => some (.v d, cc)
  | .fePeek _ _ d _ _ cc => some (.v d, cc)
  | .pin _ _ d _ cc => some (d, cc)
  | .unpin _ _ d _ cc => some (d, cc)
  | .atom _ _ _ _ _ _ d _ _ cc => some (d, cc)
  | .atomCas _ _ _ _ _ d _ _ _ cc => some (d, cc)
  | .ldAcq _ _ _ _ d _ _ cc => some (d, cc)
  | .accrd _ _ _ d _ _ cc => some (.v d, cc)
  | _ => none

/-- One lane of `ld.cv` (R228). It leaves no copy of the line in the L1, so that a later load does not read an older value than it did
(R273). -/
def State.laneLdCv (s : State) (w : Wave) (x2 : Bool) (x : LaneArg) : MR LaneOut :=
  let key := lineKey w.asid x.addr.toNat
  let lv := s.levelOf w.core key
  (s.backRead key).bind fun d s =>
    let p := s.port key
    let i := (x.data.headD 0).toNat
    if x2 then
      let lo := p.readBf16 d i
      let hi := p.readBf16 d (i + 1)
      .ok { regs := [BitVec.ofNat 32 (hi.1 * 65536 + lo.1)], ev := (lo.2 ++ hi.2).eraseDups, level := lv } (s.dropL1 w.core key)
    else
      let r := p.readF32 d i
      .ok { regs := [BitVec.ofNat 32 r.1], ev := r.2, level := lv } (s.dropL1 w.core key)

/-- The bytes of a line that is about to be written in part, at its home or vault controller. -/
def State.lineNow (s : State) (key : Nat) : MR LineData :=
  if windowOf (keyAddr key) = 1 then .ok (lineOf (Memory.read s.mem.vault (vaultCell (keyAddr key) / 128 * 128) 128)) s
  else (s.homeTag key .write).bind fun t s => .ok (s.mem.content key t) s

/-- One lane of `st.cv` (R228). -/
def State.laneStCv (s : State) (w : Wave) (m : Rnd) (x : LaneArg) : MR LaneOut :=
  let key := lineKey w.asid x.addr.toNat
  let lv := s.levelOf w.core key
  (s.permAt key .write).bind fun f s =>
    if f = 2 then .perm 3
    else
      let p := s.port key
      let i := (x.data.headD 0).toNat
      if elemsPerLine p.fmt ≤ i then .ok { ev := [.inv], level := lv } (s.dropL1 w.core key)
      else
        let r := encodeElem p.fmt p.cb p.sat m (x.data.getD 1 0).toNat
        let b := elemBits p.fmt
        (s.lineNow key).bind fun old s =>
          (s.backWrite key (elemPut p.fmt old i r.1) (spanMask (b * i / 8) (max 1 (b / 8))) .keep).bind fun _ s =>
            .ok { ev := r.2, level := lv } (s.dropL1 w.core key)

/-- The result of an atomic's operation (R304), on n bits. -/
def atomResult (op : AtomOp) (n old b : Nat) : Nat × Events :=
  let sg := fun (x : Nat) => if x < 2 ^ (n - 1) then (x : Int) else (x : Int) - 2 ^ n
  match op with
  | .add => ((old + b) % 2 ^ n, [])
  | .min => (if sg b < sg old then b else old, [])
  | .max => (if sg old < sg b then b else old, [])
  | .minu => (if b < old then b else old, [])
  | .maxu => (if old < b then b else old, [])
  | .and => (old &&& b, [])
  | .or => (old ||| b, [])
  | .xor => (old ^^^ b, [])
  | .exch => (b, [])
  | .incwrap => (if b ≤ old then 0 else old + 1, [])
  | .fadd => let r := ffF32.add .rn old b; (r.1, r.2)

/-- A permission that an atomic needs at its leaf or grant; `r` is the reason of R303 where a grant is missing. -/
def State.atomNeed (s : State) (key : Nat) (n : Need) (r : Nat) : MR Nat :=
  match s.permAt key n with
  | .perm 4 => .perm r
  | x => x

/-- An atomic needs R and W, and no cb4x line (R303). -/
def State.atomOk (s : State) (key : Nat) : MR Unit :=
  (s.atomNeed key .read 1).bind fun _ s => (s.atomNeed key .write 0).bind fun f s => if f = 2 then .perm 3 else .ok () s

/-- An atomic gives an unbacked arena page its frame (R218, R303). -/
def State.backLine (s : State) (key : Nat) : MR Unit :=
  if windowOf (keyAddr key) = 2 then
    (s.homeTag key .write).bind fun t s => (s.backed key t).bind fun t s => .ok () (s.setTag key t)
  else .ok () s

/-- Read and write n bytes as one step: at the bank, in the L1 with R and W, or at the home or vault controller (R303). `f`
gives the new value, none where nothing is written, with its events. -/
def State.rmw (s : State) (w : Wave) (sc : Scope) (a n : Nat) (f : Nat → Option Nat × Events) : MR (Nat × Events × Nat) :=
  let key := lineKey w.asid a
  if windowOf a = 3 then
    match s.spadAt w a with
    | none => .data
    | some (t, off) =>
      (s.spadRead t off n).bind fun bs s =>
        let old := natOfBytes bs
        let r := f old
        let s := match r.1 with
          | some x => s.spadWrite t off (le n x)
          | none => s
        .ok (old, r.2, spadLevel w.core a) s
  else if scopeWide sc then
    let lv := s.levelOf w.core key
    (s.atomOk key).bind fun _ s => (s.backRead key).bind fun d s => (s.backLine key).bind fun _ s =>
      let old := natOfBytes ((List.range n).map fun i => lineByte d (a % 128 + i))
      let r := f old
      match r.1 with
      | some x => (s.writeHomeBytes w a (le n x) .keep).bind fun _ s => .ok (old, r.2, lv) s
      | none => .ok (old, r.2, lv) (s.dropL1 w.core key)
  else
    (s.atomOk key).bind fun _ s => (s.backLine key).bind fun _ s => (s.loadBytes w a n).bind fun r s =>
      let old := natOfBytes r.1
      let y := f old
      let s := match s.l1 w.core key with
        | some x => s.setL1 w.core key { x with w := true }
        | none => s
      match y.1 with
      | some x => .ok (old, y.2, r.2) (s.storeL1 w.core w.asid a (le n x)).2
      | none => .ok (old, y.2, r.2) s

/-- Words of a 32- or 64-bit value. -/
def valueWords (w64 : Bool) (x : Nat) : List W32 :=
  if w64 then [BitVec.ofNat 32 x, BitVec.ofNat 32 (x / 2 ^ 32)] else [BitVec.ofNat 32 x]

/-- A number from a lane's data words. -/
def wordsNat (xs : List W32) : Nat := xs.foldr (fun x n => x.toNat + 2 ^ 32 * n) 0

/-- An acquire by a lane at ORD (R304). -/
def MR.acquire {α : Type} (x : MR α) (w : Wave) (o : MemOrd) (sc : Scope) : MR α :=
  x.bind fun r s => .ok r (if o == .acq || o == .acqrel then s.acquire w.core sc else s)

/-- Pinned tags of a set, and pinned entries of a slice (R257). -/
def Mem.pinnedWays (m : Mem) (key : Nat) : Nat :=
  let a := keyAddr key
  (m.tags.filter fun t => t.2.pin && homeSlice (keyAddr t.1) == homeSlice a && homeSet (keyAddr t.1) == homeSet a).length
/-- The entries of a slice that some pinned tag points at. -/
def Mem.pinnedEntries (m : Mem) (slice : Nat) : List Nat :=
  ((m.tags.filter fun t => t.2.pin && !t.2.zero && homeSlice (keyAddr t.1) == slice).map fun t => t.2.index).eraseDups

/-- The tag that `pin` finds at the line's home: one that is present, whatever its permissions, or a fill as of a load (R258). -/
def State.pinTag (s : State) (key : Nat) : MR Tag :=
  match smFind s.mem.tags key with
  | some t => .ok t s
  | none => s.homeTag key .read

/-- One lane of `pin` (R258): the status. -/
def State.lanePin (s : State) (w : Wave) (a : Nat) : MR LaneOut :=
  let key := lineKey w.asid a
  if windowOf a ≠ 0 ∧ windowOf a ≠ 2 then .ok { regs := [5] } s
  else (s.pinTag key).bind fun t s =>
    let d := s.asid w.asid
    let slice := homeSlice (keyAddr key)
    let es := s.mem.pinnedEntries slice
    if t.pin then .ok { regs := [1] } s
    else if 12 ≤ s.mem.pinnedWays key then .ok { regs := [2] } s
    else if !t.zero && !es.contains t.index && decide (24576 ≤ es.length) then .ok { regs := [3] } s
    else if d.pinq ≤ d.pins then .ok { regs := [4] } s
    else .ok { regs := [0] } ((s.setTag key { t with pin := true }).updAsid w.asid fun d => { d with pins := d.pins + 1 })

/-- One lane of `unpin` (R258). -/
def State.laneUnpin (s : State) (w : Wave) (a : Nat) : LaneOut × State :=
  let key := lineKey w.asid a
  if windowOf a ≠ 0 ∧ windowOf a ≠ 2 then ({ regs := [5] }, s)
  else match smFind s.mem.tags key with
    | some t =>
      if t.pin then
        ({ regs := [0] }, (s.setTag key { t with pin := false }).updAsid w.asid fun d => { d with pins := d.pins - 1 })
      else ({ regs := [1] }, s)
    | none => ({ regs := [1] }, s)

/-- The home half of `flush.hm`: a dirty tag's content goes to memory, the tag stays, clean (R259). -/
def State.flushTag (s : State) (key : Nat) : State :=
  match smFind s.mem.tags key with
  | some t => if t.dirty then (s.writeFrame key t).setTag key { t with dirty := false } else s
  | none => s

/-- One line of `hmzero` at its home (R260): the tag, a new one where there was none, takes the zero entry, dirty. A tag that leaves an
entry which others share counts an un-sharing (R246). -/
def State.zeroLine (s : State) (key : Nat) : MR Unit :=
  (s.tagForAll key).bind fun x s =>
    let t := x.1
    let fmt := if t.frame.isNone then 0 else s.mem.tagFmt key t
    let shared := !x.2 && decide (1 < s.mem.countOf key t)
    let s := s.updMem fun m => let m := m.unref key t; if shared then m.addUnshare (keyAsid key) else m
    .ok () (s.setTag key { t with zero := true, zfmt := fmt, index := 0, dirty := true })

/-- What `hmzero` has done of its lines: how many it has passed; the lowest that was refused, with why; whether it stops, for a failing
walk with its reason or to wait; and the state. -/
structure ZeroRun where
  done : Nat
  bad : Option (Nat × MR Unit)
  stop : Option (Option Nat)
  s : State

/-- The lines of `hmzero` from `a` on, in order (R260): each is dropped from the issuing L1 and zeroed at its home. It waits at a line
that an earlier access of the split has still to reach (R211), or that the core's own write-back is on its way to. -/
def State.zeroLines (s : State) (w : Wave) (o : Op) : Nat → Nat → Nat → Option (Nat × MR Unit) → ZeroRun
  | _, 0, k, bad => ⟨k, bad, none, s⟩
  | a, n + 1, k, bad =>
    let key := lineKey w.asid a
    if w.lineBusy o key || s.mem.wbOut w.core key then ⟨k, bad, some none, s⟩
    else match (s.dropL1 w.core key).zeroLine key with
      | .ok _ t => t.zeroLines w o (a + 128) n (k + 1) bad
      | .page r _ => ⟨k, bad, some (some r), s⟩
      | x => (s.dropL1 w.core key).zeroLines w o (a + 128) n (k + 1) (some (bad.getD (a, x)))

/-- `hmzero` goes on: the lines in order; a failing walk, or a wait, keeps the rest. -/
def State.performZero (s : State) (u n : Nat) : State :=
  match (s.wave? u).bind fun w => (w.op? n).bind fun o => (o.arg? 0).map fun x => (w, o, x) with
  | none => s
  | some (w, o, x) =>
    if !hasLane (o.todo &&& ~~~o.atRest) 0 then s
    else if w.lineParked o (lineKey w.asid x.addr.toNat) then s.updOp u n fun p => { p with behind := laneBit 0, parked := true }
    else
      let r := s.zeroLines w o x.addr.toNat (x.data.headD 0).toNat 0 none
      let s := match r.bad with
        | some (a, e) => (r.s.laneFails u n 0 (BitVec.ofNat 64 a) e).updOp u n fun p => { p with todo := o.todo }
        | none => r.s
      let y : LaneArg := ⟨0, x.addr + BitVec.ofNat 64 (128 * r.done), [BitVec.ofNat 32 ((x.data.headD 0).toNat - r.done)]⟩
      match r.stop with
      | none => (s.updOp u n fun p => { p with todo := 0 }).finishOp u n
      | some none => s.updOp u n fun p => { p with args := [y] }
      | some (some reason) =>
        ((s.updOp u n fun p => { p with args := [y] }).laneFails u n 0 y.addr (.page reason s : MR Unit)).parkOp u n

/-- The meaning of one lane of an outstanding access. -/
def State.lane (s : State) (w : Wave) (o : Op) (x : LaneArg) : MR LaneOut :=
  let a := x.addr.toNat
  let key := lineKey w.asid a
  match o.ins with
  | .ld _ wd .. | .ldk _ wd .. =>
    (s.loadBytes w a (accessBytes wd)).bind fun r s => .ok { regs := loadWords wd r.1, level := r.2 } s
  | .st _ wd .. | .stk _ wd .. => s.storeBytesAt w a (storeBytes wd x.data)
  | .ldCv _ x2 .. => s.laneLdCv w x2 x
  | .stCv _ m .. => s.laneStCv w m x
  | .stFeFill _ wd .. =>
    match s.spadAt w a with
    | none => .data
    | some (t, off) => .ok { level := spadLevel w.core a } ((s.spadWrite t off (storeBytes wd x.data)).setFe t off true)
  | .feSet _ full .. =>
    match s.spadAt w a with
    | none => .data
    | some (t, off) => .ok { level := spadLevel w.core a } (s.setFe t off full)
  | .fePeek .. =>
    match s.spadAt w a with
    | none => .data
    | some (t, off) => .ok { regs := [if s.feBit t off then 1 else 0], level := spadLevel w.core a } s
  | .atom _ od sc op w64 .. =>
    let n := if w64 then 8 else 4
    ((s.rmw w sc a n fun old => let r := atomResult op (8 * n) old (wordsNat x.data); (some r.1, r.2)).acquire w od sc).bind fun r s =>
      .ok { regs := valueWords w64 r.1, ev := r.2.1, level := r.2.2 } s
  | .atomCas _ od sc w64 .. =>
    let n := if w64 then 8 else 4
    let k := if w64 then 2 else 1
    let cmp := wordsNat (x.data.take k)
    let new := wordsNat (x.data.drop k)
    ((s.rmw w sc a n fun old => (if old = cmp then some new else none, [])).acquire w od sc).bind fun r s =>
      .ok { regs := valueWords w64 r.1, level := r.2.2 } s
  | .ldAcq _ sc wd .. =>
    let n := accessBytes wd
    (if scopeWide sc then s.readHomeBytes w a n else s.loadBytes w a n).bind fun r s =>
      .ok { regs := loadWords wd r.1, level := r.2 } (s.acquire w.core sc)
  | .stRel _ sc wd .. =>
    let bs := storeBytes wd x.data
    if scopeWide sc ∧ windowOf a ≠ 3 then
      let lv := s.levelOf w.core key
      (s.permAt key .write).bind fun f s => if f = 2 then .perm 3
        else (s.writeHomeBytes w a bs .place).bind fun _ s => .ok { level := lv } s
    else s.storeBytesAt w a bs
  | .pin .. => s.lanePin w a
  | .unpin .. => let r := s.laneUnpin w a; .ok r.1 r.2
  | .flushL1 .. => .ok {} s
  | .flushHm .. => .ok {} (if windowOf a = 0 ∨ windowOf a = 2 then s.flushTag key else s)
  | .invalL1 .. => .ok {} (if windowOf a = 3 then s else s.dropL1 w.core key)
  | .invalHm .. =>
    if windowOf a = 3 then .ok {} s
    else if windowOf a = 1 then .ok {} (s.dropL1 w.core key)
    else (s.permOf key .write).bind fun _ s => .ok {} ((s.dropL1 w.core key).dropTag key)
  | _ => .ok {} s

/-- A flush waits until its line's dirty bytes have been acknowledged (R259): the write-back starts first. -/
def State.prepFlush (s : State) (w : Wave) (o : Op) : State × Mask :=
  match o.ins with
  | .flushL1 .. | .flushHm .. =>
    let keys := o.args.map fun x => (x.lane, lineKey w.asid x.addr.toNat, windowOf x.addr.toNat)
    let s' := keys.foldl (fun s k => if k.2.2 = 3 then s else s.startWb w.core k.2.1) s
    (s', maskOf ((keys.filter fun k => k.2.2 != 3 && s'.mem.wbOut w.core k.2.1).map Prod.fst))
  | _ => (s, 0)

/-- The permission probe of stores in lines without W (R210): confirmed, a failing walk, or denied, which discards the
bytes. -/
def execStorePermProbe (u n : Nat) (lanes : Mask) (s : State) : Out :=
  let s := (lanesOf lanes).foldl (fun s l =>
    match (s.wave? u).bind fun w => (w.op? n).bind fun o => (o.arg? l).map fun x => (w, o, x) with
    | none => s
    | some (w, o, x) =>
      if !hasLane o.probe l then s
      else
        let a := x.addr.toNat
        let key := lineKey w.asid a
        match s.probeW key with
        | .ok _ t =>
          let t := match t.l1 w.core key with
            | some y => t.setL1 w.core key { y with w := true }
            | none => t
          t.updOp u n fun p => { p with probe := p.probe &&& ~~~laneBit l, todo := p.todo &&& ~~~laneBit l }
        | .page r _ => s.laneFails u n l x.addr (.page r s : MR Unit)
        | r => (s.discardL1 w.core w.asid a (memForm o.ins).n).laneFails u n l x.addr r) s
  .next ((s.parkOp u n).finishOp u n)

/-- The L1 evicts a line: its dirty bytes start on their way, and the line goes (R209, R210). -/
def execL1Writeback (core asid addr : Nat) (s : State) : Out :=
  let key := lineKey asid addr
  .next ((s.startWb core key).dropL1 core key)

/-- A write-back reaches its home or vault controller (R210, R246). -/
def execHmWriteArrive (id : Nat) (s : State) : Out :=
  match s.mem.wbs.find? fun w => w.id == id with
  | some w => if w.held then .next s else .next (s.wbArrive id)
  | none => .next s

/-- A held write-back is performed once the pool holds a frame (R218). -/
def execHeldWritebackPerform (id : Nat) (s : State) : Out :=
  match s.mem.wbs.find? fun w => w.id == id with
  | some w => if w.held then .next (s.wbArrive id) else .next s
  | none => .next s

/-- A line comes into its home slice (R243), for whatever reason it was asked for; a fill that fails leaves nothing. -/
def execHmFill (asid addr : Nat) (s : State) : Out :=
  let key := lineKey asid addr
  if (windowOf addr ≠ 0 ∧ windowOf addr ≠ 2) ∨ (smFind s.mem.tags key).isSome then .next s
  else match s.fillHome key with
    | .ok _ t => .next t
    | _ => .next s

/-- A walk of the home die's walker, whose leaf its TLB keeps (R212). -/
def execPageWalk (asid addr : Nat) (s : State) : Out :=
  if windowOf addr ≠ 0 ∧ windowOf addr ≠ 2 then .next s else .next (s.translate asid addr).2

end Sys2Proof.Machine
end

