-- ==== Sys2Proof/Machine/Sync.lean ====
section
/-!
DEFINITION. The synchronisation class: atomics, `ld.acq`, `st.rel` and `fence` (R300-R308), barriers (R309-R314), mailboxes
(R315-R318) and the tickets of work queues (R319-R321).
-/

namespace Sys2Proof.Machine

/-! ## Atomics and fences -/

/-- The release of an ORD (R304). -/
def relScope (o : MemOrd) (sc : Scope) : Option Scope := if o == .rel || o == .acqrel then some sc else none

/-- `atom` (R304). -/
def execAtom (g : Guard) (o : MemOrd) (sc : Scope) (op : AtomOp) (w64 fs : Bool) (d : Dst) (a b : Src) (cc : Nat) (s : State) : Out :=
  memWord .vecOnly fs g (relScope o sc) (.atom g o sc op w64 fs d a b cc) s

/-- `atom.cas` (R304). -/
def execAtomCas (g : Guard) (o : MemOrd) (sc : Scope) (w64 fs : Bool) (d : Dst) (a b c : Src) (cc : Nat) (s : State) : Out :=
  memWord .vecOnly fs g (relScope o sc) (.atomCas g o sc w64 fs d a b c cc) s

/-- `ld.acq` (R306). -/
def execLdAcq (g : Guard) (sc : Scope) (w : Width) (fs : Bool) (d : Dst) (a b : Src) (cc : Nat) (s : State) : Out :=
  memWord .load fs g none (.ldAcq g sc w fs d a b cc) s

/-- `st.rel` (R307). -/
def execStRel (g : Guard) (sc : Scope) (w : Width) (fs : Bool) (a b c : Src) (s : State) : Out :=
  memWord .store fs g (some sc) (.stRel g sc w fs a b c) s

/-- `fence` (R308): one release and one acquire. -/
def execFence (g : Guard) (sc : Scope) (s : State) : Out :=
  onWave .any none g s fun t v =>
    if v.active g = 0 then t.goOn v
    else withRelease s t v sc true fun t => (t.acquire v.w.core sc).goOn v

/-! ## Barriers (R309-R312) -/

/-- The scope of a barrier (R309). -/
def barScope (l : BarLevel) : Scope :=
  match l with
  | .wave => .wave
  | .team => .core
  | .gang => .quad
  | .quad => .quad
  | .die => .die
  | .pkg => .pkg
  | .pod => .pod

/-- A split is held at a barrier of a level. -/
def Split.heldAt (x : Split) (l : BarLevel) : Bool :=
  match x.block with
  | .barrier k _ _ => k == l
  | _ => false

/-- The splits that stand arrived at a level: one whose PC a running handler has moved has its arrival withdrawn (R310, R446). -/
def Wave.heldSplits (w : Wave) (l : BarLevel) : List (Nat × Split) :=
  w.liveSplits.filter fun x => x.2.heldAt l && !(w.t.handler.isSome && w.pcMoved x.1 x.2)

/-- The wave has arrived: every lane that has not exited belongs to a split held at the level (R310). -/
def Wave.arrivedAt (w : Wave) (l : BarLevel) : Bool :=
  w.present != 0 && ((w.heldSplits l).foldl (fun m x => m ||| x.2.mask) 0) == w.present

/-- A gang takes part in instances (R312): placed, or saved at the levels that a save does not leave. -/
def Gang.takesPart (g : Gang) (l : BarLevel) : Bool :=
  g.state == .placed || g.state == .saving || ((g.state == .saved || g.state == .resuming) && l != .quad && l != .die)

/-- The pod group of a kernel, by address space and number; none for a kernel without one (R377). -/
def State.podGroup (s : State) (kernel : Nat) : Option Nat :=
  (s.kernel? kernel).bind fun k => if k.podgrp = 0 then none else some (65536 * k.asid + k.podgrp)

/-- The kernels of `bar.pod` instances of a kernel: its group's members when the open instance had its first arrival, or now where none
is open; itself where it has no group (R309, R377). -/
def State.podSet (s : State) (kernel : Nat) : List Nat :=
  match s.podGroup kernel with
  | none => [kernel]
  | some g => (smFind s.graph.pods g).getD ((s.graph.kernels.filter fun k => s.podGroup k.1 == some g).map Prod.fst)

/-- The gang is a participant of the instance that a key names: a team, a gang, the kernel's gangs on a quad or die (key:
kernel and number), a kernel, a pod group through one of its kernels (R309). -/
def State.gangIn (s : State) (l : BarLevel) (key gk : Nat) (g : Gang) : Bool :=
  g.takesPart l && match l with
  | .wave => false
  | .team => gk == key / 4
  | .gang => gk == key
  | .quad => g.kernel == key / 128 && g.cores.any fun c => quadOf c == key % 128
  | .die => g.kernel == key / 4 && g.cores.any fun c => dieOf c == key % 4
  | .pkg => g.kernel == key
  | .pod => (s.podSet key).contains g.kernel

/-- The participating waves of an instance: launch waves with lanes (R97, R309). -/
def State.barWaves (s : State) (l : BarLevel) (key : Nat) : List (Nat × Wave) :=
  s.waves.filter fun w => w.2.res.isNone && w.2.present != 0 && (l != .team || w.2.team == key % 4) &&
    (s.gang? w.2.gang).elim false fun g => s.gangIn l key w.2.gang g

/-- The instance's key for a wave. -/
def Wave.barKey (w : Wave) (u : Nat) (l : BarLevel) : Nat :=
  match l with
  | .wave => u
  | .team => w.teamKey
  | .gang => w.gang
  | .quad => w.kernel * 128 + quadOf w.core
  | .die => w.kernel * 4 + dieOf w.core
  | .pkg | .pod => w.kernel

/-- The held splits of a level depart with their acquire (R310). -/
def State.depart (s : State) (u : Nat) (l : BarLevel) : State :=
  match s.wave? u with
  | none => s
  | some w =>
    (w.heldSplits l).foldl (fun s x => s.goHeld u x.1)
      (if w.place.isSome then s.acquire w.core (barScope l) else s)

/-- Two held splits of one `bar.wave` word merge (R94, R311). -/
def Split.barMates (x y : Split) : Bool :=
  x.heldAt .wave && y.heldAt .wave && x.pc == y.pc && x.ver == y.ver && x.lr == y.lr && x.tlr == y.tlr && !x.stop && !y.stop

/-- Merge an entry held at `bar.wave` with every other that may (R311). -/
def Wave.barMerge (w : Wave) (e : Nat) : Wave :=
  ((List.range 4).foldl (fun (p : Wave × Nat) q =>
    match p.1.split? p.2, p.1.split? q with
    | some x, some y =>
      if q != p.2 && x.barMates y then
        let m : Split := { x with mask := x.mask ||| y.mask, w := max x.w y.w, traced := none }
        ((p.1.setSplit (max p.2 q) none).setSplit (min p.2 q) (some m), min p.2 q)
      else p
    | _, _ => p) (w, e)).1

/-- Every entry is in use and held at `bar.wave`, and the overflow stack is not empty: the highest entry's word raises
SPLITOVF (R92, R311). -/
def State.barOverflow (s : State) (u : Nat) : State :=
  match s.wave? u with
  | none => s
  | some w =>
    if w.ovf.isEmpty || !(w.liveSplits.length == 4 && w.liveSplits.all fun x => x.2.heldAt .wave) then s
    else match w.split? 3 with
      | none => s
      | some x =>
        let n := match x.block with
          | .barrier _ n _ => n
          | _ => w.serial
        (s.updSplit u 3 fun y => { y with block := .none }).pend u .splitovf x.mask false
          (some ⟨n, x.pc, Cause.splitovf.num, 0, 3, x.ver, x.mask, padTo 16 []⟩)

/-- A barrier word, with the request of `barc` and the register it reads: a handler split, and a task wave above the wave, only release and acquire
(R312). -/
def barWord (l : BarLevel) (xs : List (Src × Nat)) (req : State → Env → Option (Nat × W32)) (s : State) : Out :=
  onWave .any none .always s fun t v =>
    withRelease s t v (barScope l) true fun t => t.reads v v.sp.mask xs fun t =>
      if v.isHandler || (v.w.res.isSome && l != .wave) then (t.acquire v.w.core (barScope l)).goOn v
      else
        let t := t.holdOn v (.barrier l v.serial (req t v))
        if l == .wave then (t.updWave v.u fun w => w.barMerge v.e).barOverflow v.u else t

/-- `bar` (R310, R311). -/
def execBar (l : BarLevel) (s : State) : Out := barWord l [] (fun _ _ => none) s

/-- `barc` (R313). -/
def execBarc (pd : Nat) (a : Src) (s : State) : Out := barWord .team [(a, 1)] (fun t v => some (pd, t.rd v 0 a)) s

/-- The request of a wave that arrived by `barc`: predicate and value. -/
def Wave.barReq (w : Wave) : Option (Nat × W32) :=
  (w.heldSplits .team).findSome? fun x => match x.2.block with
    | .barrier _ _ r => r
    | _ => none

/-- Every participant has arrived. -/
def State.barReady (s : State) (l : BarLevel) (key : Nat) : Bool :=
  match l with
  | .wave => (s.wave? key).elim false fun w => w.arrivedAt .wave && w.ovf.isEmpty
  | _ => !(s.barWaves l key).isEmpty && (s.barWaves l key).all fun w => w.2.arrivedAt l

/-- The open `bar.pod` instance of a kernel's group as its arrivals have it: the first fixes the kernels that take part (R377). -/
def State.podInst (s : State) (key : Nat) : State :=
  match s.podGroup key with
  | none => s
  | some g =>
    if (s.barWaves .pod key).any fun w => w.2.arrivedAt .pod then s.updGraph fun r => { r with pods := smPut g (s.podSet key) r.pods }
    else s.updGraph fun r => { r with pods := smDel g r.pods }

/-- The instance of a kernel's group is over. -/
def State.podDone (s : State) (key : Nat) : State :=
  match s.podGroup key with
  | none => s
  | some g => s.updGraph fun r => { r with pods := smDel g r.pods }

/-- An instance completes and every held split departs (R310, R311). A `barc` instance completes by `barcResize`. -/
def execBarInstanceComplete (l : BarLevel) (key : Nat) (s : State) : Out :=
  if !s.barReady l key then .next (if l = .pod then s.podInst key else s)
  else match l with
    | .wave => .next (s.depart key .wave)
    | _ =>
      let ws := s.barWaves l key
      if l == .team && ws.any fun w => w.2.barReq.isSome then .next s
      else
        let t := ws.foldl (fun s w => s.depart w.1 l) s
        .next (if l = .pod then t.podDone key else t)

/-! ## Carve-outs (R14, R313, R314) -/

/-- Granules of a team's carve-out. -/
def Team.granules (t : Team) : Nat := t.regG + t.spadG + t.l1G

/-- Granules of a core that no placed team holds or claims: those of a saved context count as free, and are spilled on claim (R14,
R314, R450). -/
def State.freeGranules (s : State) (core : Nat) : Nat :=
  124 - ((s.graph.teams.filter fun t => t.2.core == some core).map fun t => t.2.granules + t.2.claim).foldl (· + ·) 0

/-- Saved contexts that still hold granules, slots or a bank of a core. -/
def State.heldTeams (s : State) (core : Nat) : List (Nat × Team) :=
  s.graph.teams.filter fun t => t.2.heldOn == some core && t.2.core != some core

/-- Granules that saved contexts still hold on a core. -/
def State.heldGranules (s : State) (core : Nat) : Nat := ((s.heldTeams core).map fun t => t.2.heldG.length).foldl (· + ·) 0

/-- What placed teams hold and claim of a core reaches into granules of saved contexts, which are to be spilled (R14, R450). -/
def State.overdrawn (s : State) (core : Nat) : Bool := decide (s.freeGranules core < s.heldGranules core)

/-- An accepted access, engine access or remote access to the team's scratchpad or L1 granules is outstanding; a blocked `ld.fe` is one
(R314). -/
def State.teamBusy (s : State) (key : Nat) : Bool :=
  let spad := fun (w : Wave) (a : W64) => windowOf a.toNat == 3 && (s.spadAt w a.toNat).map Prod.fst == some key
  let lanes := fun (w : Wave) (o : Op) => o.args.any fun x => hasLane o.todo x.lane &&
    (spad w x.addr || (windowOf x.addr.toNat != 3 && w.teamKey == key))
  s.waves.any fun w =>
    (w.2.ops.any fun o => (isAccess o.ins && lanes w.2 o) ||
      (o.cmd.elim false fun c => c.segs.any fun g => g.code == 0 && (spad w.2 g.dst || spad w.2 g.src))) ||
    (List.range 5).any fun e => (w.2.split? e).elim false fun x => match x.block with
      | .fe o _ => lanes w.2 o
      | _ => false

/-- The carve-out after a request, and whether it is granted (R314). -/
def State.carve (s : State) (key : Nat) (t : Team) (core : Nat) (req : W32) : Option Team :=
  let sp := bitsOf req.toNat 7 0
  let l1 := bitsOf req.toNat 15 8
  let new := t.granules - t.spadG - t.l1G + sp + l1
  let running := (s.engine core).owner == some key && (s.engine core).run
  if bitsOf req.toNat 31 16 = 0 ∧ new ≤ 124 ∧ running = false ∧ new ≤ t.granules + t.claim + s.freeGranules core then
    some { t with spadG := sp, l1G := l1, claim := 0, spad := t.spad.filter fun b => decide (b.1 < sp * 16384),
                  fe := t.fe.filter fun b => decide (b.1 < sp * 1024), bad := t.bad.filter fun b => decide (b.1 < sp * 16384) }
  else none

/-- The last participant of a `barc` instance has arrived (R314): the task waves' scratchpad accesses are held, the
outstanding accesses are waited for, then the carve-out changes or stays and the splits depart. An arrival that a handler withdraws
meanwhile (R446) lets the held accesses go on. -/
def execBarcResize (key : Nat) (s : State) : Out :=
  match s.team? key with
  | none => .next s
  | some t =>
    let ws := s.barWaves .team key
    let reqs := (ws.filterMap fun w => w.2.barReq.map fun r => (w.2.index, w.1, r))
    let off := if t.barc then s.updTeam key fun t => { t with barc := false, claim := 0 } else s
    match t.core, reqs with
    | some core, r :: rs =>
      if !s.barReady .team key then .next off
      else if !t.barc then .next (s.updTeam key fun t => { t with barc := true })
      else if s.teamBusy key then .next s
      else
        let low := rs.foldl (fun a b => if b.1 < a.1 then b else a) r
        let n := s.carve key t core low.2.2.2
        let more := n.elim 0 fun t' => t'.granules - t.granules
        let c := s.updTeam key fun t => { t with claim := more }
        if more ≠ 0 && c.overdrawn core then .next c
        else
        let s := match n with
          | some t' => (if t'.l1G < t.l1G then s.flushCore core else s).updTeam key fun _ => t'
          | none => s
        let bits : Mask := if n.isSome then 0xFFFFFFFF else 0
        let s := (r :: rs).foldl (fun s q => s.updWave q.2.1 fun w => w.setP q.2.2.1 w.present bits) s
        let s := ws.foldl (fun s w => s.depart w.1 .team) s
        .next (s.updTeam key fun t => { t with barc := false, claim := 0 })
    | _, _ => .next off

/-! ## Mailboxes (R315-R318) -/

/-- The eight words of a k block. -/
def State.kBlock (s : State) (v : Env) (kb : Nat) : List W32 := (List.range 8).map fun i => s.rd v 0 (.k (kb + i))

/-- A word that is outstanding until the graph unit, the front end or a host has answered it, once for the wave. -/
def State.startOnce (s : State) (v : Env) (fs : Bool) (m : Mask) (i : Instr) (addr : W64) (data : List W32) : State :=
  (s.begin v (v.op i fs m true [⟨0, addr, data⟩])).goOn v

/-- A word that acts once per issue after an optional release. -/
def onceWord (fs : Bool) (g : Guard) (rel : Option Scope) (i : Instr) (reads : List (Src × Nat)) (addr : State → Env → W64)
    (data : State → Env → List W32) (s : State) : Out :=
  onWave .any (some fs) g s fun t v =>
    let m := v.active g
    if m = 0 then t.goOn v
    else
      let go := fun (t : State) => t.reads v m reads fun u => u.startOnce v fs m i (addr t v) (data t v)
      match rel with
      | none => go t
      | some sc => withRelease s t v sc false go

/-- `mbsend` (R317). -/
def execMbsend (g : Guard) (fs : Bool) (d : Nat) (a : Src) (kb : Nat) (s : State) : Out :=
  onceWord fs g (some .pkg) (.mbsend g fs d a kb) [(a, 2), (.k kb, 8)] (fun t v => t.rd64 v 0 a) (fun t v => t.kBlock v kb) s

/-- `mbrecv` (R318). -/
def execMbrecv (g : Guard) (pd : Nat) (try_ fs : Bool) (kb : Nat) (s : State) : Out :=
  onceWord fs g none (.mbrecv g pd try_ fs kb) [] (fun _ _ => 0) (fun _ _ => []) s

/-- A mailbox: 64 × gang + 16 × team + wave. -/
def boxKey (gang team wave : Nat) : Nat := 64 * gang + 16 * team + wave

/-- The resident kernel of a number in an address space. -/
def State.kernelOf (s : State) (asid num : Nat) : Option (Nat × Kernel) :=
  s.graph.kernels.find? fun k => k.2.asid == asid && k.2.num == num

/-- The gang of a number in a kernel, while it has not retired. -/
def State.gangOf (s : State) (kernel num : Nat) : Option (Nat × Gang) :=
  s.graph.gangs.find? fun g => g.2.kernel == kernel && g.2.num == num && g.2.state != .gone

/-- Address of a mailbox in the kernel's area (R316). -/
def Kernel.boxAddr (k : Kernel) (gang team wave : Nat) : Nat := k.mbox + 256 * ((gang * k.teams + team) * k.waves + wave)

/-- The graph unit reaches a mailbox at the home of its line (R316). -/
def State.boxLine (s : State) (k : Kernel) (gang team wave : Nat) : Option State :=
  match s.homeTag (lineKey k.asid (k.boxAddr gang team wave)) .write with
  | .ok _ s => some s
  | _ => none

/-- An arriving message ends the sleeps of the wave (R100, R318). -/
def State.wake (s : State) (gang team wave : Nat) : State :=
  { s with waves := s.waves.map fun w =>
      if w.2.gang == gang && w.2.team == team && w.2.index == wave && w.2.res.isNone
      then
        let up := fun (x : Split) => { x with sleepTo := x.sleepTo.map fun _ => 0 }
        (w.1, ({ w.2 with t := { w.2.t with handler := w.2.t.handler.map up } }).mapLive up)
      else w }

/-- Send a message to a destination (R315, R317): 0 sent, 1 full, 2 none. `own` is the sender's kernel. -/
def State.send (s : State) (asid : Nat) (own : Option Nat) (dest : Nat) (msg : List W32) : Nat × State :=
  let num := bitsOf dest 47 32
  let k := if num = 0xFFFF then own.bind fun i => (s.kernel? i).map fun k => (i, k) else s.kernelOf asid num
  if bitsOf dest 63 48 ≠ 0 ∨ bitsOf dest 9 0 ≠ 0 then (2, s)
  else match k with
    | none => (2, s)
    | some (i, k) =>
      let t := bitsOf dest 15 14
      let w := bitsOf dest 13 10
      match s.gangOf i (bitsOf dest 31 16) with
      | none => (2, s)
      | some (g, x) =>
        if k.teams ≤ t ∨ k.waves ≤ w then (2, s)
        else match s.boxLine k x.num t w with
          | none => (2, s)
          | some s =>
            let key := boxKey g t w
            let box := smGet [] s.graph.boxes key
            if 4 ≤ box.length then (1, s)
            else (0, (s.updGraph fun r => { r with boxes := smSet [] r.boxes key (box ++ [msg]) }).wake g t w)

/-- Take the oldest message of a wave's own mailbox; a task wave or a handler split has none (R318). -/
def State.take (s : State) (w : Wave) : Option (List W32 × State) :=
  if w.res.isSome then none
  else
    let key := boxKey w.gang w.team w.index
    match smGet [] s.graph.boxes key, s.kernel? w.kernel, s.gang? w.gang with
    | m :: ms, some k, some g =>
      match s.boxLine k g.num w.team w.index with
      | some s => some (m, s.updGraph fun r => { r with boxes := smSet [] r.boxes key ms })
      | none => none
    | _, _, _ => none

/-- Write words to consecutive k registers from the entry of an operation. -/
def Wave.putK (w : Wave) (o : Op) (d : Nat) (xs : List W32) : Wave := w.putWords (w.entryOf o) (.k d) 0 0 xs

/-- An operation that acts once is done: its registers, then its completion. -/
def State.finishOnce (s : State) (u : Nat) (o : Op) (d : Nat) (xs : List W32) : State :=
  (s.updWave u fun w => (w.putK o d xs).updOp o.serial fun p => { p with todo := 0 }).finishOp u o.serial

/-- The wave's own mailbox lies in a line that fails translation or permission (R316). -/
def State.boxFails (s : State) (w : Wave) : Bool :=
  match s.kernel? w.kernel, s.gang? w.gang with
  | some k, some g => (s.boxLine k g.num w.team w.index).isNone
  | _, _ => true

/-- `mbrecv` completes: with the oldest message, or at once where it is `.try`, has no mailbox, or its mailbox cannot be reached (R316,
R318). -/
def State.completeRecv (s : State) (u : Nat) (w : Wave) (o : Op) (pd : Nat) (try_ : Bool) (kb : Nat) : State :=
  let none_ := o.hmark || w.res.isSome || s.boxFails w
  let got := if none_ then none else s.take w
  if got.isNone && !try_ && !none_ then s
  else
    let s := match got with
      | some (m, t) => (t.updWave u fun w => w.putK o kb m).acquire w.core .pkg
      | none => s
    let bits : Mask := if got.isSome then 0xFFFFFFFF else 0
    let s := if try_ then s.updWave u fun w => w.setP pd (o.issued &&& w.present) bits else s
    s.finishOnce u o kb []

/-! ## Tickets (R319-R321) -/

/-- `tkres` (R320). -/
def execTkres (g : Guard) (fs : Bool) (d : Nat) (a b : Src) (s : State) : Out :=
  onceWord fs g none (.tkres g fs d a b) [(a, 1), (b, 1)] (fun _ _ => 0) (fun t v => [t.rd v 0 a, t.rd v 0 b]) s

/-- `tkcom` (R321): a release at `.pkg` first. -/
def execTkcom (g : Guard) (fs : Bool) (d : Nat) (a b : Src) (s : State) : Out :=
  onceWord fs g (some .pkg) (.tkcom g fs d a b) [(a, 1), (b, 1)] (fun _ _ => 0) (fun t v => [t.rd v 0 a, t.rd v 0 b]) s

/-- A queue that is open to device producers of an address space (R319, R479). -/
def Queue.openTo (q : Queue) (asid : Nat) : Bool := q.valid && q.isOpen && q.asid == asid

/-- Reserve c tickets of a queue (R320): the answer, and the queue after. -/
def Queue.reserve (q : Queue) (c : Nat) : W32 × Queue :=
  if c = 0 ∨ 16 < c then (0xFFFFFFFE, q)
  else if 2 ^ q.log2n < (q.next + BitVec.ofNat 32 c - q.head).toNat then (0xFFFFFFFF, q)
  else (q.next, { q with next := q.next + BitVec.ofNat 32 c })

/-- Slot of a ticket. -/
def Queue.slot (q : Queue) (t : W32) : Nat := t.toNat % 2 ^ q.log2n

/-- Commit a ticket (R321): 1 where it is not reserved and unconsumed, or its bit is set. -/
def Queue.commitT (q : Queue) (t : W32) : W32 × Queue :=
  if (q.next - q.head).toNat ≤ (t - q.head).toNat ∨ smGet false q.commit (q.slot t) then (1, q)
  else (0, { q with commit := smSet false q.commit (q.slot t) true })

/-- A queue by number. -/
def State.queue (s : State) (q : Nat) : Queue := smGet {} s.front.queues q
/-- Put a queue in its place. -/
def State.setQueue (s : State) (q : Nat) (x : Queue) : State := s.updFront fun f => { f with queues := smSet {} f.queues q x }

/-- `tkres` and `tkcom` complete. -/
def State.completeTicket (s : State) (u : Nat) (w : Wave) (o : Op) (d : Nat) (com : Bool) : State :=
  let xs := (o.arg? 0).elim [] LaneArg.data
  let qn := (xs.headD 0).toNat
  let b := xs.getD 1 0
  let q := s.queue qn
  if 65535 < qn ∨ !q.openTo w.asid then s.finishOnce u o d [if com then 1 else 0xFFFFFFFE]
  else
    let r := if com then q.commitT b else q.reserve b.toNat
    (s.setQueue qn r.2).finishOnce u o d [r.1]

end Sys2Proof.Machine
end

