-- ==== Sys2Proof/Machine/Residency.lean ====
section
/-!
DEFINITION. The residency class: pins, flushes, invalidations, `hmzero` and `hmstat` (R256-R261). What their lanes do when
they are performed stands with the other accesses.
-/

namespace Sys2Proof.Machine

/-- `pin` (R258). -/
def execPin (g : Guard) (fs : Bool) (d : Dst) (a : Src) (cc : Nat) (s : State) : Out :=
  memWord .any fs g none (.pin g fs d a cc) s

/-- `unpin` (R258). -/
def execUnpin (g : Guard) (fs : Bool) (d : Dst) (a : Src) (cc : Nat) (s : State) : Out :=
  memWord .any fs g none (.unpin g fs d a cc) s

/-- `flush.l1` (R259). -/
def execFlushL1 (g : Guard) (fs : Bool) (a : Src) (s : State) : Out := memWord .any fs g none (.flushL1 g fs a) s

/-- `flush.hm` (R259). -/
def execFlushHm (g : Guard) (fs : Bool) (a : Src) (s : State) : Out := memWord .any fs g none (.flushHm g fs a) s

/-- `inval.l1` (R259). -/
def execInvalL1 (g : Guard) (fs : Bool) (a : Src) (s : State) : Out := memWord .any fs g none (.invalL1 g fs a) s

/-- `inval.hm` (R259). -/
def execInvalHm (g : Guard) (fs : Bool) (a : Src) (s : State) : Out := memWord .any fs g none (.invalHm g fs a) s

/-- What refuses the run of `hmzero` at issue (R260): its alignment or count, its window, or its end outside the window or
the arena. -/
def State.zeroCheck (s : State) (w : Wave) (a n : Nat) : Option AddrBad :=
  if a % 128 ≠ 0 ∨ n = 0 ∨ 4096 < n ∨ (windowOf a ≠ 0 ∧ windowOf a ≠ 2) then some (.addr, 0)
  else
    let last := a + 128 * n - 1
    if last / 2 ^ 56 ≠ a / 2 ^ 56 ∨ (windowOf a = 2 ∧ last / 2 ^ 34 ≠ a / 2 ^ 34) then some (.addr, 0)
    else s.checkAddr w a (128 * n)

/-- `hmzero` (R260). -/
def execHmzero (g : Guard) (fs : Bool) (a b : Src) (s : State) : Out :=
  onWave .any (some fs) g s fun t v =>
    let m := v.active g
    let i := Instr.hmzero g fs a b
    if m = 0 then t.goOn v
    else
      t.reads v m [(a, 2), (b, 1)] fun r =>
        let x := t.rd64 v 0 a
        let n := t.rd v 0 b
        let o := v.op i fs m true [⟨0, x, [n]⟩]
        match t.zeroCheck v.w x.toNat n.toNat with
        | some b => t.addrTraps v m [(0, x.toNat, b)]
        | none => if s.accessFull v o then s.holdAt v.u v.e .unit else (r.begin v o).goOn v

/-- `hmstat` (R261); an acquire of its split that is to come refuses it, as a residency instruction (R305). -/
def execHmstat (g : Guard) (sel : HmSel) (fs : Bool) (d : Nat) (s : State) : Out :=
  onWave .any (some fs) g s fun t v =>
    let m := v.active g
    if m = 0 then t.goOn v
    else if v.w.acquireOut v.sp.mask then s.holdAt v.u v.e .unit
    else t.startOnce v fs m (.hmstat g sel fs d) 0 []

/-- The count that SEL names for an address space (R261). -/
def State.hmCount (s : State) (asid : Nat) (sel : HmSel) : Nat :=
  let ts := s.mem.tags.filter fun t => keyAsid t.1 == asid
  let d := s.asid asid
  let shared := fun (t : Nat × Tag) => !t.2.zero &&
    decide (2 ≤ (smGet ({} : Entry) s.mem.entries (entryKey (homeSlice (keyAddr t.1)) t.2.index)).count)
  match sel with
  | .tags => ts.length
  | .zero => (ts.filter fun t => t.2.zero).length
  | .shared => (ts.filter shared).length
  | .pinned => d.pins
  | .pinq => d.pinq
  | .sharehit => d.sharehit
  | .unshare => d.unshare
  | .capacity => ts.length * 128

/-- `hmstat` completes. -/
def State.completeHmstat (s : State) (u : Nat) (w : Wave) (o : Op) (sel : HmSel) (d : Nat) : State :=
  s.finishOnce u o d (valueWords true (s.hmCount w.asid sel))

end Sys2Proof.Machine
end

