-- ==== Sys2Proof/Machine/Engines.lean ====
section
/-!
DEFINITION. The engine class: `cpy`, `cpy.g`, `cpy.s`, `coll` and `cstat`, their commands, faults and completions
(R269, R322-R336).
-/

namespace Sys2Proof.Machine

/-! ## Reads and writes of an engine (R269) -/

/-- What an engine access answers: done; a bad element, refusal, error or dead arena with its status code and address
(R324, R493); a failing walk with its reason; or it must wait for a write-back that is held. -/
inductive ER (α : Type) where
  | ok (v : α) (s : State)
  | bad (code : Nat) (addr : Nat)
  | page (reason : Nat) (write : Bool) (addr : Nat) (s : State)
  | wait
  deriving Repr

/-- Go on where the access succeeded. -/
def ER.bind {α β : Type} (x : ER α) (f : α → State → ER β) : ER β :=
  match x with
  | .ok v s => f v s
  | .bad c a => .bad c a
  | .page r w a s => .page r w a s
  | .wait => .wait

/-- An answer of memory as the engine takes it. -/
def MR.engine {α : Type} (x : MR α) (write : Bool) (a : Nat) : ER α :=
  match x with
  | .ok v s => .ok v s
  | .page r s => .page r write a s
  | .perm _ => .bad 4 a
  | .data => .bad 6 a
  | .gated => .bad 3 a

/-- Pieces of a range that lie in one line each: offset and length. -/
def lineChunks (a n : Nat) : List (Nat × Nat) :=
  if n = 0 then []
  else (List.range ((a % 128 + n + 127) / 128)).map fun i =>
    let lo := max a (a / 128 * 128 + 128 * i)
    let hi := min (a + n) (a / 128 * 128 + 128 * (i + 1))
    (lo - a, hi - lo)

/-- The issuing core's dirty bytes of a line go to where it lives, with any write-back of it that is on its way; false where
one is held for a frame (R218, R269). -/
def State.syncLine (s : State) (w : Wave) (key : Nat) : State × Bool :=
  if w.place.isNone then (s, true)
  else
    let s := s.startWb w.core key
    let s := ((s.mem.wbs.filter fun b => b.core == w.core && b.key == key).map Wb.id).foldl (fun s i => s.wbArrive i) s
    (s, !s.mem.wbOut w.core key)

/-- The line leaves the issuing core's L1. -/
def State.engDrop (s : State) (w : Wave) (key : Nat) : State := if w.place.isSome then s.dropL1 w.core key else s

/-- Read bytes of one line. The issuing core's L1 keeps no copy: what its waves read once the command has completed is no older (R269,
R276). -/
def State.engReadLine (s : State) (w : Wave) (a n : Nat) : ER (List Byte) :=
  let key := lineKey w.asid a
  let r := s.syncLine w key
  if !r.2 then .wait
  else (((r.1.engDrop w key).backRead key).engine false a).bind fun d s => .ok ((List.range n).map fun i => lineByte d (a % 128 + i)) s

/-- Read a range at the homes, the vault controller or the bank. -/
def State.engRead (s : State) (w : Wave) (a n : Nat) : ER (List Byte) :=
  if n = 0 then .ok [] s
  else if windowOf a = 3 then
    match s.spadAt w a with
    | none => .bad 3 a
    | some (t, off) =>
      let bad := ((List.range n).find? fun i => (s.team? t).elim false fun x => smGet false x.bad (off + i)).getD 0
      (s.spadRead t off n).engine false (a + bad)
  else (lineChunks a n).foldl (fun acc c => acc.bind fun bs s => (s.engReadLine w (a + c.1) c.2).bind fun ys s => .ok (bs ++ ys) s)
    (.ok [] s)

/-- The arena generation of an address is not live (R328). -/
def State.arenaDead (s : State) (asid a : Nat) : Bool :=
  windowOf a == 2 && ((smGet ({} : Arena) s.mem.arenas (arenaKey asid (arenaSlot a))).refuse (arenaGen a)).isSome

/-- An engine write into a dying arena was discarded: its node's record says so (R407). -/
def State.noteDead (s : State) (asid a : Nat) : State :=
  s.updGraph fun g => { g with nodes := g.nodes.map fun n =>
    if n.2.asid == asid && n.2.slot == some (arenaSlot a, arenaGen a) then (n.1, { n.2 with deadWrite := true }) else n }

/-- Write bytes of one line, which the issuing core's L1 then drops; a cb4x line takes none (R158, R331). -/
def State.engWriteLine (s : State) (w : Wave) (a : Nat) (bs : List Byte) : ER Unit :=
  let key := lineKey w.asid a
  let r := s.syncLine w key
  if !r.2 then .wait
  else ((r.1.permAt key .write).engine true a).bind fun f s =>
    if f = 2 then .bad 4 a
    else
      let x := if bs.length = 128 ∧ windowOf a ≠ 1 then s.homeWriteAll key (lineOf bs)
        else s.backWrite key (lineSet 0 (a % 128) bs) (spanMask (a % 128) bs.length) .keep
      (x.engine true a).bind fun _ s => .ok () (s.engDrop w key)

/-- Set full the granules whose last byte a write writes and whose others it, or the `pre` bytes before it of the same segment, have
written (R329). -/
def State.fillGranules (s : State) (t off n pre : Nat) : State :=
  (List.range (n / 16 + 2)).foldl (fun s i =>
    let g := off / 16 + i
    if off ≤ 16 * g + pre ∧ off < 16 * g + 16 ∧ 16 * g + 16 ≤ off + n then s.setFe t (16 * g) true else s) s

/-- Write a range, behind `pre` bytes that the same segment has written. -/
def State.engWrite (s : State) (w : Wave) (a : Nat) (bs : List Byte) (pre : Nat) : ER Unit :=
  if bs.isEmpty then .ok () s
  else if windowOf a = 3 then
    match s.spadAt w a with
    | none => .bad 3 a
    | some (t, off) => .ok () ((s.spadWrite t off bs).fillGranules t off bs.length pre)
  else if s.arenaDead w.asid a then .bad 2 a
  else (lineChunks a bs.length).foldl (fun acc c => acc.bind fun _ s => s.engWriteLine w (a + c.1) ((bs.drop c.1).take c.2)) (.ok () s)

/-- Bytes moved count for the wave's gang on its core (R462). -/
def State.countMoved (s : State) (w : Wave) (n : Nat) : State :=
  s.updBank w fun b => { b with pmc := smSet 0 b.pmc 6 (smGet 0 b.pmc 6 + BitVec.ofNat 64 n) }

/-! ## Running a segment -/

/-- A segment as it runs, and what stopped it: a failing walk, or a wait. -/
structure SegRun where
  s : State
  g : Seg
  stop : Option (Option (Nat × Bool × Nat)) := none

/-- A failure of a segment is noted: the lowest code of 3 to 6 is kept, arena dead yields to every other (R324). -/
def Seg.hit (g : Seg) (c a : Nat) : Seg :=
  if g.bad = 1 then { g with bad := c, addr := BitVec.ofNat 64 a }
  else if c = 2 then g
  else if g.bad = 2 then { g with bad := c, addr := BitVec.ofNat 64 a }
  else { g with bad := min g.bad c }

/-- A failure is noted. -/
def SegRun.hit (r : SegRun) (c a : Nat) : SegRun := { r with g := r.g.hit c a }

/-- Take an answer: go on with `k`, or note what happened. -/
def SegRun.take {α : Type} (r : SegRun) (w : Wave) (x : ER α) (k : α → SegRun → SegRun) : SegRun :=
  match x with
  | .ok v s => k v { r with s := s }
  | .bad c a => (if c = 2 then { r with s := r.s.noteDead w.asid a } else r).hit c a
  | .page q wr a s => { r with s := s, stop := some (some (q, wr, a)) }
  | .wait => { r with stop := some none }

/-- A step has been made, unless it stopped: the segment stands `n` bytes or elements and `k` lines further on. -/
def SegRun.past (r : SegRun) (n k : Nat) : SegRun :=
  if r.stop.isSome then r else { r with g := { r.g with pos := r.g.pos + n, line := r.g.line + k } }

/-- Events of a converting segment: each class once (R331). -/
def SegRun.note (r : SegRun) (ev : Events) : SegRun := { r with g := { r.g with ev := (r.g.ev ++ ev.map NsClass.code).eraseDups } }

/-- Move n bytes: the source is read, then written (R277). -/
def SegRun.move (r : SegRun) (w : Wave) (d a n pre : Nat) : SegRun :=
  r.take w (r.s.engRead w a n) fun bs r => r.take w (r.s.engWrite w d bs pre) fun _ r => { r with s := r.s.countMoved w n }

/-- An address that the engine finds bad: it leaves the window or arena of its base, or breaks R204 (R331, R332). -/
def State.engBad (s : State) (w : Wave) (base a n : Nat) : Bool :=
  windowOf a != windowOf base || (windowOf a == 2 && (a / 2 ^ 34 != base / 2 ^ 34)) ||
    (match s.checkAddr w a n with
      | some (.addr, _) => true
      | _ => false)

/-- Bytes from an address to the end of its line; without end in a scratchpad. -/
def lineLeft (a n : Nat) : Nat := if windowOf a = 3 then n else min n (128 - a % 128)

/-- The next piece of a raw copy (R331): within one line of the destination and of the source. -/
def SegRun.raw (r : SegRun) (w : Wave) (d a len : Nat) : SegRun :=
  let p := r.g.pos
  let n := lineLeft (a + p) (lineLeft (d + p) (len - p))
  (r.move w (d + p) (a + p) n (if r.g.bad = 1 then p else 0)).past n 0

/-- The next line of a decoding copy: its elements, or as many as are still asked for (R331). -/
def SegRun.dec (r : SegRun) (w : Wave) (bf : Bool) (d0 a0 len : Nat) : SegRun :=
  let size := if bf then 2 else 4
  let d := d0 + size * r.g.pos
  let a := a0 + 128 * r.g.line
  if windowOf a = 3 ∨ windowOf d = 3 ∨ r.s.engBad w a0 a 128 then (r.hit 3 a).past len 0
  else
    match (r.s.engReadLine w a 128).bind fun bs s => ER.ok (lineOf bs, s.port (lineKey w.asid a)) s with
    | .ok (line, p) s =>
      let k := min (len - r.g.pos) (elemsPerLine p.fmt)
      let es := (List.range k).map fun i => if bf then p.readBf16 line i else p.readF32 line i
      let bs := es.flatMap fun e => le size e.1
      let r := { r with s := s }
      let r' := if r.s.engBad w d0 d bs.length then r.hit 3 d
        else r.take w (r.s.engWrite w d bs 0) fun _ r => { r with s := r.s.countMoved w bs.length }
      (if r'.stop.isSome then r' else r'.note (es.flatMap Prod.snd)).past k 1
    | x => (r.take w x fun _ r => r).past len 0

/-- The bytes of a line after its first k elements are encoded, and the events. -/
def encodeLine (p : Port) (m : Rnd) (old : LineData) (xs : List Nat) : LineData × Events :=
  xs.zipIdx.foldl (fun (q : LineData × Events) x =>
    let r := encodeElem p.fmt p.cb p.sat m x.1
    (elemPut p.fmt q.1 x.2 r.1, (q.2 ++ r.2).eraseDups)) (old, [])

/-- Bytes of a line that k encoded elements take. -/
def encBytes (fmt k : Nat) : Nat := (k * elemBits fmt + 7) / 8

/-- The next line of an encoding copy: elements of the destination (R331). -/
def SegRun.enc (r : SegRun) (w : Wave) (m : Rnd) (d0 a0 len : Nat) : SegRun :=
  let d := d0 + 128 * r.g.line
  let a := a0 + 4 * r.g.pos
  let key := lineKey w.asid d
  if windowOf a = 3 ∨ windowOf d = 3 ∨ r.s.engBad w d0 d 128 then (r.hit 3 d).past len 0
  else if r.s.arenaDead w.asid d then ({ r with s := r.s.noteDead w.asid d }.hit 2 d).past len 0
  else
    let y := r.s.syncLine w key
    if !y.2 then { r with stop := some none }
    else
      let p := y.1.port key
      let k := min (len - r.g.pos) (elemsPerLine p.fmt)
      let n := encBytes p.fmt k
      let write := fun (bs : List Byte) (r : SegRun) =>
        let xs := (List.range k).map fun i => natOfBytes ((bs.drop (4 * i)).take 4)
        r.take w ((if n = 128 then MR.ok 0 r.s else r.s.lineNow key).engine true d) fun old r =>
          let e := encodeLine p m old xs
          r.take w (r.s.engWriteLine w d ((lineBytes e.1).take n)) fun _ r => { r with s := r.s.countMoved w (4 * k) }.note e.2
      let r' := r.take w ((y.1.permAt key .write).engine true d) fun f r =>
        if f = 2 then r.hit 4 d
        else if r.s.engBad w a0 a (4 * k) then r.hit 3 a
        else r.take w (r.s.engRead w a (4 * k)) write
      r'.past k 1

/-- What a failed segment or element wrote is unspecified: its destination takes free bytes where it can be written (R9, R327, R335). -/
def State.scribble (s : State) (w : Wave) (base a n : Nat) : State :=
  if s.engBad w base a n then s
  else (lineChunks a n).foldl (fun s c =>
    let bs := (List.range c.2).map fun i => Config.freeByte (2 ^ 30 * s.draws + c.1 + i)
    match s.engWrite w (a + c.1) bs 0 with
    | .ok _ t => t
    | _ => s) { s with draws := s.draws + 1 }

/-- The access of the next element of a gather or scatter (R332). -/
def SegRun.elemTry (r : SegRun) (w : Wave) (scat i64 : Bool) (size list t : Nat) (base src : Nat) : SegRun :=
  let i := r.g.pos
  let k := if i64 then 8 else 4
  let dst := fun (x : Nat) => (if scat then base + x * size else base + i * t) % 2 ^ 64
  let mark := fun (r : SegRun) (m : Option (Nat × Nat)) => { r with g := { r.g with bad := 1, mark := m } }
  (mark r (if scat then none else some (dst 0, size))).take w (r.s.engRead w ((list + k * i) % 2 ^ 64) k) fun bs r =>
    let x := natOfBytes bs
    let d := dst x
    let a := (if scat then src + i * t else src + x * size) % 2 ^ 64
    let al := min size 128
    let r := mark r (some (d, size))
    if r.s.engBad w src a size || a % al != 0 then r.hit 3 a
    else if r.s.engBad w base d size || d % al != 0 then r.hit 3 d
    else r.move w d a size 0

/-- The next element of a gather or scatter (R332): one that fails is noted, and what it wrote is unspecified (R327); the others go on. -/
def SegRun.elem (r : SegRun) (w : Wave) (scat i64 : Bool) (size list t : Nat) (base src : Nat) : SegRun :=
  let x := r.elemTry w scat i64 size list t base src
  if x.stop.isSome then { x with g := { x.g with bad := r.g.bad, addr := r.g.addr } }
  else if x.g.bad = 1 then ({ x with g := r.g }).past 1 0
  else
    let s := if 3 ≤ x.g.bad then x.g.mark.elim x.s fun m => x.s.scribble w base m.1 m.2 else x.s
    ({ x with s := s, g := r.g.hit x.g.bad x.g.addr.toNat }).past 1 0

/-- The stride of a gather or scatter: T, or the element size for 0 (R332). -/
def Cmd.stride (c : Cmd) (size : Nat) : Nat := if (c.par.getD 3 0).toNat = 0 then size else (c.par.getD 3 0).toNat
/-- Word i of a command's parameters. -/
def Cmd.p (c : Cmd) (i : Nat) : Nat := (c.par.getD i 0).toNat
/-- Address of the index list. -/
def Cmd.list (c : Cmd) : Nat := c.p 0 + 2 ^ 32 * c.p 1

/-- Where a segment ends: bytes, elements, or the bytes of a collective's result. -/
def Cmd.goal (c : Cmd) (i : Instr) : Nat :=
  match i with
  | .cpyG .. | .cpyS .. => c.p 2
  | .coll .. => 4 * (c.result.elim 0 List.length)
  | _ => c.p 0

/-- One step of a segment. -/
def SegRun.step (r : SegRun) (w : Wave) (o : Op) (c : Cmd) : SegRun :=
  let d := r.g.dst.toNat
  let a := r.g.src.toNat
  match o.ins with
  | .cpy _ _ _ cv m .. =>
    match cv with
    | .raw => r.raw w d a (c.p 0)
    | .dec => r.dec w false d a (c.p 0)
    | .decBf16 => r.dec w true d a (c.p 0)
    | .enc => r.enc w m d a (c.p 0)
  | .cpyG _ _ _ code i64 .. => let z := 2 ^ (code + 2); r.elem w false i64 z c.list (c.stride z) d a
  | .cpyS _ _ _ code i64 .. => let z := 2 ^ (code + 2); r.elem w true i64 z c.list (c.stride z) d a
  | .coll .. =>
    match c.result with
    | some xs =>
      let n := lineLeft (d + r.g.pos) (4 * xs.length - r.g.pos)
      let bs := (((xs.drop (r.g.pos / 4)).take (n / 4 + 1)).flatMap fun x => le 4 x.toNat).drop (r.g.pos % 4)
      (r.take w (r.s.engWrite w (d + r.g.pos) (bs.take n) r.g.pos) fun _ r => { r with s := r.s.countMoved w n }).past n 0
    | none => { r with stop := some none }
  | _ => r.past (c.p 0 + 1) 0

/-- Run a segment from where it stands until it ends or stops. The first argument bounds the steps. -/
def SegRun.run (w : Wave) (o : Op) (c : Cmd) : Nat → SegRun → SegRun
  | 0, r => r
  | n + 1, r => if r.stop.isSome ∨ c.goal o.ins ≤ r.g.pos ∧ (c.coll.isNone ∨ c.result.isSome ∨ r.g.bad ≠ 1) then r else SegRun.run w o c n (r.step w o c)

/-- Run one segment of a command. -/
def State.runSeg (s : State) (w : Wave) (o : Op) (c : Cmd) (g : Seg) : SegRun := SegRun.run w o c (c.goal o.ins + 1) { s := s, g := g }

/-- Destination bytes of an encoding copy, line by line: those that its elements take under each line's format. -/
def State.encRanges (s : State) (w : Wave) : Nat → Nat → Nat → List (Nat × Nat)
  | 0, _, _ => []
  | n + 1, d, len =>
    if len = 0 ∨ windowOf d = 3 then []
    else
      let f := (s.port (lineKey w.asid d)).fmt
      let k := min len (elemsPerLine f)
      (d, encBytes f k) :: s.encRanges w n (d + 128) (len - k)

/-- The ranges that a segment writes: address and length (R327, R329). -/
def State.segRanges (s : State) (w : Wave) (o : Op) (c : Cmd) (g : Seg) : List (Nat × Nat) :=
  let d := g.dst.toNat
  match o.ins with
  | .cpy _ _ _ cv .. =>
    match cv with
    | .raw => [(d, c.p 0)]
    | .dec => [(d, 4 * c.p 0)]
    | .decBf16 => [(d, 2 * c.p 0)]
    | .enc => s.encRanges w (c.p 0) d (c.p 0)
  | .cpyG _ _ _ code .. => (List.range (c.p 2)).map fun i => ((d + i * c.stride (2 ^ (code + 2))) % 2 ^ 64, 2 ^ (code + 2))
  | .cpyS _ _ _ code i64 .. =>
    let k := if i64 then 8 else 4
    (List.range (c.p 2)).filterMap fun i => match s.engRead w ((c.list + k * i) % 2 ^ 64) k with
      | .ok bs _ => some ((d + natOfBytes bs * 2 ^ (code + 2)) % 2 ^ 64, 2 ^ (code + 2))
      | _ => none
  | .coll .. => [(d, c.goal o.ins)]
  | _ => []

/-- A gather or scatter: its elements fail one by one (R332). -/
def byElement (i : Instr) : Bool :=
  match i with
  | .cpyG .. | .cpyS .. => true
  | _ => false

/-- What a failed segment wrote is unspecified, of a gather or scatter only what its failed elements wrote (R327, R332). -/
def State.loseSeg (s : State) (w : Wave) (o : Op) (c : Cmd) (g : Seg) : State :=
  if g.bad < 3 ∨ byElement o.ins then s
  else (s.segRanges w o c g).foldl (fun s x => s.scribble w g.dst.toNat x.1 x.2) s

/-! ## Commands (R323-R327) -/

/-- Update the command of an operation. -/
def Op.updCmd (o : Op) (f : Cmd → Cmd) : Op := { o with cmd := o.cmd.map f }
/-- Update a segment of a command by its place. -/
def Cmd.updSeg (c : Cmd) (i : Nat) (f : Seg → Seg) : Cmd := { c with segs := c.segs.zipIdx.map fun g => if g.2 = i then f g.1 else g.1 }

/-- Two ranges meet. -/
def meets (x y : Nat × Nat) : Bool := decide (x.1 < y.1 + y.2) && decide (y.1 < x.1 + x.2)

/-- A segment of a lower lane that writes where this one writes is not final: it comes first, so that the byte takes the value of the
higher lane (R329). -/
def State.segBehind (s : State) (w : Wave) (o : Op) (c : Cmd) (i : Nat) (g : Seg) : Bool :=
  c.segs.zipIdx.any fun x => decide (x.2 < i) && x.1.code == 0 &&
    (s.segRanges w o c x.1).any fun p => (s.segRanges w o c g).any fun q => meets p q

/-- A segment has run as far as it could: it is held at a failing walk, waits, or is final. -/
def SegRun.finish (r : SegRun) (u n i : Nat) (w : Wave) (o : Op) (c : Cmd) : State :=
  let put := fun (s : State) (g : Seg) => s.updOp u n fun o => o.updCmd fun c => c.updSeg i fun _ => g
  match r.stop with
  | some none => put r.s r.g
  | some (some (q, wr, a)) => put r.s { r.g with fault := some (q, wr, BitVec.ofNat 64 a) }
  | none =>
    (put (r.s.loseSeg w o c r.g) { r.g with code := r.g.bad }).updOp u n fun o => { o with events := o.events ++ r.g.ev.map fun e => (e, r.g.lane.getD 32) }

/-- Run the segments that are pending and not held, in order, once every earlier access of the issuing split has been performed
(R269). -/
def State.runCmd (s : State) (u n : Nat) : State :=
  match (s.wave? u).bind fun w => (w.op? n).bind fun o => o.cmd.map fun c => (w, o, c) with
  | none => s
  | some (w, o, c) =>
    if w.ops.any fun p => p.precedes o then s
    else
      let s := if c.ord.acq && w.place.isSome then s.acquire w.core c.ord.scope else s
      (List.range c.segs.length).foldl (fun s i =>
        match ((s.wave? u).bind fun w => w.op? n).bind Op.cmd with
        | none => s
        | some c => match c.segs[i]? with
          | none => s
          | some g =>
            if g.code ≠ 0 ∨ g.fault.isSome ∨ s.segBehind w o c i g then s
            else (s.runSeg w o c g).finish u n i w o c) s

/-- The two words of a command's status (R323). -/
def Cmd.status (c : Cmd) (single : Bool) : Nat × Nat × Mask :=
  match c.segs.find? fun g => g.code != 1 with
  | none => (1, 0xFF, if single then 0xFFFFFFFF else maskOf (c.segs.filterMap Seg.lane))
  | some g =>
    (g.code, g.lane.getD 0xFF, if single then 0 else maskOf ((c.segs.filter fun x => x.code == 1).filterMap Seg.lane))

/-- A destination arena that died while the command ran (R328). -/
def State.deadSegs (s : State) (w : Wave) (c : Cmd) : Cmd :=
  { c with segs := c.segs.map fun g =>
      if g.code == 1 && s.arenaDead w.asid g.dst.toNat then { g with code := 2, addr := g.dst } else g }

/-- A command whose segments are all final completes: its status, its release, its events, the ENGINE cause, its flag
(R325, R327). Of a saved wave only the status is written, once; its flag falls at resume. -/
def State.endCmd (s : State) (u n : Nat) : State :=
  match (s.wave? u).bind fun w => (w.op? n).bind fun o => o.cmd.map fun c => (w, o, c) with
  | none => s
  | some (w, o, c) =>
    if (c.segs.any fun g => g.code == 0) || (c.ended && w.place.isNone) then s
    else if !c.ended && c.ord.rel && scopeWide c.ord.scope && w.place.isSome && !((s.flushCore w.core).wbIds w.core).isEmpty
    then s.flushCore w.core
    else
      let died := c.segs.filter fun g => !c.ended && g.code == 1 && s.arenaDead w.asid g.dst.toNat
      let s := died.foldl (fun s g => s.noteDead w.asid g.dst.toNat) s
      let c := if died.isEmpty then c else s.deadSegs w c
      let single := c.segs.length == 1
      let st := c.status single
      let bad := c.segs.filter fun g => decide (3 ≤ g.code)
      let m := (if single then (if bad.isEmpty then 0 else o.issued) else maskOf (bad.filterMap Seg.lane)) &&& w.present
      let entry : CmdStat := ⟨c.num, st.1, st.2.1, st.2.2, if c.ord.rel then some c.ord.scope else none⟩
      let s := s.updWave u fun w =>
        { w with wk := { w.wk with status := smPut (c.num % 16) entry w.wk.status } }.updOp n fun o =>
          if w.place.isNone then o.updCmd fun _ => { c with ended := true } else { o with todo := 0 }
      let s := s.finishOp u n
      if m = 0 ∨ w.place.isNone then s
      else
        let info := le 8 ((bad.map Seg.addr).headD 0).toNat ++ le 4 c.num ++ le 4 (st.1 + 256 * st.2.1)
        s.pend u .engine m o.hmark (some ⟨o.serial, o.pc, Cause.engine.num, 1, o.entry, o.ver, m, padTo 16 info⟩)

/-- The serial of a wave's pending command of a number. -/
def Wave.cmdOp (w : Wave) (num : Nat) : Option Nat :=
  (w.ops.find? fun o => o.cmd.elim false fun c => c.num == num).map Op.serial

/-- An engine access met a failing walk: a fault record, and the engine holds the access (R327). -/
def execEngineFaultPost (u num : Nat) (s : State) : Out :=
  match (s.wave? u).bind fun w => (w.cmdOp num).bind fun n => (w.op? n).bind fun o => o.cmd.map fun c => (w, n, o, c) with
  | none => .next s
  | some (w, n, o, c) =>
    match c.segs.zipIdx.find? fun x => x.1.fault.isSome && x.1.record.isNone with
    | some (g, i) =>
      match g.fault with
      | some (reason, wr, a) =>
        let s' := s.updOp u n fun o => o.updCmd fun c => c.updSeg i fun g => { g with record := some s.front.nextFault }
        .next (s'.postFault u (some n) 2 a.toNat w.asid (if wr then 1 else 0) (windowOf a.toNat)
          (if c.segs.length = 1 then 0 else g.lane.elim 0 laneBit) o.pc w.coreSeen (0x80 + w.slotSeen) reason)
      | none => .next s
    | none => .next s

/-! ## Issue -/

/-- Commands and segments that a core's copy engine holds (R322). -/
def State.copyLoad (s : State) (core : Nat) : Nat × Nat :=
  let cs := (s.waves.filter fun w => w.2.place.map Prod.fst == some core).flatMap fun w =>
    w.2.ops.filterMap fun o => o.cmd.bind fun c => if c.coll.isNone then some c else none
  (cs.length, (cs.map fun c => c.segs.length).foldl (· + ·) 0)

/-- The next command's status entry still holds a pending command (R323). -/
def Wave.entryBusy (w : Wave) : Bool :=
  (smFind w.wk.status (w.wk.cmdseq % 16)).elim false fun e => e.code == 0

/-- Both ends of a range lie in one window and one arena slot, and its start passes R204 (R326). -/
def State.rangeBad (s : State) (w : Wave) (a n : Nat) : Option AddrBad :=
  let last := a + (n - 1)
  if n ≠ 0 ∧ (last / 2 ^ 56 ≠ a / 2 ^ 56 ∨ (windowOf a = 2 ∧ last / 2 ^ 34 ≠ a / 2 ^ 34)) then some (.addr, 0)
  else s.checkAddr w a n

/-- A command is accepted: its number, status entry, flag and D (R323, R325, R330). -/
def State.startCmd (s : State) (v : Env) (i : Instr) (fs : Bool) (m : Mask) (o : EngOrd) (tag : Option Nat) (segs : List Seg)
    (par : List W32) (coll : Option (Nat × Nat × Nat)) : State :=
  let num := v.w.wk.cmdseq
  let op := { v.op i fs m true [] with cmd := some { num := num, ord := o, segs := segs, par := par, coll := coll }, todo := 1 }
  let s := s.begin v op
  (s.updWave v.u fun w =>
    let wk := { w.wk with cmdseq := (num + 1) % 2 ^ 32, status := smPut (num % 16) ⟨num, 0, 0xFF, 0, none⟩ w.wk.status }
    let w := { w with wk := wk }
    match tag with
    | some d => w.setK v.e d (BitVec.ofNat 32 num)
    | none => w).goOn v

/-- The extents in bytes that `cpy` checks at issue: destination, source, and their alignment (R326, R331). Of a decoded
source, whose lines hold up to 256 elements, only the lines it is sure to touch are checked here. -/
def cpyExtents (cv : CpyConv) (len : Nat) : (Nat × Nat) × (Nat × Nat) :=
  match cv with
  | .raw => ((len, 1), (len, 1))
  | .dec => ((4 * len, 4), ((len + 255) / 256 * 128, 128))
  | .decBf16 => ((2 * len, 2), ((len + 255) / 256 * 128, 128))
  | .enc => (((len + 255) / 256 * 128, 128), (4 * len, 4))

/-- `cpy` (R326, R331). Each lane that may not go on raises its own cause, all together (R219). -/
def execCpy (g : Guard) (o : EngOrd) (tag : Option Nat) (cv : CpyConv) (m : Rnd) (fs : Bool) (a b c : Src) (s : State) : Out :=
  onWave .load (some fs) g s fun t v =>
    let act := v.active g
    let uni := srcUni a && srcUni b
    if act = 0 then t.goOn v
    else
      let ls := if uni then [0] else lanesOf act
      let load := t.copyLoad v.w.core
      if v.w.entryBusy ∨ v.w.acquireOut v.sp.mask ∨ 64 ≤ load.1 ∨ 1024 < load.2 + ls.length then s.holdAt v.u v.e .unit
      else
        let n := (t.rd v 0 c).toNat
        let ext := cpyExtents cv n
        let one := fun (l : Nat) (x : Src) (e : Nat × Nat) =>
          let y := (t.rd64 v l x).toNat
          if y % e.2 ≠ 0 ∨ 2 ^ 26 < n then some (l, y, ((.addr, 0) : AddrBad))
          else (t.rangeBad v.w y e.1).map fun z => (l, y, z)
        let dead := v.deadMask act [(a, 2), (b, 2), (c, 1)]
        let bad := (ls.filter fun l => uni || !hasLane dead l).filterMap fun l => (one l a ext.1).or (one l b ext.2)
        let r := t.reads v act [(a, 2), (b, 2), (c, 1)] fun r =>
          if !bad.isEmpty then t.addrTraps v (if uni then act else 0) bad
          else
            let segs : List Seg := ls.map fun l =>
              { lane := if uni then none else some l, dst := t.rd64 v l a, src := t.rd64 v l b, code := if n = 0 then 1 else 0 }
            r.startCmd v (.cpy g o tag cv m fs a b c) fs act o tag segs [t.rd v 0 c] none
        if dead = 0 then r else r.addrTraps v 0 bad

/-- The issue of a command with one uniform segment. -/
def oneSeg (row : RoleRow) (g : Guard) (fs : Bool) (a b : Src) (kq : Nat)
    (check : State → Env → Nat → Nat → List W32 → Option (Nat × AddrBad)) (busy : State → Env → Bool)
    (start : State → State → Env → Mask → List W32 → Seg → State) (s : State) : Out :=
  onWave row (some fs) g s fun t v =>
    let act := v.active g
    let q := (List.range 4).map fun i => t.rd v 0 (.k (kq + i))
    if act = 0 then t.goOn v
    else if v.w.entryBusy || v.w.acquireOut v.sp.mask || busy t v then s.holdAt v.u v.e .unit
    else t.reads v act [(a, 2), (b, 2), (.k kq, 4)] fun r =>
      let d := t.rd64 v 0 a
      let x := t.rd64 v 0 b
      match check t v d.toNat x.toNat q with
      | some (y, z) => t.addrTraps v act [(0, y, z)]
      | none => start t r v act q { lane := none, dst := d, src := x }

/-- The checks of `cpy.g` and `cpy.s` at issue (R326, R332). -/
def State.listCheck (s : State) (v : Env) (i64 : Bool) (d a : Nat) (q : List W32) : Option (Nat × AddrBad) :=
  let list := (q.headD 0).toNat + 2 ^ 32 * (q.getD 1 0).toNat
  match [d, a, list].find? fun x => (s.checkAddr v.w x 1).isSome with
  | some x => (s.checkAddr v.w x 1).map fun z => (x, z)
  | none => if list % (if i64 then 8 else 4) ≠ 0 ∨ 65536 < (q.getD 2 0).toNat then some (list, (.addr, 0)) else none

/-- The copy engine takes no further command (R322). -/
def State.copyFull (s : State) (v : Env) : Bool :=
  let load := s.copyLoad v.w.core
  decide (64 ≤ load.1) || decide (1024 < load.2 + 1)

/-- A gather or scatter. -/
def listCmd (i : Instr) (g : Guard) (o : EngOrd) (tag : Option Nat) (i64 fs : Bool) (a b : Src) (kq : Nat) (s : State) : Out :=
  oneSeg .load g fs a b kq (fun t v d x q => t.listCheck v i64 d x q) (fun t v => t.copyFull v)
    (fun _ r v act q g => r.startCmd v i fs act o tag [g] q none) s

/-- `cpy.g` (R332). -/
def execCpyG (g : Guard) (o : EngOrd) (tag : Option Nat) (size : Nat) (i64 fs : Bool) (a b : Src) (kq : Nat) (s : State) : Out :=
  listCmd (.cpyG g o tag size i64 fs a b kq) g o tag i64 fs a b kq s

/-- `cpy.s` (R332). -/
def execCpyS (g : Guard) (o : EngOrd) (tag : Option Nat) (size : Nat) (i64 fs : Bool) (a b : Src) (kq : Nat) (s : State) : Out :=
  listCmd (.cpyS g o tag size i64 fs a b kq) g o tag i64 fs a b kq s

/-- `cstat` (R336): an acquire at the command's scope where it carried REL and its code is final. -/
def execCstat (g : Guard) (d : Nat) (b : Src) (s : State) : Out :=
  onWave .any none g s fun t v =>
    if v.active g = 0 then t.goOn v
    else t.reads v (v.active g) [(b, 1)] fun t =>
      let n := (t.rd v 0 b).toNat
      let e := (smFind v.w.wk.status (n % 16)).filter fun e => e.num == n
      let recent := decide (1 ≤ (v.w.wk.cmdseq + 2 ^ 32 - n) % 2 ^ 32) && decide ((v.w.wk.cmdseq + 2 ^ 32 - n) % 2 ^ 32 ≤ 16)
      match if recent then e else none with
      | none => (t.updWave v.u fun w => w.putWords v.e (.k d) 0 0 [10, 0]).goOn v
      | some e =>
        let t := match e.rel with
          | some sc => if e.code = 0 then t else t.acquire v.w.core sc
          | none => t
        (t.updWave v.u fun w => w.putWords v.e (.k d) 0 0 [BitVec.ofNat 32 (e.code + 256 * e.lane), e.mask]).goOn v

/-! ## Collectives (R333-R335) -/

/-- Commands that a die's collective engine holds (R322). -/
def State.collLoad (s : State) (die : Nat) : Nat :=
  ((s.waves.filter fun w => w.2.place.elim false fun p => dieOf p.1 == die).flatMap fun w =>
    w.2.ops.filter fun o => o.cmd.elim false fun c => c.coll.isSome).length

/-- The checks of `coll` at issue (R326). -/
def State.collCheck (s : State) (v : Env) (d a : Nat) (q : List W32) : Option (Nat × AddrBad) :=
  let n := (q.headD 0).toNat
  match [d, a].find? fun x => (s.checkAddr v.w x 1).isSome || windowOf x == 3 with
  | some x => some (x, (s.checkAddr v.w x 1).getD (.addr, 0))
  | none => if n = 0 ∨ 2 ^ 24 < n then some (d, (.addr, 0)) else none

/-- The group that a command names, with its member's rank; none is status none (R333). -/
def State.collMember (s : State) (v : Env) (op : CollOp) (q : List W32) : Option (CollGroup × Nat × Nat) :=
  let gn := (q.getD 1 0).toNat
  let root := (q.getD 2 0).toNat
  if 255 < gn then none
  else match smFind s.graph.groups (256 * v.w.asid + gn) with
    | none => none
    | some gr =>
      match gr.members.findIdx? fun m => m.pkg == s.mod.pkg && m.die == dieOf v.w.core with
      | none => none
      | some r =>
        if gr.members.length ≤ root ∨ (root ≠ 0 ∧ op ≠ .bcast) ∨ q.getD 3 0 ≠ 0 then none else some (gr, gn, r)

/-- Key of a member's command count: ASID, group and rank. -/
def collKey (asid gn rank : Nat) : Nat := (asid * 256 + gn) * 1024 + rank

/-- A member joins its next instance; a command for an aborted instance ends at once (R333, R335). -/
def State.collJoin (s : State) (asid gn rank u num : Nat) : Nat × Nat × State :=
  let inst := smGet 0 s.graph.collCount (collKey asid gn rank)
  let s := s.updGraph fun g => { g with collCount := smSet 0 g.collCount (collKey asid gn rank) (inst + 1) }
  let same := fun (x : CollInst) => x.asid == asid && x.group == gn && x.inst == inst
  match s.graph.insts.find? same with
  | some x =>
    let add := fun (x : CollInst) => if same x then { x with parts := x.parts ++ [⟨rank, u, num⟩] } else x
    if x.aborted then (inst, 8, s) else (inst, 0, s.updGraph fun g => { g with insts := g.insts.map add })
  | none => (inst, 0, s.updGraph fun g => { g with insts := g.insts ++ [⟨asid, gn, inst, s.clk, [⟨rank, u, num⟩], false⟩] })

/-- `coll` (R333, R334). -/
def execColl (g : Guard) (o : EngOrd) (tag : Option Nat) (op : CollOp) (ty : CollTy) (fs : Bool) (a b : Src) (kq : Nat) (s : State) : Out :=
  oneSeg .vecOnly g fs a b kq (fun t v d x q => t.collCheck v d x q)
    (fun t v => decide (256 ≤ t.collLoad (dieOf v.w.core)))
    (fun t r v act q x =>
      match t.collMember v op q with
      | none => r.startCmd v (.coll g o tag op ty fs a b kq) fs act o tag [{ x with code := 9 }] q (some (0, 0, 0))
      | some (_, gn, rank) =>
        let j := r.collJoin v.w.asid gn rank v.u v.w.wk.cmdseq
        j.2.2.startCmd v (.coll g o tag op ty fs a b kq) fs act o tag [{ x with code := j.2.1 }] q (some (gn, j.1, rank))) s

/-- The step of a reduction (R334). -/
def collStep (ty : CollTy) (x y : W32) : W32 :=
  match ty with
  | .iadd => x + y
  | .imin => (redStep .imin x y).1
  | .imax => (redStep .imax x y).1
  | .iminu => (redStep .iminu x y).1
  | .imaxu => (redStep .imaxu x y).1
  | .fadd => BitVec.ofNat 32 (ffF32.add .rn x.toNat y.toNat).1
  | .faddBf16 => BitVec.ofNat 32 (halves (ffBf16.add .rn) x.toNat y.toNat).1
  | .none => x

/-- The element-wise left fold over ranks (R334). -/
def collFold (ty : CollTy) (xs : List (List W32)) : List W32 :=
  match xs with
  | [] => []
  | y :: ys => ys.foldl (fun acc z => List.zipWith (collStep ty) acc z) y

/-- What each rank's destination receives (R334). -/
def collResult (op : CollOp) (ty : CollTy) (n root rank : Nat) (srcs : List (List W32)) : List W32 :=
  match op with
  | .allreduce => collFold ty srcs
  | .allgather => srcs.flatten
  | .redscat => collFold ty (srcs.map fun x => (x.drop (n * rank)).take n)
  | .bcast => srcs.getD root []

/-- Words of a member's source: those of M chunks for `redscat`, none but the root's for `bcast` (R334). -/
def collWords (op : CollOp) (n m root rank : Nat) : Nat :=
  match op with
  | .redscat => m * n
  | .bcast => if rank = root then n else 0
  | _ => n

/-- What a member of this module asked for. -/
structure CollAsk where
  u : Nat
  serial : Nat
  w : Wave
  o : Op
  c : Cmd
  op : CollOp
  ty : CollTy
  rank : Nat

/-- The members of this module in an instance, with their pending commands. -/
def State.collAsks (s : State) (x : CollInst) : List CollAsk :=
  x.parts.filterMap fun p =>
    (s.wave? p.wave).bind fun w => (w.cmdOp p.num).bind fun n => (w.op? n).bind fun o => o.cmd.bind fun c =>
      match o.ins with
      | .coll _ _ _ op ty .. => if c.segs.all (fun g => g.code == 0) && c.result.isNone then some ⟨p.wave, n, w, o, c, op, ty, p.rank⟩ else none
      | _ => none

/-- Give every member of this module that has issued a final code. -/
def State.collEnd (s : State) (xs : List CollAsk) (code : Nat) : State :=
  xs.foldl (fun s x => s.updOp x.u x.serial fun o => o.updCmd fun c => { c with segs := c.segs.map fun g => { g with code := code } }) s

/-- Read the sources of this module's members: every source, or the member that failed with what stopped it. -/
def State.collReads (s : State) (m root : Nat) : List CollAsk → List (Nat × List W32) → Except (CollAsk × ER Unit) (List (Nat × List W32) × State)
  | [], acc => .ok (acc, s)
  | x :: xs, acc =>
    let n := collWords x.op (x.c.par.headD 0).toNat m root x.rank
    let a := ((x.c.segs.map Seg.src).headD 0).toNat
    match if x.w.ops.any (fun p => p.precedes x.o) then .wait else s.engRead x.w a (4 * n) with
    | .ok bs s => s.collReads m root xs (acc ++ [(x.rank, (List.range n).map fun i => BitVec.ofNat 32 (natOfBytes ((bs.drop (4 * i)).take 4)))])
    | .bad c y => .error (x, .bad c y)
    | .page r wr y s => .error (x, .page r wr y s)
    | .wait => .error (x, .wait)

/-- The last member of an instance has issued (R334, R335): a mismatch ends every command; else every source is read, the
results are formed, and each command goes on to write its own. `others` are the members on other modules. -/
def execCollInstanceComplete (asid group inst : Nat) (others : List CollPart) (s : State) : Out :=
  let same := fun (x : CollInst) => x.asid == asid && x.group == group && x.inst == inst
  match s.graph.insts.find? same, smFind s.graph.groups (256 * asid + group) with
  | some x, some gr =>
    let asks := s.collAsks x
    let ranks := asks.map CollAsk.rank ++ others.map CollPart.rank
    let far := others.all fun p => (gr.members[p.rank]?).elim false fun m => m.pkg != s.mod.pkg
    if x.aborted || !far || asks.length != x.parts.length || ranks.length != gr.members.length || ranks.eraseDups.length != ranks.length
    then .next s
    else
      let keys := (asks.map fun y => (y.op, y.ty, (y.c.par.headD 0).toNat, (y.c.par.getD 2 0).toNat)) ++
        others.map fun p => (p.op, p.ty, p.n, p.root)
      let drop := fun (s : State) => s.updGraph fun g => { g with insts := g.insts.filter fun y => !same y }
      match keys with
      | [] => .next s
      | k :: ks =>
        if ks.any (fun y => y != k) then .next (drop (s.collEnd asks 7))
        else
          let m := gr.members.length
          match s.collReads m k.2.2.2 asks [] with
          | .ok (got, t) =>
            let srcs := (List.range m).map fun r => match got.find? fun y => y.1 == r with
              | some y => y.2
              | none => ((others.find? fun p => p.rank == r).map CollPart.src).getD []
            .next (drop (asks.foldl (fun t y => t.updOp y.u y.serial fun o => o.updCmd fun c =>
              { c with result := some (collResult k.1 k.2.1 k.2.2.1 k.2.2.2 y.rank srcs) }) t))
          | .error (y, .page r wr a _) => .next (s.updOp y.u y.serial fun o => o.updCmd fun c => { c with segs := c.segs.map fun g =>
              if g.fault.isSome then g else { g with fault := some (r, wr, BitVec.ofNat 64 a) } })
          | .error (y, .bad c a) => .next (s.updOp y.u y.serial fun o => o.updCmd fun z => { z with segs := z.segs.map fun g =>
              { g with code := c, addr := BitVec.ofNat 64 a } })
          | .error _ => .next s
  | _, _ => .next s

/-- An instance that is not complete LIMIT microseconds after its first issue is aborted (R335): every command issued ends
with status timeout, and its destination is unspecified. -/
def execCollTimeout (asid group inst : Nat) (s : State) : Out :=
  let same := fun (x : CollInst) => x.asid == asid && x.group == group && x.inst == inst
  match s.graph.insts.find? same, smFind s.graph.groups (256 * asid + group) with
  | some x, some gr =>
    if x.aborted ∨ s.clk < x.first + 1400 * gr.limit then .next s
    else
      let asks := s.collAsks x
      let s := asks.foldl (fun s y => s.scribble y.w ((y.c.segs.map Seg.dst).headD 0).toNat ((y.c.segs.map Seg.dst).headD 0).toNat
        (4 * (y.c.par.headD 0).toNat * (if y.op == .allgather then gr.members.length else 1))) (s.collEnd asks 8)
      let stop := fun (y : CollInst) => if same y then { y with aborted := true, parts := [] } else y
      .next (s.updGraph fun g => { g with insts := g.insts.map stop })
  | _, _ => .next s

end Sys2Proof.Machine
end

