-- ==== Sys2Proof/Machine/Matrix.lean ====
section
/-!
DEFINITION. The matrix class (R337-R373): the words of waves and of the engine program, the array, the engine's fetch, and
how a program stops.
-/

namespace Sys2Proof.Machine

/-! ## The starting wave's words -/

/-- `mstart` (R359): the target's form and line are checked here, its header where it can be read. -/
def execMstart (g : Guard) (t : Target) (parm : Option Nat) (fs : Bool) (s0 : State) : Out :=
  onWave .start (some fs) g s0 fun s v =>
    let m := v.active g
    let core := v.w.core
    if m = 0 then s.goOn v
    else s.reads v m (parm.elim [] fun x => [(.k x, 8)]) fun s => match s.claim core v.w.teamKey with
      | none => s.trapAt v .engine 0 m []
      | some c =>
        if s.engineHeld core then (s0.wantEngine core).holdAt v.u v.e .unit
        else if (c.engine core).run then s.trapAt v .engine 0 m []
        else match targetAt v.ctx.pc t 0 with
          | none => s.illegal v .target
          | some pc =>
            match c.checkTarget v.w.asid .entry pc with
            | none => s.illegal v .target
            | some (due, c) =>
              let ks := match parm with
                | some x => (List.range 8).map fun i => (i, s.rd v 0 (.k (x + i)))
                | none => []
              let c := c.updEngine core fun e =>
                { e with k := ks.foldl (fun (k : SMap W32) x => smSet 0 k x.1 x.2) e.k, f := [], mepc := pc, run := true, ver := v.sp.ver,
                         start := v.w.slot, detail := 0, touch := (e.mectl &&& 3) != 0, starter := some (v.u, v.serial),
                         buf := none, arrived := false, due := due, stopping := none, fault := none, record := none, jobs := [], pairing := false }
              (c.begin v { v.op (.mstart g t parm fs) fs m true [] with todo := 1, waiting := true }).goOn v

/-- `mstop` (R360, R361): a stop request that acts after this clock. -/
def execMstop (g : Guard) (s : State) : Out :=
  onWave .start none g s fun s v =>
    let m := v.active g
    let core := v.w.core
    if m = 0 then s.goOn v
    else
      let own := s.ownerAt core
      if own.isSome && own != some v.w.teamKey then s.trapAt v .engine 0 m []
      else
        (s.updEngine core fun e =>
          if own.isSome && e.run && e.stopping.isNone && e.fault.isNone then { e with stopping := some 2, stopAt := s.clk } else e).goOn v

/-! ## Stops -/

/-- The mask of the lanes that a wave-wide cause takes (R347). -/
def State.starterMask (s : State) (u : Nat) : Mask := (s.wave? u).elim 0 Wave.present

/-- The gang of the engine's owner stands on its cores. -/
def State.engineStands (s : State) (e : Engine) : Bool := (e.owner.bind fun t => s.gang? (t / 4)).elim false fun g => g.state == .placed

/-- The work of a stopped program has finished: the code, RUN, and the starting wave's count (R345, R347, R360). A stop request waits for its
clock to end, and through a save (R361); it withdraws the loads that wait (R360). -/
def execEngineStop (core : Nat) (s : State) : Out :=
  let e := s.engine core
  match e.stopping with
  | none => .next s
  | some code =>
    let moved := (e.starter.bind fun x => (s.wave? x.1).bind fun w => w.op? x.2).elim false fun o => o.movedAt == s.clk + 1
    if moved || !e.run || e.fault.isSome || (code == 2 && (decide (s.clk ≤ e.stopAt) || !s.engineStands e)) then .next s
    else
      let e' := if code = 2 then e.withdraw else e
      if !e'.jobs.isEmpty then .next (s.setEngine core e')
      else
      let s := s.setEngine core { e' with run := false, stopCode := code, stopping := none, starter := none, buf := none,
                                          arrived := false, due := .none, pairing := false }
      match e.starter with
      | none => .next s
      | some (u, n) => .next ((s.updOp u n fun o => { o with todo := 0 }).finishOp u n)

/-- What a program's failure pends in the starting wave (R347, R373): cause, detail code, and the cause-specific bytes. -/
def Engine.failure (e : Engine) (code detail : Nat) (addr : W64) (last : Option Coord) : Cause × Nat × List Byte :=
  let st := le 4 e.mestat.toNat
  match code with
  | 3 => (.engine, 2, st)
  | 4 => (.token, detail % 256, st)
  | 5 =>
    let c := last.getD ⟨0, 0, 0, 0⟩
    (.tstone, detail % 256, le 4 c.x ++ le 4 c.y ++ le 4 c.z ++ le 1 (addr.toNat / 256) ++ le 1 (addr.toNat % 256))
  | 6 => (.dataerr, 3, le 8 addr.toNat)
  | 7 => (.page, detail % 256, le 8 addr.toNat ++ le 4 (detail / 256))
  | _ => (.perm, 5, le 8 addr.toNat)

/-- A program has failed (R347, R373): the code and DETAIL, the cause in the starting wave with one detail, and the stop. Loads that wait are
withdrawn (DESIGN CHOICE, log 85). -/
def execEngineProgramFault (core : Nat) (s : State) : Out :=
  let e := s.engine core
  match e.fault with
  | none => .next s
  | some (code, detail, addr) =>
    let e := { e.dropLoads with fault := none, stopping := some code, stopCode := code, detail := if code ≤ 5 then detail % 256 else 0 }
    let s := s.setEngine core e
    match e.starter with
    | none => .next s
    | some (u, _) =>
      match s.wave? u with
      | none => .next s
      | some w =>
        let last := (s.team? w.teamKey).bind Team.lastMint
        let f := e.failure code detail addr last
        let d : TDetail := ⟨w.serial, e.mepc, f.1.num, f.2.1, 0xFF, e.ver, w.present, padTo 16 f.2.2⟩
        .next (s.pend u f.1 w.present false (some d))

/-! ## The engine's fetch (R345, R347) -/

/-- The engine program may issue or fetch: it runs, its gang is placed, and no stop or failure is under way (R347, R360). -/
def State.engineUp (s : State) (core : Nat) : Bool :=
  let e := s.engine core
  e.run && e.fault.isNone && e.record.isNone && (s.ownerAt core).isSome && s.engineStands e &&
    (match e.stopping with
      | none => true
      | some c => c == 2 && decide (s.clk ≤ e.stopAt))

/-- The line of MEPC is in the engine's buffer. -/
def Engine.lineIn (e : Engine) : Bool := e.buf.elim false fun b => b.num == lineNum e.mepc

/-- A line in the engine's buffer passes the checks of R56 and what is due of the target; at a clause header the clause
check (R60). -/
def State.engineEnter (s : State) (core : Nat) (e : Engine) (b : Line) : State :=
  let n := wordIdx e.mepc
  match (if e.lineIn then none else b.check e.ver) with
  | some d => s.engineIllegal core d
  | none =>
    if !s.targetOk (s.engineAsid e) e.due b n then s.engineIllegal core .target
    else if b.isHdr n then
      match b.clauseCheck n with
      | some d => s.engineIllegal core d
      | none => s.setEngine core { e with buf := some b, due := .none, arrived := true }
    else if (b.cover n).isSome && b.isStart n then s.setEngine core { e with buf := some b, due := .none, arrived := true }
    else s.engineIllegal core .target

/-- The engine fetches the line of MEPC, or stands at a header of the line it has (R345, R347). -/
def execEngineFetch (core : Nat) (s : State) : Out :=
  let e := s.engine core
  if !s.engineUp core || e.arrived then .next s
  else match (if e.lineIn then e.buf else none) with
    | some b => .next (s.engineEnter core e b)
    | none =>
      let asid := s.engineAsid e
      match s.codeLine asid (lineNum e.mepc) with
      | .ok b s => .next (s.engineEnter core e b)
      | .page r s =>
        let u := (e.starter.map Prod.fst).getD 0
        .next ((s.setEngine core { e with record := some s.front.nextFault }).postFault u none 4 e.mepc.toNat asid 2 0 0 e.mepc core
          (0xC0 + e.start) r)
      | .data => .next (s.engineFail core 6 0 e.mepc)
      | _ => .next (s.engineFail core 8 0 e.mepc)

/-! ## Interlocks (R346, R351) -/

/-- Array work that reads a tile. -/
def Job.readsTile (j : Job) (t : Nat) : Bool :=
  match j.ins with
  | .mma _ _ _ ta tb _ | .mmaPair _ _ _ ta tb _ => ta == t || tb == t
  | _ => false
/-- A `tld` that writes a tile. -/
def Job.writesTile (j : Job) (t : Nat) : Bool := j.load.elim false fun l => l.tile == t
/-- Array work on an accumulator. -/
def Job.onAcc (j : Job) (touch : Bool) (n : Nat) : Bool :=
  match j.ins with
  | .mma _ _ acc .. | .mmaPair _ _ acc .. => acc == n || (touch && acc + 8 == n)
  | _ => false
/-- Work of the array. -/
def Job.isArray (j : Job) : Bool :=
  match j.ins with
  | .mma .. | .mmaPair .. => true
  | _ => false

/-- The engine flag that a word selects has room; long-latency words of the engine raise it (R345, R346). -/
def Engine.flagRoom (e : Engine) (f : Option Nat) : Bool :=
  match f with
  | some n => decide (smGet 0 e.f n < 63)
  | none => true
/-- Begin array work or a load. -/
def Engine.beginJob (e : Engine) (i : Instr) (f : Option Nat) (l : Option Load := none) : Engine :=
  { e with jobs := e.jobs ++ [⟨i, f, l⟩], f := match f with
      | some n => smSet 0 e.f n (smGet 0 e.f n + 1)
      | none => e.f }
/-- The first job that a test selects ends, and its flag falls. -/
def Engine.endJob (e : Engine) (p : Job → Bool) : Engine :=
  match e.jobs.findIdx? p with
  | none => e
  | some i =>
    let f := (e.jobs[i]?).bind Job.flag
    { e with jobs := e.jobs.eraseIdx i, f := match f with
        | some n => smSet 0 e.f n (smGet 0 e.f n - 1)
        | none => e.f }

/-- Touchstone refuses the upper accumulators (R352). -/
def Engine.accBad (e : Engine) (n : Nat) : Bool := e.touch && decide (8 ≤ n)

/-- The token check of an engine access (R349): none raises TOKEN; a returned token is retaken. -/
def Engine.takeToken (e : Engine) (n : Nat) : Option Engine :=
  if e.token n = 1 ∨ e.token n = 2 then none else some (e.setToken n 0 none)

/-! ## Loads (R362) -/

/-- Bytes of the scratchpad of a team, or what stops the load. -/
def State.engineSpad (s : State) (team off n : Nat) : Option (List Byte) :=
  match s.spadRead team off n with
  | .ok bs _ => some bs
  | _ => none

/-- Write bytes of a tile row. -/
def Engine.putTile (e : Engine) (n r : Nat) (bs : List Byte) : Engine :=
  { e with tile := bs.zipIdx.foldl (fun t b => smPut (8192 * n + 128 * r + b.2) b.1 t) e.tile }
/-- Write scale bytes of a tile row. -/
def Engine.putScale (e : Engine) (n r : Nat) (bs : List Byte) : Engine :=
  { e with scale := bs.zipIdx.foldl (fun t b => smPut (256 * n + 4 * r + b.2) b.1 t) e.scale }

/-- The rows that a load copies, in order; none where a byte holds an uncorrectable error. -/
def State.loadRows (s : State) (team : Nat) (l : Load) : List Nat → Engine → Option Engine
  | [], e => some e
  | r :: rs, e =>
    let a := l.base + l.step * r
    let n := l.shape.rowlen + 1
    match s.engineSpad team a n, s.engineSpad team (a + 128) (if l.shape.fmt = 2 then (n + 31) / 32 else 0) with
    | some bs, some sc => s.loadRows team l rs ((e.putTile l.tile r bs).putScale l.tile r sc)
    | _, _ => none

/-- The checks of `tld` that need no byte (R362). -/
def loadShapeBad (sh : TShape) (mp : OMap) : Bool :=
  !(decide (1 ≤ sh.fmt) && decide (sh.fmt ≤ 6)) || sh.fmt != mp.fmt || (sh.fmt == 6 && sh.rowlen % 2 == 0) ||
    (sh.fmt == 2 && decide (mp.stride < 9))

/-- A row lies outside its slot or the scratchpad (R362). -/
def Load.rowBad (l : Load) (spad r : Nat) : Bool :=
  let a := l.base + l.step * r
  let n := l.shape.rowlen + 1
  let last := if l.shape.fmt = 2 then max (a + n) (a + 128 + (n + 31) / 32) else a + n
  decide (l.top < last) || decide (spad < last)

/-- `tld` (R362): its checks are made and the load begins to wait for its phase (R348); the sequencer goes on. `tldDone` copies the rows. -/
def execTld (g : Guard) (td map : Nat) (slot : Option Src) (b : Src) (fs : Bool) (s : State) : Out :=
  onEngine (some fs) g s fun s core c e =>
    let sel := match slot with
      | some x => s.engineRd core e x
      | none => some 0
    match sel, s.engineRd core e b with
    | some sw, some off =>
      let sh := e.shape td
      let mp := e.omapAt map
      let rg := e.ring mp.ring
      let sl := if slot.isSome then bitsOf sw.toNat 7 0 else mp.slot
      let ph := if slot.isSome then sw.getLsbD 8 else mp.phase
      let size := (rg.slotsz + 1) * 128
      let start := rg.base * 128 + sl * size
      let load : Load := ⟨td, sh, mp.ring, sl, ph, start + 16 * off.toNat, 16 * mp.stride, start + size, c.pc⟩
      if e.slave then s
      else if loadShapeBad sh mp || !rg.names sl then s.engineIllegal core .operand
      else if e.jobs.any (fun j => j.readsTile td) || !e.flagRoom (c.flag fs) then s
      else (s.setEngine core (e.beginJob (.tld g td map slot b fs) (c.flag fs) (some load))).engineGo core c
    | _, _ => s.engineIllegal core .operand

/-- The engine's tile is a follower's that a pair operation reads: rows 64-127 of its A (R351). -/
def State.pairReads (s : State) (core t : Nat) : Bool :=
  (s.engine core).slave && (s.engine (core - 1)).jobs.any fun j => match j.ins with
    | .mmaPair _ _ _ ta .. => ta == t
    | _ => false

/-- A load may read: the slot's bit is the awaited phase, and no flip of this clock is to come before (R348); its tile is not being read
(R351). -/
def State.loadDue (s : State) (core : Nat) (l : Load) : Bool :=
  (s.engine core).phaseBit l.ring l.slot == l.phase && !s.pairReads core l.tile && s.turns.all fun t => quadOf t.1 != quadOf core

/-- The oldest load of the engine reads (R348, R362): it acquires at `.quad`, checks the bounds, and copies its rows; with every byte in the
tile its flag falls (R358). One that fails writes nothing, and the program stops at its word (R347, R373). -/
def execTldDone (core : Nat) (s : State) : Out :=
  let e := s.engine core
  match e.jobs.findSome? Job.load with
  | none => .next s
  | some l =>
    if !s.loadDue core l then .next s
    else
      let s := s.acquire core .quad
      let ended := e.endJob fun j => j.load.isSome
      let team := e.owner.getD 0
      let rows := List.range (l.shape.rows + 1)
      let failed := s.setEngine core { ended with mepc := l.pc }
      if rows.any (l.rowBad ((s.team? team).elim 0 fun t => t.spadG * 16384)) then .next (failed.engineIllegal core .operand)
      else match s.loadRows team l rows ended with
        | none => .next (failed.engineFail core 6 0 (BitVec.ofNat 64 l.base))
        | some x => .next (s.setEngine core { x with latch := smPut l.tile (l.shape.fmt, l.shape.cb) x.latch })

/-! ## The array (R363-R366) -/

/-- K of a format (R363). -/
def mmaK (f : Nat) : Nat := if f ≤ 2 then 256 else if f = 6 then 64 else 128

/-- The raw bits of element k of a row. -/
def Engine.rawElem (e : Engine) (bits n r k : Nat) : Nat :=
  let p := bits * k
  (e.tileByte n r (p / 8) + 256 * e.tileByte n r (p / 8 + 1)) / 2 ^ (p % 8) % 2 ^ bits

/-- Element k of row r of tile n, as an `mma` of format `f` reads it: exact, with the latched format and codebook, +0 beyond
the shape (R160, R343, R363). -/
def Engine.elem (e : Engine) (m : Mem) (f n r k : Nat) : FV :=
  let sh := e.shape n
  let la := (smFind e.latch n).getD (f, 0)
  let bits := elemBits la.1
  if sh.rows < r ∨ sh.rowlen < bits * k / 8 then .fin false 0 0
  else decodeElem la.1 (e.rawElem bits n r k) (m.codebook la.2) (e.scaleByte n r (k / 64))

/-- Row r of a tile. -/
def Engine.row (e : Engine) (m : Mem) (f n r : Nat) : List FV := (List.range (mmaK f)).map (e.elem m f n r)

/-- The integer of an i8 element. An element of a tile that latched another format gives its decoded mantissa with its sign, the exponent
dropped (DESIGN CHOICE, log 28). -/
def FV.int : FV → Int
  | .fin neg m _ => signedMant neg m
  | _ => 0

/-- One output element from its operand rows and its old value (R166, R167). -/
def mmaElem (f : Nat) (acc : W32) (a b : List FV) : W32 :=
  if f = 5 then acc + BitVec.ofInt 32 ((List.zipWith (fun x y => x.int * y.int) a b).foldl (· + ·) 0)
  else BitVec.ofNat 32 (mmaChunks acc.toNat (chunks16 (List.zipWith FV.times a b) (mmaK f / 16)))

/-- A whole product into an accumulator: `rowsA` by row, `rowsB` by column. -/
def Engine.multiply (e : Engine) (f acc : Nat) (rowsA rowsB : List (List FV)) : Engine :=
  e.setAcc acc fun i j => mmaElem f (e.accAt acc i j) (rowsA.getD i []) (rowsB.getD j [])

/-- The 64 rows of a tile. -/
def Engine.rows (e : Engine) (m : Mem) (f n : Nat) : List (List FV) := (List.range 64).map (e.row m f n)

/-- The second result under Touchstone equals the first (R352). -/
def Engine.shadow (e : Engine) (touch : Bool) (acc : Nat) : Engine :=
  if touch then e.setAcc (acc + 8) fun i j => e.accAt acc i j else e

/-- `mma` and `mma.pair` executed (R462). -/
def State.countMma (s : State) (e : Engine) : State :=
  match e.owner with
  | some t => s.updTeam t fun x => { x with bank := { x.bank with pmc := smSet 0 x.bank.pmc 5 (smGet 0 x.bank.pmc 5 + 1) } }
  | none => s

/-- `mma` (R363). -/
def execMma (g : Guard) (f : Fmt) (acc ta tb : Nat) (fs : Bool) (s : State) : Out :=
  onEngine (some fs) g s fun s core c e =>
    let k := fmtCode f
    if e.slave then s
    else if (e.shape ta).fmt ≠ k ∨ (e.shape tb).fmt ≠ k ∨ e.accBad acc then s.engineIllegal core .operand
    else if e.jobs.any (fun j => j.writesTile ta || j.writesTile tb || j.onAcc e.touch acc) || !e.flagRoom (c.flag fs) then s
    else match e.takeToken acc with
      | none => s.engineFail core 4 acc 0
      | some e =>
        let x := (e.multiply k acc (e.rows s.mem k ta) (e.rows s.mem k tb)).shadow e.touch acc
        ((s.countMma e).setEngine core (x.beginJob (.mma g f acc ta tb fs) (c.flag fs))).engineGo core c

/-- The follower of a leader (R12). -/
def followerOf (core : Nat) : Option Nat := if core % 2 = 0 then some (core + 1) else none

/-- The follower's array cannot take a pair operation yet: its own is under way, or a load of the tile may have begun (R351). -/
def State.pairWaits (s : State) (core ta : Nat) : Bool :=
  let y := s.engine core
  y.slave || y.jobs.any fun j => j.isArray || j.load.elim false fun l => l.tile == ta && y.phaseBit l.ring l.slot == l.phase

/-- A pair operation runs on both arrays, and the follower is slaved (R351, R364). -/
def State.pairUp (s : State) (core : Nat) (c : Ctx) (e y : Engine) (i : Instr) (k acc ta tb : Nat) (f : Option Nat) : State :=
  let rb := e.rows s.mem k tb
  let x := { (e.multiply k acc (e.rows s.mem k ta) rb).shadow e.touch acc with pairing := false }
  let y := { (y.multiply k acc (y.rows s.mem k ta) rb).shadow e.touch acc with slave := true }
  (((s.countMma e).setEngine (core + 1) y).setEngine core (x.beginJob i f)).engineGo core c

/-- `mma.pair` (R351, R364): formats and tokens are checked when it issues, and it then waits for the follower's array. -/
def execMmaPair (g : Guard) (f : Fmt) (acc ta tb : Nat) (fs : Bool) (s : State) : Out :=
  onEngine (some fs) g s fun s core c e =>
    let k := fmtCode f
    let y := s.engine (core + 1)
    let run := fun (e y : Engine) => s.pairUp core c e y (.mmaPair g f acc ta tb fs) k acc ta tb (c.flag fs)
    let same := (s.ownerAt (core + 1)).isSome && (y.owner.map fun t => t / 4) == (e.owner.map fun t => t / 4)
    if e.slave then s
    else if e.pairing then (if s.pairWaits (core + 1) ta then s else run e y)
    else if (followerOf core).isNone || !same || (e.shape ta).fmt != k || (e.shape tb).fmt != k || (y.shape ta).fmt != k || e.accBad acc
    then s.engineIllegal core .operand
    else if e.jobs.any (fun j => j.writesTile ta || j.writesTile tb || j.onAcc e.touch acc) || !e.flagRoom (c.flag fs) then s
    else match e.takeToken acc, y.takeToken acc with
      | some e, some y =>
        if s.pairWaits (core + 1) ta then (s.setEngine (core + 1) y).setEngine core { e with pairing := true } else run e y
      | _, _ => s.engineFail core 4 acc 0

/-- The oldest array operation of an engine retires: its flag falls; a pair frees its follower (R351, R358). -/
def execMmaDone (core : Nat) (s : State) : Out :=
  match (s.engine core).jobs.find? Job.isArray with
  | none => .next s
  | some j =>
    let s := s.updEngine core fun e => e.endJob Job.isArray
    match j.ins with
    | .mmaPair .. => .next (s.updEngine (core + 1) fun y => { y with slave := false })
    | _ => .next s

/-- `accz` (R365). -/
def execAccz (g : Guard) (acc : Nat) (s : State) : Out :=
  onEngine none g s fun s core c e =>
    if e.slave then s
    else if e.accBad acc then s.engineIllegal core .operand
    else if e.jobs.any (fun j => j.onAcc e.touch acc) then s
    else match e.takeToken acc with
      | none => s.engineFail core 4 acc 0
      | some e =>
        let x := e.setAcc acc fun _ _ => 0
        let x := if e.touch then x.setAcc (acc + 8) fun _ _ => 0 else x
        (s.setEngine core x).engineGo core c

/-- The first element in which an accumulator and its shadow differ (R352). -/
def Engine.mismatch (e : Engine) (acc : Nat) : Option Nat :=
  (List.range 4096).find? fun i => e.accAt acc (i / 64) (i % 64) != e.accAt (acc + 8) (i / 64) (i % 64)

/-- `acrel` (R350, R352, R366). -/
def execAcrel (g : Guard) (acc : Nat) (s : State) : Out :=
  onEngine none g s fun s core c e =>
    if e.slave then s
    else if e.accBad acc then s.engineIllegal core .operand
    else if e.token acc = 1 ∨ e.token acc = 2 then s.engineFail core 4 acc 0
    else if e.jobs.any (fun j => j.onAcc e.touch acc) then s
    else match (if e.touch then e.mismatch acc else none) with
      | some i =>
        (s.setEngine core { e.setToken acc 0 none with mism := e.mism ++ [s.clk] }).engineFail core 5 acc
          (BitVec.ofNat 64 (i / 64 * 256 + i % 64))
      | none => (s.setEngine core (e.offer acc s.clk)).engineGo core c

/-! ## Rings (R348, R367, R368) -/

/-- The core that a ring word of a wave names (R367). -/
def ringCore (own core : Nat) (self : Bool) : Nat := if self then own else own / 4 * 4 + core

/-- A ring word of a wave is refused: the engine is unowned, of another gang, or the ring or slot may not be named. -/
def State.ringRefused (s : State) (v : Env) (c ring slot : Nat) : Bool :=
  match s.ownerAt c with
  | none => true
  | some t => t / 4 != v.w.gang || !((s.engine c).ring ring).names slot

/-- `ring.wait` (R368). -/
def execRingWait (g : Guard) (ring core : Nat) (self : Bool) (a : Src) (s : State) : Out :=
  onEither .ring none g s (fun t v =>
    let m := v.active g
    if m = 0 then t.goOn v
    else t.reads v m [(a, 1)] fun t =>
      let c := ringCore v.w.core core self
      let x := t.rd v 0 a
      let slot := bitsOf x.toNat 7 0
      if t.ringRefused v c ring slot then t.trapAt v .engine 0 m []
      else if (t.engine c).phaseBit ring slot == x.getLsbD 8 then (t.acquire v.w.core .quad).goOn v
      else s.holdAt v.u v.e (.ring c ring slot (x.getLsbD 8)))
    fun s core c e =>
      match s.engineRd core e a with
      | none => s.engineIllegal core .operand
      | some x =>
        let slot := bitsOf x.toNat 7 0
        if !self || !(e.ring ring).names slot then s.engineIllegal core .operand
        else if e.phaseBit ring slot == x.getLsbD 8 then (s.acquire core .quad).engineGo core c
        else s

/-- `ring.arv` (R348, R368): in the engine after its loads and its array work. -/
def execRingArv (g : Guard) (ring core : Nat) (self : Bool) (a : Src) (s : State) : Out :=
  onEither .ring none g s (fun t v =>
    let m := v.active g
    if m = 0 then t.goOn v
    else t.reads v m [(a, 1)] fun t =>
      let c := ringCore v.w.core core self
      let slot := bitsOf (t.rd v 0 a).toNat 7 0
      let claimed := if c = v.w.core ∧ (t.ownerAt c).isNone then (t.claim c v.w.teamKey).getD t else t
      if claimed.ringRefused v c ring slot then t.trapAt v .engine 0 m []
      else withRelease s claimed v .quad true fun t => (t.updEngine c fun e => e.flip ring slot).goOn v)
    fun s core c e =>
      match s.engineRd core e a with
      | none => s.engineIllegal core .operand
      | some x =>
        let slot := bitsOf x.toNat 7 0
        if !self || !(e.ring ring).names slot then s.engineIllegal core .operand
        else if !e.jobs.isEmpty then s
        else
          let t := s.flushCore core
          if !(t.wbIds core).isEmpty then t
          else (t.updEngine core fun e => e.flip ring slot).engineGo core c

/-- `mloop` (R369). -/
def execMloop (g : Guard) (t : Target) (x : Nat) (s : State) : Out :=
  onEngine none g s fun s core c e =>
    let n := smGet 0 e.k x - 1
    let e' := { e with k := smSet 0 e.k x n }
    if n = 0 then (s.setEngine core e').engineGo core c
    else match s.engineTarget c e t with
      | none => s.engineIllegal core .target
      | some (pc, d, s) => (s.setEngine core e').engineJump core pc d

/-! ## Tokens of waves (R349, R370, R371) -/

/-- A token word is refused with ENGINE (R337, R349, R370). -/
def State.tokenRefused (s : State) (v : Env) : Bool := s.ownerAt v.w.core != some v.w.teamKey

/-- `acq.a` (R349, R370). -/
def execAcqA (g : Guard) (acc : Nat) (s : State) : Out :=
  onWave .acc none g s fun t v =>
    let m := v.active g
    let core := v.w.core
    if m = 0 then t.goOn v
    else if t.tokenRefused v || (t.engine core).accBad acc then t.trapAt v .engine 0 m []
    else if (t.engine core).takable acc s.clk && !s.lowerWaits v.w acc then
      (t.updEngine core fun e => e.setToken acc 2 (some v.u)).goOn v
    else s.holdAt v.u v.e (.token acc)

/-- `accret` (R349, R370). -/
def execAccret (g : Guard) (acc : Nat) (s : State) : Out :=
  onWave .acc none g s fun t v =>
    let m := v.active g
    let core := v.w.core
    if m = 0 then t.goOn v
    else if t.tokenRefused v || (t.engine core).accBad acc then t.trapAt v .engine 0 m []
    else if !(t.engine core).holds acc v.u then t.trapAt v .token acc m []
    else withRelease s t v .core false fun t => (t.updEngine core fun e => e.setToken acc 3 none).goOn v

/-- `accrd` (R371): the values are those of the issue; the registers are written at completion. -/
def execAccrd (g : Guard) (bf16 fs : Bool) (d : Nat) (b : Src) (acc cc : Nat) (s : State) : Out :=
  onWave .acc (some fs) g s fun t v =>
    let m := v.active g
    let e := t.engine v.w.core
    if m = 0 then t.goOn v
    else t.reads v m [(b, 1)] fun t =>
      if t.tokenRefused v then t.trapAt v .engine 0 m []
      else if !e.holds acc v.u then t.trapAt v .token acc m []
      else
      let r := (t.rd v 0 b).toNat % 64
      let args := (lanesOf m).map fun l => (⟨l, BitVec.allOnes 64, [e.accAt acc r l, e.accAt acc r (l + 32)]⟩ : LaneArg)
      (t.begin v (v.op (.accrd g bf16 fs d b acc cc) fs m false args)).goOn v

/-- What a lane of `accrd` receives (R371). -/
def accWords (bf16 : Bool) (x y : W32) : List W32 × Events :=
  if bf16 then
    let lo := toBf16F .rn x.toNat
    let hi := toBf16F .rn y.toNat
    ([BitVec.ofNat 32 (hi.1 * 65536 + lo.1)], (lo.2 ++ hi.2).eraseDups.filter fun c => c != .inv)
  else ([x, y], [])

/-- The tokens that a wave holds go back when it ends, with the release of `accret` (R349), also where its gang is saved. -/
def State.returnTokens (s : State) (u : Nat) : State :=
  match s.wave? u with
  | none => s
  | some w => s.updOwned w.teamKey fun e =>
      ((List.range 16).filter fun n => e.holds n u).foldl (fun e n => e.setToken n 3 none) e

end Sys2Proof.Machine
end

