-- ==== Sys2Proof/Machine/Graph.lean ====
section
/-!
DEFINITION. The graph unit's shared operations: what it reads and writes in memory, node descriptors (R380, R500), priority
(R383), readiness (R382, R406), the dealing of tasks (R382), arena broadcasts (R399-R401), and rings of records (R379, R407).
-/

namespace Sys2Proof.Machine

/-! ## Memory as the graph unit sees it -/

/-- Read a range of the deep window at the homes of its lines. A line that no tag held is held by none afterwards: a record that the
graph unit or the front end read does not show among the tags of `hmstat` (R417). Its fill counts as a share hit where it is one, as any
fill does (R261; log 23). -/
def State.graphRead (s : State) (asid a n : Nat) : MR (List Byte) :=
  if windowOf a ≠ 0 then .page 1 s
  else (lineChunks a n).foldl (fun acc c => acc.bind fun bs s =>
    let key := lineKey asid (a + c.1)
    let held := (smFind s.mem.tags key).isSome
    (s.homeRead key .read).bind fun d s =>
      .ok (bs ++ (List.range c.2).map fun i => lineByte d ((a + c.1) % 128 + i)) (if held then s else s.dropTag key)) (.ok [] s)

/-- Write a range of the deep window at the homes of its lines: each keeps its own entry, as after an engine write of part of a line (R246;
DESIGN CHOICE, log 23). -/
def State.graphWrite (s : State) (asid a : Nat) (bs : List Byte) : MR Unit :=
  if windowOf a ≠ 0 then .page 1 s
  else (lineChunks a bs.length).foldl (fun acc c => acc.bind fun _ s =>
    s.homeWrite (lineKey asid (a + c.1)) (lineSet 0 ((a + c.1) % 128) ((bs.drop c.1).take c.2)) (spanMask ((a + c.1) % 128) c.2) .keep)
    (.ok () s)

/-- A field of a record: n bytes at an offset, little-endian. -/
def recf (bs : List Byte) (off n : Nat) : Nat := natOfBytes ((bs.drop off).take n)

/-! ## Node descriptors (R380, R500) -/

/-- Read a descriptor of 64 bytes; none is "shape": it does not meet R380, its neighbours aside. -/
def nodeDesc (b : List Byte) : Option NodeDesc :=
  let w := recf b 0 4
  let work := w % 4
  let ns := bitsOf w 15 8
  let x := recf b 0x10 4
  let y := recf b 0x14 4
  let z := recf b 0x18 4
  let sc := (List.range 8).map fun i => recf b (0x20 + 4 * i) 4
  let wd := if work = 0 then decide (1 ≤ x ∧ 1 ≤ y ∧ 1 ≤ z ∧ x * y * z ≤ 2 ^ 32 ∧ recf b 0x1C 4 = 0)
    else if work = 1 then decide (1 ≤ x ∧ x ≤ 65536 ∧ y = 0 ∧ recf b 0x18 8 % 8 = 0)
    else recf b 0x10 16 == 0
  if bitsOf w 31 16 ≠ 0 ∨ bitsOf w 7 5 ≠ 0 ∨ 8 < ns ∨ work = 3 ∨ 262144 < recf b 8 4 ∨ wd = false ∨
      (sc.drop ns).any (fun v => v != 0xFFFFFFFF) = true ∨ (sc.take ns).eraseDups.length ≠ ns then none
  else some ⟨bitsOf w 4 2, work, recf b 4 4, recf b 8 4, recf b 0x0C 4, if work = 0 then [x, y, z] else [],
    if work = 1 then x else 0, if work = 1 then recf b 0x18 8 else 0, sc.take ns⟩

/-- Read the task records of a list (R500). -/
def State.readTasks (s : State) (asid list count : Nat) : MR (List (W64 × List W32)) :=
  (s.graphRead asid list (40 * count)).bind fun bs s =>
    .ok ((List.range count).map fun i =>
      (BitVec.ofNat 64 (recf bs (40 * i) 8), (List.range 8).map fun j => BitVec.ofNat 32 (recf bs (40 * i + 8 + 4 * j) 4))) s

/-- Coordinates of an index space. -/
def Node.coords (n : Node) : Nat := if n.work = 0 then n.ext.foldl (· * ·) 1 else 0

/-- Nothing of a released node is outstanding (R404): no coordinate to dispense or to report, no task. A failed node dispenses
nothing more (R406). -/
def Node.over (n : Node) : Bool :=
  n.state == .released && (n.failed != 0 || n.given == n.coords) && n.given == n.done + n.lost && n.tasks == n.tasksDone

/-! ## Numbers and priority -/

/-- Live nodes of the module, those that launches already consumed are still to create included (R381). -/
def State.liveNodes (s : State) : Nat := s.graph.nodes.length + (s.front.cmds.map fun c => c.2.nodes).sum

/-- The next `n` consecutive node numbers of an address space, none of them 0xFFFFFFFF (R381). -/
def State.nodeNumbers (s : State) (asid n : Nat) : Nat × State :=
  let a := (s.asid asid).nextNode
  let first := if 2 ^ 32 - 1 < a + n then 0 else a
  (first, s.updAsid asid fun d => { d with nextNode := first + n })

/-- E of a node (R383): the first argument bounds the chain of successors. -/
def State.effPrio (s : State) : Nat → Nat → Nat
  | 0, k => (s.node? k).elim 0 Node.prio
  | n + 1, k =>
    match s.node? k with
    | none => 0
    | some x => x.succ.foldl (fun p i =>
        let j := nodeKey x.asid i
        match s.node? j with
        | some y => if y.state == .pending || y.state == .ready then max p (s.effPrio n j) else p
        | none => p) x.prio

/-- E of a node. -/
def State.prioOf (s : State) (k : Nat) : Nat := s.effPrio s.graph.nodes.length k

/-- The handle of a node's arena (R147). -/
def Node.handle (n : Node) : Nat :=
  match n.slot with
  | some (k, g) => g * 4096 + k
  | none => 0

/-- Take the next order number. -/
def State.order (s : State) : Nat × State := (s.graph.nextOrder, s.updGraph fun g => { g with nextOrder := g.nextOrder + 1 })

/-- A node whose count has fallen to zero: ready, or failed where a predecessor has failed (R382, R406). -/
def State.makeReady (s : State) (k : Nat) : State :=
  match s.node? k with
  | none => s
  | some n =>
    if n.state != .pending || n.deps != 0 then s
    else if n.doomed || n.failed != 0 then
      s.updNode k fun n => { n with failed := if n.failed = 0 then 3 else n.failed, state := .recording, step := 6 }
    else
      let o := s.order
      o.2.updNode k fun n => { n with state := .ready, readyAt := o.1 }

/-- Create a node (R380, R413). -/
def State.addNode (s : State) (asid kernel num : Nat) (d : NodeDesc) (batch : List (W64 × List W32)) (preds : Nat) : State :=
  let tasks := batch.map fun t => ({ kernel := kernel, node := num, entry := t.1, arg := t.2 } : Task)
  let n : Node := { asid := asid, num := num, kernel := kernel, prio := d.prio, work := d.work, deps := d.deps, need := d.deps,
                    preds := preds, arena := d.arena, ext := d.ext, batch := tasks, succ := d.succ }
  (s.updGraph fun g => { g with nodes := smPut (nodeKey asid num) n g.nodes }).makeReady (nodeKey asid num)

/-! ## Tasks (R382, R391, R412) -/

/-- Cores that hold teams of a kernel, in ascending order: those of a gang that is being set up, or saved, among them. -/
def State.kernelCores (s : State) (k : Nat) : List Nat :=
  (List.range 512).filter fun c => s.graph.teams.any fun t =>
    t.2.core == some c && (s.gang? (t.1 / 4)).elim false fun g => g.kernel == k

/-- The first number after `last`, wrapping round. -/
def nextAfter (last : Option Nat) (xs : List Nat) : Option Nat :=
  match last with
  | some l => match xs.find? fun x => decide (l < x) with
    | some x => some x
    | none => xs.head?
  | none => xs.head?

/-- Undealt tasks of a failed node are neither dealt nor poured (R406). -/
def State.dropFailed (s : State) (k : Nat) : State :=
  match s.kernel? k with
  | none => s
  | some x =>
    let bad := fun (t : Task) => (s.node? (nodeKey x.asid t.node)).elim true fun n => n.failed != 0
    let s' := (x.undealt.filter bad).foldl (fun s t => s.updNode (nodeKey x.asid t.node) fun n => { n with tasks := n.tasks - 1 }) s
    s'.updKernel k fun x => { x with undealt := x.undealt.filter fun t => !bad t }

/-- Records in a core's queue: those that a Sprue gathers are in it no more (R391, R393). -/
def Core.queued (c : Core) : Nat := (c.tq.filter fun t => !t.gathered).length

/-- Deal the undealt tasks of a kernel while a queue has room: at most `n`. -/
def State.dealTasks (s : State) (k : Nat) : Nat → State
  | 0 => s
  | n + 1 =>
    match s.kernel? k with
    | none => s
    | some x =>
      match x.undealt with
      | [] => s
      | t :: ts =>
        match nextAfter x.dealt ((s.kernelCores k).filter fun c => decide ((s.core c).queued < 4096)) with
        | none => s
        | some c =>
          let s := s.updKernel k fun x => { x with undealt := ts, dealt := some c }
          (s.updCore c fun y => { y with tq := y.tq ++ [t] }).dealTasks k n

/-- Deal what can be dealt of a kernel. -/
def State.deal (s : State) (k : Nat) : State :=
  let s := s.dropFailed k
  s.dealTasks k ((s.kernel? k).elim 0 fun x => x.undealt.length)

/-- Deal what can be dealt of every kernel. -/
def State.dealAll (s : State) : State := (s.graph.kernels.map Prod.fst).foldl State.deal s

/-! ## Arena broadcasts (R399-R401) -/

/-- Cores of the module. -/
def allCores : List Nat := List.range 512

/-- Write the entry of a slot and send it to every core. -/
def State.castArena (s : State) (asid slot : Nat) (x : Arena) : State :=
  let k := arenaKey asid slot
  let old := smGet ({} : Arena) s.mem.arenas k
  (s.putArena asid slot x).updMem fun m => { m with lags := m.lags ++ [⟨k, old, allCores⟩] }

/-- Every core has applied what was sent of a slot. -/
def Mem.settled (m : Mem) (k : Nat) : Bool := m.lags.all fun l => l.key != k

/-- A word of a core's waves has issued in this clock. -/
def State.issuedOn (s : State) (core : Nat) : Bool :=
  s.waves.any fun w => w.2.place.isSome && w.2.core == core &&
    (List.range 5).any fun e => (w.2.split? e).elim false fun x => x.issued == s.clk + 1

/-- A core applies the broadcast of a slot (R400): in a clock the update comes before the core's accesses (R415). -/
def execArenaEntryApply (core key : Nat) (s : State) : Out :=
  if s.issuedOn core then .next s
  else .next (s.updMem fun m => { m with lags := (m.lags.map fun l =>
    if l.key == key then { l with cores := l.cores.filter fun c => c != core } else l).filter fun l => !l.cores.isEmpty })

/-! ## Kernel records (R379) -/

/-- The 64-byte record of a kernel. -/
def kernelRecord (num asid status launch first nnodes clk gangs grown : Nat) : List Byte :=
  le 2 num ++ le 2 asid ++ le 1 status ++ le 2 0 ++ le 1 0x80 ++ le 8 launch ++ le 4 first ++ le 4 nnodes ++ le 8 clk ++ le 4 gangs ++
    le 4 grown ++ le 24 0

/-- Write a kernel record to CREC and copy it into the node completion ring; a write that fails, or a CREC that is not known, leaves
only the copy (log 77). -/
def State.putRecord (s : State) (asid : Nat) (crec : Option Nat) (bs : List Byte) : State :=
  let s := match crec.map fun a => s.graphWrite asid a bs with
    | some (.ok _ t) => t
    | _ => s
  s.ringPush asid true (padTo 128 bs)

end Sys2Proof.Machine
end

