-- ==== Sys2Proof/Machine/Work.lean ====
section
/-!
DEFINITION. The work class (R389, R390, R405, R408-R415): `mint`, `mint.done`, `tq.add`, `node.spawn` and `ar.chk`.
-/

namespace Sys2Proof.Machine

/-! ## The Mint (R389, R390, R410, R411) -/

/-- A `mint` request that reaches the Mint. -/
def Op.isMint (o : Op) : Bool :=
  match o.ins with
  | .mint .. => (o.arg? 0).elim false fun x => x.data == [0]
  | _ => false

/-- `mint`: the sum of held coordinates and outstanding requests is taken at issue. -/
def execMint (g : Guard) (fs : Bool) (kb : Nat) (s : State) : Out :=
  onceWord fs g none (.mint g fs kb) [] (fun _ _ => 0)
    (fun _ v => [if 4 ≤ v.w.wk.held.length + (v.w.ops.filter Op.isMint).length then 1 else 0]) s

/-- T of a quad (R390, R491): 0 while it is gated. -/
def State.tallow (s : State) (q : Nat) : Nat := if s.mod.gated.contains q then 0 else (smGet 512 s.mod.tallow q).toNat

/-- The nodes of a kernel that still have coordinates to give. -/
def State.mintNodes (s : State) (k : Nat) : List (Nat × Node) :=
  s.graph.nodes.filter fun n => n.2.kernel == k && n.2.state == .released && n.2.failed == 0 && n.2.work == 0 &&
    decide (n.2.given < n.2.coords)

/-- The Mint's first node: highest E, then first released (R389). -/
def State.mintFirst (s : State) (k : Nat) : Option (Nat × Node) :=
  (s.mintNodes k).foldl (fun b n =>
    match b with
    | none => some n
    | some c =>
      if s.prioOf c.1 < s.prioOf n.1 ∨ (s.prioOf c.1 = s.prioOf n.1 ∧ n.2.releasedAt < c.2.releasedAt) then some n else b) none

/-- A quad holds a placed gang of the kernel. -/
def State.onQuad (s : State) (k q : Nat) : Bool := (s.kernelCores k).any fun c => quadOf c == q

/-- The request is deferred (R390). -/
def State.defers (s : State) (k : Nat) (r : MintReq) : Bool :=
  (List.range 128).any fun q => q != r.quad && s.onQuad k q && decide (2 * s.tallow r.quad ≤ s.tallow q) &&
    s.graph.mintSeen.any fun m => m.1 == k && m.2.1 == q && decide (m.2.2 ≤ r.clk) && decide (r.clk ≤ m.2.2 + 1024)

/-- Requests that reach the Mint in one clock: in descending T, then ascending core (R390). -/
def State.mintBefore (s : State) (a b : MintReq) : Bool :=
  decide (a.clk < b.clk) || (a.clk == b.clk && (decide (s.tallow b.quad < s.tallow a.quad) ||
    (s.tallow a.quad == s.tallow b.quad && decide (a.core < b.core))))

/-- Coordinate i of an index space (R389): x fastest, then y, then z. -/
def Node.coord (n : Node) (i : Nat) : Coord :=
  let x := n.ext.getD 0 1
  let y := n.ext.getD 1 1
  ⟨n.num, i % x, i / x % y, i / (x * y)⟩

/-- The answer to a request (R389, R410): the eight words, and the state after. -/
def State.mintAnswer (s : State) (u : Nat) (w : Wave) (r : MintReq) : List W32 × State :=
  let code := fun (n : Nat) => (BitVec.ofNat 32 n :: List.replicate 7 (0 : W32))
  match s.mintFirst w.kernel with
  | none => (code 1, s)
  | some (k, n) =>
    if s.defers w.kernel r then (code 2, s)
    else
      let c := n.coord n.given
      let size := if n.slot.isSome then n.arena else 0
      let words := [0, n.num, c.x, c.y, c.z, n.handle, size, s.prioOf k].map (BitVec.ofNat 32)
      let s := s.updNode k fun n => { n with given := n.given + 1 }
      let s := s.updWave u fun w => { w with wk := { w.wk with held := c :: w.wk.held } }
      let s := s.updTeam w.teamKey fun t => { t with lastMint := some c }
      (words, if w.place.isSome then s.acquire w.core .pkg else s)

/-- A `mint` is served (R390, R410): it first reaches the Mint; from the next clock on it is answered in its turn. A wave
that holds four coordinates, outstanding requests counted, is answered without the Mint. -/
def execMintServe (u n : Nat) (s : State) : Out :=
  match (s.wave? u).bind fun w => (w.op? n).map fun o => (w, o) with
  | none => .next s
  | some (w, o) =>
    match o.ins with
    | .mint _ _ kb =>
      if o.movedAt = s.clk + 1 then .next s
      else if !o.isMint then .next (s.finishOnce u o kb (3 :: List.replicate 7 0))
      else match s.graph.mintReqs.find? fun r => r.wave == u && r.op == n with
        | none =>
          if w.place.isNone then .next s
          else
            let r : MintReq := ⟨u, n, quadOf w.core, w.core, s.clk⟩
            .next (s.updGraph fun g => { g with
              mintReqs := g.mintReqs ++ [r]
              mintSeen := (w.kernel, r.quad, s.clk) :: g.mintSeen.filter fun m =>
                decide (s.clk ≤ m.2.2 + 1024) || g.mintReqs.any fun q => decide (q.clk ≤ m.2.2 + 1024) })
        | some r =>
          let sameMint := fun (q : MintReq) => (s.wave? q.wave).elim false fun y => y.kernel == w.kernel
          if s.clk ≤ r.clk ∨ s.graph.mintReqs.any (fun q => sameMint q && s.mintBefore q r) then .next s
          else
            let s := s.updGraph fun g => { g with mintReqs := g.mintReqs.filter fun q => !(q.wave == u && q.op == n) }
            let a := s.mintAnswer u w r
            .next (a.2.finishOnce u o kb a.1)
    | _ => .next s

/-- `mint.done`: a release at `.pkg` first (R411). -/
def execMintDone (g : Guard) (fs : Bool) (d kb : Nat) (s : State) : Out :=
  onceWord fs g (some .pkg) (.mintDone g fs d kb) [(.k (kb + 1), 4)] (fun _ _ => 0)
    (fun t v => (List.range 4).map fun i => t.rd v 0 (.k (kb + 1 + i))) s

/-- The report reaches the graph unit (R411). -/
def State.completeMintDone (s : State) (u : Nat) (w : Wave) (o : Op) (d : Nat) : State :=
  let xs := ((o.arg? 0).elim [] LaneArg.data).map BitVec.toNat
  let c : Coord := ⟨xs.getD 0 0, xs.getD 1 0, xs.getD 2 0, xs.getD 3 0⟩
  if w.wk.held.contains c then
    let s := s.updNode (nodeKey w.asid c.node) fun n => { n with done := n.done + 1 }
    let s := s.updWave u fun w => { w with wk := { w.wk with held := w.wk.held.erase c } }
    s.finishOnce u o d [0]
  else s.finishOnce u o d [1]

/-- The coordinates that a wave holds when it ends are abandoned (R405). -/
def State.abandon (s : State) (u : Nat) : State :=
  match s.wave? u with
  | none => s
  | some w =>
    let s := w.wk.held.reverse.foldl (fun s c => s.updNode (nodeKey w.asid c.node) fun n =>
      { n with lost := n.lost + 1, firstLost := n.firstLost.or (some c) }) s
    s.updWave u fun w => { w with wk := { w.wk with held := [] } }

/-! ## `tq.add` (R412) -/

/-- `tq.add`: a release at `.pkg` first; one task, or one for each active lane. -/
def execTqAdd (g : Guard) (fs : Bool) (d : Dst) (a : Src) (b : Nat) (c : Src) (cc : Nat) (s : State) : Out :=
  onWave .any (some fs) g s fun t v =>
    let m := v.active g
    let uni := dstUni d
    let rec_ := if uni then Src.k b else Src.v b
    if m = 0 then t.goOn v
    else withRelease s t v .pkg false fun t => t.reads v m [(a, 2), (c, 1), (rec_, 8)] fun r =>
      let arg := fun (l : Nat) => (⟨l, t.rd64 v 0 a, t.rd v 0 c :: t.rdN v 8 l rec_⟩ : LaneArg)
      (r.begin v (v.op (.tqAdd g fs d a b c cc) fs m uni (if uni then [arg 0] else (lanesOf m).map arg))).goOn v

/-- One task joins its queue (R412): the status, and the state after. -/
def State.pushTask (s : State) (w : Wave) (entry : W64) (node : Nat) (arg : List W32) : Nat × State :=
  let key := nodeKey w.asid node
  match s.node? key with
  | none => (2, s)
  | some n =>
    if n.state != .released || n.failed != 0 || n.over then (2, s)
    else
      let t : Task := { kernel := n.kernel, node := node, entry := entry, arg := arg }
      let count := fun (s : State) => s.updNode key fun n => { n with tasks := n.tasks + 1 }
      let here := match w.place with
        | some p => if (s.kernelCores n.kernel).contains p.1 then some p.1 else none
        | none => none
      match here with
      | some c =>
        if 4096 ≤ (s.core c).queued then (1, s)
        else (0, count (s.updCore c fun y => { y with tq := y.tq ++ [t] }))
      | none => (0, (count (s.updKernel n.kernel fun k => { k with undealt := k.undealt ++ [t] })).deal n.kernel)

/-- Lanes of `tq.add` complete, in ascending order (R412). -/
def State.completeTq (s : State) (u n : Nat) (lanes : Mask) (d : Dst) (cc : Nat) : State :=
  ((lanesOf lanes).foldl (fun s l =>
    match (s.wave? u).bind fun w => (w.op? n).bind fun o => (o.arg? l).map fun x => (w, o, x) with
    | none => s
    | some (w, o, x) =>
      if lowLane o.todo ≠ l ∨ !hasLane o.todo l then s
      else
        let r := s.pushTask w x.addr (x.data.headD 0).toNat x.data.tail
        r.2.laneDone u n l (some (d, cc)) { regs := [BitVec.ofNat 32 r.1] }) s).finishOp u n

/-- Lanes of `tq.add` reach the graph unit. A clock's reports are taken before them (R415): what arrives in a clock is taken at the first
moment of the next. -/
def State.reachTq (s : State) (u n : Nat) (o : Op) (lanes : Mask) (d : Dst) (cc : Nat) : State :=
  if lanes &&& ~~~o.late = 0 ∧ o.lateAt ≠ s.clk + 1 then s.completeTq u n lanes d cc
  else s.updOp u n fun p => { p with late := p.late ||| (lanes &&& p.todo), lateAt := s.clk + 1 }

/-! ## `node.spawn` (R413) -/

/-- `node.spawn`: a release at `.pkg` first. -/
def execNodeSpawn (g : Guard) (fs : Bool) (kq : Nat) (a : Src) (s : State) : Out :=
  onceWord fs g (some .pkg) (.nodeSpawn g fs kq a) [(a, 2)] (fun t v => t.rd64 v 0 a) (fun _ _ => []) s

/-- A successor may be listed (R413). -/
def State.mayFollow (s : State) (asid num : Nat) : Bool :=
  (s.node? (nodeKey asid num)).elim false fun n => n.state == .pending && decide (n.preds < n.need)

/-- The checks of a spawn in their order, and the node made (R413): status and number. -/
def State.spawn (s : State) (w : Wave) (a : Nat) : Nat × Nat × State :=
  let no := fun (c : Nat) => (c, 0xFFFFFFFF, s)
  match s.graphRead w.asid a 64 with
  | .ok bs s1 =>
    match nodeDesc bs with
    | none => no 1
    | some d =>
      match s1.readTasks w.asid d.list d.count with
      | .ok ts s2 =>
        let kern := if d.kernel = 0xFFFFFFFF then some w.kernel else (s2.kernelOf w.asid d.kernel).map Prod.fst
        match kern with
        | none => no 3
        | some k =>
          if d.succ.any fun i => !s2.mayFollow w.asid i then no 4
          else if 262144 ≤ s2.liveNodes then no 5
          else
            let r := s2.nodeNumbers w.asid 1
            let s3 := d.succ.foldl (fun s i => s.updNode (nodeKey w.asid i) fun n => { n with preds := n.preds + 1 }) r.2
            (0, r.1, s3.addNode w.asid k r.1 d ts 0)
      | _ => no 2
  | _ => no 2

/-- The arena of a node is born: a spawn that is still outstanding for the node will answer its handle (R413). -/
def State.noteBirth (s : State) (asid num handle : Nat) : State :=
  let note : Op → Op := fun o => match o.ins, o.arg? 0 with
    | .nodeSpawn .., some x => if x.data == [0, BitVec.ofNat 32 num] then { o with args := [{ x with data := x.data ++ [BitVec.ofNat 32 handle] }] } else o
    | _, _ => o
  let f : Nat × Wave → Nat × Wave := fun w => if w.2.asid == asid then (w.1, { w.2 with ops := w.2.ops.map note }) else w
  { s with waves := s.waves.map f }

/-- A spawn goes on: the graph unit makes the node, before a predecessor's death of the same clock (R415), and later the instruction
completes with the handle of an arena that has been born by then (R413). -/
def State.completeSpawn (s : State) (u : Nat) (w : Wave) (o : Op) (kq : Nat) : State :=
  match o.arg? 0 with
  | none => s
  | some x =>
    match x.data with
    | st :: num :: h => s.finishOnce u o kq [st, num, h.headD 0, 0]
    | _ =>
      if s.graph.fellClk = s.clk + 1 then s
      else
        let r := s.spawn w x.addr.toNat
        r.2.2.updOp u o.serial fun p => { p with args := [⟨0, x.addr, [BitVec.ofNat 32 r.1, BitVec.ofNat 32 r.2.1]⟩] }

/-! ## `ar.chk` (R414) -/

/-- The code of a pointer against a core's cached table. -/
def State.arCode (s : State) (core asid a : Nat) : Nat :=
  if windowOf a ≠ 2 then 1
  else
    let x := s.arenaView core asid (arenaSlot a)
    if x.state = 0 ∨ x.gen ≠ arenaGen a then 2
    else if x.state = 2 then 3
    else if x.bytes ≤ a % 2 ^ 34 then 4 else 0

/-- `ar.chk` (R414). -/
def execArChk (g : Guard) (r : ArRes) (a : Src) (s : State) : Out :=
  onWave .any none g s fun t v =>
    let m := v.active g
    if m = 0 then t.goOn v
    else t.reads v m [(a, 2)] fun t =>
      let code := fun (l : Nat) => t.arCode v.w.core v.w.asid (t.rd64 v l a).toNat
      match r with
      | .pred p => (t.updWave v.u fun w => w.setP p m (lanesWhere m fun l => code l == 0)).goOn v
      | .st d cc => (t.updWave v.u fun w => w.putAll v.e d cc m fun l => BitVec.ofNat 32 (code l)).goOn v

end Sys2Proof.Machine
end

