-- ==== Sys2Proof/Machine/Context.lean ====
section
/-!
DEFINITION. Contexts: the end of waves and gangs (R97, R337), saves, spills and resumes (R354, R355, R449-R451), and the
answers to fault records with what they let go on (R222-R224, R327, R347, R448).
-/

namespace Sys2Proof.Machine

/-- The waves of a gang. -/
def State.gangWaves (s : State) (g : Nat) : List (Nat × Wave) := s.waves.filter fun w => w.2.gang == g

/-- The teams of a gang with their keys. -/
def State.gangTeams (s : State) (g : Nat) : List (Nat × Team) := s.graph.teams.filter fun t => t.1 / 4 == g

/-! ## The end of a wave and of a gang -/

/-- The gang has exited: its statistics blocks have added the events of its last clock (R185), its teams leave their cores, an engine that
one of them owns is released, its mailboxes go (R315, R337, R378). -/
def State.endGang (s : State) (g : Nat) : State :=
  match s.gang? g with
  | none => s
  | some x =>
    let s := s.settleOf fun r => r.key / 4 == g
    let ts := s.gangTeams g
    let free := fun (s : State) (t : Nat × Team) =>
      let s := s.updMem fun m => { m with savePool := m.savePool ++ t.2.frames.map Prod.snd ++ t.2.engFrames }
      match s.engineOf t.1 with
      | some c => s.updEngine c Engine.freed
      | none => s
    let s := ts.foldl free s
    let s := s.updGraph fun r => { r with
      teams := r.teams.filter fun t => t.1 / 4 != g
      boxes := r.boxes.filter fun b => b.1 / 64 != g
      reserve := r.reserve.filter fun v => v.2.1 != g }
    let s := s.updGang g fun y => { y with state := .gone, cores := [], left := y.cores.length, goneAt := s.clk + 1 }
    s.updKernel x.kernel fun k => { k with gone := k.gone + 1 }

/-- A wave is no more: what it had outstanding with other units is forgotten, its records are settled (R224). -/
def State.removeWave (s : State) (u : Nat) : State :=
  let s := s.settleRecords u fun _ => true
  let s := { s with waves := smDel u s.waves }
  let s := s.updGraph fun g => { g with mintReqs := g.mintReqs.filter fun r => r.wave != u }
  s.updFront fun f => { f with channels := f.channels.map fun c => (c.1, { c.2 with sent := c.2.sent.filter fun m => m.1 != u }) }

/-- The slot of a launch wave that has ended is free, that of a task wave is its reservation's again: in the clock after (R97, R388). -/
def State.freeSlot (s : State) (w : Wave) : State :=
  match w.place with
  | none => s
  | some p =>
    let s := s.updGraph fun g => { g with freed := p :: g.freed }
    if w.res.isSome then s else s.updTeam w.teamKey fun t => { t with slots := t.slots.map fun n => if n = p.2 then 64 else n }

/-- The wave may end (R97). -/
def Wave.over (w : Wave) : Bool :=
  w.present == 0 && w.liveSplits.isEmpty && w.ovf.isEmpty && w.t.handler.isNone && w.flagsClear && w.ops.isEmpty

/-- The records that a wave leaves at its end are still to be written, by its core to the rings of its bank (R460, R461). -/
def State.leaveRecords (s : State) (u : Nat) (w : Wave) : State :=
  if w.traces.isEmpty && w.samples.isEmpty then s else s.updCore w.core fun c => { c with left := smPut u (w, s.bank w) c.left }

/-- A wave ends (R97, R349, R405): its tokens go back, its coordinates are abandoned, its slot is free; with its last wave the
gang has exited. -/
def execWaveEnd (u : Nat) (s : State) : Out :=
  match s.wave? u with
  | none => .next s
  | some w =>
    if !w.over then .next s
    else
      let s := ((((s.returnTokens u).abandon u).freeSlot w).leaveRecords u w).removeWave u
      if (s.gangWaves w.gang).isEmpty then .next (s.endGang w.gang) else .next s

/-- A node fails by a data error (R406). -/
def State.failNode (s : State) (key : Nat) : State := s.updNode key fun n => if n.failed = 0 then { n with failed := 1 } else n

/-- A saved gang is killed by an uncorrectable error (R450): its nodes fail, its held work is abandoned, and a machine-check
interrupt is raised. A task that one of its waves held does not complete otherwise than by its lane's leaving. -/
def State.killGang (s : State) (g : Nat) : State :=
  let kill := fun (s : State) (x : Nat × Wave) =>
    let w := x.2
    let nodes := (w.wk.held.map Coord.node ++ w.wk.tasks.map LaneTask.node).eraseDups
    let s := nodes.foldl (fun s n => s.failNode (nodeKey w.asid n)) s
    let s := w.wk.tasks.foldl (fun s t => s.taskDone (nodeKey w.asid t.node)) s
    ((s.returnTokens x.1).abandon x.1).removeWave x.1
  (((s.gangWaves g).foldl kill s).endGang g).irq 3 g

/-! ## Saves (R224, R354, R450) -/

/-- A `coll` command (R325). -/
def isColl (i : Instr) : Bool :=
  match i with
  | .coll .. => true
  | _ => false

/-- An operation that a save waits for: a memory instruction with a lane that is not parked, a copy command (R224, R325). -/
def Op.holdsSave (o : Op) : Bool := (isAccess o.ins && o.todo &&& ~~~o.atRest != 0) || (o.cmd.isSome && !isColl o.ins)

/-- Every core of the gang has come to rest: its waves' accesses, copies and transfers are done or parked, its engines' work is
done (R224, R325, R354, R435). -/
def State.gangDrained (s : State) (g : Nat) : Bool :=
  (s.gangWaves g).all (fun w => !(w.2.ops.any Op.holdsSave) && (w.2.parked || !(w.2.liveSplits.any fun x => x.2.xfer))) &&
    (s.gangTeams g).all fun t => t.2.core.elim true fun c => (s.engine c).owner != some t.1 || (s.engine c).jobs.all fun j => j.load.isSome

/-- What a save does to a split (R450 step 3): its holds are withdrawn, W is 0, its line goes, and an arrival that a save
does not keep (R312) is withdrawn: the split issues its barrier again. -/
def Split.rest (x : Split) : Split :=
  let y := { x.withdraw with stop := x.stop, xferDone := x.xferDone, w := 0, traced := none }
  match y.block with
  | .barrier .quad _ _ => { y with block := .none }
  | .barrier .die _ _ => { y with block := .none }
  | _ => y

/-- A wave at rest leaves its slot. -/
def Wave.rest (w : Wave) : Wave :=
  { w.mapLive Split.rest with place := none, restSlot := w.slot, restCore := w.core, ovf := w.ovf.map Split.rest, t := { w.t with handler := w.t.handler.map Split.rest } }

/-- The gang's contexts stay where they are, owned by the saved context (R450); an engine's MEPC names the first word it has not
completed, what waits in it is withdrawn, and its line goes (R354). -/
def State.settleSave (s : State) (g : Nat) : State :=
  let still : Nat × Wave → Nat × Wave := fun w => if w.2.gang == g then (w.1, w.2.rest) else w
  let s : State := { s with waves := s.waves.map still }
  let leave : State → Nat × Team → State := fun s t => match t.2.core with
    | some c =>
      let s := if (s.engine c).owner == some t.1 then s.updEngine c fun e => { e.withdraw with buf := none, arrived := false } else s
      (s.invalClean c).updTeam t.1 fun y => { y with
        core := none
        heldOn := some c
        heldG := List.range y.granules
        heldSlots := y.slots
        heldBank := true
        frames := [] }
    | none => s
  let s := (s.gangTeams g).foldl leave s
  let us := (s.gangWaves g).map Prod.fst
  let s := s.updFront fun f => { f with channels := f.channels.map fun c =>
    (c.1, { c.2 with sent := c.2.sent.filter fun m => !us.contains m.1 }) }
  s.updGang g fun x => { x with state := .saved, since := s.clk, cores := [], drain := none, dry := false }

/-- A gang that has been told to stop is saved (R450): it comes to rest, its cores write back their dirty bytes, and when the
writes are acknowledged its state is left in place and CTXCLK stands still. -/
def execGangSave (g : Nat) (s : State) : Out :=
  match s.gang? g with
  | none => .next s
  | some x =>
    if x.state != .saving || !s.gangDrained g then .next s
    else match x.drain with
      | none =>
        let t := x.cores.foldl State.flushCore s
        .next (t.updGang g fun y => { y with drain := some (x.cores.flatMap t.wbIds) })
      | some ids => if ids.any (fun i => s.mem.wbs.any fun b => b.id == i) then .next s else .next (s.settleSave g)

/-! ## Images (R115, R116, R205, R355, R454, R455) -/

/-- A split entry of 32 bytes (R115). -/
def Split.image (x : Split) : List Byte := le 8 x.pc.toNat ++ le 8 x.lr.toNat ++ le 8 x.tlr.toNat ++ le 4 x.mask.toNat ++ le 1 x.ver ++ le 3 0

/-- An entry that may be unused. -/
def splitImage (x : Option Split) : List Byte :=
  match x with
  | some y => y.image
  | none => List.replicate 32 0

/-- TRAPDQS (R466). -/
def WTrap.trapdqs (t : WTrap) : W32 := BitVec.ofNat 32 (t.lost * 256 + t.dq.length)

/-- A detail of 32 bytes (R444). -/
def TDetail.image (d : TDetail) : List Byte :=
  le 8 d.pc.toNat ++ le 1 d.cause ++ le 1 d.code ++ le 1 d.entry ++ le 1 d.ver ++ le 4 d.lanes.toNat ++ padTo 16 d.info

/-- The instructions of a wave that are parked, and its parked transfers (R453). -/
def Wave.parkedCount (w : Wave) : Nat := (w.ops.filter Op.parked).length + (w.fetchFaults.filter FetchFault.xfer).length

/-- The word at 0x35C of the trap-state area (R454). -/
def WTrap.word (t : WTrap) : Nat :=
  (if t.handler.isSome then 1 else 0) + (if t.halted then 2 else 0) + (t.handler.elim 0 Split.ver) * 256 + (if t.armed then 2 ^ 31 else 0)

/-- The trap-state area, 0x340 to 0x3FF of the slot-store image (R454). -/
def Wave.trapArea (w : Wave) : List Byte :=
  let h := w.t.handler.getD { pc := 0, mask := 0, ver := 0 }
  padTo 192 (le 4 w.t.cause.toNat ++ le 4 w.t.planes.toNat ++ le 4 w.t.trapdqs.toNat ++ le 2 w.t.smark.toNat ++ le 2 0 ++
    le 8 w.t.timer.toNat ++ le 4 w.wk.cmdseq ++ le 4 w.t.word ++ le 8 h.pc.toNat ++ le 4 h.mask.toNat ++ le 1 w.wk.held.length ++
    le 1 w.parkedCount ++ le 2 0 ++ le 8 h.lr.toNat ++ le 8 h.tlr.toNat ++
    w.wk.held.reverse.flatMap fun c => le 4 c.node ++ le 4 c.x ++ le 4 c.y ++ le 4 c.z)

/-- Role code of the slot-store image (R115). -/
def Role.code : Role → Nat
  | .loader => 0 | .storer => 1 | .vector => 2 | .task => 3

/-- The slot-store image (R115). -/
def Wave.slotImage (w : Wave) : List Byte :=
  let ks := (List.range 64).flatMap fun n => le 4 (if n = 58 ∨ n = 59 ∨ n = 62 ∨ n = 63 then 0 else (smGet 0 w.r.k n).toNat)
  let ps := (List.range 7).flatMap fun n => le 4 (smGet 0 w.r.p n).toNat
  let fs := (List.range 12).flatMap fun n => le 1 (w.getF n)
  let valid := (w.liveSplits.map fun x => 2 ^ x.1).sum
  ks ++ ps ++ le 4 0 ++ fs ++ le 1 w.role.code ++ le 1 w.ovf.length ++ le 1 valid ++ le 17 0 ++ w.live.flatMap splitImage ++
    padTo 384 (w.ovf.reverse.flatMap Split.image) ++ w.trapArea

/-- A parked record of 32 bytes (R455). -/
def Op.parkedImage (o : Op) : List Byte :=
  le 8 o.word.toNat ++ le 8 o.ext.toNat ++ le 8 o.pc.toNat ++ le 4 o.todo.toNat ++ le 1 o.entry ++ le 1 (o.flag.getD 0xFF) ++ le 1 o.ver ++ le 1 0

/-- A parked transfer arrival (R435, R455). -/
def Wave.arrivalImage (w : Wave) (f : FetchFault) : List Byte :=
  let x := w.split? f.entry
  le 16 0 ++ le 8 f.pc.toNat ++ le 4 (x.elim 0 fun y => y.mask.toNat) ++ le 1 f.entry ++ le 1 0xFF ++ le 1 (x.elim 0 Split.ver) ++ le 1 1

/-- The trap-store image (R455). -/
def Wave.trapStore (w : Wave) : List Byte :=
  let st := (List.range 16).flatMap fun i =>
    match smFind w.wk.status i with
    | some c => le 4 (c.code + 256 * c.lane) ++ le 4 c.mask.toNat
    | none => le 8 0
  let parked := (w.ops.filter Op.parked).flatMap Op.parkedImage ++ (w.fetchFaults.filter FetchFault.xfer).flatMap w.arrivalImage
  padTo 128 (w.t.dq.flatMap TDetail.image) ++ st ++ le 256 0 ++ padTo 512 parked

/-- Registers that an operation writes at completion. -/
def Op.dstRegs (o : Op) : List Nat :=
  let n := match o.ins with
    | .ldCv _ x2 .. => if x2 then 2 else 1
    | i => max 1 ((memForm i).n / 4)
  match lateDst o with
  | some (.v d, _) => (List.range n).map (d + ·)
  | _ => []

/-- A parked instruction names the register (R223). -/
def Wave.parkedNames (w : Wave) (n : Nat) : Bool :=
  w.ops.any fun o => o.parked && (vRegs (memForm o.ins).reads ++ o.dstRegs).contains n

/-- Every tag of a row is released; an exited lane counts as released (R122). -/
def Wave.rowDead (w : Wave) (n : Nat) : Bool := laneList.all fun l => hasLane w.exited l || w.dead n l

/-- A spill keeps the row (R122, R223). -/
def Wave.keepsRow (w : Wave) (n : Nat) : Bool := !w.rowDead n || w.parkedNames n

/-- The place of a wave among its team's slots: its number, or that of its reservation after the launch waves (R114). -/
def State.placeIn (s : State) (w : Wave) : Nat :=
  match w.res with
  | some j => (s.kernel? w.kernel).elim 0 Kernel.waves + j
  | none => w.index

/-- The waves of a team. -/
def State.teamWaves (s : State) (key : Nat) : List (Nat × Wave) := s.waves.filter fun w => w.2.teamKey == key

/-- The data of a row, and its tags as nibbles. -/
def Wave.rowImage (w : Wave) (n : Nat) : List Byte × List Byte :=
  (laneList.flatMap fun l => le 4 (w.getV n l).toNat,
    (List.range 16).map fun i => BitVec.ofNat 8 (w.getTag n (2 * i) + 16 * w.getTag n (2 * i + 1)))

/-- The rows of a team's register granule i, 18,432 bytes from `18432 * i` on: the rows that are kept, and every tag, each row where R114
has it (R116, R122). An exited lane's tag goes out as it stands, and a wave that has ended, or a reservation without a wave, leaves its rows
as the frame has them (DESIGN CHOICE, log 80). -/
def State.rowPieces (s : State) (key i : Nat) : Pieces :=
  (s.teamWaves key).flatMap fun w => (List.range w.2.regs).flatMap fun n =>
    let row := s.placeIn w.2 * w.2.regs + n
    let r := w.2.rowImage n
    let g := 18432 * i
    if row / 128 ≠ i then []
    else (if w.2.keepsRow n then [(g + 128 * (row % 128), r.1)] else []) ++ [(g + 16384 + 16 * (row % 128), r.2)]

/-- Scratchpad granule i of a team at `at_`: 16,512 bytes, the data and the full-empty bits (R205). -/
def Team.spadPieces (t : Team) (i at_ : Nat) : Pieces :=
  let data := (List.range 16384).map fun b => smGet 0 t.spad (16384 * i + b)
  let bits := (List.range 128).map fun b =>
    BitVec.ofNat 8 (((List.range 8).map fun j => if smGet false t.fe (1024 * i + 8 * b + j) then 2 ^ j else 0).sum)
  [(at_, data), (at_ + 16384, bits)]

/-- A context bank in the device's own layout, which R449 leaves to it: 512 bytes (DESIGN CHOICE, log 7). -/
def Bank.image (b : Bank) : List Byte :=
  let each := fun (n k : Nat) (f : Nat → Nat) => (List.range n).flatMap fun i => le k (f i)
  padTo 512 (le 4 b.issuectl.toNat ++ le 4 b.pwrctx.toNat ++ le 4 b.fetimeout.toNat ++ le 4 b.nsctl.toNat ++
    each 7 4 (fun i => (smGet 0 b.nscnt i).toNat) ++ each 7 2 (fun i => (smGet 0 b.nswcnt i).toNat) ++
    each 7 2 (fun i => (smGet 0xFFFF b.nsthr i).toNat) ++ le 4 b.nswin.toNat ++ le 8 b.nsbase ++ le 8 b.nslast ++ le 8 b.trapvec.toNat ++
    le 8 b.assayvec.toNat ++ le 8 b.trapscr.toNat ++ le 4 b.tracectl.toNat ++ le 8 b.tracebase.toNat ++ le 4 b.tracesize.toNat ++
    le 4 b.sampctl.toNat ++ le 8 b.sampbase.toNat ++ le 4 b.sampsize.toNat ++ each 8 8 fun i => (smGet 0 b.pmc i).toNat)

/-! ## Spills (R14, R122, R354, R355, R449, R450) -/

/-- A part of a saved context that is claimed, and spilled, by itself (R450): a granule by its number in the image, the stores of a slot by
its place among the team's, the context bank. -/
inductive Part where
  | granule (i : Nat)
  | slot (i : Nat)
  | bank
  deriving DecidableEq, Repr

/-- Where the slot stores and the bank lie in a team's image: after its granules (log 7). -/
def Team.storeBase (t : Team) : Nat := 18432 * t.regG + 16512 * t.spadG
/-- Where the bank lies in a team's image. -/
def Team.bankBase (t : Team) : Nat := t.storeBase + 2048 * t.slots.length

/-- The slot and trap stores of slot i of a team (R115, R455). -/
def State.storePieces (s : State) (key : Nat) (t : Team) (i : Nat) : Pieces :=
  ((s.teamWaves key).filter fun w => s.placeIn w.2 == i).map fun w => (t.storeBase + 2048 * i, w.2.slotImage ++ w.2.trapStore)

/-- What a part of a held team holds, where the image has it (log 7). An L1 granule holds nothing after a save. -/
def State.partPieces (s : State) (key : Nat) (t : Team) : Part → Pieces
  | .granule i =>
    if i < t.regG then s.rowPieces key i
    else if i < t.regG + t.spadG then t.spadPieces (i - t.regG) (18432 * t.regG + 16512 * (i - t.regG))
    else []
  | .slot i => s.storePieces key t i
  | .bank => [(t.bankBase, t.bank.image)]

/-- The frames of an image that pieces reach into and that have not been taken yet, by their place in the image. -/
def Team.newFrames (t : Team) (ps : Pieces) : List Nat :=
  ((ps.flatMap fun p => [p.1 / 65536, (p.1 + p.2.length - 1) / 65536]).eraseDups).filter fun i => (smFind t.frames i).isNone

/-- Gangs that stand on a core. -/
def State.gangsOn (s : State) (core : Nat) : List Nat :=
  ((s.graph.teams.filter fun t => t.2.core == some core).map fun t => t.1 / 4).eraseDups

/-- More than a core's 8 banks are held and claimed (R449). -/
def State.banksOver (s : State) (core : Nat) : Bool :=
  decide (8 < (s.gangsOn core).length + ((s.heldTeams core).filter fun t => t.2.heldBank).length)

/-- The part of a held team that is to be spilled next (R14, R388, R449, R450): what claims of its core reach, and everything where its gang
has been given another core (R396) or its quad is retired (R494). Granules go in the order of the image; of several contexts the first gives
way (DESIGN CHOICE, log 41). -/
def State.duePart (s : State) (key : Nat) (t : Team) : Option Part :=
  match t.heldOn with
  | none => none
  | some c =>
    if t.core = some c then none
    else
      let all := t.core.isSome || s.mod.retiredQuads.contains (quadOf c)
      let first := fun (p : Team → Bool) => (((s.heldTeams c).find? fun y => p y.2).map Prod.fst) == some key
      let used := (s.graph.teams.filter fun y => y.2.core == some c).flatMap fun y => y.2.slots
      let g := if all || (s.overdrawn c && first fun y => !y.heldG.isEmpty) then t.heldG.head?.map Part.granule else none
      let p := (t.heldSlots.zipIdx.find? fun x => decide (x.1 < 64) && (all || used.contains x.1)).map fun x => Part.slot x.2
      let b := if t.heldBank && (all || (s.banksOver c && first fun y => y.heldBank)) then some Part.bank else none
      (g.or p).or b

/-- An uncorrectable error lies in a part of what a team holds. -/
def State.partBad (s : State) (key : Nat) (t : Team) : Part → Bool
  | .granule i =>
    if i < t.regG then (s.teamWaves key).any fun w => w.2.r.badV.any fun b => (s.placeIn w.2 * w.2.regs + b.1 / 32) / 128 == i
    else t.bad.any fun b => b.1 / 16384 + t.regG == i
  | .slot i => (s.teamWaves key).any fun w => s.placeIn w.2 == i && (!w.2.r.badK.isEmpty || !w.2.r.badP.isEmpty)
  | .bank => false

/-- The rows of a spilled granule that were not kept read as free values of the context, their tags still released (R122): `row0` is the
wave's first row in the team's granules. -/
def Wave.loseRows (w : Wave) (row0 i draw : Nat) : Wave :=
  ((List.range w.regs).filter fun n => (row0 + n) / 128 == i && !w.keepsRow n).foldl (fun w n => laneList.foldl (fun w l =>
    w.setV n l (Config.freeWord (16384 * draw + 32 * n + l)) 4) w) w

/-- A part has left the core; with the last one nothing lies there any more. -/
def Team.dropPart (t : Team) (p : Part) : Team :=
  let t := match p with
    | .granule i => { t with heldG := t.heldG.filter fun g => g != i }
    | .slot i => { t with heldSlots := t.heldSlots.set i 64 }
    | .bank => { t with heldBank := false }
  if t.heldG.isEmpty && t.heldSlots.all (fun n => decide (64 ≤ n)) && !t.heldBank then { t with heldOn := none } else t

/-- A part of a held team is spilled: into frames of the save pool, each taken when the first part that reaches into it is spilled (log 7). -/
def State.spillPart (s : State) (key : Nat) (t : Team) (p : Part) : State :=
  let ps := s.partPieces key t p
  let new := t.newFrames ps
  let frames := (new.zip s.mem.savePool).foldl (fun (m : SMap Nat) x => smPut x.1 x.2 m) t.frames
  let s1 := s.updMem fun m => { m.writePieces (fun i => smFind frames i) ps with savePool := m.savePool.drop new.length }
  let s2 := s1.updTeam key fun t => { t with frames := frames }.dropPart p
  match p with
  | .granule i => { s2 with draws := s.draws + 1, waves := s.waves.map fun w =>
      if w.2.teamKey == key then (w.1, w.2.loseRows (s.placeIn w.2 * w.2.regs) i (64 * s.draws + w.1 % 64)) else w }
  | _ => s2

/-- A wave whose stores have been spilled has changed in its saved image: they are written there again (R325). -/
def State.reimage (s : State) (u : Nat) : State :=
  match (s.wave? u).bind fun w => (s.team? w.teamKey).map fun t => (w, t) with
  | none => s
  | some (w, t) =>
    let i := s.placeIn w
    if t.heldSlots.getD i 64 = 64 then s.updMem fun m => m.writePieces (fun n => smFind t.frames n) (s.storePieces w.teamKey t i) else s

/-- An engine command runs on as far as it can, and completes once every segment is final (R325); the status of a `coll` whose wave
has been spilled goes into the saved image. -/
def execEngineCmdComplete (u num : Nat) (s : State) : Out :=
  match (s.wave? u).bind fun w => w.cmdOp num with
  | none => .next s
  | some n =>
    if (s.wave? u).elim false fun w => w.ops.any fun o => o.serial == n && o.movedAt == s.clk + 1 then .next s
    else .next (((s.runCmd u n).endCmd u n).reimage u)

/-- A claim of what a gang holds has found the save pool empty (R450): one host interrupt for the wait, which follows the module COALCTL
(R484). -/
def State.poolIrq (s : State) (g : Nat) : State :=
  if (s.gang? g).elim true Gang.dry then s
  else
    let r := s.front.poolCo.add s.front.coal s.clk
    let s := (s.updGang g fun x => { x with dry := true }).updFront fun f => { f with poolCo := r.1 }
    if r.2 then s.irq 2 0 else s

/-- The claim goes on. -/
def State.poolOk (s : State) (g : Nat) : State := s.updGang g fun x => { x with dry := false }

/-- The engine states of a saved gang that another team claims. -/
def State.wantedEngine (s : State) (g : Nat) : Option Nat :=
  (s.engines.find? fun e => e.2.wanted && (e.2.owner.map fun t => t / 4) == some g && (s.ownerAt e.1).isNone).map Prod.fst

/-- The claimed parts and engine states of a saved gang are spilled, one at a time (R354, R450). An empty save pool lets the claim wait, with
a host interrupt; an uncorrectable error kills the gang. -/
def execContextSpill (g : Nat) (s : State) : Out :=
  match (s.gangTeams g).findSome? fun t => (s.duePart t.1 t.2).map fun p => (t.1, t.2, p) with
  | some (key, t, p) =>
    if s.partBad key t p then .next (s.killGang g)
    else if s.mem.savePool.length < (t.newFrames (s.partPieces key t p)).length then .next (s.poolIrq g)
    else .next ((s.poolOk g).spillPart key t p)
  | none => match s.wantedEngine g with
    | some c =>
      if (s.engine c).bad then .next (s.killGang g)
      else if s.mem.savePool.length < engineFrames then .next (s.poolIrq g)
      else .next ((s.poolOk g).spillEngine c)
    | none => .next s

/-! ## Replays (R222-R224, R402) -/

/-- An instruction, transfer or fetch record of a wave is outstanding (R222). -/
def State.recordsOut (s : State) (u : Nat) : Bool := s.front.faults.any fun r => r.wave == u && r.parks && !r.settled

/-- The view from which an instruction reads its registers again (R223). -/
def State.replayEnv (s : State) (u : Nat) (w : Wave) (o : Op) : Env :=
  let e := w.entryOf o
  ⟨u, e, w, (w.split? e).getD { pc := o.pc, mask := o.issued, ver := o.ver }, { who := .split u e, pc := o.pc, next := o.pc }, o.serial, s.draws⟩

/-- Lanes of `m` for which `f` gives a cause leave an operation, and the causes become pending at once (R222, R402). -/
def State.leaveNow (s : State) (u n : Nat) (m : Mask) (f : LaneArg → Option (Cause × Nat)) : State :=
  match (s.wave? u).bind fun w => w.op? n with
  | none => s
  | some o =>
    let p := (o.args.filter fun x => hasLane m x.lane).foldl (fun p x => (f x).elim p fun c => p.leave x.lane c.1 c.2 x.addr)
      { o with found := [] }
    let s := s.updOp u n fun q => { q with
      todo := p.todo
      probe := p.probe
      stuck := q.stuck &&& p.todo
      asked := q.asked &&& p.todo }
    s.pendFound u p

/-- A lane in an arena that is not live any more raises ARENA with reason 2 at the answer (R402). -/
def State.deadLane (s : State) (asid : Nat) (x : LaneArg) : Option (Cause × Nat) :=
  if s.arenaDead asid x.addr.toNat then some (.arena, 2) else none

/-- A parked operation is performed again for its unfinished lanes: it reads its registers again (R223). `hmzero` keeps the
place it had reached. -/
def State.replayOp (s : State) (u n : Nat) : State :=
  match (s.wave? u).bind fun w => (w.op? n).map fun o => (w, o) with
  | none => s
  | some (w, o) =>
    let v := s.replayEnv u w o
    let f := memForm o.ins
    let zeroing := match o.ins with
      | .hmzero .. => true
      | _ => false
    let again := fun (x : LaneArg) =>
      if zeroing || !hasLane o.atRest x.lane then x else s.laneArg v f x.lane (s.effAddr v f x.lane).1
    let s := s.updOp u n fun o => { o with
      args := o.args.map again
      stuck := 0
      asked := 0
      behind := 0
      parked := false
      record := none
      replay := false }
    (s.leaveNow u n o.atRest (s.deadLane w.asid)).finishOp u n

/-- With its last record answered, a placed wave replays its parked operations in issue order and issues again (R222). -/
def State.replayWave (s : State) (u : Nat) : State :=
  match s.wave? u with
  | none => s
  | some w =>
    if !w.parked || w.place.isNone || s.recordsOut u then s
    else
      let ns := (w.ops.filter fun o => o.atRest != 0).map Op.serial
      (ns.foldl (fun s n => s.replayOp u n) (s.setWave u { w with fetchFaults := [] })).updWave u fun w => { w with parked := false }

/-! ## Answers to fault records (R222, R327, R347, R435, R448) -/

/-- "Fail" for an instruction: PAGE becomes pending for its unfinished lanes, which it leaves, those that wait behind a parked access
among them (R211; DEDUCED, log 81); the bytes of a store that waits for its
permission are discarded (R222). -/
def State.failOp (s : State) (u n : Nat) : State :=
  match (s.wave? u).bind fun w => (w.op? n).map fun o => (w, o) with
  | none => s
  | some (w, o) =>
    let s := (lanesOf o.stuck).foldl (fun s l =>
      match o.arg? l with
      | none => s
      | some x =>
        if w.place.isSome && isWrite o.ins && !atHome o.ins then s.discardL1 w.core w.asid x.addr.toNat (memForm o.ins).n else s) s
    let s := s.leaveNow u n o.atRest fun x => (s.deadLane w.asid x).or (some (.page, o.reason))
    (s.updOp u n fun p => { p with record := none, replay := false, parked := false, behind := 0 }).finishOp u n

/-- "Fail" for a fetch or a transfer: PAGE where the split stands; a transfer is not made (R222, R435). -/
def State.failFetch (s : State) (u : Nat) (r : FaultRec) : State :=
  match (s.wave? u).bind fun w => (w.fetchFaults.find? fun f => f.record == r.serial).map fun f => (w, f) with
  | none => s
  | some (w, f) =>
    let s := s.setWave u { w with fetchFaults := w.fetchFaults.filter fun f => f.record != r.serial }
    let s := if f.xfer then s.updSplit u f.entry fun x => { x with xfer := false, xferDone := true } else s
    s.trapHere u f.entry .page (recf r.bytes 0x1B 1) (r.bytes.take 8 ++ le 4 r.serial)

/-- What the element in hand of a failed gather or scatter wrote is unspecified (R327). -/
def State.loseMark (s : State) (u n serial : Nat) : State :=
  match (s.wave? u).bind fun w => ((w.op? n).bind Op.cmd).bind fun c => (c.segs.find? fun g => g.record == some serial).map fun g => (w, g) with
  | none => s
  | some (w, g) => g.mark.elim s fun m => s.scribble w g.dst.toNat m.1 m.2

/-- A record of an engine command is answered (R327): the access is tried again, or the segment fails with status page and ends; a lower
code it had noted stays (R324). -/
def State.answerSeg (s : State) (u n serial : Nat) (resume : Bool) : State :=
  let s := if resume then s else s.loseMark u n serial
  let one : Seg → Seg := fun g =>
    if g.record != some serial then g
    else if resume then { g with fault := none, record := none }
    else { g.hit 5 ((g.fault.map fun f => f.2.2).getD g.addr).toNat with pos := 2 ^ 64, fault := none, record := none }
  s.updOp u n fun o => o.updCmd fun c => { c with segs := c.segs.map one }

/-- A record of an engine program's fetch is answered (R347), also where the engine's state has been spilled. -/
def State.answerEngine (s : State) (r : FaultRec) (resume : Bool) : State :=
  let mine := fun (e : Engine) => e.record == some r.serial
  let key := ((s.engines.find? fun e => mine e.2).bind fun e => e.2.owner).or
    ((s.graph.teams.find? fun t => t.2.engine.elim false mine).map Prod.fst)
  match key with
  | none => s
  | some k => s.updOwned k fun e => { e with
      record := none
      fault := if resume then e.fault else some (7, recf r.bytes 0x1B 1 + 256 * r.serial, e.mepc) }

/-- The splits whose PC a halted handler changed have had their branch (R446). -/
def Wave.markMoved (w : Wave) : Wave :=
  let pcs := w.t.entryPcs
  let n := w.ovf.length
  let mark := fun (i : Nat) (x : Split) =>
    if !pcs.isEmpty && (pcs[i]?).join != some x.pc then { x with due := .branch none, arrived := false, block := .none, buf := none } else x
  { w with live := w.live.zipIdx.map (fun x => x.1.map (mark x.2)), ovf := w.ovf.zipIdx.map fun x => mark (4 + (n - 1 - x.2)) x.1 }

/-- A halted wave is answered (R448): the handler is entered again, or every lane exits. -/
def State.answerHalt (s : State) (u serial : Nat) (resume : Bool) : State :=
  match s.wave? u with
  | none => s
  | some w =>
    if w.t.haltRecord != some serial then s
    else
      let w := w.markMoved
      let w := { w with t := { w.t with halted := false, haltRecord := none, handler := none, entryPcs := [], spare := [] } }
      let s := s.setWave u w
      if resume then s else s.exitLanes u w.present

/-- A record is answered by the driver (R222); a settled one changes nothing. -/
def State.answer (s : State) (serial : Nat) (resume : Bool) : State :=
  match s.front.faults.find? fun r => r.serial == serial && !r.settled with
  | none => s
  | some r =>
    let s := s.updFront fun f => { f with faults := f.faults.map fun x => if x.serial == serial then { x with settled := true } else x }
    match r.kind, r.op with
    | 0, some n =>
      (if resume then s.updOp r.wave n fun o => { o with replay := true, record := none, asked := o.stuck } else s.failOp r.wave n).replayWave
        r.wave
    | 1, _ => (if resume then s else s.failFetch r.wave r).replayWave r.wave
    | 2, some n => s.answerSeg r.wave n serial resume
    | 3, _ => s.answerHalt r.wave serial resume
    | 4, _ => s.answerEngine r resume
    | _, _ => s

/-! ## Resume (R451) -/

/-- A team's engine state comes back with its team as it claims its slots (R388, R451): from the image, whose frames go back, or where
it stands; MESTAT.START names the starting wave's new slot. -/
def State.bringEngine (s : State) (key core : Nat) : State :=
  let slot := fun (i : Engine) => (i.starter.bind fun x => s.wave? x.1).elim i.start Wave.slotSeen
  if (s.engine core).owner == some key then s.updEngine core fun e => { e with start := slot e, wanted := false }
  else match (s.team? key).bind fun t => t.engine.map fun e => (t, e) with
    | none => s
    | some (t, i) =>
      let s := s.updEngine core fun e => { i with
        start := slot i
        retired := e.retired
        bad := e.bad
        mism := e.mism
        mectl := (i.mectl &&& ~~~2) ||| (e.mectl &&& 2) }
      let s := s.updMem fun m => { m with savePool := m.savePool ++ t.engFrames }
      s.updTeam key fun t => { t with engine := none, engFrames := [] }

/-- Commands of a wave that ended while it was saved complete at its resume (R325). -/
def State.endSaved (s : State) (u : Nat) : State :=
  match s.wave? u with
  | none => s
  | some w => ((w.ops.filter fun o => o.cmd.elim false fun c => c.segs.all fun g => g.code != 0).map Op.serial).foldl (fun s n => s.endCmd u n) s

/-- A transfer is under way in a wave, and has not parked: it completes first (R439, R445). -/
def Wave.inXfer (w : Wave) : Bool := !w.parked && w.liveSplits.any fun x => x.2.xfer

/-- A wave enters its handler, where a cause or a detail stands and nothing is in the way (R439, R445), with a trace record for each stopped
split (R460). -/
def State.deliver (s : State) (u : Nat) : State :=
  match s.wave? u with
  | none => s
  | some w =>
    let up := w.place.isSome && (s.gang? w.gang).elim false fun g => g.state == .placed
    if !w.wantsHandler || !up || w.inXfer then s
    else (w.liveSplits.foldl (fun s x => s.trace u x.1 4 (le 4 w.t.cause.toNat ++ le 8 x.2.pc.toNat)) s).enterHandler u

/-- Engine state that is to be spilled before a team stands on a core (R354, R388): the team's own where it stands in another core, or
another saved context's where the team brings its own. -/
def State.engineInWay (s : State) (key core : Nat) : Option Nat :=
  match s.engineOf key with
  | some c => if c = core then none else some c
  | none => if ((s.team? key).bind Team.engine).isSome && (s.engine core).owner.isSome then some core else none

/-- A placed team's core is set up (R22 step 6): nothing that the claims of the core reach is still to be spilled, and nothing of the team's
own lies elsewhere. -/
def State.coreReady (s : State) (t : Nat × Team) : Bool :=
  t.2.core.elim true fun c => (s.heldTeams c).all (fun y => (s.duePart y.1 y.2).isNone) && (t.2.heldOn.isNone || t.2.heldOn == some c) &&
    (s.engineInWay t.1 c).isNone

/-- The team's own image is reloaded, as far as it was spilled, and its frames go back; the resume acquires at `.pkg` (R265, R451). -/
def State.reload (s : State) (t : Nat × Team) : State :=
  match t.2.core with
  | none => s
  | some c =>
    let s := (s.bringEngine t.1 c).acquire c .pkg
    let s := s.updMem fun m => { m with savePool := m.savePool ++ t.2.frames.map Prod.snd }
    s.updTeam t.1 fun t => { t with heldOn := none, heldG := [], heldSlots := [], heldBank := false, frames := [] }

/-- A saved gang whose cores are set up resumes (R451): what was spilled is reloaded, CTXCLK runs; then in this order every pending cause or
detail is delivered, parked instructions replay, and withdrawn ones issue again, a withdrawn `mon` among them (R472). -/
def State.resumeGang (s : State) (g : Nat) : State :=
  let s := ((s.gangTeams g).foldl State.reload s).updGang g fun y => { y with state := .placed, dry := false }
  let us := (s.gangWaves g).map Prod.fst
  let s := us.foldl State.endSaved s
  let s := us.foldl State.deliver s
  us.foldl State.replayWave s

/-- A gang that is still being set up gives its cores up again (R395, R494): a new one waits as before, a saved one stays saved. -/
def State.unplace (s : State) (g : Nat) (x : Gang) : State :=
  if x.state = .starting then
    (s.updGraph fun r => { r with teams := r.teams.filter fun t => t.1 / 4 != g }).updGang g fun y => { y with state := .waiting, since := s.clk, cores := [] }
  else
    let out : Nat × Team → Nat × Team := fun t => if t.1 / 4 == g then (t.1, { t.2 with core := none }) else t
    let off : Nat × Wave → Nat × Wave := fun w => if w.2.gang == g then (w.1, { w.2 with place := none }) else w
    let s : State := { s with waves := s.waves.map off }
    (s.updGraph fun r => { r with teams := r.teams.map out }).updGang g fun y => { y with state := .saved, since := s.clk, cores := [] }

/-- Every lane of a gang has exited: its exit wins over a save (R107). -/
def State.gangExits (s : State) (g : Nat) : Bool := (s.gangWaves g).all fun w => w.2.present == 0

/-- A gang is told to leave its cores (R395, R494): it stops and is saved, unless it is exiting (R107). -/
def State.vacateGang (s : State) (g : Nat) : State :=
  match s.gang? g with
  | none => s
  | some x => match x.state with
    | .placed => if s.gangExits g then s else s.updGang g fun x => { x with state := .saving }
    | .starting | .resuming => s.unplace g x
    | _ => s

end Sys2Proof.Machine
end

