-- ==== Sys2Proof/Machine/Scheduling.lean ====
section
/-!
DEFINITION. The graph unit's scheduling: launch records (R22, R374-R381, R420, R421), the release of nodes (R384), the
placement of gangs (R385-R388), task waves and steals (R391-R394), arenas (R398-R403), the death of nodes (R401-R407) and
the retirement of kernels (R378).
-/

namespace Sys2Proof.Machine

/-! ## Launch records -/

/-- The checks of R22 step 2 and R375 that need the 128 bytes of the record alone. -/
def launchOk (b : List Byte) : Bool :=
  let w := recf b 0x0C 4
  let roles := recf b 0x10 4
  let g := recf b 0x14 4
  let stack := recf b 0x18 4
  let r := recf b 0x1C 4
  let waves := bitsOf w 11 8 + 1
  let slots := waves + bitsOf r 23 16
  let regs := bitsOf w 20 16 + 1
  recf b 0 8 % 128 == 0 && decide (1 ≤ recf b 8 4) && decide (recf b 8 4 ≤ 65536) && bitsOf w 31 21 == 0 && bitsOf w 15 12 == 0 &&
    bitsOf w 7 6 == 0 && !w.testBit 3 && (List.range waves).all (fun i => roles / 4 ^ i % 4 != 3) && roles / 4 ^ waves == 0 &&
    bitsOf g 15 3 == 0 && stack % 16 == 0 && decide (256 ≤ stack) && bitsOf r 31 24 == 0 && decide (bitsOf r 23 16 ≤ 48) &&
    decide (slots ≤ 64) && decide ((slots * regs + 15) / 16 + bitsOf r 7 0 + bitsOf r 15 8 ≤ 124) && recf b 0x20 16 != 0 &&
    recf b 0x30 8 % 128 == 0 && recf b 0x38 8 % 128 == 0 && decide (recf b 0x60 4 ≤ 4096) && recf b 0x64 4 == 0 &&
    recf b 0x68 8 % 64 == 0 && recf b 0x78 8 == 0

/-- A version entry of a kernel object (R420, R421). -/
def versionOk (present : Bool) (b : List Byte) : Bool :=
  if present then
    recf b 0 8 != 0 && recf b 0 8 % 128 == 0 && recf b 8 8 != 0 && recf b 8 8 % 128 == 0 && recf b 16 8 % 4 == 0 &&
      decide (recf b 24 4 ≤ 4096) && recf b 28 4 == 0
  else recf b 0 32 == 0

/-- The kernel object of 320 bytes (R420, R421), with the record's VER. -/
def kobjOk (b : List Byte) (ver : Nat) : Bool :=
  let w := recf b 0 4
  w % 256 != 0 && w.testBit ver && bitsOf w 15 8 == 0 && decide (bitsOf w 26 16 ≤ 1024) && bitsOf w 31 27 == 0 && recf b 4 60 == 0 &&
    (List.range 8).all fun v => versionOk (w.testBit v) ((b.drop (64 + 32 * v)).take 32)

/-- Nodes of a launch that list node `i`. -/
def predsOf (ds : List NodeDesc) (i : Nat) : Nat := (ds.filter fun d => d.succ.contains i).length

/-- Take out the nodes whose count has fallen to zero, again and again: what is left lies on a cycle, or behind one (R380). -/
def peel (ds : List NodeDesc) : Nat → List (Nat × Nat) → List (Nat × Nat)
  | 0, xs => xs
  | n + 1, xs =>
    let out := (xs.filter fun x => x.2 == 0).map Prod.fst
    if out.isEmpty then xs
    else
      let less := fun (i : Nat) => (out.filter fun o => (ds[o]?).elim false fun d => d.succ.contains i).length
      peel ds n ((xs.filter fun x => x.2 != 0).map fun x => (x.1, x.2 - less x.1))

/-- The node table of a launch meets R380. -/
def tableOk (ds : List NodeDesc) : Bool :=
  ds.zipIdx.all (fun d => d.1.kernel == 0 && d.1.succ.all (fun i => decide (i < ds.length) && i != d.2) && d.1.deps == predsOf ds d.2) &&
    (peel ds ds.length (ds.zipIdx.map fun d => (d.2, d.1.deps))).isEmpty

/-- The kernel number that a new kernel gets: the lowest from 0 to 65,534 that no resident kernel of its ASID holds (R379). -/
def State.kernelNumber (s : State) (asid : Nat) : Option Nat :=
  let used := (s.graph.kernels.filter fun k => k.2.asid == asid).map fun k => k.2.num
  (List.range (min 65535 (used.length + 1))).find? fun n => !used.contains n

/-- The kernel of a record and its kernel object. -/
def makeKernel (b o : List Byte) (asid num launch first order : Nat) : Kernel :=
  let w := recf b 0x0C 4
  let r := recf b 0x1C 4
  let regs := bitsOf w 20 16 + 1
  let h := recf o 0 4
  let ver := fun (v : Nat) =>
    let e := (o.drop (64 + 32 * v)).take 32
    (recf e 0 8, recf e 8 8, recf e 16 8, recf e 24 4)
  { num := num, asid := asid, launch := launch, kobj := recf b 0 8, gangs := recf b 8 4, regs := 8 * regs,
    waves := bitsOf w 11 8 + 1, teams := bitsOf w 5 4 + 1, roles := recf b 0x10 4, podgrp := bitsOf (recf b 0x14 4) 31 16,
    prio := recf b 0x14 4 % 8, stack := recf b 0x18 4, tasks := bitsOf r 23 16, l1 := bitsOf r 15 8, spad := bitsOf r 7 0,
    qmask := recf b 0x20 16, stackbase := recf b 0x30 8, mbox := recf b 0x38 8,
    param := (List.range 8).map fun i => BitVec.ofNat 32 (recf b (0x40 + 4 * i) 4), crec := recf b 0x70 8,
    firstNode := first, nnodes := recf b 0x60 4, vmask := h % 256, slots := bitsOf h 26 16, vers := (List.range 8).map ver,
    kver := w % 8, order := order }

/-- Gangs of a kernel from number `lo` on begin to wait (R385). -/
def State.addGangs (s : State) (kernel lo n : Nat) : State :=
  s.updGraph fun g =>
    let new := (List.range n).map fun i => (g.nextId + i, ({ kernel := kernel, num := lo + i, since := s.clk } : Gang))
    { g with nextId := g.nextId + n, gangs := g.gangs ++ new }

/-- Read the task lists of a node table. -/
def State.readLists (s : State) (asid : Nat) : List NodeDesc → MR (List (List (W64 × List W32)))
  | [] => .ok [] s
  | d :: ds => (s.readTasks asid d.list d.count).bind fun x s => (s.readLists asid ds).bind fun xs s => .ok (x :: xs) s

/-- What refuses a launch: status 2 shape, 3 page (R375, R379). -/
abbrev Refused := Nat

/-- Check a launch record (R22 step 2, R375), and read and check its kernel object, its nodes and their task lists. -/
def State.readLaunch (s : State) (asid : Nat) (b : List Byte) : Except Refused (Launch × State) :=
  if !launchOk b then .error 2
  else match s.graphRead asid (recf b 0 8) 320 with
    | .ok o s =>
      if !kobjOk o (recf b 0x0C 4 % 8) then .error 2
      else match s.graphRead asid (recf b 0x68 8) (64 * recf b 0x60 4) with
        | .ok t s =>
          let ds := (List.range (recf b 0x60 4)).map fun i => nodeDesc ((t.drop (64 * i)).take 64)
          if ds.any Option.isNone then .error 2
          else
            let ds := ds.filterMap id
            if !tableOk ds then .error 2
            else match s.readLists asid ds with
              | .ok ls s => .ok (⟨b, o, ds, ls⟩, s)
              | _ => .error 3
        | _ => .error 3
    | _ => .error 3

/-- Create the resident kernel with a number, its nodes and its gangs (R22 step 3, R379, R381). -/
def State.createKernel (s : State) (asid a num : Nat) (l : Launch) : State :=
  let o := s.order
  let ns := o.2.nodeNumbers asid l.nodes.length
  let s := ns.2
  let k := makeKernel l.rec0 l.kobj asid num a ns.1 o.1
  let id := s.graph.nextId
  let s := s.updGraph fun g => { g with nextId := g.nextId + 1, kernels := smPut id k g.kernels }
  let s := s.putRecord asid (some k.crec) (kernelRecord k.num asid 0 a ns.1 k.nnodes s.clk k.gangs 0)
  let s := ((l.nodes.zip l.lists).zipIdx).foldl (fun s x =>
    let d := { x.1.1 with succ := x.1.1.succ.map (ns.1 + ·) }
    s.addNode asid id (ns.1 + x.2) d x.1.2 d.deps) s
  s.addGangs id 0 k.gangs

/-- The command's entry goes to the command ring of its ASID, and the slot record is done (R482). -/
def State.endSlot (s : State) (id asid status value : Nat) : State :=
  match smFind s.front.cmds id with
  | none => s
  | some c =>
    let s := s.updFront fun f => { f with cmds := smDel id f.cmds }
    s.ringPush asid false (cmdEntry c.tag c.queue c.kind status value)

/-- A field of a slot record (R481). -/
def Slotrec.get (c : Slotrec) (off n : Nat) : Nat := recf c.bytes off n

/-- The graph unit creates the kernel of a launch, as it was read at consumption, or refuses it (R22, R374, R375, R379, R500). While its ASID
holds every kernel number, the launch waits (log 77). -/
def execLaunchConsume (id : Nat) (s : State) : Out :=
  match smFind s.front.cmds id with
  | none => .next s
  | some c =>
    if c.kind ≠ 1 ∨ !c.begun then .next s
    else
      let asid := (s.queue c.queue).asid
      let a := c.get 8 8
      let b := c.launch.getD []
      match c.plan with
      | some l => match s.kernelNumber asid with
        | some num => .next ((s.createKernel asid a num l).endSlot id asid 0 0)
        | none => .next s
      | none =>
        let bs := kernelRecord 0xFFFF asid c.refused a 0xFFFFFFFF (recf b 0x60 4) s.clk (recf b 8 4) 0
        .next ((s.putRecord asid (c.launch.map fun b => recf b 0x70 8) bs).endSlot id asid (if c.refused = 3 then 4 else 1) 0)

/-! ## Releases (R382-R384, R398, R399) -/

/-- The better of two ready nodes: the higher E, then the one that became ready first (R384). -/
def State.readier (s : State) (a b : Nat × Node) : Bool :=
  decide (s.prioOf b.1 < s.prioOf a.1) || (s.prioOf a.1 == s.prioOf b.1 && decide (a.2.readyAt < b.2.readyAt))

/-- A slot of an address space is free: its last node's record has been written (R271, R401; DEDUCED, log 82). -/
def State.slotFree (s : State) (asid k : Nat) : Bool :=
  (smGet ({} : Arena) s.mem.arenas (arenaKey asid k)).state == 0 &&
    !(s.graph.nodes.any fun n => n.2.asid == asid && n.2.slot.map Prod.fst == some k)

/-- The free slot that a birth takes (R398): one that was never used, lowest first; else the one freed longest ago. -/
def State.freeArena (s : State) (asid : Nat) : Option Nat :=
  let freed := fun (k : Nat) => (smGet ({} : Arena) s.mem.arenas (arenaKey asid k)).freed
  match (List.range 4096).find? fun k => s.slotFree asid k && freed k == 0 with
  | some k => some k
  | none => ((List.range 4096).filter (s.slotFree asid)).foldl (fun b k => match b with
    | none => some k
    | some j => if freed k < freed j then some k else b) none

/-- A ready node waits for an arena slot, none being free (R384, R399). -/
def State.slotless (s : State) (n : Node) : Bool := n.arena != 0 && n.slot.isNone && (s.freeArena n.asid).isNone

/-- The ready node that is next: a node that waits for an arena slot is passed over (R384). -/
def State.nextReady (s : State) : Option (Nat × Node) :=
  let xs := s.graph.nodes.filter fun n => n.2.state == .ready && !s.slotless n.2
  xs.foldl (fun b n => match b with
    | none => some n
    | some c => if s.readier n c then some n else b) none

/-- A task of a batch node as it is dealt: word 7 is the node's handle where it has an arena (R399). -/
def Node.task (n : Node) (t : Task) : Task := if n.arena = 0 then t else { t with arg := t.arg.set 7 (BitVec.ofNat 32 n.handle) }

/-- One release for each clock (R384): the node's work joins its kernel's Mint or its task queues. Its arena must have been born, and have
reached every core (R399). -/
def execNodeRelease (s : State) : Out :=
  if s.graph.relClk = s.clk + 1 then .next s
  else match s.nextReady with
    | none => .next s
    | some (k, n) =>
      if n.slot.elim (n.arena != 0) fun x => !s.mem.settled (arenaKey n.asid x.1) then .next s
      else
        let o := s.order
        let s := o.2.updGraph fun g => { g with relClk := s.clk + 1 }
        let s := s.updNode k fun n => { n with state := .released, releasedAt := o.1, releaseClk := s.clk, tasks := n.batch.length, batch := [] }
        if n.work = 1 then .next ((s.updKernel n.kernel fun x => { x with undealt := x.undealt ++ n.batch.map n.task }).deal n.kernel)
        else .next s

/-- A node is ready and has no arena slot yet. -/
def Node.unborn (n : Node) : Bool := n.state == .ready && n.arena != 0 && n.slot.isNone

/-- A ready node's arena is born (R399): the entry of a free slot, sent to every core. Of several nodes of an ASID that wait for one, the
best takes it (R384). -/
def execArenaBirth (key : Nat) (s : State) : Out :=
  match s.node? key with
  | none => .next s
  | some n =>
    if !n.unborn || s.graph.nodes.any (fun x => x.2.asid == n.asid && x.2.unborn && s.readier x (key, n)) then .next s
    else match s.freeArena n.asid with
      | none => .next s
      | some k =>
        let x := smGet ({} : Arena) s.mem.arenas (arenaKey n.asid k)
        let gen := if x.gen = 1023 then 1 else x.gen + 1
        let s := s.castArena n.asid k { x with gen := gen, size := n.arena, state := 1, ltwo := 0, two := 0, frames := [] }
        .next ((s.updNode key fun n => { n with slot := some (k, gen) }).noteBirth n.asid n.num (gen * 4096 + k))

/-! ## Placement (R385-R388) -/

/-- Placement priority of a gang (R385): the kernel's PRIO or the highest E among its live nodes. -/
def State.placePrio (s : State) (g : Gang) : Nat :=
  ((s.graph.nodes.filter fun n => n.2.kernel == g.kernel && n.2.state != .recording).map fun n => s.prioOf n.1).foldl max
    ((s.kernel? g.kernel).elim 0 Kernel.prio)

/-- Gang a stands before gang b in the placement list (R385). -/
def State.placeBefore (s : State) (a b : Gang) : Bool :=
  let ord := fun (g : Gang) => (s.kernel? g.kernel).elim 0 Kernel.order
  let p := s.placePrio a
  let q := s.placePrio b
  decide (q < p) || (p == q && (decide (a.since < b.since) || (a.since == b.since && (decide (ord a < ord b) ||
    (ord a == ord b && decide (a.num < b.num))))))

/-- Insert into the placement list. -/
def State.intoList (s : State) (x : Nat × Gang) : List (Nat × Gang) → List (Nat × Gang)
  | [] => [x]
  | y :: ys => if s.placeBefore x.2 y.2 then x :: y :: ys else y :: s.intoList x ys

/-- The placement list (R385). -/
def State.placeList (s : State) : List (Nat × Gang) :=
  (s.graph.gangs.filter fun g => g.2.state == .waiting || g.2.state == .saved).foldr s.intoList []

/-- The gang has waited PLACECTL.AGE clocks (R385, R387). -/
def State.aged (s : State) (g : Gang) : Bool := decide (s.mod.placectl.toNat % 65536 ≤ s.clk - g.since)

/-- Legal shapes of n teams in a quad (R20). -/
def shapes (n : Nat) : List (List Nat) :=
  match n with
  | 1 => [[0], [1], [2], [3]]
  | 2 => [[0, 1], [2, 3]]
  | 3 => [[0, 1, 2], [1, 2, 3]]
  | _ => [[0, 1, 2, 3]]

/-- Candidate sets of a gang on a die, lowest quad and lowest first core first (R20, R386); a core whose engine is retired,
and a retired quad, are out of placement (R494). -/
def State.candidates (s : State) (g : Gang) (die : Nat) : List (List Nat) :=
  match s.kernel? g.kernel with
  | none => []
  | some k =>
    let quads := (List.range 32).filter fun q => k.qmask.testBit (32 * die + q) && !s.mod.retiredQuads.contains (32 * die + q)
    let sets := quads.flatMap fun q => (shapes k.teams).map fun sh => sh.map fun c => 4 * (32 * die + q) + c
    sets.filter fun cs => cs.all fun c => !(s.engine c).retired

/-- Wave slots of a core that no placed team claims (R388); one whose wave has ended is free from the next clock (R97). -/
def State.freeSlots (s : State) (core : Nat) : List Nat :=
  let used := (s.graph.teams.filter fun t => t.2.core == some core).flatMap fun t => t.2.slots
  (List.range 64).filter fun n => !used.contains n && !s.graph.freed.contains (core, n)

/-- The granules that a team of a gang claims: those it held at its save, or those of the launch record (R22, R375). -/
def State.teamNeeds (s : State) (g i : Nat) (k : Kernel) : Nat × Nat × Nat :=
  match s.team? (teamKey g i) with
  | some t => (t.regG, t.spadG, t.l1G)
  | none => (((k.waves + k.tasks) * (k.regs / 8) + 15) / 16, k.spad, k.l1)

/-- A core is reserved for another gang (R386). -/
def State.reservedFor (s : State) (g core : Nat) : Bool :=
  s.graph.reserve.any fun r => r.2.1 != g && r.2.2.contains core

/-- The team owns an engine (R354, R355). -/
def State.ownsEngine (s : State) (key : Nat) : Bool := (s.engineOf key).isSome || (s.team? key).elim false fun t => t.engine.isSome

/-- A core is free for a team of a gang (R386): slots, granules, a context bank, no reservation of another gang; not in a quad
that is or becomes gated (R493); and its engine not in use where the team brings one. -/
def State.freeFor (s : State) (g i : Nat) (k : Kernel) (core : Nat) : Bool :=
  let n := s.teamNeeds g i k
  decide (k.waves + k.tasks ≤ (s.freeSlots core).length) && decide (n.1 + n.2.1 + n.2.2 ≤ s.freeGranules core) &&
    decide ((s.gangsOn core).length < 8) && !s.reservedFor g core && !s.mod.gated.contains (quadOf core) &&
    !s.mod.closing.contains (quadOf core) && (!s.ownsEngine (teamKey g i) || (s.ownerAt core).isNone)

/-- A candidate set is entirely free for a gang. -/
def State.setFree (s : State) (g : Nat) (k : Kernel) (cs : List Nat) : Bool := cs.zipIdx.all fun c => s.freeFor g c.2 k c.1

/-- The first aged gang with a candidate set on the die gets its reservation (R386); others lapse. -/
def State.reserveFor (s : State) (die : Nat) : State :=
  let first := s.placeList.find? fun g => s.aged g.2 && !(s.candidates g.2 die).isEmpty
  let occ := fun (cs : List Nat) => (cs.filter fun c => !(s.gangsOn c).isEmpty).length
  match first with
  | none => s.updGraph fun r => { r with reserve := smDel die r.reserve }
  | some (g, x) =>
    let best := (s.candidates x die).foldl (fun (b : Option (List Nat)) cs => match b with
      | none => some cs
      | some c => if occ cs < occ c then some cs else b) none
    s.updGraph fun r => { r with reserve := smPut die (g, best.getD []) r.reserve }

/-- A wave as it starts (R22 step 7, R376): it competes for issue from the next clock (R22 step 8). -/
def newWave (k : Kernel) (kernel gang team index slotNo core : Nat) (role : Role) (sp : Nat) : Wave :=
  let ks := k.param.zipIdx.foldl (fun (m : SMap W32) x => smSet 0 m x.2 x.1) []
  let ks := smSet 0 (smSet 0 ks 60 (lo32 (BitVec.ofNat 64 sp))) 61 (hi32 (BitVec.ofNat 64 sp))
  { gang := gang, team := team, index := index, role := role, kernel := kernel, asid := k.asid, regs := k.regs,
    place := some (core, slotNo), r := { k := ks }, fresh := true }

/-- Role of a launch wave (R374). -/
def Kernel.role (k : Kernel) (w : Nat) : Role :=
  match k.roles / 4 ^ w % 4 with
  | 0 => .loader
  | 1 => .storer
  | _ => .vector

/-- Stack base of a wave of a carve-out index (R376). -/
def Kernel.sp (k : Kernel) (gang team i : Nat) : Nat :=
  k.stackbase + ((gang * k.teams + team) * (k.waves + k.tasks) + i) * 32 * k.stack

/-- A new team claims its slots, granules and bank (R22 step 6, R388). -/
def State.claimTeam (s : State) (g : Nat) (k : Kernel) (i core : Nat) : State :=
  let n := s.teamNeeds g i k
  let t : Team := { core := some core, regG := n.1, spadG := n.2.1, l1G := n.2.2, slots := (s.freeSlots core).take (k.waves + k.tasks) }
  s.updGraph fun r => { r with teams := smPut (teamKey g i) t r.teams }

/-- A saved team claims slots again, and what else it held (R388): its waves may stand in other slots. -/
def State.moveTeam (s : State) (g : Nat) (k : Kernel) (i core : Nat) : State :=
  let key := teamKey g i
  let slots := (s.freeSlots core).take (k.waves + k.tasks)
  let slotOf := fun (w : Wave) => slots.getD (match w.res with
    | some j => k.waves + j
    | none => w.index) 0
  let launch := (s.waves.filter fun w => w.2.teamKey == key && w.2.res.isNone).map fun w => w.2.index
  let kept := slots.zipIdx.map fun n => if n.2 < k.waves && !launch.contains n.2 then 64 else n.1
  let s := s.updTeam key fun t => { t with core := some core, slots := kept }
  let place : Nat × Wave → Nat × Wave := fun w => if w.2.teamKey == key then (w.1, { w.2 with place := some (core, slotOf w.2) }) else w
  { s with waves := s.waves.map place }

/-- A team's waves start in a version (R22 step 7). -/
def State.startWaves (s : State) (x : Gang) (k : Kernel) (ver : Nat) (t : Nat × Team) : State :=
  let i := t.1 % 4
  let pc := (k.vers.getD ver (0, 0, 0, 0)).1
  let sp0 : Split := { pc := pcAt (pc / 128) 1, mask := 0xFFFFFFFF, ver := ver }
  (List.range k.waves).foldl (fun s w =>
    let y := newWave k x.kernel (t.1 / 4) i w (t.2.slots.getD w 0) (t.2.core.getD 0) (k.role w) (k.sp x.num i w)
    { s.setWave s.nextWave { y with live := [some sp0, none, none, none] } with nextWave := s.nextWave + 1 }) s

/-- A new gang's waves start, all in the version that the kernel has at that clock (R22 step 7). -/
def State.startGang (s : State) (g : Nat) (x : Gang) : State :=
  match s.kernel? x.kernel with
  | none => s
  | some k => ((s.gangTeams g).foldl (fun s t => s.startWaves x k k.kver t) s).updGang g fun y => { y with state := .placed, ver0 := k.kver }

/-- The cores of a placed gang are set up (R22 steps 6 and 7, R451): what they still have to give up is spilled first (R14, R450), with an
engine state in the way; then a new gang starts, and a saved one resumes. -/
def State.setUp (s : State) (g : Nat) : State :=
  match s.gang? g with
  | none => s
  | some x =>
    if x.state != .starting && x.state != .resuming then s
    else if (s.gangTeams g).all s.coreReady then if x.state = .starting then s.startGang g x else s.resumeGang g
    else match (s.gangTeams g).findSome? fun t => t.2.core.bind (s.engineInWay t.1) with
      | some c => s.wantEngine c
      | none => s

/-- A gang that has been given cores is set up as soon as nothing is in the way (R22 step 6, R451). -/
def execGangResume (g : Nat) (s : State) : Out := .next (s.setUp g)

/-- Place a gang on a free set (R22 step 5, R386, R388): its teams claim what they need, tasks that waited for it are dealt (R382), and its
cores are set up, at once where no saved context is in the way. -/
def State.placeGang (s : State) (die g : Nat) (x : Gang) (k : Kernel) (cs : List Nat) : State :=
  let s := s.updGraph fun r => { r with
    placeClk := smPut die (s.clk + 1) r.placeClk
    reserve := r.reserve.filter fun v => v.2.1 != g }
  let old := x.state == .saved
  let s := cs.zipIdx.foldl (fun s c => if old then s.moveTeam g k c.2 c.1 else s.claimTeam g k c.2 c.1) s
  let s := s.updGang g fun y => { y with
    state := if old then .resuming else .starting
    cores := cs
    since := if old then y.since else s.clk
    placedAt := s.clk + 1 }
  (s.deal x.kernel).setUp g

/-- The graph unit places at most one gang for each clock and die (R386). -/
def execGangPlace (die : Nat) (s : State) : Out :=
  let s := s.reserveFor die
  if smGet 0 s.graph.placeClk die = s.clk + 1 then .next s
  else
    let pick := s.placeList.findSome? fun g =>
      match s.kernel? g.2.kernel with
      | none => none
      | some k => ((s.candidates g.2 die).find? fun cs => s.setFree g.1 k cs).map fun cs => (g.1, g.2, k, cs)
    match pick with
    | none => .next s
    | some (g, x, k, cs) => .next (s.placeGang die g x k cs)

/-! ## Task waves (R391, R392, R394) -/

/-- SPRUECTL of a die (R394). -/
def State.spruectl (s : State) (die : Nat) : Nat := (smGet 0x00400080 s.mod.spruectl die).toNat

/-- A free task reservation of a kernel on a core: team and number (R97, R388, R391). -/
def State.freeRes (s : State) (kernel core : Nat) : Option (Nat × Nat) :=
  match s.kernel? kernel with
  | none => none
  | some k =>
    let ts := s.graph.teams.filter fun t => t.2.core == some core &&
      (s.gang? (t.1 / 4)).elim false fun g => g.kernel == kernel && g.state == .placed
    ts.findSome? fun t =>
      ((List.range k.tasks).find? fun j => !(s.waves.any fun w => w.2.teamKey == t.1 && w.2.res == some j) &&
        !s.graph.freed.contains (core, t.2.slots.getD (k.waves + j) 64)).map fun j => (t.1, j)

/-- The Sprue gathers tasks of a kernel from a queue (R391): the head task and those of its entry among the 64 records from it on, at
most 32. A record that has been gathered for another kernel is in the queue no more (R393). The second argument: the head's entry, the
records still to be scanned, the tasks still to be taken. -/
def markGather (kernel : Nat) : List Task → Option (W64 × Nat × Nat) → List Task
  | [], _ => []
  | t :: ts, none =>
    if t.kernel == kernel then { t with gathered := true } :: markGather kernel ts (some (t.entry, 63, 31)) else t :: markGather kernel ts none
  | t :: ts, some (e, n + 1, k + 1) =>
    if t.gathered && t.kernel != kernel then t :: markGather kernel ts (some (e, n + 1, k + 1))
    else if t.kernel == kernel && t.entry == e then { t with gathered := true } :: markGather kernel ts (some (e, n, k))
    else t :: markGather kernel ts (some (e, n, k + 1))
  | ts, some _ => ts

/-- The queue with what the Sprue would take for a kernel, and without it. -/
def gatherTasks (q : List Task) (kernel : Nat) : List Task × List Task :=
  (markGather kernel q none).partition fun t => t.gathered && t.kernel == kernel

/-- The clock at which a kernel's head task became eligible, where it has been noted (R391). -/
def Core.eligibleAt (c : Core) (kernel : Nat) : Option Nat := smFind c.eligible kernel

/-- The head tasks of a core that become eligible in this clock are noted, and the Sprue has begun to gather behind them (R391, R393);
where no reservation is free any more, the tasks are back in their queue. -/
def State.noteEligible (s : State) (core : Nat) : State :=
  let c := s.core core
  let ks := (c.tq.map Task.kernel).eraseDups
  let free := ks.filter fun k => (s.freeRes k core).isSome
  let el := free.foldl (fun (m : SMap Nat) k => if (smFind m k).isSome then m else smPut k s.clk m) (c.eligible.filter fun e => ks.contains e.1)
  let back := c.tq.map fun t => { t with gathered := t.gathered && free.contains t.kernel }
  s.setCore core { c with eligible := el, tq := free.foldl (fun q k => markGather k q none) back }

/-- A kernel that the Sprue may pour on a core, with its tasks (R391): a full wave, or one that has waited long enough. -/
def State.pourOn (s : State) (core : Nat) : Option (Nat × List Task) :=
  let c := s.core core
  (c.tq.map Task.kernel).eraseDups.findSome? fun k =>
    let ts := (gatherTasks c.tq k).1
    let due := decide ((c.eligibleAt k).getD s.clk + s.spruectl (dieOf core) % 1024 ≤ s.clk)
    if (s.freeRes k core).isSome && (ts.length == 32 || due) then some (k, ts) else none

/-- The core a die's Sprue pours for now: the lowest ready core after the one it last poured for, wrapping round; one pour for
each clock (R391). -/
def State.pourCore (s : State) (die : Nat) : Option Nat :=
  if smGet 0 s.graph.pourClk die = s.clk + 1 then none
  else nextAfter (smFind s.graph.lastPour die) (((List.range 128).map (128 * die + ·)).filter fun c => (s.pourOn c).isSome)

/-- A task wave starts (R392); its core makes the acquire of R412. -/
def State.pour (s : State) (core kernel : Nat) (ts : List Task) : State :=
  match s.freeRes kernel core, s.kernel? kernel with
  | some (key, j), some k =>
    let die := dieOf core
    let n := smGet 0 s.graph.pours die
    let slotNo := ((s.team? key).elim [] Team.slots).getD (k.waves + j) 0
    let gnum := (s.gang? (key / 4)).elim 0 Gang.num
    let w := newWave k kernel (key / 4) (key % 4) (16 + n % 48) slotNo core .task (k.sp gnum (key % 4) (k.waves + j))
    let regs := ts.zipIdx.foldl (fun (m : SMap W32) t =>
      (t.1.arg.take 8).zipIdx.foldl (fun m a => smSet 0 m (vkey a.2 t.2) a.1) m) []
    let mask : Mask := BitVec.ofNat 32 (2 ^ ts.length - 1)
    let e := (ts.head?.map Task.entry).getD 0
    let w : Wave := { w with
      res := some j
      r := { w.r with v := regs }
      exited := ~~~mask
      wk := { tasks := ts.zipIdx.map fun t => ⟨t.2, t.1.node⟩ }
      live := [some { pc := e, mask := mask, ver := k.kver, due := .entry }, none, none, none] }
    let s := s.updCore core fun c => { c with tq := (gatherTasks c.tq kernel).2, eligible := smDel kernel c.eligible }
    let s := s.updGraph fun g => { g with
      pours := smSet 0 g.pours die (n + 1)
      lastPour := smPut die core g.lastPour
      pourClk := smPut die (s.clk + 1) g.pourClk }
    ({ s.setWave s.nextWave w with nextWave := s.nextWave + 1 }.acquire core .pkg).dealAll
  | _, _ => s

/-- The Sprue of a die pours a full task wave (R391). -/
def execSpruePour (die : Nat) (s : State) : Out :=
  match s.pourCore die with
  | none => .next s
  | some c =>
    match s.pourOn c with
    | some (k, ts) => if ts.length = 32 then .next (s.pour c k ts) else .next s
    | none => .next s

/-- SPRUECTL.WAIT clocks after its head task became eligible a partly filled wave is poured (R391). -/
def execSprueWaitExpiry (core : Nat) (s : State) : Out :=
  if s.pourCore (dieOf core) ≠ some core then .next s
  else match s.pourOn core with
    | some (k, ts) => .next (s.pour core k ts)
    | none => .next s

/-! ## Steals (R393) -/

/-- One step of a core's LFSR. -/
def lfsrStep (x : BitVec 16) : BitVec 16 :=
  let b := x.getLsbD 15 ^^ x.getLsbD 13 ^^ x.getLsbD 12 ^^ x.getLsbD 10
  (x <<< 1) ||| (if b then 1 else 0)

/-- Kernels that a core could steal for: a team with a free reservation there, and no task in its queue. -/
def State.stealKernels (s : State) (core : Nat) : List Nat :=
  (s.graph.kernels.map Prod.fst).filter fun k => (s.freeRes k core).isSome && !((s.core core).tq.any fun t => t.kernel == k && !t.gathered)

/-- A core asks a victim for tasks (R393). -/
def execStealRequest (core : Nat) (s : State) : Out :=
  let c := s.core core
  match nextAfter (some c.turn) (s.stealKernels core) with
  | none => .next s
  | some k =>
    if c.steal.isSome ∨ s.clk < c.gapTo then .next s
    else
      let x := lfsrStep c.lfsr
      let x := if x.toNat % 128 = core % 128 then lfsrStep x else x
      .next (s.setCore core { c with lfsr := x, steal := some (k, dieOf core * 128 + x.toNat % 128), turn := k })

/-- The last n tasks of a kernel that a queue holds leave it: what stays, and what is taken, both in order. -/
def takeTail (q : List Task) (kernel n : Nat) : List Task × List Task :=
  let r := q.reverse.foldl (fun (a : List Task × List Task) t =>
    if t.kernel == kernel && !t.gathered && decide (a.2.length < n) then (a.1, t :: a.2) else (t :: a.1, a.2)) ([], [])
  r

/-- The victim answers (R393): half its tasks of the kernel, at most 32, from its tail; or none, and the thief waits. No more are taken
than the thief's queue has room for (R391; log 78). -/
def execStealAnswer (core : Nat) (s : State) : Out :=
  match (s.core core).steal with
  | none => .next s
  | some (k, victim) =>
    let s := (s.updCore core fun c => { c with steal := none }).noteEligible victim
    let q := (s.core victim).tq
    let m := (q.filter fun t => t.kernel == k && !t.gathered).length
    let n := min (min 32 ((m + 1) / 2)) (4096 - (s.core core).queued)
    if n = 0 then .next (s.updCore core fun c => { c with gapTo := s.clk + bitsOf (s.spruectl (dieOf core)) 25 16 })
    else
      let r := takeTail q k n
      let gone := !(r.1.any fun t => t.kernel == k)
      let s := s.updCore victim fun c => { c with tq := r.1, eligible := if gone then smDel k c.eligible else c.eligible }
      .next (s.updCore core fun c => { c with tq := c.tq ++ r.2 }).dealAll

/-! ## The death of nodes (R401-R407) -/

/-- An accepted access to an arena slot has not been performed (R401 step 3): an access of a wave that is not parked there, or
an engine command that reads or writes it. -/
def Op.inSlot (o : Op) (k : Nat) : Bool :=
  let hit := fun (a : W64) => windowOf a.toNat == 2 && arenaSlot a.toNat == k
  (isAccess o.ins && o.args.any fun x => hasLane (o.todo &&& ~~~o.atRest) x.lane && hit x.addr) ||
    (o.cmd.elim false fun c => c.segs.any fun g => g.code == 0 && (hit g.dst || hit g.src || hit (BitVec.ofNat 64 ((c.par.getD 0 0).toNat + 2 ^ 32 * (c.par.getD 1 0).toNat))))

/-- Accepted work of an address space in a slot. -/
def State.slotBusy (s : State) (asid k : Nat) : Bool := s.waves.any fun w => w.2.asid == asid && w.2.ops.any fun o => o.inSlot k

/-- A key lies in an arena slot of an address space. -/
def keyInSlot (asid k key : Nat) : Bool := keyAsid key == asid && windowOf (keyAddr key) == 2 && arenaSlot (keyAddr key) == k

/-- The sweep of a slot (R253, R401 step 4): tags and their pins, L1 lines, write-backs on their way, translations. -/
def State.sweepSlot (s : State) (asid k : Nat) : State :=
  let s := ((s.mem.tags.map Prod.fst).filter (keyInSlot asid k)).foldl State.dropTag s
  let sweep : Nat × Core → Nat × Core := fun c => (c.1, { c.2 with l1 := c.2.l1.filter fun l => !keyInSlot asid k l.1 })
  let s : State := { s with cores := s.cores.map sweep }
  s.updMem fun m => { m with
    wbs := m.wbs.filter fun b => !keyInSlot asid k b.key
    tlb := m.tlb.filter fun t => !(t.asid == asid && t.arena && t.page / 2 ^ 18 % 4096 == k) }

/-- The slot's frames go back to the pool, zeroed (R401 step 5, R403), and the slot is free. -/
def State.freeSlotPages (s : State) (asid k : Nat) : State :=
  let x := smGet ({} : Arena) s.mem.arenas (arenaKey asid k)
  let zero1 := fun (p : List Host.Cell) (f : Nat) => p.filter fun b => !(decide (f ≤ b.1) && decide (b.1 < f + 65536))
  let s := s.updMem fun m => { m with phys := x.frames.foldl zero1 m.phys }
  let s := s.updAsid asid fun d => { d with pool := d.pool ++ x.frames }
  let n := s.mem.nextFreed
  (s.updMem fun m => { m with nextFreed := n + 1 }).castArena asid k
    { x with state := 0, ltwo := 0, two := 0, frames := [], freed := n }

/-- The sum of a count over every bank of a kernel's placed or saved gangs, saturating (R462). -/
def State.bankSum (s : State) (kernel bytes : Nat) (f : Bank → Nat) : Nat :=
  let ts := s.graph.teams.filter fun t => (s.gang? (t.1 / 4)).elim false fun g => g.kernel == kernel
  min (2 ^ (8 * bytes) - 1) ((ts.map fun t => f t.2.bank).foldl (· + ·) 0)

/-- The counters latched into a node's record (R462). -/
def State.latched (s : State) (kernel : Nat) : List Byte :=
  let pmc := fun (n : Nat) => le 8 (s.bankSum kernel 8 fun b => (smGet 0 b.pmc n).toNat)
  (List.range 7).flatMap (fun c => le 4 (s.bankSum kernel 4 fun b => (smGet 0 b.nscnt c).toNat)) ++ le 4 0 ++ pmc 0 ++ pmc 1 ++ pmc 4 ++ pmc 7

/-- The completion record of a node (R407). -/
def State.nodeRecord (s : State) (n : Node) : List Byte :=
  let st := if n.failed = 0 then 0 else n.failed
  let first := match n.firstLost with
    | some c => le 4 c.x ++ le 4 c.y ++ le 4 c.z
    | none => le 12 (2 ^ 96 - 1)
  le 4 n.num ++ le 1 st ++ le 1 (if n.deadWrite then 1 else 0) ++ le 1 n.prio ++ le 1 0 ++ le 2 ((s.kernel? n.kernel).elim 0 Kernel.num) ++
    le 2 n.asid ++ le 4 0 ++ le 8 n.given ++ le 4 n.lost ++ le 4 n.tasksDone ++ first ++ le 4 n.handle ++ le 4 n.frames ++ le 4 0 ++
    le 8 n.releaseClk ++ s.latched n.kernel

/-- The record of a node waits in its ring (R483). -/
def State.recordWaits (s : State) (n : Node) : Bool :=
  (smGet ({} : Ring) s.front.rings (ringKey n.asid true)).queue.any fun b => recf b 0 4 == n.num && recf b 7 1 == 0

/-- A successor's count falls (R401 step 7, R406). -/
def State.fallSucc (s : State) (n : Node) (i : Nat) : State :=
  let k := nodeKey n.asid i
  (s.updNode k fun y => { y with deps := y.deps - 1, doomed := y.doomed || n.failed != 0 }).makeReady k

/-- A node dies, step by step (R401), each step once the one before it has ended: step 5 when every core has acknowledged. A node without an
arena goes from its last report to its record. -/
def execNodeDeath (key : Nat) (s0 : State) : Out :=
  let s := (s0.node? key).elim s0 fun n => s0.dropFailed n.kernel
  match s.node? key with
  | none => .next s
  | some n =>
    let set := fun (s : State) (st : NodeState) (k : Nat) => s.updNode key fun y => { y with state := st, step := k }
    let entry := fun (k : Nat) => smGet ({} : Arena) s.mem.arenas (arenaKey n.asid k)
    match n.state, n.slot with
    | .released, none => if n.over then .next (set s .recording 6) else .next s
    | .released, some (k, _) =>
      if n.over then .next (set (s.castArena n.asid k { entry k with state := 2 }) .dying 3) else .next s
    | .dying, some (k, _) =>
      if n.step = 3 then
        if s.mem.settled (arenaKey n.asid k) && !s.slotBusy n.asid k then .next (set (s.sweepSlot n.asid k) .dying 5) else .next s
      else
        let s := s.updNode key fun y => { y with frames := (entry k).frames.length }
        .next (set (s.freeSlotPages n.asid k) .recording 6)
    | .recording, _ =>
      if n.step = 6 then
        if n.slot.elim true fun x => s.mem.settled (arenaKey n.asid x.1) then .next (set (s.ringPush n.asid true (s.nodeRecord n)) .recording 7)
        else .next s
      else if s.recordWaits n then .next s
      else
        let s := n.succ.foldl (fun s i => s.fallSucc n i) s
        .next (s.updGraph fun g => { g with nodes := smDel key g.nodes, fellClk := if n.succ.isEmpty then g.fellClk else s.clk + 1 })
    | _, _ => .next s

/-! ## Retirement (R378) -/

/-- A kernel whose gangs have all exited and of which no node lives retires: its final record, and it is gone. -/
def execKernelRetire (kernel : Nat) (s : State) : Out :=
  match s.kernel? kernel with
  | none => .next s
  | some k =>
    if k.gone < k.gangs + k.grown ∨ s.graph.nodes.any (fun n => n.2.kernel == kernel) then .next s
    else
      let s := s.putRecord k.asid (some k.crec) (kernelRecord k.num k.asid 1 k.launch k.firstNode k.nnodes s.clk k.gangs k.grown)
      .next (s.updGraph fun g => { g with kernels := smDel kernel g.kernels, gangs := g.gangs.filter fun x => x.2.kernel != kernel })

end Sys2Proof.Machine
end

