-- ==== Sys2Proof/Machine/System.lean ====
section
/-!
DEFINITION. The system class: control registers (R463-R467), `trap`, `bkpt`, `tclr`, `trapret`, `trace`, `smark`, `pwr.req`
and `mon` (R468-R472), the entry into the handler and the halt (R445, R448), WTIMER (R452), samples and traces (R459-R461).
-/

namespace Sys2Proof.Machine

/-! ## Access (R465) -/

/-- Who may read or write a register. -/
inductive CsrAcc where
  | any | handler | never
  deriving DecidableEq, Repr

/-- The access is allowed to a handler split, or to another. -/
def CsrAcc.allows (x : CsrAcc) (h : Bool) : Bool :=
  match x with
  | .any => true
  | .handler => h
  | .never => false

/-- The rows of R465: read and write access of a number; none for a number outside the table. -/
def csrRow (c : Nat) : Option (CsrAcc × CsrAcc) :=
  if c ≤ 0x001 then some (.any, .never)
  else if c = 0x002 then some (.any, .any)
  else if c = 0x003 then some (.any, .never)
  else if c ≤ 0x005 then some (.any, .any)
  else if c ≤ 0x007 then some (.any, .handler)
  else if c ≤ 0x00B then some (.any, .never)
  else if c ≤ 0x00D then some (.any, .any)
  else if c ≤ 0x00F then none
  else if c ≤ 0x017 then some (.handler, .never)
  else if c ≤ 0x01F then none
  else if c ≤ 0x02D then some (.handler, .handler)
  else if c ≤ 0x02F then none
  else if c ≤ 0x05F then some (.handler, .handler)
  else if c ≤ 0x063 then some (.any, .never)
  else if c ≤ 0x065 then some (.any, .any)
  else if c = 0x066 then some (.any, .never)
  else if c ≤ 0x06F then none
  else if c ≤ 0x078 then some (.any, .any)
  else if c ≤ 0x07B then none
  else if c ≤ 0x083 then some (.any, .any)
  else if c ≤ 0x08F then none
  else if c = 0x090 then some (.any, .any)
  else if c ≤ 0x094 then some (.any, .never)
  else if c ≤ 0x09F then none
  else if c ≤ 0x0AF then some (.any, .any)
  else if c ≤ 0x0BF then some (.any, .never)
  else if c ≤ 0x0C7 then some (.any, .any)
  else if c ≤ 0x0CF then none
  else if c ≤ 0x0DF then some (.any, .never)
  else none

/-! ## The split table (R446) -/

/-- Entry i of the split table as a handler numbers it: 0 to 3 the live entries, 4 + n overflow entry n, entry 0 the bottom. -/
def Wave.entryAt (w : Wave) (i : Nat) : Option Split := if i < 4 then (w.live[i]?).join else w.ovf.reverse[i - 4]?

/-- PC, mask and version of an entry; of one that is not in use, what the handler has written there. -/
def Wave.entryView (w : Wave) (i : Nat) : W64 × W32 × Nat :=
  match w.entryAt i with
  | some x => (x.pc, x.mask, x.ver)
  | none => smGet (0, 0, 0) w.t.spare i

/-- Update what an entry holds, in use or not. -/
def Wave.putEntry (w : Wave) (i : Nat) (f : W64 × W32 × Nat → W64 × W32 × Nat) : Wave :=
  match w.entryAt i with
  | some x =>
    let y := f (x.pc, x.mask, x.ver)
    let z := { x with pc := y.1, mask := y.2.1, ver := y.2.2 }
    if i < 4 then { w with live := w.live.set i (some z) } else { w with ovf := w.ovf.set (w.ovf.length - 1 - (i - 4)) z }
  | none => { w with t := { w.t with spare := smSet (0, 0, 0) w.t.spare i (f (smGet (0, 0, 0) w.t.spare i)) } }

/-- A split brought into use from what the handler has written: its links and W are 0; it has no stopped PC (R446). -/
def splitOf (x : W64 × W32 × Nat) : Split := { pc := x.1, mask := x.2.1, ver := x.2.2, stop := true }

/-- Forget the PC at entry of a table entry. -/
def Wave.forgetPc (w : Wave) (i : Nat) : Wave := { w with t := { w.t with entryPcs := w.t.entryPcs.set i none } }

/-- SPLITVER (R466). -/
def Wave.splitver (w : Wave) : W32 :=
  BitVec.ofNat 32 (((List.range 4).map fun n => ((w.entryView n).2.2 % 8 + if (w.entryAt n).isSome then 8 else 0) * 16 ^ n).sum)

/-- A write of SPLITVER: V and VER of the four live entries. -/
def Wave.putSplitver (w : Wave) (x : W32) : Wave :=
  (List.range 4).foldl (fun (w : Wave) n =>
    let ver := x.toNat / 16 ^ n % 8
    let w := w.putEntry n fun y => (y.1, y.2.1, ver)
    let on := x.getLsbD (4 * n + 3)
    match w.entryAt n with
    | some y => if on then w
      else ({ w with live := w.live.set n none, t := { w.t with spare := smSet (0, 0, 0) w.t.spare n (y.pc, y.mask, y.ver) } }).forgetPc n
    | none => if on then ({ w with live := w.live.set n (some (splitOf (w.entryView n))) }).forgetPc n else w) w

/-- A write of OVFDEPTH: the top entries go, or further ones come into use. -/
def Wave.putDepth (w : Wave) (d : Nat) : Wave :=
  let n := w.ovf.length
  if d ≤ n then
    let gone := (List.range (n - d)).map (d + ·)
    let spare := gone.foldl (fun (m : SMap (W64 × W32 × Nat)) i => smSet (0, 0, 0) m (4 + i) (w.entryView (4 + i))) w.t.spare
    let w' := { w with ovf := w.ovf.drop (n - d), t := { w.t with spare := spare } }
    gone.foldl (fun w i => w.forgetPc (4 + i)) w'
  else
    let new := ((List.range (d - n)).map fun i => splitOf (w.entryView (4 + n + i))).reverse
    let w' := { w with ovf := new ++ w.ovf }
    (List.range (d - n)).foldl (fun w i => w.forgetPc (4 + n + i)) w'

/-! ## Reading (R465, R466) -/

/-- The half of a 64-bit register. -/
def half (x : W64) (hi : Bool) : W32 := if hi then hi32 x else lo32 x

/-- KVSTATE (R425). -/
def Kernel.kvstate (k : Kernel) : W32 := BitVec.ofNat 32 (k.vmask + k.kver * 2 ^ 8 + if k.lock then 2 ^ 16 else 0)

/-- Word i of the head detail; zero where the queue is empty. -/
def WTrap.headWord (t : WTrap) (i : Nat) : W32 :=
  match t.dq with
  | d :: _ => BitVec.ofNat 32 (recf d.image (4 * i) 4)
  | [] => 0

/-- Word i of a register of 16-bit fields (R191). -/
def pairWordOf (m : SMap (BitVec 16)) (dflt : BitVec 16) (i : Nat) : W32 :=
  BitVec.ofNat 32 ((smGet dflt m (2 * i)).toNat + if i < 3 then (smGet dflt m (2 * i + 1)).toNat * 2 ^ 16 else 0)

/-- The engine that a wave of the core sees: an unowned one is as after a claim's reset. -/
def State.engineSeen (s : State) (core : Nat) : Engine := if (s.ownerAt core).isSome then s.engine core else (s.engine core).idle

/-- A split CSR: 0x020 to 0x02D, 0x030 to 0x05F. -/
def Wave.splitCsr (w : Wave) (c : Nat) : W32 :=
  if c ≤ 0x027 then half (w.entryView ((c - 0x020) / 2)).1 (c % 2 == 1)
  else if c ≤ 0x02B then (w.entryView (c - 0x028)).2.1
  else if c = 0x02C then w.splitver
  else if c = 0x02D then BitVec.ofNat 32 w.ovf.length
  else
    let x := w.entryView (4 + (c - 0x030) / 4)
    match (c - 0x030) % 4 with
    | 0 => lo32 x.1
    | 1 => hi32 x.1
    | 2 => x.2.1
    | _ => BitVec.ofNat 32 x.2.2

/-- A bank register: it reaches the bank of the wave's gang on its core (R467). -/
def Bank.csr (b : Bank) (c : Nat) : W32 :=
  if c = 0 then b.issuectl
  else if c = 1 then b.pwrctx
  else if c = 2 then b.fetimeout
  else if c ≤ 0x005 then half b.trapvec (c == 0x005)
  else if c ≤ 0x007 then half b.assayvec (c == 0x007)
  else if c ≤ 0x00D then half b.trapscr (c == 0x00D)
  else if c = 0x070 then b.nsctl
  else if c = 0x071 then b.nswin
  else if c ≤ 0x078 then smGet 0 b.nscnt (c - 0x072)
  else if c ≤ 0x07F then pairWordOf b.nsthr 0xFFFF (c - 0x07C)
  else if c ≤ 0x083 then pairWordOf b.nswcnt 0 (c - 0x080)
  else if c = 0x0C0 then b.tracectl
  else if c ≤ 0x0C2 then half b.tracebase (c == 0x0C2)
  else if c = 0x0C3 then b.tracesize
  else if c = 0x0C4 then b.sampctl
  else if c ≤ 0x0C6 then half b.sampbase (c == 0x0C6)
  else if c = 0x0C7 then b.sampsize
  else half (smGet 0 b.pmc ((c - 0x0D0) / 2)) (c % 2 == 1)

/-- An engine register of the core. -/
def Engine.csr (e : Engine) (c : Nat) : W32 :=
  if c = 0x090 then e.mectl
  else if c = 0x091 then e.mestat
  else if c ≤ 0x093 then half e.mepc (c == 0x093)
  else if c = 0x094 then e.acctok
  else if c ≤ 0x0AF then smGet 0 e.ringd (c - 0x0A0)
  else if c ≤ 0x0B7 then smGet 0 e.tshape (c - 0x0B0)
  else smGet 0 e.omap (c - 0x0B8)

/-- The value of a control register as the issuing split reads it. -/
def State.csrGet (s : State) (v : Env) (c : Nat) : W32 :=
  match s.wave? v.u with
  | none => 0
  | some w =>
    if c = 0x003 then (s.kernel? w.kernel).elim 0 Kernel.kvstate
    else if c = 0x008 then w.t.cause
    else if c = 0x009 then w.t.planes
    else if c = 0x00A then w.t.trapdqs
    else if c = 0x00B then w.t.smark.zeroExtend 32
    else if 0x010 ≤ c ∧ c ≤ 0x017 then w.t.headWord (c - 0x010)
    else if 0x020 ≤ c ∧ c ≤ 0x05F then w.splitCsr c
    else if c = 0x060 ∨ c = 0x061 then half (BitVec.ofNat 64 s.clk) (c == 0x061)
    else if c = 0x062 ∨ c = 0x063 then half (BitVec.ofNat 64 (s.ctxclk w.gang)) (c == 0x063)
    else if c = 0x064 ∨ c = 0x065 then half w.t.timer (c == 0x065)
    else if c = 0x066 then BitVec.ofNat 32 w.wk.cmdseq
    else if 0x090 ≤ c ∧ c ≤ 0x0BF then (s.engineSeen w.core).csr c
    else (s.bank w).csr c

/-! ## Writing (R465, R466) -/

/-- Replace a half of a 64-bit register. -/
def setHalf (x : W64) (hi : Bool) (y : W32) : W64 := if hi then join32 y (lo32 x) else join32 (hi32 x) y

/-- Write the fields of a mask of bits only (R7, R466). -/
def maskPut (old x m : W32) : W32 := (old &&& ~~~m) ||| (x &&& m)

/-- A write of word i of NSTHR (R191). -/
def Bank.putThr (b : Bank) (i : Nat) (x : W32) : Bank :=
  let m := smSet 0xFFFF b.nsthr (2 * i) (x.extractLsb' 0 16)
  { b with nsthr := if i < 3 then smSet 0xFFFF m (2 * i + 1) (x.extractLsb' 16 16) else m }

/-- A write of a bank register that software may write. -/
def Bank.putCsr (b : Bank) (c : Nat) (x : W32) : Bank :=
  if c = 2 then { b with fetimeout := x }
  else if c = 4 ∨ c = 5 then { b with trapvec := setHalf b.trapvec (c == 5) x }
  else if c = 6 ∨ c = 7 then { b with assayvec := setHalf b.assayvec (c == 7) x }
  else if c = 0x00C ∨ c = 0x00D then { b with trapscr := setHalf b.trapscr (c == 0x00D) x }
  else if c = 0x070 then { b with nsctl := maskPut b.nsctl x 0x3FFF }
  else if 0x072 ≤ c ∧ c ≤ 0x078 then { b with nscnt := smSet 0 b.nscnt (c - 0x072) x }
  else if 0x07C ≤ c ∧ c ≤ 0x07F then b.putThr (c - 0x07C) x
  else if c = 0x0C0 then { b with tracectl := maskPut b.tracectl x 7 }
  else if c = 0x0C1 ∨ c = 0x0C2 then { b with tracebase := setHalf b.tracebase (c == 0x0C2) x }
  else if c = 0x0C3 then { b with tracesize := x }
  else if c = 0x0C4 then { b with sampctl := maskPut b.sampctl x 0x1F01 }
  else if c = 0x0C5 ∨ c = 0x0C6 then { b with sampbase := setHalf b.sampbase (c == 0x0C6) x }
  else if c = 0x0C7 then { b with sampsize := x }
  else b

/-- Every split of a gang's waves on a core begins its trace with a sync record (R460). -/
def State.resync (s : State) (key : Nat) : State :=
  let go : Nat × Wave → Nat × Wave := fun w =>
    if w.2.teamKey == key then
      let y := w.2.mapLive fun x => { x with traced := none }
      (w.1, { y with t := { y.t with handler := y.t.handler.map fun x => { x with traced := none } } })
    else w
  { s with waves := s.waves.map go }

/-- WTIMER (R452): the low half arms a nonzero deadline, the high half disarms. -/
def WTrap.putTimer (t : WTrap) (hi : Bool) (x : W32) : WTrap :=
  let d := setHalf t.timer hi x
  { t with timer := d, armed := !hi && d != 0 }

/-- A write of an engine register of the own core: it claims the engine, in which no saved context's state stands, and is refused while a
program runs or where another team owns the engine (R337, R339, R341). -/
def State.engineCsr (s : State) (w : Wave) (f : Engine → Engine) : Option State :=
  match s.claim w.core w.teamKey with
  | none => none
  | some t => if (t.engine w.core).run then none else some (t.updEngine w.core f)

/-- A write of a split CSR by a handler (R446). -/
def Wave.putSplitCsr (w : Wave) (c : Nat) (x : W32) : Wave :=
  if c ≤ 0x027 then w.putEntry ((c - 0x020) / 2) fun y => (setHalf y.1 (c % 2 == 1) x, y.2)
  else if c ≤ 0x02B then w.putEntry (c - 0x028) fun y => (y.1, x, y.2.2)
  else if c = 0x02C then w.putSplitver x
  else if c = 0x02D then w.putDepth (x.toNat % 16)
  else
    let i := 4 + (c - 0x030) / 4
    match (c - 0x030) % 4 with
    | 0 => w.putEntry i fun y => (setHalf y.1 false x, y.2)
    | 1 => w.putEntry i fun y => (setHalf y.1 true x, y.2)
    | 2 => w.putEntry i fun y => (y.1, x, y.2.2)
    | _ => w.putEntry i fun y => (y.1, y.2.1, x.toNat % 8)

/-- A write of a control register (R466, R467); none is ENGINE. -/
def State.csrPut (s : State) (v : Env) (c : Nat) (x : W32) : Option State :=
  if 0x020 ≤ c ∧ c ≤ 0x05F then some (s.updWave v.u fun w => w.putSplitCsr c x)
  else if c = 0x064 ∨ c = 0x065 then some (s.updWave v.u fun w => { w with t := w.t.putTimer (c == 0x065) x })
  else if c = 0x071 then
    let now := s.ctxclk v.w.gang
    some (s.updBank v.w fun b => { b.startWindow with nswin := x, nsbase := now })
  else if c = 0x090 then s.engineCsr v.w fun e => { e with mectl := maskPut e.mectl x 1 }
  else if 0x0A0 ≤ c ∧ c ≤ 0x0AF then s.engineCsr v.w fun e => { e with ringd := smSet 0 e.ringd (c - 0x0A0) (x &&& 0xBFFFFFFF) }
  else
    let on := c == 0x0C0 && x.getLsbD 0 && !(s.bank v.w).tracectl.getLsbD 0
    let s := s.updBank v.w fun b => b.putCsr c x
    some (if on then s.resync v.w.teamKey else s)

/-- `csrrd` (R467). -/
def execCsrrd (g : Guard) (d : Nat) (csr : Src) (s : State) : Out :=
  onWave .any none g s fun s v =>
    let m := v.active g
    if m = 0 then s.goOn v
    else s.reads v m [(csr, 1)] fun t =>
      let c := (t.rd v 0 csr).toNat
      match csrRow c with
      | none => s.illegal v .operand
      | some (r, _) =>
        if !r.allows v.isHandler then s.illegal v .role
        else (t.updWave v.u fun w => w.putAll v.e (.k d) 0 m fun _ => t.csrGet v c).goOn v

/-- A control register of the core's engine. -/
def isEngineCsr (c : Nat) : Bool := c == 0x090 || (decide (0x0A0 ≤ c) && decide (c ≤ 0x0AF))

/-- A write of the register that `num` gives (R467); one that traps has read nothing. -/
def csrWrite (g : Guard) (rs : List (Src × Nat)) (num : State → Env → Nat) (a : Src) (s0 : State) : Out :=
  onWave .any none g s0 fun s v =>
    let m := v.active g
    if m = 0 then s.goOn v
    else s.reads v m ((a, 1) :: rs) fun t =>
      let c := num t v
      match csrRow c with
      | none => s.illegal v .operand
      | some (_, wr) =>
        if !wr.allows v.isHandler then s.illegal v .role
        else if isEngineCsr c && s.engineHeld v.w.core then (s0.wantEngine v.w.core).holdAt v.u v.e .unit
        else match t.csrPut v c (t.rd v 0 a) with
          | none => s.trapAt v .engine 0 m []
          | some t => t.goOn v

/-- `csrwr` (R467). -/
def execCsrwr (g : Guard) (csr a : Src) (s : State) : Out := csrWrite g [(csr, 1)] (fun t v => (t.rd v 0 csr).toNat) a s
/-- `csrwr` of WTIMERLO (R452). -/
def execWtimerloWrite (g : Guard) (a : Src) (s : State) : Out := csrWrite g [] (fun _ _ => 0x064) a s
/-- `csrwr` of WTIMERHI (R452). -/
def execWtimerhiWrite (g : Guard) (a : Src) (s : State) : Out := csrWrite g [] (fun _ _ => 0x065) a s
/-- `csrwr` of NSWIN (R186). -/
def execNswinWrite (g : Guard) (a : Src) (s : State) : Out := csrWrite g [] (fun _ _ => 0x071) a s
/-- `csrwr` of MECTL (R339). -/
def execMectlWrite (g : Guard) (a : Src) (s : State) : Out := csrWrite g [] (fun _ _ => 0x090) a s
/-- `csrwr` of a RINGD register (R341). -/
def execRingdWrite (g : Guard) (n : Nat) (a : Src) (s : State) : Out := csrWrite g [] (fun _ _ => 0x0A0 + n) a s
/-- `csrwr` of a split CSR (R446). -/
def execSplitCsrWrite (g : Guard) (csr : Nat) (a : Src) (s : State) : Out := csrWrite g [] (fun _ _ => csr) a s

/-! ## Traps (R468, R469) -/

/-- A cause that stops the split before its next word: it goes on first, the detail names the instruction. -/
def State.trapAfter (s : State) (v : Env) (c : Cause) (m : Mask) (info : List Byte) : State := (s.trapAt v c 0 m info).goOn v

/-- `trap` (R468). -/
def execTrap (g : Guard) (b : Src) (s : State) : Out :=
  onWave .any none g s fun s v =>
    let m := v.active g
    if m = 0 then s.goOn v else s.reads v m [(b, 1)] fun t => t.trapAfter v .swtrap m (le 4 (t.rd v 0 b).toNat)

/-- `bkpt` (R468). -/
def execBkpt (s : State) : Out :=
  onWave .any none .always s fun s v => s.trapAfter v .bkpt (v.active .always) []

/-- `tclr` (R468). A cause that has become pending in this clock stays. -/
def execTclr (g : Guard) (b : Src) (s : State) : Out :=
  onWave .any none g s fun s v =>
    let m := v.active g
    if m = 0 then s.goOn v
    else s.reads v m [(b, 1)] fun t =>
      (t.updWave v.u fun w => { w with t := { w.t with cause := w.t.cause &&& ~~~(t.rd v 0 b &&& 0x3FFFF &&& ~~~w.t.fresh t.clk) } }).goOn v

/-- `trapret` (R469); one that its table stops returns nothing, and so leaves no record of a return (R460). -/
def execTrapret (s : State) : Out :=
  onWave .handler none .always s fun s v =>
    (if (s.wave? v.u).elim false Wave.tableOk then s.trace v.u v.e 5 (le 8 v.ctx.pc.toNat) else s).trapReturn v

/-- `trace` (R470). -/
def execTrace (g : Guard) (a : Src) (s : State) : Out :=
  onWave .any none g s fun s v =>
    let m := v.active g
    if m = 0 then s.goOn v
    else s.reads v m [(a, 1)] fun t =>
      (if (t.bank v.w).tracectl.getLsbD 2 then t.trace v.u v.e 6 (le 4 (t.rd v 0 a).toNat ++ le 8 v.ctx.pc.toNat) else t).goOn v

/-- `smark` (R470). -/
def execSmark (g : Guard) (a : Src) (s : State) : Out :=
  onWave .any none g s fun s v =>
    let m := v.active g
    if m = 0 then s.goOn v
    else s.reads v m [(a, 1)] fun t =>
      (t.updWave v.u fun w => { w with t := { w.t with smark := (t.rd v 0 a).extractLsb' 0 16 } }).goOn v

/-! ## `pwr.req` and `mon` (R471, R472, R490) -/

/-- `pwr.req`. -/
def execPwrReq (g : Guard) (fs : Bool) (d : Nat) (b : Src) (s : State) : Out :=
  onceWord fs g none (.pwrReq g fs d b) [(b, 1)] (fun _ _ => 0) (fun t v => [t.rd v 0 b]) s

/-- Every core of a gang takes a read-grant code. -/
def State.setGrants (s : State) (g code : Nat) : State :=
  (s.gangTeams g).foldl (fun s t => s.updTeam t.1 fun t => { t with bank := { t.bank with pwrctx := BitVec.ofNat 32 code } }) s

/-- The Anvil's decision (R490): a code at or above the one in force; a lower one where the die's power is low, which is a free
value, and every quad of the gang has ALLOW of 256 or more. -/
def State.grantsCode (s : State) (w : Wave) (code : Nat) : Bool :=
  let cur := (s.bank w).pwrctx.toNat % 4
  let cores := (s.gang? w.gang).elim [] Gang.cores
  decide (cur ≤ code) || (Config.powerLow s.draws && cores.all fun c => decide (256 ≤ s.tallow (quadOf c)))

/-- `pwr.req` completes (R471). -/
def State.completePwr (s : State) (u : Nat) (w : Wave) (o : Op) (d : Nat) : State :=
  let x := (((o.arg? 0).elim [] LaneArg.data).headD 0).toNat
  if 3 < x then s.finishOnce u o d [0x200]
  else if s.grantsCode w x then ({ s with draws := s.draws + 1 }.setGrants w.gang x).finishOnce u o d [BitVec.ofNat 32 x]
  else { s with draws := s.draws + 1 }.finishOnce u o d [BitVec.ofNat 32 (0x100 + (s.bank w).pwrctx.toNat % 4)]

/-- `mon`: only a handler split. -/
def execMon (g : Guard) (fs : Bool) (kb : Nat) (s : State) : Out :=
  onWave .handler (some fs) g s fun t v =>
    let m := v.active g
    if m = 0 then t.goOn v else t.reads v m [(.k kb, 8)] fun r => r.startOnce v fs m (.mon g fs kb) 0 (t.kBlock v kb)

/-- Bytes of the ring for `mon` messages (log 86). -/
def monRing : Nat := 4096

/-- A message is written at the channel's ring, in the ASID's deep window, then the count at its head is raised (R481; DESIGN CHOICE,
log 86). One that fails leaves the count. -/
def State.monWrite (s : State) (asid : Nat) (c : Channel) (xs : List W32) : Channel × State :=
  let a := c.ring + 128 + c.count * 32 % (monRing - 128)
  match (s.graphWrite asid a (xs.flatMap fun x => le 4 x.toNat)).bind fun _ s => s.graphWrite asid c.ring (le 8 (c.count + 1)) with
  | .ok _ s => ({ c with count := c.count + 1 }, s)
  | r => (c, r.after s)

/-- `mon` goes on: with no channel it completes at once; else its message is sent and written to the channel's ring, and again after a save,
which withdraws it. -/
def State.completeMon (s : State) (u : Nat) (w : Wave) (o : Op) (kb : Nat) : State :=
  match smFind s.front.channels w.asid with
  | none => s.finishOnce u o kb [0xFFFFFFFF]
  | some c =>
    if c.sent.any fun m => m.1 == u && m.2.1 == o.serial then s
    else
      let xs := if o.waiting then (List.range 8).map fun i => smGet 0 w.r.k (kb + i) else (o.arg? 0).elim [] LaneArg.data
      let r := s.monWrite w.asid c xs
      let s := r.2.updFront fun f => { f with channels := smPut w.asid { r.1 with sent := c.sent ++ [(u, o.serial, xs)] } f.channels }
      s.updOp u o.serial fun p => { p with waiting := true }

/-- The host's reply to a `mon` (R472). -/
def execDebugReply (u n : Nat) (words : List W32) (s : State) : Out :=
  match (s.wave? u).bind fun w => (w.op? n).map fun o => (w, o) with
  | none => .next s
  | some (w, o) =>
    match o.ins, smFind s.front.channels w.asid with
    | .mon _ _ kb, some c =>
      if c.sent.any fun m => m.1 == u && m.2.1 == n then
        let left := c.sent.filter fun m => !(m.1 == u && m.2.1 == n)
        let s := s.updFront fun f => { f with channels := smPut w.asid { c with sent := left } f.channels }
        .next (s.finishOnce u o kb ((words ++ List.replicate 8 0).take 8))
      else .next s
    | _, _ => .next s

/-! ## Entry, halt and timer (R445, R448, R452) -/

/-- The wave enters its handler (R445). -/
def execHandlerEntry (u : Nat) (s : State) : Out := .next (s.deliver u)

/-- A cause that the handler split raised halts the wave (R448). -/
def execWaveHalt (u : Nat) (s : State) : Out :=
  match s.wave? u with
  | none => .next s
  | some w =>
    match w.t.halting with
    | none => .next s
    | some (m, pc, reason) => .next ((s.setWave u { w with t := { w.t with halting := none } }).haltWave u m pc reason)

/-- An armed WTIMER that CTXCLK has reached makes TIMER pending (R452). -/
def execWtimerExpiry (u : Nat) (s : State) : Out :=
  match s.wave? u with
  | none => .next s
  | some w =>
    if w.t.armed && decide (w.t.timer.toNat ≤ s.ctxclk w.gang) then
      .next ((s.setWave u { w with t := { w.t with timer := 0, armed := false } }).pend u .timer w.present false none)
    else .next s

/-! ## Rings of a context (R461) -/

/-- A ring's SIZE that does not disable it. -/
def ringSizeOk (n : Nat) : Bool := (List.range 19).any fun i => n == 2 ^ (12 + i)

/-- What writing a record gave. -/
inductive RingRes where
  | off
  | done (s : State)
  | drop (s : State)
  | wait

/-- Write one record of a context's ring, then its count (R461). A record whose write fails is dropped and counted. -/
def State.ringRecord (s : State) (w : Wave) (base size : Nat) (bs : List Byte) : RingRes :=
  if !ringSizeOk size then .off
  else
    let r := (if windowOf base ≠ 0 then ER.bad 3 base else s.engRead w base 8).bind fun c s =>
      let k := natOfBytes c
      (s.engWrite w (base + 128 + k * bs.length % (size - 128)) bs 0).bind fun _ s => s.engWrite w base (le 8 (k + 1)) 0
    match r with
    | .ok _ s => .done s
    | .wait => .wait
    | _ =>
      let l := (if windowOf base ≠ 0 then ER.bad 3 base else s.engRead w (base + 8) 8).bind fun c s => s.engWrite w (base + 8) (le 8 (natOfBytes c + 1)) 0
      match l with
      | .ok _ s => .drop s
      | _ => .drop s

/-- The wave whose records are to be written, with its bank: one that stands, or one that has ended (R97, R461). -/
def State.recorder (s : State) (u : Nat) : Option (Wave × Bank) :=
  match s.wave? u with
  | some w => if w.place.isNone then none else some (w, s.bank w)
  | none => s.cores.findSome? fun c => smFind c.2.left u

/-- Put back what a wave that has ended still has to write; one that has nothing left is forgotten. -/
def Core.putLeft (c : Core) (u : Nat) (w : Wave) (b : Bank) : Core :=
  { c with left := if w.traces.isEmpty && w.samples.isEmpty then smDel u c.left else smPut u (w, b) c.left }

/-- Update the wave whose records are written. -/
def State.updRecorder (s : State) (u : Nat) (f : Wave → Wave) : State :=
  if (s.wave? u).isSome then s.updWave u f
  else { s with cores := s.cores.map fun c => match smFind c.2.left u with
    | some (w, b) => (c.1, c.2.putLeft u (f w) b)
    | none => c }

/-- The lost record of n records, of the split that record `r` is of (R460). -/
def lostRecord (r : List Byte) (n clk : Nat) : List Byte := le 1 7 ++ (r.drop 1).take 3 ++ le 4 n ++ le 8 clk

/-- A trace record of a wave is written to its ring; after a dropped one a lost record follows, and after that a sync record
(R460, R461). A lost record that is itself dropped follows the next record that is written. -/
def execTraceRecord (u : Nat) (s : State) : Out :=
  match s.recorder u with
  | none => .next s
  | some (w, b) =>
    match w.traces with
    | [] => .next s
    | r :: rs =>
      let lost := recf r 0 1 == 7
      let e := recf r 2 1
      match s.ringRecord w b.tracebase.toNat b.tracesize.toNat r with
        | .off => .next (s.updRecorder u fun w => { w with traces := rs })
        | .wait => .next s
        | .done s =>
          .next (s.updRecorder u fun w =>
            if lost then { w with traces := rs, dropped := 0 }.updSplit (if e = 0xFF then 4 else e) fun x => { x with traced := none }
            else { w with traces := if w.dropped = 0 then rs else lostRecord r w.dropped s.clk :: rs })
        | .drop s =>
          .next (s.updRecorder u fun w =>
            let n := w.dropped + 1
            { w with traces := if lost then rs else lostRecord r n s.clk :: rs, dropped := n })

/-- The latencies of a sample that the spec gives no value for, execute and write-back, are free (R459; log 20). -/
def sampleTail (r : List Byte) (draw : Nat) : List Byte :=
  let lat := (List.range 4).map fun i => Config.freeByte (2 ^ 30 * draw + i)
  r.take 0x26 ++ lat ++ r.drop 0x2A

/-- A split is held in the word of an issue serial. -/
def Block.within (b : Block) (n : Nat) : Bool :=
  match b with
  | .barrier _ k _ => k == n
  | .fe o _ => o.serial == n
  | _ => false

/-- The word of an issue serial has not completed: it is outstanding, or holds its split. -/
def Wave.unfinished (w : Wave) (n : Nat) : Bool :=
  (w.ops.any fun o => o.serial == n) || (List.range 5).any fun e => (w.split? e).elim false fun x => x.block.within n

/-- A tagged word is done: its record is written to the sample ring (R459, R461). -/
def execSampleRecord (u : Nat) (s : State) : Out :=
  match s.recorder u with
  | none => .next s
  | some (w, b) =>
    match w.samples.find? fun x => !w.unfinished x.1 with
    | none => .next s
    | some (n, r) =>
      let bs := sampleTail r s.draws
      let drop := fun (s : State) => { s with draws := s.draws + 1 }.updRecorder u fun w => { w with samples := w.samples.filter fun x => x.1 != n }
      match s.ringRecord w b.sampbase.toNat b.sampsize.toNat bs with
        | .off => .next (drop s)
        | .wait => .next s
        | .done s => .next (drop s)
        | .drop s => .next (drop s)

/-- The context whose SAMPCTL a partition of a core samples by: the first gang there with sampling on. -/
def State.sampBank (s : State) (core : Nat) : Option Bank :=
  ((s.graph.teams.find? fun t => t.2.core == some core && t.2.bank.sampctl.getLsbD 0).map Prod.snd).map Team.bank

/-- STEALSEED as it acts: zero acts as 1 (R394). -/
def Core.stealSeed (c : Core) : BitVec 16 := if c.seed = 0 then 1 else c.seed

/-- At the start of an interval a partition draws the clock from which the next word is tagged (R459). -/
def execSampleInterval (core part : Nat) (s : State) : Out :=
  match s.sampBank core with
  | none => .next s
  | some b =>
    let c := s.core core
    if s.clk % b.interval ≠ 0 ∨ (smFind c.sampDraw part).elim false (fun d => d.1 == s.clk) then .next s
    else
      let x := lfsrNext (smGet (c.stealSeed + BitVec.ofNat 16 part) c.sampLfsr part)
      .next (s.setCore core { c with
        sampLfsr := smPut part x c.sampLfsr
        sampDraw := smPut part (s.clk, x.toNat % b.interval) c.sampDraw })
where
  /-- R393's polynomial. -/
  lfsrNext (x : BitVec 16) : BitVec 16 :=
    let b := x.getLsbD 15 ^^ x.getLsbD 13 ^^ x.getLsbD 12 ^^ x.getLsbD 10
    (x <<< 1) ||| (if b then 1 else 0)

/-! ## Errors (R457) -/

/-- An uncorrectable error comes to be in the data entry of a cached line: every tag that points at it sees it, and it leaves the index
(R254). -/
def State.spoilEntry (s : State) (key : Nat) : State :=
  match smFind s.mem.tags key with
  | none => s
  | some t =>
    let k := entryKey (homeSlice (keyAddr key)) t.index
    match if t.zero then none else smFind s.mem.entries k with
    | none => s
    | some e => s.updMem fun m => { m with entries := smPut k { e with bad := true, indexed := false } m.entries }

/-- An uncorrectable error comes to be in a byte of an L1 line. -/
def State.spoilL1 (s : State) (core key off : Nat) : State :=
  match s.l1 core key with
  | none => s
  | some x => s.setL1 core key { x with bad := x.bad ||| spanMask off 1 }

/-- An uncorrectable error comes to be in an array; what finds it is said where the array is read. A correctable one is corrected
silently, and its die counts it. -/
def execSoftError (loc : BadLoc) (s : State) : Out :=
  match loc with
  | .reg u n l => .next (s.updWave u fun w => { w with r := { w.r with badV := smSet false w.r.badV (vkey n l) true } })
  | .slot u k => .next (s.updWave u fun w => { w with r := { w.r with badK := smSet false w.r.badK k true } })
  | .pred u p => .next (s.updWave u fun w => { w with r := { w.r with badP := smSet false w.r.badP p (decide (p < 7)) } })
  | .line asid a => .next (s.spoilEntry (lineKey asid a))
  | .vault a =>
    let c := a / 128 * 128
    if s.mem.badVault.contains c then .next s else .next (s.updMem fun m => { m with badVault := c :: m.badVault })
  | .spad t off => .next (s.updTeam t fun x => { x with bad := smSet false x.bad off true })
  | .l1 core asid a => .next (s.spoilL1 core (lineKey asid a) (a % 128))
  | .engine core => .next (s.updEngine core fun e => { e with bad := true })
  | .corrected die => .next (s.updMod fun m => { m with corrected := smSet 0 m.corrected die (smGet 0 m.corrected die + 1) })

end Sys2Proof.Machine
end

