-- ==== Sys2Proof/Machine/Arrive.lean ====
section
/-!
DEFINITION. The fetch of code lines (R58, R220) and the choice of the split that issues (R84, R86).
-/

namespace Sys2Proof.Machine

/-- A code line, or what a transfer reads, met a failing walk: a record of a kind, and the wave parks (R220, R429, R435). -/
def State.parkAt (s : State) (u e : Nat) (xfer : Bool) (kind addr reason : Nat) : State :=
  match s.wave? u with
  | none => s
  | some w =>
    match w.split? e with
    | none => s
    | some x =>
      let f : FetchFault := ⟨e, x.pc, s.front.nextFault, xfer⟩
      let s := s.setWave u { w with parked := true, fetchFaults := w.fetchFaults ++ [f] }
      s.postFault u none 1 addr w.asid kind (windowOf addr) x.mask x.pc w.core w.slot reason

/-- A split may fetch: its wave stands and is not stopped, its own line is not in its buffer. -/
def State.mayFetch (s : State) (w : Wave) (e : Nat) (x : Split) : Bool :=
  s.waveUp w && (w.t.handler.isNone || e == 4) && !x.stop && !(w.fetchFaults.any fun f => f.entry == e) &&
    !(x.buf.elim false fun b => b.num == lineNum x.pc)

/-- A code line reaches the fetch buffer (R58): it is checked, and the split arrives; a failing walk parks the wave, a leaf
without X and an uncorrectable error trap where the split stands (R219, R220, R457). -/
def execFetchLine (u e : Nat) (s : State) : Out :=
  match (s.wave? u).bind fun w => (w.split? e).map fun x => (w, x) with
  | none => .next s
  | some (w, x) =>
    if !s.mayFetch w e x then .next s
    else if !pcShape x.pc then .next (s.trapHere u e .illegal Detail.target.code (le 8 0))
    else match s.codeLine w.asid (lineNum x.pc) with
      | .ok b s => .next (s.enterLine u e b)
      | .page r _ => .next (s.parkAt u e false 2 x.pc.toNat r)
      | .perm r => .next (s.trapHere u e .perm r (le 8 x.pc.toNat))
      | .data => .next (s.trapHere u e .dataerr 2 (le 8 x.pc.toNat))
      | .gated => .next (s.trapHere u e .qgated 0 (le 8 x.pc.toNat))

/-- AGEMAX as it acts (R88). -/
def Bank.agemax (b : Bank) : Nat := max 64 (b.issuectl.toNat % 4096)

/-- The level of a split (R86). -/
def State.level (s : State) (w : Wave) (e : Nat) (x : Split) : Nat :=
  if e = 4 then 3
  else
    let base := match w.role with
      | .loader => 2
      | .storer => 1
      | _ => 0
    min 2 (base + x.w / (s.bank w).agemax)

/-- A split that may be chosen: where it stands, its level and W. -/
structure Cand where
  u : Nat
  e : Nat
  slotNo : Nat
  level : Nat
  w : Nat
  deriving DecidableEq, Repr

/-- The order of R86: the higher level, the larger W, the lower slot, the lower entry. -/
def Cand.before (a b : Cand) : Bool :=
  decide (b.level < a.level) || (a.level == b.level && (decide (b.w < a.w) || (a.w == b.w &&
    (decide (a.slotNo < b.slotNo) || (a.slotNo == b.slotNo && decide (a.e < b.e))))))

/-- The eligible splits of a partition. -/
def State.partCands (s : State) (core part : Nat) : List Cand :=
  (s.waves.filter fun w => w.2.place.isSome && w.2.core == core && w.2.slot % 4 == part).flatMap fun w =>
    ((List.range 5).filter fun e => s.eligible w.1 e).filterMap fun e =>
      (w.2.split? e).map fun x => ⟨w.1, e, w.2.slot, s.level w.2 e x, x.w⟩

/-- The engine's sequencer has a word to issue: it stands at one, and at a header WAIT is clear (R345, R353). -/
def State.engineReady (s : State) (core : Nat) : Bool :=
  let e := s.engine core
  s.engineUp core && e.arrived && e.buf.elim false fun b =>
    let n := wordIdx e.mepc
    b.num == lineNum e.mepc &&
      (!b.isHdr n || (List.range 12).all fun f => !((b.clause n).wait.testBit f) || smGet 0 e.f f == 0)

/-- The first of a partition's eligible splits, in the order of R86, where the partition is not gathering (R117). -/
def State.partBest (s : State) (core part : Nat) : Option Cand :=
  if s.clk < smGet 0 (s.core core).busy part then none
  else (s.partCands core part).foldl (fun (b : Option Cand) c => match b with
    | none => some c
    | some x => if c.before x then some c else b) none

/-- A partition takes its turn in a clock (R86): the first of its eligible splits issues next. Partition 4 stands for the
sequencer of the core's engine. -/
def execIssueSelect (core part : Nat) (s : State) : Out :=
  if part = 4 then (if s.engineReady core then .next { s with sel := some (.engine core) } else .next s)
  else match s.partBest core part with
    | some c => .next { s with sel := some (.split c.u c.e) }
    | none => .next s

end Sys2Proof.Machine
end

