-- ==== Sys2Proof/Machine/Transfer.lean ====
section
/-!
DEFINITION. The transfer class: KVER and `recast` (R425, R426, R441), and the transfer of a split at a safe point
(R427-R439).
-/

namespace Sys2Proof.Machine

/-! ## KVER (R425, R426, R441) -/

/-- Cores that hold a placed gang of a kernel and so a copy of KVER. -/
def State.kverCores (s : State) (k : Nat) : List Nat :=
  (List.range 512).filter fun c => s.graph.teams.any fun t => t.2.core == some c && (s.gang? (t.1 / 4)).elim false fun g => g.kernel == k

/-- The graph unit writes KVER and broadcasts it: every core that holds the kernel keeps its copy until it has applied the
change. -/
def State.setKver (s : State) (k v : Nat) : State :=
  match s.kernel? k with
  | none => s
  | some x =>
    if x.kver = v then s
    else
      let new := (s.kverCores k).filter fun c => !(x.lag.any fun l => l.1 == c)
      s.updKernel k fun x => { x with kver := v, lag := x.lag ++ new.map fun c => (c, x.kver) }

/-- A core applies a broadcast (R425). -/
def execKverApply (core kernel : Nat) (s : State) : Out :=
  .next (s.updKernel kernel fun k => { k with lag := k.lag.filter fun l => l.1 != core })

/-- `recast` (R441). -/
def execRecast (g : Guard) (fs : Bool) (d : Nat) (b : Src) (s : State) : Out :=
  onceWord fs g none (.recast g fs d b) [(b, 1)] (fun _ _ => 0) (fun t v => [t.rd v 0 b]) s

/-- A `recast` reaches the graph unit; where it has changed KVER it completes once every core has applied it. -/
def State.completeRecast (s : State) (u : Nat) (w : Wave) (o : Op) (d : Nat) : State :=
  match s.kernel? w.kernel with
  | none => s
  | some k =>
    let out := fun (s : State) (st old : Nat) => s.finishOnce u o d [BitVec.ofNat 32 (st + 256 * old)]
    match (o.arg? 0).elim [] LaneArg.data with
    | [_, old] => if k.lag.isEmpty then out s 0 old.toNat else s
    | xs =>
      let v := (xs.headD 0).toNat
      let s := s.updKernel w.kernel fun k => { k with recastAt := s.clk + 1 }
      if 7 < v ∨ !k.vmask.testBit v then out s 1 k.kver
      else if k.lock then out s 2 k.kver
      else (s.setKver w.kernel v).updOp u o.serial fun p => { p with args := [⟨0, 0, [BitVec.ofNat 32 v, BitVec.ofNat 32 k.kver]⟩] }

/-! ## What ends a transfer early -/

/-- Why a transfer does not go on: it carries on in its version (R429), MAPERR (R434), a failing walk that parks (R429, R435), a
refusal or an error (R435), or a read that waits for the core's own write-back. -/
inductive XStop where
  | carry
  | maperr (reason slot : Nat)
  | park (kind addr reason : Nat)
  | perm (reason addr : Nat)
  | data (code addr : Nat)
  | wait
  deriving DecidableEq, Repr

/-- An answer of memory as a transfer takes it. -/
def MR.xfer {α : Type} (x : MR α) (kind code a : Nat) : Except XStop (α × State) :=
  match x with
  | .ok v s => .ok (v, s)
  | .page r _ => .error (.park kind a r)
  | .perm r => .error (.perm r a)
  | .data => .error (.data code a)
  | .gated => .error (.data code a)

/-- Read a range as code is read: from the homes of its lines (R58, R433). -/
def State.codeBytes (s : State) (asid a n : Nat) : Except XStop ((List Byte) × State) :=
  (lineChunks a n).foldl (fun (acc : Except XStop ((List Byte) × State)) c => acc.bind fun x =>
    (((x.2.homeRead (lineKey asid (a + c.1)) .fetch).xfer 2 2 (a + c.1))).map fun r =>
      (x.1 ++ (List.range c.2).map fun i => lineByte r.1 ((a + c.1) % 128 + i), r.2)) (.ok ([], s))

/-! ## Directories and records (R422, R423) -/

/-- Code base, maps, constant pool and its length of a version (R420). -/
structure Version where
  code : Nat
  maps : Nat
  cpool : Nat
  nconst : Nat
  deriving DecidableEq, Repr

/-- A version of a kernel. -/
def Kernel.version (k : Kernel) (v : Nat) : Version :=
  let x := k.vers.getD v (0, 0, 0, 0)
  ⟨x.1, x.2.1, x.2.2.1, x.2.2.2⟩

/-- A directory entry: PCOFF and MOFF. -/
def State.dirEntry (s : State) (asid : Nat) (v : Version) (n : Nat) : Except XStop ((Nat × Nat) × State) :=
  (s.codeBytes asid (v.maps + 8 * n) 8).map fun r => ((recf r.1 4 4, recf r.1 0 4), r.2)

/-- The PC that a directory entry names. -/
def Version.pc (v : Version) (pcoff : Nat) : W64 := BitVec.ofNat 64 (v.code + 8 * pcoff)

/-- The clause header at a PC is a SAFE header of a version, in a line of kind 0x01 or 0x02: its safe-point number. -/
def safeAt (b : Line) (ver : Nat) (pc : W64) : Option Nat :=
  let n := wordIdx pc
  if (b.kind == 1 || b.kind == 2) && b.ver == ver && b.isHdr n && (b.clause n).safe then some (b.clause n).safen else none

/-- Read the code line of a PC. -/
def State.lineAt (s : State) (asid : Nat) (pc : W64) : Except XStop (Line × State) :=
  ((s.codeLine asid (lineNum pc)).xfer 2 2 pc.toNat)

/-- A directory entry of a safe point that a version has, with what it names (R422): its PC and MOFF, or MAPERR record. -/
def State.safePoint (s : State) (asid : Nat) (v : Version) (ver n : Nat) : Except XStop ((W64 × Nat × Line) × State) := do
  let (d, s) ← s.dirEntry asid v n
  if d.2 % 16 ≠ 0 ∨ d.2 < 0x8000 then .error (.maperr 6 0xFFFF)
  else
    let pc := v.pc d.1
    let (b, s) ← s.lineAt asid pc
    if pcShape pc && safeAt b ver pc == some n then .ok ((pc, d.2, b), s) else .error (.maperr 6 0xFFFF)

/-- A map record (R423): its flag table and its slot entries. -/
structure MapRec where
  flags : List Nat
  slots : List Nat
  deriving DecidableEq, Repr

/-- Read a map record and check its form. -/
def State.mapRec (s : State) (asid : Nat) (v : Version) (moff n nslots : Nat) : Except XStop (MapRec × State) := do
  let (b, s) ← s.codeBytes asid (v.maps + moff) (16 + 4 * nslots)
  if recf b 6 2 ≠ 0 ∨ recf b 8 4 ≠ n ∨ recf b 12 4 ≠ 0 then .error (.maperr 6 0xFFFF)
  else .ok (⟨(List.range 12).map fun i => recf b 0 6 / 16 ^ i % 16, (List.range nslots).map fun i => recf b (16 + 4 * i) 4⟩, s)

/-- KIND and PAYLOAD of a slot entry (R424). -/
def slotKind (e : Nat) : Nat := e / 2 ^ 28

/-- PAYLOAD. -/
def slotPay (e : Nat) : Nat := e % 2 ^ 28

/-- The entry that an ALIAS stands for. -/
def MapRec.resolve (m : MapRec) (e : Nat) : Nat := if slotKind e = 7 then m.slots.getD (slotPay e) 0 else e

/-- A field lies beyond the limits of R424. -/
def slotRange (k : Kernel) (v : Version) (regs e : Nat) : Bool :=
  let p := slotPay e
  match slotKind e with
  | 0 => p != 0
  | 1 => decide (regs ≤ p)
  | 2 => decide (55 < p)
  | 3 => decide (6 < p)
  | 4 => decide (65535 < p)
  | 5 => decide (v.nconst ≤ p)
  | 6 => decide (55 < p / 2 ^ 22)
  | _ => decide (k.slots ≤ p)

/-- The spill address of word j in lane l (R424). -/
def spillAt (sp : Nat) (j l : Nat) : Nat := (sp + 128 * j + 4 * l) % 2 ^ 64

/-- R203 and R204 refuse a spill address: it leaves the deep window or is not aligned. -/
def spillBad (sp j : Nat) (m : Mask) : Bool :=
  windowOf sp != 0 || (lanesOf m).any fun l => windowOf (spillAt sp j l) != 0 || spillAt sp j l % 4 != 0

/-- A target that is placed (R431). -/
def placed (e : Nat) : Bool := slotKind e == 1 || slotKind e == 3 || slotKind e == 4

/-- The first check of R434 item 3 that a slot fails. -/
def slotCheck (k : Kernel) (a b : Version) (ra rb : MapRec) (regs sp : Nat) (m : Mask) (i : Nat) : Option Nat :=
  let ea := ra.slots.getD i 0
  let eb := rb.slots.getD i 0
  let twice := fun (r : MapRec) (e : Nat) => slotKind e == 7 && decide (slotPay e < k.slots) && slotKind (r.resolve e) == 7
  let src := ra.resolve ea
  let spill := fun (e : Nat) => slotKind e == 4 && spillBad sp (slotPay e) m
  let used := placed eb || slotKind eb == 2
  if 8 ≤ slotKind ea ∨ 8 ≤ slotKind eb ∨ twice ra ea ∨ twice rb eb ∨ 8 ≤ slotKind src then some 1
  else if slotRange k a regs ea || slotRange k b regs eb || slotRange k a regs src || (placed eb && (spill eb || spill src)) then some 2
  else if used && slotKind src == 0 then some 0
  else if (slotKind eb == 3 && slotKind src != 3 && slotKind src != 5) || (used && slotKind eb != 3 && slotKind src == 3) then some 1
  else if slotKind eb == 2 && src != eb then some 3
  else if placed eb && (rb.slots.take i).any (fun e => e == eb) then some 6
  else none

/-! ## Sources and targets (R430, R431) -/

/-- A spill word's translation, with the permission the access needs (R435). The split's own earlier accesses to the line come first
(R211, R437). -/
def State.spillProbe (s : State) (w : Wave) (m : Mask) (a : Nat) (write : Bool) : Except XStop (Unit × State) :=
  let key := lineKey w.asid a
  if w.ops.any fun p => isAccess p.ins && p.ofSplit m && p.touches w.asid key then .error .wait
  else if write then (s.probeW key).xfer 1 4 a
  else ((s.homeTag key .read).xfer 0 4 a).map fun r => ((), r.2)

/-- Read a spill word through the core's L1. -/
def State.spillRead (s : State) (w : Wave) (a : Nat) : Except XStop (W32 × State) :=
  if s.mem.wbOut w.core (lineKey w.asid a) then .error .wait
  else ((s.loadL1 w.core w.asid a 4).xfer 0 4 a).map fun r => (BitVec.ofNat 32 (natOfBytes r.1.1), r.2.countL1 w r.1.2)

/-- Write a spill word: its permission is known. -/
def State.spillWrite (s : State) (w : Wave) (a : Nat) (x : W32) : State :=
  let s := (s.storeL1 w.core w.asid a (le 4 x.toNat)).2.countL1 w (s.l1 w.core (lineKey w.asid a)).isSome
  match s.l1 w.core (lineKey w.asid a) with
  | some y => s.setL1 w.core (lineKey w.asid a) { y with w := true }
  | none => s

/-- SrcVal(s, l) of a checked entry (R430); a predicate as 0 or 1. -/
def State.srcVal (s : State) (w : Wave) (e sp : Nat) (v : Version) (l : Nat) : Except XStop (W32 × State) :=
  let p := slotPay e
  match slotKind e with
  | 1 => .ok (if w.dead p l then Config.freeWord (16384 * s.draws + vkey p l) else w.getV p l, s)
  | 2 => .ok (smGet 0 w.r.k p, s)
  | 3 => .ok (if hasLane (w.getP p) l then 1 else 0, s)
  | 4 => s.spillRead w (spillAt sp p l)
  | 5 => (s.codeBytes w.asid (v.cpool + 4 * p) 4).map fun r => (BitVec.ofNat 32 (recf r.1 0 4), r.2)
  | _ => .ok (smGet 0 w.r.k (p / 2 ^ 22) + (BitVec.ofNat 22 p).signExtend 32 * BitVec.ofNat 32 l, s)

/-- One value to be placed: the target entry, the lane and the word. -/
abbrev Placing := Nat × Nat × W32

/-- The placed slots with their resolved sources. -/
def placings (ra rb : MapRec) : List (Nat × Nat) :=
  (rb.slots.zip ra.slots).filterMap fun x => if placed x.1 then some (x.1, ra.resolve x.2) else none

/-- Translate every spill address of the placed slots, sources first (R433, R435). -/
def State.spillProbes (s : State) (w : Wave) (sp : Nat) (m : Mask) (ps : List (Nat × Nat)) : Except XStop (Unit × State) :=
  let one := fun (acc : Except XStop (Unit × State)) (e : Nat) (write : Bool) => (lanesOf m).foldl (fun (acc : Except XStop (Unit × State)) l =>
    acc.bind fun x => if slotKind e == 4 then x.2.spillProbe w m (spillAt sp (slotPay e) l) write else .ok x) acc
  ps.foldl (fun acc p => one (one acc p.2 false) p.1 true) (.ok ((), s))

/-- Read every source value of every placed slot. -/
def State.readPlacings (s : State) (w : Wave) (sp : Nat) (v : Version) (m : Mask) (ps : List (Nat × Nat)) : Except XStop ((List Placing) × State) :=
  ps.foldl (fun (acc : Except XStop ((List Placing) × State)) p => (lanesOf m).foldl (fun (acc : Except XStop ((List Placing) × State)) l =>
    acc.bind fun x => (x.2.srcVal w p.2 sp v l).map fun r => (x.1 ++ [(p.1, l, r.1)], r.2)) acc) (.ok ([], s))

/-- Write one target (R431). -/
def State.placeOne (s : State) (u : Nat) (w : Wave) (sp : Nat) (p : Placing) : State :=
  let n := slotPay p.1
  match slotKind p.1 with
  | 1 => s.updWave u fun w => w.setV n p.2.1 p.2.2 0
  | 3 => s.updWave u fun w => w.setP n (laneBit p.2.1) (if p.2.2.getLsbD 0 then 0xFFFFFFFF else 0)
  | _ => s.spillWrite w (spillAt sp n p.2.1) p.2.2

/-! ## Flags (R432) -/

/-- An operation is moved by a transfer of the lanes `m`. -/
def Wave.moves (w : Wave) (a : Nat) (m : Mask) (o : Op) : Bool := o.ver == a && o.issued &&& w.present &&& ~~~m == 0

/-- An operation straddles the split. -/
def Wave.straddles (w : Wave) (a : Nat) (m : Mask) (o : Op) : Bool :=
  o.ver == a && o.issued &&& m != 0 && o.issued &&& w.present &&& ~~~m != 0

/-- The flag that an operation on hardware flag h moves to. -/
def newFlag (ra rb : MapRec) (h : Nat) : Nat :=
  match (List.range 12).find? fun i => ra.flags.getD i 0 == h with
  | some i => rb.flags.getD i 0
  | none => h

/-- The wave after the moves, at a clock: each moved operation on its new flag and under the new version. -/
def Wave.moveFlags (w : Wave) (a b clk : Nat) (m : Mask) (ra rb : MapRec) : Wave :=
  let go : Op → Op := fun o => if w.moves a m o then { o with flag := o.flag.map (newFlag ra rb), ver := b, movedAt := clk + 1 } else o
  let f := (w.ops.filter (w.moves a m)).foldl (fun (w : Wave) o => match o.flag with
    | some h => (w.decF h).incF (newFlag ra rb h)
    | none => w) w
  { f with ops := w.ops.map go }

/-- The operation checks of R432 and R434 item 4. -/
def Wave.flagCheck (w : Wave) (a b : Nat) (m : Mask) (ra rb : MapRec) : Option Nat :=
  if w.ops.any (w.straddles a m) then some 5
  else
    let mv := w.ops.filter (w.moves a m)
    let busy := fun (h : Nat) => w.ops.any fun o => o.flag == some h && o.ver != b && !w.moves a m o
    let x := w.moveFlags a b 0 m ra rb
    if mv.any (fun o => o.flag.elim false fun h => newFlag ra rb h != h && busy (newFlag ra rb h)) ||
        (List.range 12).any (fun h => decide (63 < x.getF h)) then some 4 else none

/-! ## The transfer (R433) -/

/-- An operation writes a register or predicate at completion (R428). -/
def writesLate (i : Instr) : Bool :=
  match i with
  | .st .. | .stk .. | .stCv .. | .stFeFill .. | .feSet .. | .pref .. | .flushL1 .. | .flushHm .. | .invalL1 .. | .invalHm .. | .hmzero ..
  | .stRel .. | .cpy .. | .cpyG .. | .cpyS .. | .coll .. | .mstart .. => false
  | _ => true

/-- The hold of R428. -/
def Wave.xferHeld (w : Wave) (m : Mask) : Bool := w.ops.any fun o => writesLate o.ins && o.issued &&& m != 0

/-- What a transfer does once every check has passed. -/
structure XPlan where
  pc : W64
  lr : W64
  line : Line
  ra : MapRec
  rb : MapRec
  places : List Placing
  deriving DecidableEq, Repr

/-- The return address (R429): none carries on; else the new `lr`. -/
def State.xferLr (s : State) (asid : Nat) (vb : Version) (a b : Nat) (lr : W64) : Except XStop (W64 × State) :=
  if lr = 0 then .ok (0, s)
  else if !pcShape lr then .error .carry
  else do
    let (x, s) ← s.lineAt asid lr
    match safeAt x a lr with
    | none => .error .carry
    | some m =>
      let (d, s) ← s.dirEntry asid vb m
      if d.2 = 0 then .error .carry
      else
        let (p, s) ← s.safePoint asid vb b m
        .ok (p.1, s)

/-- Read, check and translate everything (R429-R435). -/
def State.planXfer (s : State) (w : Wave) (x : Split) (k : Kernel) (n b : Nat) : Except XStop (XPlan × State) := do
  let a := x.ver
  let va := k.version a
  let vb := k.version b
  let (_, s) ← s.dirEntry w.asid va n
  let (d, s) ← s.dirEntry w.asid vb n
  if d.2 = 0 then .error .carry
  else
    let (lr, s) ← s.xferLr w.asid vb a b x.lr
    let (pa, s) ← s.safePoint w.asid va a n
    let (pb, s) ← s.safePoint w.asid vb b n
    let (ra, s) ← s.mapRec w.asid va pa.2.1 n k.slots
    let (rb, s) ← s.mapRec w.asid vb pb.2.1 n k.slots
    let sp := (join32 (smGet 0 w.r.k 61) (smGet 0 w.r.k 60)).toNat
    if pa.1 ≠ x.pc then .error (.maperr 6 0xFFFF)
    else if (ra.flags ++ rb.flags).any fun f => decide (11 < f) then .error (.maperr 4 0xFFFF)
    else match (List.range k.slots).findSome? fun i => (slotCheck k va vb ra rb w.regs sp x.mask i).map fun r => (r, i) with
      | some (r, i) => .error (.maperr r i)
      | none =>
        match w.flagCheck a b x.mask ra rb with
        | some r => .error (.maperr r 0xFFFF)
        | none =>
          let ps := placings ra rb
          let (_, s) ← s.spillProbes w sp x.mask ps
          let (vs, s) ← s.readPlacings w sp va x.mask ps
          .ok (⟨pb.1, lr, pb.2.2, ra, rb, vs⟩, s)

/-- The arrival goes on from step 2 of R93, at the header where the split stands. -/
def State.goArrive (s : State) (u e : Nat) (b : Line) (pc : W64) : State := s.arriveAt u e (b.clause (wordIdx pc))

/-- A transfer is made: targets, flags, `lr`, PC and version, then the trace record, after which a sync record is due, and the arrival at
the new header (R433, R438). -/
def State.doXfer (s : State) (u e : Nat) (w : Wave) (x : Split) (n b : Nat) (p : XPlan) : State :=
  let sp := (join32 (smGet 0 w.r.k 61) (smGet 0 w.r.k 60)).toNat
  let s := p.places.foldl (fun s q => s.placeOne u w sp q) { s with draws := s.draws + 1 }
  let s := s.updWave u fun w => w.moveFlags x.ver b s.clk x.mask p.ra p.rb
  let s := s.updSplit u e fun y => { y with pc := p.pc, ver := b, lr := p.lr, xfer := false, buf := some p.line, arrived := false }
  let s := (s.trace u e 3 (le 2 n ++ le 1 x.ver ++ le 1 b ++ le 8 s.clk)).updSplit u e fun y => { y with traced := none }
  match p.line.check b with
  | some d => s.illegalHere u e d p.line p.pc
  | none =>
    match p.line.clauseCheck (wordIdx p.pc) with
    | some d => s.illegalHere u e d p.line p.pc
    | none => s.goArrive u e p.line p.pc

/-- The splits of one core's transfer unit come one at a time: a lower slot, or a lower entry of the wave, goes first. -/
def State.xferTurn (s : State) (w : Wave) (e : Nat) : Bool :=
  !(s.waves.any fun y => y.2.place.isSome && y.2.core == w.core && !y.2.parked && (decide (y.2.slot < w.slot) && y.2.liveSplits.any fun q =>
    q.2.xfer && !y.2.xferHeld q.2.mask)) && !(w.liveSplits.any fun q => decide (q.1 < e) && q.2.xfer && !w.xferHeld q.2.mask)

/-- A split held at a safe point is transferred, or carries on (R427-R439). -/
def execSafePointTransfer (u e : Nat) (s : State) : Out :=
  match (s.wave? u).bind fun w => (w.split? e).bind fun x => (s.kernel? w.kernel).map fun k => (w, x, k) with
  | none => .next s
  | some (w, x, k) =>
    match x.buf with
    | none => .next s
    | some c =>
      if !x.xfer || w.place.isNone || w.parked || w.xferHeld x.mask || !s.xferTurn w e then .next s
      else
        let b := s.kverAt w
        let n := (c.clause (wordIdx x.pc)).safen
        let stay := fun (s : State) => s.updSplit u e fun y => { y with xfer := false, xferDone := true }
        if b = x.ver then .next ((s.updSplit u e fun y => { y with xfer := false }).goArrive u e c x.pc)
        else match s.planXfer w x k n b with
          | .ok (p, s) => .next (s.doXfer u e w x n b p)
          | .error .carry => .next ((s.updSplit u e fun y => { y with xfer := false }).goArrive u e c x.pc)
          | .error (.maperr r i) =>
            .next ((stay s).trapHere u e .maperr r (le 1 x.ver ++ le 1 b ++ le 2 n ++ le 2 i))
          | .error (.park kind a r) => .next (s.parkAt u e true kind a r)
          | .error (.perm r a) => .next ((stay s).trapHere u e .perm r (le 8 a))
          | .error (.data code a) => .next ((stay s).trapHere u e .dataerr code (le 8 a))
          | .error .wait => .next s

end Sys2Proof.Machine
end

