-- ==== Sys2Proof/Machine/Front.lean ====
section
/-!
DEFINITION. The front end: work queues and doorbells (R319-R321, R479, R480), slot records and what each kind does (R395, R403,
R406, R426, R450, R456, R458, R481, R485), and the rings of the service block (R482-R484).
-/

namespace Sys2Proof.Machine

/-! ## Tickets of the host, and consumption (R321, R480) -/

/-- The host hears an answer of a doorbell read or of a side-band command. -/
def State.tellHost (s : State) (bs : List Byte) : State := s.updFront fun f => { f with answers := f.answers ++ [bs] }

/-- The host reads a queue's doorbell (R480): one ticket, or why there is none. -/
def execDoorbellReserve (q : Nat) (s : State) : Out :=
  let x := s.queue q
  if 65535 < q ∨ !x.valid then .next (s.tellHost (le 4 0xFFFFFFFE))
  else
    let r := x.reserve 1
    .next ((s.setQueue q r.2).tellHost (le 4 r.1.toNat))

/-- The host writes a queue's doorbell (R480): the commit of R321. -/
def execDoorbellCommit (q : Nat) (ticket : W32) (s : State) : Out :=
  let x := s.queue q
  if 65535 < q ∨ !x.valid then .next s else .next (s.setQueue q (x.commitT ticket).2)

/-- The slot record of a queue at a ring place (R479; log 21): in host memory, or at the homes of the ASID's deep lines. -/
def State.slotBytes (s : State) (x : Queue) (t : W32) : MR (List Byte) :=
  let a := x.base + 64 * x.slot t
  if x.hostmem then .ok (Memory.read s.mem.host a 64) s else s.graphRead x.asid a 64

/-- The slot record that is consumed, with what a launch names: its record, the kernel object, the node table and the task lists are read
here and never again (R374, R500). -/
def State.takeSlot (s : State) (q : Nat) (x : Queue) (bs : List Byte) : Slotrec × State :=
  let c : Slotrec := { queue := q, kind := recf bs 0 1, tag := recf bs 4 4, bytes := bs }
  if c.kind ≠ 1 ∨ recf bs 8 8 % 128 ≠ 0 then (c, s)
  else match s.graphRead x.asid (recf bs 8 8) 128 with
    | .ok b t => match t.readLaunch x.asid b with
      | .ok (l, t) => ({ c with launch := some b, plan := some l, nodes := l.nodes.length }, t)
      | .error st => ({ c with launch := some b, refused := st }, t)
    | r => ({ c with refused := 3 }, r.after s)

/-- The front end consumes ticket HEAD once its bit is set (R321): the slot record is read, and what a launch names; the bit clears, HEAD
advances. A launch that would pass the module's limit of live nodes stays unconsumed (R381). -/
def execQueueConsume (q : Nat) (s : State) : Out :=
  let x := s.queue q
  if !x.valid ∨ (s.asid x.asid).dying ∨ x.next = x.head ∨ !smGet false x.commit (x.slot x.head) then .next s
  else
    let on := fun (r : Slotrec × State) =>
      (r.2.setQueue q { x with head := x.head + 1, commit := smSet false x.commit (x.slot x.head) false }).updFront fun f =>
        { f with cmds := smPut f.nextCmd r.1 f.cmds, nextCmd := f.nextCmd + 1 }
    match s.slotBytes x x.head with
    | .ok bs t =>
      let r := t.takeSlot q x bs
      if r.1.nodes != 0 && decide (262144 < s.liveNodes + r.1.nodes) then .next s else .next (on r)
    | _ => .next ((on (s.takeSlot q x (padTo 64 []))).endSlot s.front.nextCmd x.asid 4 0)

/-! ## Starting a slot record (R481) -/

/-- What stands as the queue of the Anvil's own requests (log 21). -/
def anvilQueue : Nat := 65536

/-- A request of the Anvil reaches the graph unit (R395, R426): it stands among the commands in the layout of the driver's. -/
def State.anvilAsks (s : State) (kind : Nat) (r : AnvilReq) : State :=
  let arg := if kind = 21 then le 4 r.arg else le 1 r.arg ++ le 1 r.lock
  let bs := padTo 64 (le 8 kind ++ le 2 r.asid ++ le 2 r.kernel ++ arg)
  s.updFront fun f => { f with
    cmds := smPut f.nextCmd { queue := anvilQueue, kind := kind, tag := 0, bytes := bs } f.cmds
    nextCmd := f.nextCmd + 1 }

/-- The queue of a record takes every kind. -/
def State.privSlot (s : State) (c : Slotrec) : Bool := c.queue == anvilQueue || (s.queue c.queue).priv

/-- Slots start in the order of their consumption; none passes an invalidate or teardown of its queue. -/
def State.mayStart (s : State) (id : Nat) (c : Slotrec) : Bool :=
  (s.queue c.queue).blocked.isNone && s.front.cmds.all fun x => decide (id ≤ x.1) || x.2.queue != c.queue || x.2.begun

/-- Bytes 1 to 3 and every payload byte outside the fields named are zero. -/
def Slotrec.clean (c : Slotrec) (fs : List (Nat × Nat)) : Bool :=
  ((List.range 64).filter fun i => i != 0 && !(decide (4 ≤ i) && decide (i < 8))).all fun i =>
    fs.any (fun f => decide (f.1 ≤ i) && decide (i < f.1 + f.2)) || recf c.bytes i 1 == 0

/-- The address space a command acts for: its queue's, for kinds 0 to 3; else the one it names, a `config` record as its index. -/
def State.slotAsidOf (s : State) (c : Slotrec) : Nat :=
  if c.kind ≤ 3 then (s.queue c.queue).asid else c.get (if c.kind = 24 then 0x0C else 8) 2

/-- An address space that commands may act for. -/
def State.liveAsid (s : State) (a : Nat) : Bool := (s.asid a).valid && !(s.asid a).dying

/-- A command is done: its entry goes to the command ring of its queue's ASID, or its answer to the Anvil (log 21). -/
def State.doneSlot (s : State) (id status value : Nat) : State :=
  match smFind s.front.cmds id with
  | none => s
  | some c =>
    if c.queue = anvilQueue then
      s.updFront fun f => { f with cmds := smDel id f.cmds, answers := f.answers ++ [le 1 c.kind ++ le 1 status ++ le 8 value] }
    else
    let q := s.queue c.queue
    let s := if q.blocked = some id then s.setQueue c.queue { q with blocked := none } else s
    s.endSlot id q.asid status value

/-- Mark a command as begun. -/
def State.beginSlot (s : State) (id : Nat) (f : Slotrec → Slotrec) : State :=
  s.updFront fun r => match smFind r.cmds id with
    | some c => { r with cmds := smPut id { f c with begun := true } r.cmds }
    | none => r

/-- A command that may start: its kind, the fields of its payload and a further test of what it selects. -/
def slotRun (id kind : Nat) (fields : List (Nat × Nat)) (sel : Slotrec → Bool) (check : State → Slotrec → Nat)
    (act : State → Slotrec → State) (s : State) : Out :=
  match smFind s.front.cmds id with
  | none => .next s
  | some c =>
    if c.kind ≠ kind ∨ c.begun ∨ !sel c ∨ !s.mayStart id c ∨ !(decide (kind ≤ 3) || s.privSlot c) then .next s
    else if !c.clean fields then .next (s.doneSlot id 1 0)
    else match check s c with
      | 0 => .next (act s c)
      | n => .next (s.doneSlot id n 0)

/-- The check that the ASID of a command is there (status "none"). -/
def needAsid (s : State) (c : Slotrec) : Nat := if s.liveAsid (s.slotAsidOf c) then 0 else 3

/-- What a command selects below its kind. -/
def anySlot (_ : Slotrec) : Bool := true
/-- A command whose byte 8 is `n`: the kind of an invalidate, a config target. -/
def subSlot (off n : Nat) (c : Slotrec) : Bool := c.get off 1 == n
/-- A module register of `config` target 5. -/
def regSlot (n : Nat) (c : Slotrec) : Bool := c.get 8 1 == 5 && c.get 0x0C 2 == n

/-- The record selects a command that its queue takes. -/
def State.knownSlot (s : State) (c : Slotrec) : Bool :=
  if c.kind ≤ 3 then true
  else s.privSlot c && match c.kind with
    | 17 => decide (c.get 8 1 ≤ 2)
    | 20 => decide (c.get 0x0A 1 ≤ 1)
    | 24 => decide (c.get 8 1 ≤ 4) || (c.get 8 1 == 5 && decide (c.get 0x0C 2 ≤ 2))
    | 25 => decide (c.get 0x0A 1 ≤ 2)
    | 16 => true
    | 18 => true
    | 19 => true
    | 21 => true
    | 22 => true
    | 23 => true
    | 26 => true
    | _ => false

/-- `nop`; a record that selects no command its queue takes completes here with status "bad" (R481). A `config` record of a collective
group starts here, and the Anvil's event completes it (log 21). -/
def execSlotNop (id : Nat) (s : State) : Out :=
  match smFind s.front.cmds id with
  | none => .next s
  | some c =>
    if c.begun ∨ !s.mayStart id c then .next s
    else if !s.knownSlot c then .next (s.doneSlot id 1 0)
    else if c.kind = 0 then .next (s.doneSlot id (if c.clean [] then 0 else 1) 0)
    else if c.kind = 24 ∧ c.get 8 1 = 4 then .next (s.beginSlot id fun c => c)
    else .next s

/-- `launch`: the graph unit checks the record (R22, R374), which is `launchConsume`'s; its address is aligned to 128. -/
def execSlotLaunch (id : Nat) (s : State) : Out :=
  slotRun id 1 [(8, 8)] anySlot (fun s c => if !s.liveAsid (s.slotAsidOf c) then 3 else if windowOf (c.get 8 8) ≠ 0 then 2 else if c.get 8 8 % 128 ≠ 0 then 1 else 0)
    (fun s _ => s.beginSlot id fun c => c) s

/-- `grow` (R378): gangs join a resident kernel; their numbers stay below 65,536. -/
def execSlotGrow (id : Nat) (s : State) : Out :=
  slotRun id 2 [(8, 2), (0x0C, 4)] anySlot
    (fun s c => if !s.liveAsid (s.slotAsidOf c) then 3 else match s.kernelOf (s.slotAsidOf c) (c.get 8 2) with
      | none => 3
      | some (_, k) => if 65536 < k.gangs + k.grown + c.get 0x0C 4 then 1 else 0)
    (fun s c => match s.kernelOf (s.slotAsidOf c) (c.get 8 2) with
      | none => s
      | some (i, k) =>
        let n := c.get 0x0C 4
        ((s.addGangs i (k.gangs + k.grown) n).updKernel i fun k => { k with grown := k.grown + n }).doneSlot id 0 0) s

/-- `mail` (R317): the entry's value is the status of the send. -/
def execSlotMail (id : Nat) (s : State) : Out :=
  slotRun id 3 [(8, 8), (0x10, 32)] anySlot needAsid
    (fun s c =>
      let msg := (List.range 8).map fun i => BitVec.ofNat 32 (c.get (0x10 + 4 * i) 4)
      let r := s.send (s.slotAsidOf c) none (c.get 8 8) msg
      r.2.doneSlot id 0 r.1) s

/-- Reserved bits of an address-space descriptor are zero (R215). -/
def descClean (c : Slotrec) : Bool :=
  let b := c.get 0x10 8
  let a := c.get 0x18 8
  bitsOf b 17 1 == 0 && bitsOf b 63 48 == 0 && bitsOf a 15 0 == 0 && bitsOf a 63 48 == 0 && bitsOf (c.get 0x20 4) 31 10 == 0 && c.get 0x28 8 == 0

/-- `asid` (R215): the descriptor is written. An ASID that becomes valid has a zeroed arena table (R397). -/
def execSlotAsid (id : Nat) (s : State) : Out :=
  slotRun id 16 [(8, 2), (0x10, 32)] anySlot
    (fun s c => if (s.asid (c.get 8 2)).dying then 3 else if descClean c then 0 else 1)
    (fun s c =>
      let a := c.get 8 2
      let b := c.get 0x10 8
      let fresh := b.testBit 0 && !(s.asid a).valid
      let s := if fresh then s.updMem fun m => { m with arenas := m.arenas.filter fun x => x.1 / 4096 != a } else s
      (s.updAsid a fun d => { d with base := b / 2 ^ 18 * 2 ^ 18, valid := b.testBit 0, arena := c.get 0x18 8, dom := c.get 0x20 4,
                                     pinq := c.get 0x24 4 }).doneSlot id 0 0) s

/-! ## Invalidates (R456) -/

/-- Begin to write back the dirty L1 bytes of the lines of `p`, in every core. -/
def State.flushLines (s : State) (p : Nat → Bool) : State := (s.cores.map Prod.fst).foldl (fun s c => s.startWbs c p) s

/-- No dirty byte of the lines of `p` is in an L1 or on its way, and no store of them waits for its permission. -/
def State.linesClean (s : State) (asid : Nat) (p : Nat → Bool) : Bool :=
  s.cores.all (fun c => c.2.l1.all fun l => !p l.1 || l.2.dirty == 0) && s.mem.wbs.all (fun b => !p b.key) &&
    s.waves.all fun w => w.2.asid != asid || w.2.ops.all fun o => o.parked || o.args.all fun a =>
      !hasLane o.probe a.lane || !p (lineKey asid a.addr.toNat)

/-- The lines of `p` leave every L1; their tags write what is dirty to its old frame and go. A pin on one of them is returned, which R251 does
not list (DESIGN CHOICE, log 93). -/
def State.dropLines (s : State) (p : Nat → Bool) : State :=
  let s := (s.cores.map Prod.fst).foldl (fun s c => s.updCore c fun x => { x with l1 := x.l1.filter fun l => !p l.1 }) s
  ((s.mem.tags.map Prod.fst).filter p).foldl State.evictTag s

/-- The run of an invalidate: cached translations go (`drop`), dirty bytes are written back, and when nothing is left the lines
are dropped and the command is acknowledged. -/
def invalidate (id kind : Nat) (fields : List (Nat × Nat)) (check : State → Slotrec → Nat) (p : Slotrec → Nat → Bool)
    (drop : Slotrec → State → State) (s : State) : Out :=
  let start := fun (s : State) (c : Slotrec) =>
    let s := (s.beginSlot id fun c => c).setQueue c.queue { s.queue c.queue with blocked := some id }
    ((drop c s).flushLines (p c))
  match smFind s.front.cmds id with
  | none => .next s
  | some c =>
    if c.kind = 17 ∧ c.get 8 1 = kind ∧ c.begun then
      if s.linesClean (c.get 0x0A 2) (p c) then .next (((drop c s).dropLines (p c)).doneSlot id 0 0)
      else .next (s.flushLines (p c))
    else slotRun id 17 fields (subSlot 8 kind) (fun s c => if !s.liveAsid (c.get 0x0A 2) then 3 else check s c) start s

/-- Lines of a deep range of an address space. -/
def inRange (asid lo n : Nat) (key : Nat) : Bool :=
  keyAsid key == asid && windowOf (keyAddr key) == 0 && decide (lo ≤ keyAddr key) && decide (keyAddr key < lo + n)

/-- A cached leaf maps an address of a deep range. -/
def Tlb.inRange (t : Tlb) (asid lo n : Nat) : Bool :=
  let size := if t.big then 2 ^ 29 else 2 ^ 16
  let base := t.page * 2 ^ 16 / size * size
  t.asid == asid && !t.arena && decide (base < lo + n) && decide (lo < base + size)

/-- Invalidate of kind 0: the translations of a deep range. The level hint only narrows the search, which here takes every level. -/
def execInvalidateRange (id : Nat) (s : State) : Out :=
  let lo := fun (c : Slotrec) => c.get 0x10 8
  let n := fun (c : Slotrec) => 65536 * c.get 0x18 8
  invalidate id 0 [(8, 1), (0x0A, 2), (0x10, 8), (0x18, 8), (0x20, 1)]
    (fun _ c =>
      if lo c % 65536 ≠ 0 ∨ c.get 0x18 8 = 0 ∨ 2 ^ 32 < c.get 0x18 8 ∨ (c.get 0x20 1 ≠ 0 ∧ c.get 0x20 1 ≠ 2 ∧ c.get 0x20 1 ≠ 3) then 1
      else if 2 ^ 56 < lo c + n c then 2 else 0)
    (fun c => inRange (c.get 0x0A 2) (lo c) (n c))
    (fun c s => s.updMem fun m => { m with tlb := m.tlb.filter fun t => !t.inRange (c.get 0x0A 2) (lo c) (n c) }) s

/-- Invalidate of kind 1: the cached grants of an ASID at one vault, or at all; the ASID's vault lines leave every L1. -/
def execInvalidateGrants (id : Nat) (s : State) : Out :=
  let hit := fun (c : Slotrec) (v : Nat) => c.get 0x0C 2 == 0xFFFF || c.get 0x0C 2 == v
  invalidate id 1 [(8, 1), (0x0A, 2), (0x0C, 2)]
    (fun _ c => if c.get 0x0C 2 < 128 ∨ c.get 0x0C 2 = 0xFFFF then 0 else 1)
    (fun c key => keyAsid key == c.get 0x0A 2 && windowOf (keyAddr key) == 1)
    (fun c s => s.updMem fun m => { m with grants := m.grants.filter fun g => !(g.1 / 128 == c.get 0x0A 2 && hit c (g.1 % 128)) }) s

/-- Drop every translation and grant that is cached for an ASID. -/
def State.dropAsid (s : State) (a : Nat) : State :=
  s.updMem fun m => { m with tlb := m.tlb.filter fun t => t.asid != a, grants := m.grants.filter fun g => g.1 / 128 != a }

/-- Invalidate of kind 2: every translation, grant and cached permission of an ASID. -/
def execInvalidateAsid (id : Nat) (s : State) : Out :=
  invalidate id 2 [(8, 1), (0x0A, 2)] (fun _ _ => 0) (fun c key => keyAsid key == c.get 0x0A 2)
    (fun c s => s.dropAsid (c.get 0x0A 2)) s

/-! ## Teardown (R485) -/

/-- Gangs of an address space. -/
def State.asidGangs (s : State) (a : Nat) : List (Nat × Gang) :=
  s.graph.gangs.filter fun g => g.2.state != .gone && (s.kernel? g.2.kernel).elim false fun k => k.asid == a

/-- Discard a gang unsaved: its waves are no more, its records are settled, its cores are free. -/
def State.discardGang (s : State) (g : Nat) : State := ((s.gangWaves g).foldl (fun s w => s.removeWave w.1) s).endGang g

/-- The nodes of an address space end without records, also those that wait for their ring; its kernels are no more. -/
def State.dropWork (s : State) (a : Nat) : State :=
  let mine := fun (k : Nat) => (s.kernel? k).elim false fun x => x.asid == a
  let f : Nat × Core → Nat × Core := fun c => (c.1, { c.2 with tq := c.2.tq.filter fun t => !mine t.kernel, left := c.2.left.filter fun l => l.2.1.asid != a })
  let s : State := { s with cores := s.cores.map f }
  let g : Nat × Ring → Nat × Ring := fun x => if x.1 = ringKey a true then (x.1, { x.2 with queue := x.2.queue.filter fun b => recf b 7 1 != 0 }) else x
  let s := s.updFront fun r => { r with rings := r.rings.map g }
  s.updGraph fun r => { r with
    nodes := r.nodes.filter fun n => n.2.asid != a
    gangs := r.gangs.filter fun g => !mine g.2.kernel
    kernels := r.kernels.filter fun k => k.2.asid != a
    insts := r.insts.filter fun x => x.asid != a }

/-- Every arena of an address space is swept and its frames go back. -/
def State.dropArenas (s : State) (a : Nat) : State :=
  let live := (s.mem.arenas.filter fun x => x.1 / 4096 == a && x.2.state != 0).map fun x => x.1 % 4096
  live.foldl (fun s k => (s.sweepSlot a k).freeSlotPages a k) s

/-- Commands that wait for something of an address space end with status "none". -/
def State.endWaiting (s : State) (a id : Nat) : State :=
  ((s.front.cmds.filter fun c => c.1 != id && c.2.begun && s.slotAsidOf c.2 == a && c.2.kind != 17).map Prod.fst).foldl
    (fun s i => s.doneSlot i 3 0) s

/-- `teardown` (R485). It begins by stopping the ASID's queues and gangs; when every gang has come to rest, everything of the ASID
goes; when its deep lines have been written back, its translations go and the command completes. -/
def execTeardown (id : Nat) (s : State) : Out :=
  let deep := fun (a key : Nat) => keyAsid key == a && windowOf (keyAddr key) != 2
  let start := fun (s : State) (c : Slotrec) =>
    let a := c.get 8 2
    let s := (s.beginSlot id fun c => c).setQueue c.queue { s.queue c.queue with blocked := some id }
    let s := (s.updAsid a fun d => { d with dying := true }).endWaiting a id
    let f := fun (s : State) (g : Nat × Gang) =>
      if g.2.state = .placed then s.updGang g.1 fun x => { x with state := .saving }
      else if g.2.state = .saving then s else s.discardGang g.1
    (s.asidGangs a).foldl f s
  match smFind s.front.cmds id with
  | none => .next s
  | some c =>
    let a := c.get 8 2
    if c.kind = 18 ∧ c.begun then
      if !((s.asidGangs a).all fun g => g.2.state == .saved || s.gangDrained g.1) then .next s
      else
        let s := ((((s.asidGangs a).map Prod.fst).foldl State.discardGang s).dropWork a).dropArenas a
        if s.linesClean a (deep a) then
          let s := (s.dropLines fun key => keyAsid key == a).dropAsid a
          .next ((s.updAsid a fun d => { pool := d.pool, nextNode := d.nextNode }).doneSlot id 0 0)
        else .next (s.flushLines (deep a))
    else slotRun id 18 [(8, 2)] anySlot needAsid start s

/-! ## Answers, pools, vacate, transfer, cancel -/

/-- `answer` (R222, R448): 0 resumes, 1 fails. -/
def execSlotAnswer (id : Nat) (s : State) : Out :=
  let recOf := fun (s : State) (c : Slotrec) => s.front.faults.find? fun r => r.serial == c.get 8 4
  slotRun id 19 [(8, 4), (0x0C, 1)] anySlot
    (fun s c => if 1 < c.get 0x0C 1 then 1 else match recOf s c with
      | none => 3
      | some r => if (s.asid (recf r.bytes 8 2)).dying then 3 else 0)
    (fun s c => (s.answer (c.get 8 4) (c.get 0x0C 1 == 0)).doneSlot id 0 0) s

/-- The frame list of a `pool` command: 8-byte physical addresses of 64 KiB frames (log 21). -/
def State.frameList (s : State) (c : Slotrec) : MR (List Nat) :=
  let n := c.get 0x18 4
  (s.graphRead (c.get 8 2) (c.get 0x10 8) (8 * n)).bind fun bs s => .ok ((List.range n).map fun i => recf bs (8 * i) 8) s

/-- `pool`: frames join a pool; the entry's value is the pool's size. -/
def poolRun (id pool : Nat) (join : State → Nat → List Nat → Nat × State) (s : State) : Out :=
  slotRun id 20 [(8, 2), (0x0A, 1), (0x10, 8), (0x18, 4)] (subSlot 0x0A pool)
    (fun s c =>
      let n := c.get 0x18 4
      if !s.liveAsid (c.get 8 2) then 3
      else if n = 0 ∨ 65536 < n ∨ c.get 0x10 8 % 8 ≠ 0 then 1
      else if windowOf (c.get 0x10 8) ≠ 0 ∨ 2 ^ 56 < c.get 0x10 8 + 8 * n then 2
      else match s.frameList c with
        | .ok fs _ => if fs.all fun f => f % 65536 == 0 && decide (f < 2 ^ 48) then 0 else 1
        | _ => 4)
    (fun s c => match s.frameList c with
      | .ok fs s =>
        let r := join s (c.get 8 2) fs
        r.2.doneSlot id 0 r.1
      | _ => s) s

/-- `pool` 0: the ASID's arena pool (R218, R403). -/
def execPoolArena (id : Nat) (s : State) : Out :=
  poolRun id 0 (fun s a fs =>
    let s := s.updAsid a fun d => { d with pool := d.pool ++ fs }
    ((s.asid a).pool.length, s)) s

/-- `pool` 1: the module save pool (R450). -/
def execPoolSave (id : Nat) (s : State) : Out :=
  poolRun id 1 (fun s _ fs =>
    let s := s.updMem fun m => { m with savePool := m.savePool ++ fs }
    (s.mem.savePool.length, s)) s

/-- A gang has been given cores and has not been told to leave them. -/
def Gang.stands (g : Gang) : Bool := g.state == .placed || g.state == .starting || g.state == .resuming

/-- Cores that a gang frees: those it stands on, or those it left by exiting. -/
def Gang.frees (g : Gang) : Nat := if g.state == .gone then g.left else g.cores.length

/-- Whole gangs in ascending number until they cover n cores. -/
def coverCores (n : Nat) : List (Nat × Gang) → List (Nat × Gang)
  | [] => []
  | g :: gs => if n = 0 then [] else g :: coverCores (n - g.2.frees) gs

/-- Insert a gang by its number. -/
def byNumber (g : Nat × Gang) : List (Nat × Gang) → List (Nat × Gang)
  | [] => [g]
  | x :: xs => if g.2.num < x.2.num then g :: x :: xs else x :: byNumber g xs

/-- Select gangs of a kernel for a vacate, and stop them (R395): the gangs and the cores they free. A gang placed in this clock
is not selectable, one whose cores are still being set up is; one that exits is not saved, and its cores count, also where its exit came
first in this clock (R107). -/
def State.vacateGangs (s : State) (kernel n : Nat) : List Nat × Nat × State :=
  let may := fun (g : Nat × Gang) => g.2.kernel == kernel &&
    ((g.2.stands && g.2.placedAt != s.clk + 1) || (g.2.state == .gone && g.2.goneAt == s.clk + 1))
  let sel := coverCores n ((s.graph.gangs.filter may).foldr byNumber [])
  (sel.map Prod.fst, (sel.map fun g => g.2.frees).foldl (· + ·) 0, (sel.map Prod.fst).foldl State.vacateGang s)

/-- A selected gang's cores are not free yet. -/
def State.leaving (s : State) (g : Nat) : Bool := (s.gang? g).elim false fun x => x.state == .saving || (x.state == .placed && s.gangExits g)

/-- A request of a kind that arrived earlier stands before a command. -/
def State.earlierAsk (s : State) (id kind : Nat) : Bool := s.front.cmds.any fun x => x.2.kind == kind && decide (x.1 < id) && !x.2.begun && s.mayStart x.1 x.2

/-- The command of a vacate goes on (R395): one request at a time, in arrival order; it is answered when every selected gang's cores are
free. -/
def vacateCmd (id : Nat) (s : State) : Out :=
  match smFind s.front.cmds id with
  | none => .next s
  | some c =>
    if c.kind = 21 ∧ c.begun then
      let left := c.gangs.filter s.leaving
      if left.isEmpty then .next (s.doneSlot id 0 c.freed) else .next (s.beginSlot id fun c => { c with gangs := left })
    else if (s.front.cmds.any fun x => x.2.kind == 21 && x.2.begun) || s.earlierAsk id 21 then .next s
    else slotRun id 21 [(8, 2), (0x0A, 2), (0x0C, 4)] anySlot
      (fun s c => if s.liveAsid (c.get 8 2) && (s.kernelOf (c.get 8 2) (c.get 0x0A 2)).isSome then 0 else 3)
      (fun s c => match s.kernelOf (c.get 8 2) (c.get 0x0A 2) with
        | none => s
        | some (i, _) =>
          let r := s.vacateGangs i (c.get 0x0C 4)
          r.2.2.beginSlot id fun c => { c with gangs := r.1, freed := r.2.1 }) s

/-- `vacate` (R395), of the driver or the Anvil. -/
def execVacate (ask : Ask) (s : State) : Out :=
  match ask with
  | .anvil r => .next (s.anvilAsks 21 r)
  | .cmd id => vacateCmd id s

/-- The command of a transfer goes on (R426): KVER and LOCK of a kernel, in arrival order, and in a clock before any `recast` (R439). It is
answered once every core has applied the change; the value is the answer of R426. -/
def transferCmd (id : Nat) (s : State) : Out :=
  let kern := fun (s : State) (c : Slotrec) => if s.liveAsid (c.get 8 2) then s.kernelOf (c.get 8 2) (c.get 0x0A 2) else none
  match smFind s.front.cmds id with
  | none => .next s
  | some c =>
    if c.kind = 22 ∧ c.begun then
      match kern s c with
      | none => .next (s.doneSlot id 3 2)
      | some (_, k) => if k.lag.isEmpty then .next (s.doneSlot id 0 0) else .next s
    else if s.earlierAsk id 22 || (kern s c).elim false (fun k => k.2.recastAt == s.clk + 1) then .next s
    else slotRun id 22 [(8, 2), (0x0A, 2), (0x0C, 1), (0x0D, 1)] anySlot
      (fun _ c => if 2 < c.get 0x0D 1 then 1 else 0)
      (fun s c =>
        let v := c.get 0x0C 1
        match kern s c with
        | none => s.doneSlot id 3 2
        | some (i, k) =>
          if 7 < v ∨ !k.vmask.testBit v then s.doneSlot id 1 1
          else
            let lock := if c.get 0x0D 1 = 0 then k.lock else c.get 0x0D 1 == 1
            let same := k.kver == v
            let s := (s.setKver i v).updKernel i fun k => { k with lock := lock }
            if same then s.doneSlot id 0 0 else s.beginSlot id fun c => c) s

/-- `transfer` (R426), of the driver or the Anvil. -/
def execTransferRequest (ask : Ask) (s : State) : Out :=
  match ask with
  | .anvil r => .next (s.anvilAsks 22 r)
  | .cmd id => transferCmd id s

/-- A node fails by the driver's cancel (R406): no further work of it is given out. One that has not been released ends as a
node whose predecessor failed does, with the status of its own. -/
def State.cancelNode (s : State) (key : Nat) : State :=
  match s.node? key with
  | none => s
  | some n =>
    let st := if n.failed = 0 then 2 else n.failed
    let s := s.updNode key fun n => match n.state, n.slot with
      | .ready, none => { n with failed := st, state := .recording, step := 6 }
      | .ready, some _ => { n with failed := st, state := .released, batch := [] }
      | _, _ => { n with failed := st }
    s.dropFailed n.kernel

/-- `cancel` (R406). -/
def execCancel (id : Nat) (s : State) : Out :=
  slotRun id 23 [(8, 2), (0x0C, 4)] anySlot
    (fun s c => if s.liveAsid (c.get 8 2) && (s.node? (nodeKey (c.get 8 2) (c.get 0x0C 4))).isSome then 0 else 3)
    (fun s c => (s.cancelNode (nodeKey (c.get 8 2) (c.get 0x0C 4))).doneSlot id 0 0) s

/-! ## `config` (R481) -/

/-- A `config` command of a target: its check and its write. -/
def configRun (id : Nat) (sel : Slotrec → Bool) (check : Slotrec → Nat) (write : Slotrec → State → State) (s : State) : Out :=
  slotRun id 24 [(8, 1), (0x0C, 2), (0x0E, 2), (0x10, 32)] sel (fun _ c => check c) (fun s c => (write c s).doneSlot id 0 0) s

/-- Reserved bits of a format window are zero (R161); an unassigned FMT makes a window that acts as disabled (R162). -/
def fmtwOk (v : Nat) : Bool := bitsOf v 30 20 == 0 && bitsOf v 11 9 == 0 && bitsOf v 7 4 == 0

/-- Target 0: a codebook slot, on every die (R152). -/
def execConfigCodebook (id : Nat) (s : State) : Out :=
  configRun id (subSlot 8 0) (fun c => if c.get 0x0C 2 < 256 ∧ c.get 0x0E 2 = 0 then 0 else 1)
    (fun c s => s.updMem fun m => { m with cbook := smSet 0 m.cbook (c.get 0x0C 2) (BitVec.ofNat 256 (c.get 0x10 32)) }) s

/-- Target 1: a format window of the controller groups (R161). -/
def execConfigDeepFmtw (id : Nat) (s : State) : Out :=
  configRun id (subSlot 8 1)
    (fun c => if c.get 0x0C 2 < 64 ∧ c.get 0x0E 2 = 0 ∧ fmtwOk (c.get 0x10 16) ∧ c.get 0x20 16 = 0 then 0 else 1)
    (fun c s => s.updMem fun m => { m with fmtw := smSet 0 m.fmtw (c.get 0x0C 2) (BitVec.ofNat 128 (c.get 0x10 16)) }) s

/-- Target 2: a format window of a vault controller (R161). -/
def execConfigVaultFmtw (id : Nat) (s : State) : Out :=
  configRun id (subSlot 8 2)
    (fun c => if c.get 0x0C 2 < 128 ∧ c.get 0x0E 2 < 64 ∧ fmtwOk (c.get 0x10 16) ∧ c.get 0x20 16 = 0 then 0 else 1)
    (fun c s => s.updMem fun m => { m with
      vfmtw := smSet 0 m.vfmtw (64 * c.get 0x0C 2 + c.get 0x0E 2) (BitVec.ofNat 128 (c.get 0x10 16)) }) s

/-- Target 3: the grant table base of a die (R208), below the end of physical memory (R486). -/
def execConfigGrantbase (id : Nat) (s : State) : Out :=
  configRun id (subSlot 8 3)
    (fun c => if 4 ≤ c.get 0x0C 2 ∨ c.get 0x0E 2 ≠ 0 ∨ c.get 0x18 24 ≠ 0 then 1 else if 2 ^ 48 ≤ c.get 0x10 8 then 2 else 0)
    (fun c s => s.updMem fun m => { m with grantbase := smSet 0 m.grantbase (c.get 0x0C 2) (BitVec.ofNat 64 (c.get 0x10 8)) }) s

/-- The members that a `config` record of target 4 lists (R333): module position and die, a byte each, at a deep address of the group's
address space (DESIGN CHOICE, log 21). -/
def State.memberList (s : State) (c : Slotrec) : MR (List Member) :=
  let n := c.get 0x14 4
  (s.graphRead (c.get 0x0C 2) (c.get 0x18 8) (2 * n)).bind fun bs s => .ok ((List.range n).map fun i => ⟨recf bs (2 * i) 1, recf bs (2 * i + 1) 1⟩) s

/-- What a `config` record of target 4 is answered before its list is read: its value holds LIMIT, M and the address of the list of members
(log 21). -/
def State.groupCheck (s : State) (c : Slotrec) : Nat :=
  let n := c.get 0x14 4
  if !c.clean [(8, 1), (0x0C, 2), (0x0E, 2), (0x10, 32)] then 1
  else if !s.liveAsid (c.get 0x0C 2) then 3
  else if 256 ≤ c.get 0x0E 2 ∨ n = 0 ∨ 1024 < n ∨ c.get 0x10 4 = 0 ∨ 65535 < c.get 0x10 4 ∨ c.get 0x20 16 ≠ 0 then 1
  else if windowOf (c.get 0x18 8) ≠ 0 ∨ 2 ^ 56 < c.get 0x18 8 + 2 * n then 2 else 0

/-- Target 4: a collective group of an ASID (R333). A record that has started is completed by the event of the Anvil: one that brings
other members or another limit than the record's does nothing (log 21). -/
def execConfigCollGroup (id : Nat) (members : List Member) (limit : Nat) (s : State) : Out :=
  match smFind s.front.cmds id with
  | none => .next s
  | some c =>
    if c.kind ≠ 24 ∨ c.get 8 1 ≠ 4 ∨ !c.begun then .next s
    else match s.groupCheck c with
      | 0 =>
        match s.memberList c with
        | .ok ms t =>
          if ms.any fun m => decide (3 < m.die) then .next (s.doneSlot id 1 0)
          else if ms ≠ members ∨ limit ≠ c.get 0x10 4 then .next s
          else .next ((t.updGraph fun g => { g with groups := smPut (256 * c.get 0x0C 2 + c.get 0x0E 2) ⟨ms, limit⟩ g.groups }).doneSlot id 0 0)
        | r => .next ((r.after s).doneSlot id 4 0)
      | n => .next (s.doneSlot id n 0)

/-- Target 5, index 0: PLACECTL (R387). -/
def execConfigPlacectl (id : Nat) (s : State) : Out :=
  configRun id (regSlot 0) (fun c => if c.get 0x0E 2 = 0 ∧ c.get 0x10 32 < 2 ^ 16 then 0 else 1)
    (fun c s => s.updMod fun m => { m with placectl := BitVec.ofNat 32 (c.get 0x10 4) }) s

/-- Target 5, index 1: SPRUECTL of a die (R394). -/
def execConfigSpruectl (id : Nat) (s : State) : Out :=
  configRun id (regSlot 1)
    (fun c => if c.get 0x0E 2 < 4 ∧ c.get 0x10 32 < 2 ^ 26 ∧ bitsOf (c.get 0x10 4) 15 10 = 0 then 0 else 1)
    (fun c s => s.updMod fun m => { m with spruectl := smSet 0x00400080 m.spruectl (c.get 0x0E 2) (BitVec.ofNat 32 (c.get 0x10 4)) }) s

/-- Target 5, index 2: STEALSEED of a core, which loads its LFSR; a written zero acts as 1 (R394). -/
def execConfigStealseed (id : Nat) (s : State) : Out :=
  configRun id (regSlot 2) (fun c => if c.get 0x0E 2 < 512 ∧ c.get 0x10 32 < 2 ^ 16 then 0 else 1)
    (fun c s =>
      let v := BitVec.ofNat 16 (c.get 0x10 2)
      s.updCore (c.get 0x0E 2) fun x => { x with seed := v, lfsr := { x with seed := v }.stealSeed }) s

/-! ## `debug` (R458, R472, R481) -/

/-- `debug` 0: the ASID's debug channel opens, with the ring for `mon` messages: aligned to 128, in the ASID's deep window (R486; log 86). -/
def execDebugOpen (id : Nat) (s : State) : Out :=
  slotRun id 25 [(8, 2), (0x0A, 1), (0x10, 8)] (subSlot 0x0A 0)
    (fun s c =>
      if !s.liveAsid (c.get 8 2) then 3 else if c.get 0x10 8 % 128 ≠ 0 then 1
      else if windowOf (c.get 0x10 8) ≠ 0 ∨ 2 ^ 56 < c.get 0x10 8 + monRing then 2 else 0)
    (fun s c => (s.updFront fun f => { f with channels := smPut (c.get 8 2) { ring := c.get 0x10 8 } f.channels }).doneSlot id 0 0) s

/-- `debug` 1: the channel closes. A `mon` that waits for a reply then finds no channel (R472). -/
def execDebugClose (id : Nat) (s : State) : Out :=
  slotRun id 25 [(8, 2), (0x0A, 1)] (subSlot 0x0A 1) needAsid
    (fun s c => (s.updFront fun f => { f with channels := smDel (c.get 8 2) f.channels }).doneSlot id 0 0) s

/-- The gang that a host break names. -/
def State.breakGang (s : State) (c : Slotrec) : Option Nat :=
  (s.kernelOf (c.get 8 2) (c.get 0x0C 2)).bind fun k => (s.gangOf k.1 (c.get 0x0E 2)).map Prod.fst

/-- A wave takes a host break: BKPT, code 1, with no instruction to name. -/
def State.breakWave (s : State) (u : Nat) : State :=
  match s.wave? u with
  | none => s
  | some w => s.pend u .bkpt w.present false (some ⟨w.serial, 0, Cause.bkpt.num, 1, 0xFF, 0, w.present, padTo 16 []⟩)

/-- `debug` 2: BKPT becomes pending, with code 1, for every wave of the named gang (R458). -/
def execHostBreak (gang : Nat) (s : State) : Out :=
  match s.front.cmds.find? fun c => c.2.kind == 25 && c.2.get 0x0A 1 == 2 && (s.breakGang c.2 == some gang || (s.breakGang c.2).isNone) with
  | none => .next s
  | some (id, _) =>
    slotRun id 25 [(8, 2), (0x0A, 1), (0x0C, 2), (0x0E, 2)] (subSlot 0x0A 2)
      (fun s c => if s.liveAsid (c.get 8 2) && (s.breakGang c).isSome then 0 else 3)
      (fun s _ => (((s.gangWaves gang).map Prod.fst).foldl State.breakWave s).doneSlot id 0 0) s

/-! ## The service block (R482-R484) -/

/-- A ring of a service block: aligned to its size, a power of two from 4 KiB to 1 GiB; only bit 0 of the alignment bits may be set. -/
def ringOk (base size : Nat) : Bool := ringSizeOk size && decide (base % size ≤ 1)

/-- A ring after a service block: one that stays where it was goes on counting (log 21). -/
def Ring.move (r : Ring) (base size vector : Nat) (coal : W32) : Ring :=
  if r.base = base / 2 * 2 ∧ r.hostmem = base.testBit 0 ∧ r.size = size then { r with vector := vector, coal := coal }
  else { r with base := base / 2 * 2, hostmem := base.testBit 0, size := size, vector := vector, count := 0, ack := 0, co := {}, coal := coal }

/-- `service` (R482); a ring beyond physical memory is out of bounds (R486). -/
def execService (id : Nat) (s : State) : Out :=
  slotRun id 26 [(8, 2), (0x10, 8), (0x18, 8), (0x20, 4), (0x24, 4), (0x28, 2), (0x2A, 2), (0x2C, 4)] anySlot
    (fun s c =>
      if !s.liveAsid (c.get 8 2) then 3
      else if !(ringOk (c.get 0x10 8) (c.get 0x20 4) && ringOk (c.get 0x18 8) (c.get 0x24 4) && bitsOf (c.get 0x2C 4) 31 24 == 0 &&
        bitsOf (c.get 0x2C 4) 15 8 == 0) then 1
      else if 2 ^ 48 ≤ c.get 0x10 8 ∨ 2 ^ 48 ≤ c.get 0x18 8 then 2 else 0)
    (fun s c =>
      let a := c.get 8 2
      let put := fun (f : Front) (node : Bool) (base size vec : Nat) =>
        { f with rings := smSet {} f.rings (ringKey a node) ((smGet {} f.rings (ringKey a node)).move base size vec (BitVec.ofNat 32 (c.get 0x2C 4))) }
      (s.updFront fun f =>
        put (put f true (c.get 0x10 8) (c.get 0x20 4) (c.get 0x28 2)) false (c.get 0x18 8) (c.get 0x24 4) (c.get 0x2A 2)).doneSlot id 0 0) s

/-- Bytes of an entry: 128 in a node ring, 16 in a command ring. -/
def entrySize (node : Bool) : Nat := if node then 128 else 16

/-- The next entry would overwrite one that the host has not acknowledged (R483). -/
def Ring.full (r : Ring) (node : Bool) : Bool := decide ((r.size - 128) / entrySize node ≤ r.count - r.ack)

/-- The next entry of a ring is written, then the count (R483); the interrupt follows R484. -/
def execRingEntryWrite (asid : Nat) (node : Bool) (s : State) : Out :=
  let r := smGet ({} : Ring) s.front.rings (ringKey asid node)
  match r.queue with
  | [] => .next s
  | b :: bs =>
    if r.size = 0 ∨ r.full node then .next s
    else
      let a := r.base + 128 + (r.count * entrySize node) % (r.size - 128)
      let s := s.updMem fun m => (m.writeAt r.hostmem a (padTo (entrySize node) b)).writeAt r.hostmem r.base (le 8 (r.count + 1))
      let co := r.co.add r.coal s.clk
      let s := s.updFront fun f => { f with rings := smSet {} f.rings (ringKey asid node) { r with queue := bs, count := r.count + 1, co := co.1 } }
      if co.2 then .next (s.irq 5 r.vector) else .next s

/-- The oldest pending entry of a ring has waited HOLD µs (R484). ASID 65,536 stands for the module: its fault ring, and with
`node` the save-pool interrupt. -/
def execIrqHoldExpiry (asid : Nat) (node : Bool) (s : State) : Out :=
  let off : Coal := { raised := s.clk + 1 }
  if asid = 65536 then
    let f := s.front
    let x := if node then f.poolCo else f.faultCo
    if !x.due f.coal s.clk then .next s
    else .next ((s.updFront fun f => if node then { f with poolCo := off } else { f with faultCo := off }).irq (if node then 2 else 1) 0)
  else
    let r := smGet ({} : Ring) s.front.rings (ringKey asid node)
    if !r.co.due r.coal s.clk then .next s
    else .next ((s.updFront fun f => { f with rings := smSet {} f.rings (ringKey asid node) { r with co := off } }).irq 5 r.vector)

/-- The host writes its acknowledged count into a ring (R483). -/
def execRingAcknowledge (asid : Nat) (node : Bool) (count : Nat) (s : State) : Out :=
  let r := smGet ({} : Ring) s.front.rings (ringKey asid node)
  if r.size = 0 then .next s
  else .next ((s.updMem fun m => m.writeAt r.hostmem (r.base + 8) (le 8 count)).updFront fun f =>
    { f with rings := smSet {} f.rings (ringKey asid node) { r with ack := count % 2 ^ 64 } })

/-! ## The configuration window (R479, R484) -/

/-- A queue descriptor as the window writes it: ring base and HOSTMEM, LOG2N and flags, ASID. The driver writes one while VALID is
0 or with a write that clears it; a write that breaks that, or sets a reserved bit, changes nothing (log 21). -/
def Queue.write (x : Queue) (vals : List W32) : Queue :=
  let v := fun (i : Nat) => (vals.getD i 0).toNat
  let base := v 0 + 2 ^ 32 * v 1
  let fl := v 2
  let valid := fl.testBit 31
  let clean := bitsOf base 6 1 == 0 && bitsOf base 63 48 == 0 && bitsOf fl 7 4 == 0 && bitsOf fl 30 10 == 0 && decide (v 3 < 65536) &&
    decide (4 ≤ fl % 16)
  if (x.valid && valid) || !clean then x
  else { x with base := base / 128 * 128, hostmem := base.testBit 0, log2n := fl % 16, isOpen := fl.testBit 8, priv := fl.testBit 9,
                valid := valid, asid := v 3 }

/-- The driver writes through the configuration window: a descriptor; `q` = 65,536 stands for the module COALCTL. -/
def execConfigurationWindowWrite (q : Nat) (vals : List W32) (s : State) : Out :=
  if q < 65536 then .next (s.setQueue q ((s.queue q).write vals))
  else if q = 65536 then .next (s.updFront fun f => { f with coal := vals.headD 0 &&& 0x00FF00FF })
  else .next s

end Sys2Proof.Machine
end

