-- ==== Sys2Proof/Machine/Module.lean ====
section
/-!
DEFINITION. The module: the side-band messages (R489), firmware and attestation (R487, R488), reset, power and temperature (R490
to R492), the gating of quads (R493), the retirement of units (R494), and the pod (R15).
-/

namespace Sys2Proof.Machine

/-! ## Side band (R489) -/

/-- `health`: HEALTH is read. -/
def execMctpHealth (s : State) : Out := .next (s.tellHost (le 4 s.mod.health.toNat))

/-- DRAMTEMP of a package. -/
def State.dramtemp (s : State) (die pkg : Nat) : BitVec 9 := smGet 0 s.mod.dramtemp (8 * die + pkg)

/-- `sensors`: die and quad temperatures and module power, which sensors give and so are free, and the package temperatures
(log 22). -/
def execMctpSensors (s : State) : Out :=
  let free := fun (i : Nat) => Config.sensor (s.draws * 256 + i)
  let bs := (List.range 132).flatMap (fun i => le 1 (free i)) ++ (List.range 32).flatMap (fun i => le 1 ((s.dramtemp (i / 8) (i % 8)).toNat % 256)) ++
    le 4 (free 132)
  .next ({ s with draws := s.draws + 1 }.tellHost bs)

/-- `limit`: this master's PWRLIM, at most 2,600 W (R490). -/
def execMctpLimit (host : Bool) (watts : Nat) (s : State) : Out :=
  .next (s.updMod fun m => { m with pwrlim := m.pwrlim.set (if host then 0 else 1) (min watts 2600) })

/-! ## Firmware (R487, R488) -/

/-- A measurement register; before its first extension it holds 64 zero bytes (log 22). -/
def State.measure (s : State) (i : Nat) : List Byte := s.mod.measures.getD i (List.replicate 64 0)

/-- The module's Ed448 identity key, of 57 bytes, which no master can read (R488). -/
def identityKey : List Byte := padTo 57 (Config.digest Config.fusedSecret)

/-- `attest` (R488): nonce, M0 to M7, security version, and the signature over the digest of these. -/
def execAttest (nonce : List Byte) (s : State) : Out :=
  let q := padTo 32 nonce ++ (List.range 8).flatMap s.measure ++ le 4 s.mod.secver
  .next (s.tellHost (q ++ Config.sign identityKey (Config.digest q)))

/-- Images of the boot order: the Anvil's and the four dies' (R488; log 22). -/
def bootPlaces : Nat := 5

/-- `stage` (R487): either master's image for a place of the boot order, 0 the Anvil's and d + 1 that of compute die d (log 22), waits for
the next reset; a later one for its place replaces it. -/
def execStage (_host : Bool) (place : Nat) (image : FwImage) (s : State) : Out :=
  if bootPlaces ≤ place then .next s else .next (s.updMod fun m => { m with staged := smPut place image m.staged })

/-- A reset of the module (R489) ends all work at once: every register and cache is as after reset. What lies in LPDDR-6, in the
vaults and in host memory stays, and so do the fused counter and the images; the boot follows (log 22). -/
def execModuleReset (s : State) : Out :=
  .next { State.reset with
    mem := { ({} : Mem) with phys := s.mem.phys, host := s.mem.host, vault := s.mem.vault }
    mod := { ({} : ModRegs) with secver := s.mod.secver, staged := s.mod.staged, images := s.mod.images }
    front := { ({} : Front) with answers := s.front.answers }
    agenda := [.boot]
    draws := s.draws }

/-- Extend the measurement registers by images in boot order, image i into M(i mod 8) (R488; log 22). -/
def extendAll (ms : List (List Byte)) (imgs : List (List Byte)) : List (List Byte) :=
  imgs.zipIdx.foldl (fun ms x =>
    let i := x.2 % 8
    ms.set i (Config.digest (ms.getD i [] ++ Config.digest x.1))) ms

/-- The boot ROM takes an image against a fused counter (R487): its signature holds over its digest, the digest is that of its bytes, and
its version is not below the counter. -/
def imagePasses (secver : Nat) (x : FwImage) : Bool :=
  Config.certified x.digest x.signature && x.digest == Config.digest (x.bytes.take x.length) && decide (secver ≤ x.version)

/-- The bytes of the image in force in a place. -/
def ModRegs.imageAt (m : ModRegs) (place : Nat) : List Byte :=
  (smFind m.images place).elim (Config.firmware place) fun x => x.bytes.take x.length

/-- The boot (R487, R488): every staged image that passes takes force and raises the fused counter to its version; one that is refused
leaves the image in force, and sets HEALTH.FWERR with the health interrupt (R484); then the measurements are extended over the boot ROM
and the images in boot order. All are held against the counter that the boot finds (DESIGN CHOICE, log 22). -/
def execBoot (s : State) : Out :=
  let m := s.mod
  let taken := m.staged.filter fun x => imagePasses m.secver x.2
  let m' := { m with
    images := taken.foldl (fun y (x : Nat × FwImage) => smPut x.1 x.2 y) m.images
    secver := taken.foldl (fun n (x : Nat × FwImage) => max n x.2.version) m.secver
    staged := [] }
  let m' := { m' with measures := extendAll (List.replicate 8 (List.replicate 64 0)) (Config.bootRom :: (List.range bootPlaces).map m'.imageAt) }
  if taken.length = m.staged.length then .next { s with mod := m' }
  else .next ({ s with mod := { m' with health := m'.health ||| 0x40000000 } }.irq 6 0)

/-! ## Power and temperature (R490-R492) -/

/-- Quads beside a package (R492). -/
def quadsBeside (die pkg : Nat) : List Nat := (List.range 4).map fun i => 32 * die + 8 * i + pkg

/-- A package beside a quad is hot. -/
def State.hotQuad (s : State) (q : Nat) : Bool := (s.dramtemp (q / 32) (q % 8)).getLsbD 8

/-- The Anvil recomputes every quad's ALLOW; beside a hot package it does not rise (R491, R492). -/
def State.reallow (s : State) (vals : Nat → BitVec 10) : State :=
  let new := fun (q : Nat) =>
    let old : BitVec 10 := smGet 512 s.mod.tallow q
    if s.hotQuad q && old < vals q then old else vals q
  s.updMod fun m => { m with tallow := (List.range 128).foldl (fun (t : SMap (BitVec 10)) q => smSet 512 t q (new q)) m.tallow }

/-- Every 2^16 clocks the Anvil recomputes the allowances (R491); the values are its own. -/
def execTallowRecompute (vals : List Nat) (s : State) : Out :=
  if s.clk % 65536 ≠ 0 then .next s else .next (s.reallow fun q => BitVec.ofNat 10 (vals.getD q 512))

/-- A package reports a temperature (R492). HOT is set above 85 and cleared below 83. What a crossing recomputes at once (R491) is, at a
setting, the cap of the four quads beside the package at 128, every other quad as it was (R497; DEDUCED, log 22); at a clearing every
quad's value is free. -/
def execDramtempCrossing (die pkg temp : Nat) (s : State) : Out :=
  if 3 < die ∨ 7 < pkg ∨ 255 < temp then .next s
  else
    let old := (s.dramtemp die pkg).getLsbD 8
    let hot := if 85 < temp then true else if temp < 83 then false else old
    let s := s.updMod fun m => { m with dramtemp := smSet 0 m.dramtemp (8 * die + pkg) (BitVec.ofNat 9 (temp + if hot then 256 else 0)) }
    if hot = old then .next s
    else if hot then
      .next (s.updMod fun m => { m with tallow := (quadsBeside die pkg).foldl (fun (t : SMap (BitVec 10)) q =>
        let a : BitVec 10 := smGet 512 t q
        smSet 512 t q (if 128 < a then 128 else a)) m.tallow })
    else .next ({ s with draws := s.draws + 1 }.reallow fun q => Config.allowance (s.draws * 128 + q))

/-- Firmware writes a field that only it may write (R6). The Anvil lowers the read grants of a resident gang to hold the module's power
(R490): a code at or above those in force; body bias changes no visible state. When it writes ISSUECTL or FORCE the spec does not
say (log 65). -/
def execPowerLimitControl (field : FwField) (x : Nat) (s : State) : Out :=
  match field with
  | .grants gang =>
    if 3 < x ∨ (s.gangTeams gang).any (fun t => decide (x < t.2.bank.pwrctx.toNat % 4)) then .next s
    else .next (s.setGrants gang x)
  | .issuectl gang =>
    let y := BitVec.ofNat 32 x &&& 0x03FF0FFF
    .next ((s.gangTeams gang).foldl (fun s t => s.updTeam t.1 fun t => { t with bank := { t.bank with issuectl := y } }) s)
  | .force core =>
    if 511 < core then .next s
    else .next (s.updEngine core fun e => { e with mectl := (e.mectl &&& ~~~2) ||| if x % 2 = 1 then 2 else 0 })

/-! ## Gating (R493) -/

/-- A team stands on a core of the quad. -/
def State.quadPlaced (s : State) (q : Nat) : Bool := s.graph.teams.any fun t => t.2.core.elim false fun c => quadOf c == q

/-- Teams whose saved context still lies in the quad. -/
def State.quadHeld (s : State) (q : Nat) : List Nat := (s.graph.teams.filter fun t => t.2.heldOn.elim false fun c => quadOf c == q).map Prod.fst

/-- An address lies in a quad's vault. -/
def inVault (q a : Nat) : Bool := windowOf a == 1 && vaultOf a == q

/-- A gather or scatter, whose elements may lie anywhere. -/
def isList (i : Instr) : Bool :=
  match i with
  | .cpyG .. => true
  | .cpyS .. => true
  | _ => false

/-- An accepted access of an operation is aimed at the quad's vault: an address of its own, a segment's, or any element of a list. A lane
that is parked is not waited for. -/
def Op.aimsAt (o : Op) (q : Nat) : Bool :=
  (o.args.any fun a => hasLane ((o.todo &&& ~~~o.atRest) ||| o.probe) a.lane && inVault q a.addr.toNat) ||
    o.cmd.elim false fun c => isList o.ins || c.segs.any fun g => g.code == 0 && (inVault q g.dst.toNat || inVault q g.src.toNat)

/-- Nothing accepted is aimed at the quad, and no line of its vault is on its way back to it. -/
def State.quadQuiet (s : State) (q : Nat) : Bool :=
  s.waves.all (fun w => !(w.2.ops.any fun o => o.aimsAt q)) && s.mem.wbs.all fun b => !inVault q (keyAddr b.key)

/-- The Anvil gates a quad (R493): only where no team is placed and nothing saved lies there. Placements are refused first; once
every accepted access has completed, and what is dirty in the quad's L1s has been written back, the power goes, and with it what the L1s
held. A retired quad's saved contexts are spilled for
it (R494). -/
def execQuadGate (q : Nat) (s : State) : Out :=
  if 127 < q ∨ s.mod.gated.contains q ∨ s.quadPlaced q then .next s
  else if !(s.quadHeld q).isEmpty then .next s
  else if !s.mod.closing.contains q then .next (s.updMod fun m => { m with closing := q :: m.closing })
  else if !s.quadQuiet q then .next s
  else
    let cs := (List.range 4).map (4 * q + ·)
    let t := cs.foldl State.flushCore s
    if cs.any fun c => !(t.wbIds c).isEmpty then .next t
    else
    let s := cs.foldl (fun s c => s.updCore c fun c => { c with l1 := [] }) t
    .next (s.updMod fun m => { m with gated := q :: m.gated, closing := m.closing.filter fun x => x != q })

/-- A gang that waits for cores could stand in the quad. -/
def State.quadWanted (s : State) (q : Nat) : Bool :=
  s.placeList.any fun g => (s.candidates g.2 (q / 32)).any fun cs => cs.any fun c => quadOf c == q

/-- Placement that wants a gated quad makes the Anvil ungate it; a retired one stays gated (R493, R494). -/
def execQuadUngate (q : Nat) (s : State) : Out :=
  if s.mod.gated.contains q && !s.mod.retiredQuads.contains q && s.quadWanted q then
    .next (s.updMod fun m => { m with gated := m.gated.filter fun x => x != q })
  else .next s

/-! ## Retirement (R352, R494) -/

/-- Five mismatches within 10^9 clocks of the first of them. -/
def Engine.worn (e : Engine) : Bool := e.mism.any fun c => decide (5 ≤ (e.mism.filter fun x => decide (c ≤ x) && decide (x ≤ c + 10 ^ 9)).length)

/-- Raise an 8-bit saturating count of HEALTH, and REPLACE (R494). -/
def bumpHealth (h : W32) (lo : Nat) : W32 :=
  let n := bitsOf h.toNat (lo + 7) lo
  let h := h ||| 0x80000000
  if n = 255 then h else h + BitVec.ofNat 32 (2 ^ lo)

/-- Gangs on the cores of a test are vacated: they stop, are saved and resume elsewhere; one that exits does not (R107, R395). -/
def State.vacateCores (s : State) (p : Nat → Bool) : State :=
  ((s.graph.gangs.filter fun g => g.2.cores.any p).map Prod.fst).foldl State.vacateGang s

/-- HEALTH counts a retired unit, and the health interrupt is raised at once (R484, R494). -/
def State.noteRetired (s : State) (lo : Nat) : State := (s.updMod fun m => { m with health := bumpHealth m.health lo }).irq 6 0

/-- A matrix engine is retired, and its core vacated. -/
def State.retireEngine (s : State) (core : Nat) : State :=
  if (s.engine core).retired then s
  else ((s.updEngine core fun e => { e with retired := true }).noteRetired 8).vacateCores fun c => c == core

/-- Engines that have met five mismatches in time, or an uncorrectable error in their arrays, are retired (R352, R494). -/
def State.retireWorn (s : State) : State := ((s.engines.filter fun e => e.2.worn || e.2.bad).map Prod.fst).foldl State.retireEngine s

/-- The Anvil retires a unit (R494): kind 0 a core's matrix engine, 1 a vault bank of 8 MiB, bank b
of vault v as 16v + b, 2 a quad. -/
def execUnitRetire (kind unit : Nat) (s : State) : Out :=
  match kind with
  | 0 => if 511 < unit then .next s else .next (s.retireEngine unit)
  | 1 =>
    if 127 < unit / 16 ∨ 11 < unit % 16 ∨ s.mem.badBanks.contains unit then .next s
    else .next ((s.updMem fun m => { m with badBanks := unit :: m.badBanks }).noteRetired 0)
  | 2 =>
    if 127 < unit ∨ s.mod.retiredQuads.contains unit then .next s
    else .next (((s.updMod fun m => { m with retiredQuads := unit :: m.retiredQuads }).noteRetired 16).vacateCores fun c => quadOf c == unit)
  | _ => .next s

/-- Firmware sets the module's position in its pod (R15). -/
def execPodBringUp (pkg : Nat) (s : State) : Out := if 255 < pkg then .next s else .next (s.updMod fun m => { m with pkg := pkg })

end Sys2Proof.Machine
end

