-- ==== Sys2Proof/Machine/Complete.lean ====
section
/-!
DEFINITION. The completion of an outstanding long-latency instruction (R62, R225), whatever unit it waits for: its lanes are
performed in memory, or its message, request, report or ticket is answered.
-/

namespace Sys2Proof.Machine

/-- Lanes of an outstanding access are performed (R225, R227, R371). -/
def State.completeAccess (s : State) (u n : Nat) (w : Wave) (o : Op) (lanes : Mask) : State :=
  match o.ins with
  | .hmzero .. => s.performZero u n
  | .accrd _ bf16 .. => s.performLanes u n lanes lateDst fun s _ _ x =>
      let r := accWords bf16 (x.data.headD 0) (x.data.getD 1 0)
      .ok { regs := r.1, ev := r.2 } s
  | _ =>
    let p := s.prepFlush w o
    p.1.performLanes u n (lanes &&& ~~~p.2) lateDst fun s w o x => s.lane w o x

/-- A send. -/
def isSend (i : Instr) : Bool :=
  match i with
  | .mbsend .. => true
  | _ => false

/-- `mbsend` completes (R317): the message is sent, or the status says why not. The sends of one wave are taken in the order in which
they were issued (R315). -/
def State.completeSend (s : State) (u : Nat) (w : Wave) (o : Op) (d : Nat) : State :=
  match if w.ops.any fun p => isSend p.ins && decide (p.serial < o.serial) then none else o.arg? 0 with
  | none => s
  | some x =>
    let r := s.send w.asid (some w.kernel) x.addr.toNat x.data
    r.2.finishOnce u o d [BitVec.ofNat 32 r.1]

/-- An outstanding instruction goes on: an access by the lanes given; a receive or a `mon` only while its wave is placed (R318,
R472), a blocking receive of an interrupted split not while a handler runs (R445, log 33); everything else as a whole. In the clock in
which a transfer has moved it, it does not (R439). -/
def execMemAccessComplete (u n : Nat) (lanes : Mask) (s : State) : Out :=
  match (s.wave? u).bind fun w => (w.op? n).map fun o => (w, o) with
  | none => .next s
  | some (w, o) =>
    if o.movedAt = s.clk + 1 then .next s
    else if isAccess o.ins then .next (s.completeAccess u n w o lanes)
    else match o.ins with
      | .mbsend _ _ d _ _ => .next (s.completeSend u w o d)
      | .mbrecv _ pd try_ _ kb =>
        if w.place.isNone || (!try_ && !o.hmark && (w.t.handler.isSome || w.t.halted)) then .next s else .next (s.completeRecv u w o pd try_ kb)
      | .tkres _ _ d _ _ => .next (s.completeTicket u w o d false)
      | .tkcom _ _ d _ _ => .next (s.completeTicket u w o d true)
      | .hmstat _ sel _ d => .next (s.completeHmstat u w o sel d)
      | .mintDone _ _ d _ => .next (s.completeMintDone u w o d)
      | .tqAdd _ _ d _ _ _ cc => .next (s.reachTq u n o lanes d cc)
      | .nodeSpawn _ _ kq _ => .next (s.completeSpawn u w o kq)
      | .recast _ _ d _ => .next (s.completeRecast u w o d)
      | .pwrReq _ _ d _ => .next (s.completePwr u w o d)
      | .mon _ _ kb => if w.place.isNone then .next s else .next (s.completeMon u w o kb)
      | _ => .next s

end Sys2Proof.Machine
end

