-- ==== Sys2Proof/Machine/Dispatch.lean ====
section
/-!
DEFINITION. The dispatch: one arm per instruction or step, each one direct call of its meaning.
-/

namespace Sys2Proof.Machine

def exec (i : Instr) (s : State) : Host.Outcome State Fault Refusal :=
  match i with
  | .nop g => Sys2Proof.Machine.execNop g s
  | .yield g => Sys2Proof.Machine.execYield g s
  | .sleep g b => Sys2Proof.Machine.execSleep g b s
  | .sleepEnd w e => Sys2Proof.Machine.execSleepEnd w e s
  | .bra g t => Sys2Proof.Machine.execBra g t s
  | .braInd g a => Sys2Proof.Machine.execBraInd g a s
  | .call g t => Sys2Proof.Machine.execCall g t s
  | .callInd g a => Sys2Proof.Machine.execCallInd g a s
  | .ret g => Sys2Proof.Machine.execRet g s
  | .brx g t x n => Sys2Proof.Machine.execBrx g t x n s
  | .exit g => Sys2Proof.Machine.execExit g s
  | .overflowPop w e => Sys2Proof.Machine.execOverflowPop w e s
  | .mergeHoldExpiry w e => Sys2Proof.Machine.execMergeHoldExpiry w e s
  | .waveEnd w => Sys2Proof.Machine.execWaveEnd w s
  | .trj long tgt => Sys2Proof.Machine.execTrj long tgt s
  | .trc long tgt => Sys2Proof.Machine.execTrc long tgt s
  | .fetchLine w e => Sys2Proof.Machine.execFetchLine w e s
  | .issueSelect core part => Sys2Proof.Machine.execIssueSelect core part s
  | .pairWord x y => Sys2Proof.Machine.execPairWord x y s
  | .mov g d a cc => Sys2Proof.Machine.execMov g d a cc s
  | .movi g d b cc => Sys2Proof.Machine.execMovi g d b cc s
  | .movx g d b cc => Sys2Proof.Machine.execMovx g d b cc s
  | .movk g d a => Sys2Proof.Machine.execMovk g d a s
  | .vtok g d a b => Sys2Proof.Machine.execVtok g d a b s
  | .ktov g d a b cc => Sys2Proof.Machine.execKtov g d a b cc s
  | .sel g w64 pn ps d a b cc => Sys2Proof.Machine.execSel g w64 pn ps d a b cc s
  | .psetNe g pd a => Sys2Proof.Machine.execPsetNe g pd a s
  | .psetMask g pd a => Sys2Proof.Machine.execPsetMask g pd a s
  | .pand g pd pa pb => Sys2Proof.Machine.execPand g pd pa pb s
  | .por g pd pa pb => Sys2Proof.Machine.execPor g pd pa pb s
  | .pxor g pd pa pb => Sys2Proof.Machine.execPxor g pd pa pb s
  | .pnot g pd pa => Sys2Proof.Machine.execPnot g pd pa s
  | .pmov g pd pa => Sys2Proof.Machine.execPmov g pd pa s
  | .rel g d n => Sys2Proof.Machine.execRel g d n s
  | .tcfg g n b => Sys2Proof.Machine.execTcfg g n b s
  | .omcfg g n b => Sys2Proof.Machine.execOmcfg g n b s
  | .iadd g d a b cc => Sys2Proof.Machine.execIadd g d a b cc s
  | .isub g d a b cc => Sys2Proof.Machine.execIsub g d a b cc s
  | .iaddc g sub pc d a b cc => Sys2Proof.Machine.execIaddc g sub pc d a b cc s
  | .imul g d a b cc => Sys2Proof.Machine.execImul g d a b cc s
  | .imulh g d a b cc => Sys2Proof.Machine.execImulh g d a b cc s
  | .imulhU g d a b cc => Sys2Proof.Machine.execImulhU g d a b cc s
  | .imad g d a b c cc => Sys2Proof.Machine.execImad g d a b c cc s
  | .imadWide g d a b c cc => Sys2Proof.Machine.execImadWide g d a b c cc s
  | .imadWideU g d a b c cc => Sys2Proof.Machine.execImadWideU g d a b c cc s
  | .ishl g d a b cc => Sys2Proof.Machine.execIshl g d a b cc s
  | .ishr g d a b cc => Sys2Proof.Machine.execIshr g d a b cc s
  | .isar g d a b cc => Sys2Proof.Machine.execIsar g d a b cc s
  | .ishl64 g d a b cc => Sys2Proof.Machine.execIshl64 g d a b cc s
  | .ishr64 g d a b cc => Sys2Proof.Machine.execIshr64 g d a b cc s
  | .isar64 g d a b cc => Sys2Proof.Machine.execIsar64 g d a b cc s
  | .iand g d a b cc => Sys2Proof.Machine.execIand g d a b cc s
  | .ior g d a b cc => Sys2Proof.Machine.execIor g d a b cc s
  | .ixor g d a b cc => Sys2Proof.Machine.execIxor g d a b cc s
  | .inot g d a cc => Sys2Proof.Machine.execInot g d a cc s
  | .ibfe g d a f cc => Sys2Proof.Machine.execIbfe g d a f cc s
  | .ibfeU g d a f cc => Sys2Proof.Machine.execIbfeU g d a f cc s
  | .ibfi g d a f cc => Sys2Proof.Machine.execIbfi g d a f cc s
  | .ipopc g d a cc => Sys2Proof.Machine.execIpopc g d a cc s
  | .iclz g d a cc => Sys2Proof.Machine.execIclz g d a cc s
  | .ibrev g d a cc => Sys2Proof.Machine.execIbrev g d a cc s
  | .imin g d a b cc => Sys2Proof.Machine.execImin g d a b cc s
  | .imax g d a b cc => Sys2Proof.Machine.execImax g d a b cc s
  | .iminU g d a b cc => Sys2Proof.Machine.execIminU g d a b cc s
  | .imaxU g d a b cc => Sys2Proof.Machine.execImaxU g d a b cc s
  | .iabs g d a cc => Sys2Proof.Machine.execIabs g d a cc s
  | .icmp g w64 u cond pd comb a b => Sys2Proof.Machine.execIcmp g w64 u cond pd comb a b s
  | .iadd64 g d a b cc => Sys2Proof.Machine.execIadd64 g d a b cc s
  | .lea g u shift d a b cc => Sys2Proof.Machine.execLea g u shift d a b cc s
  | .leaAr g d a b cc => Sys2Proof.Machine.execLeaAr g d a b cc s
  | .leaArAdd g d a b cc => Sys2Proof.Machine.execLeaArAdd g d a b cc s
  | .i2i g op d a cc => Sys2Proof.Machine.execI2i g op d a cc s
  | .fadd g m d a b cc => Sys2Proof.Machine.execFadd g m d a b cc s
  | .fsub g m d a b cc => Sys2Proof.Machine.execFsub g m d a b cc s
  | .fmul g m d a b cc => Sys2Proof.Machine.execFmul g m d a b cc s
  | .ffma g m d a b c cc => Sys2Proof.Machine.execFfma g m d a b c cc s
  | .fmin g d a b cc => Sys2Proof.Machine.execFmin g d a b cc s
  | .fmax g d a b cc => Sys2Proof.Machine.execFmax g d a b cc s
  | .fcmp g cond pd comb a b => Sys2Proof.Machine.execFcmp g cond pd comb a b s
  | .fclass g d a cc => Sys2Proof.Machine.execFclass g d a cc s
  | .frndi g m d a cc => Sys2Proof.Machine.execFrndi g m d a cc s
  | .fexp g d a cc => Sys2Proof.Machine.execFexp g d a cc s
  | .fldx g d a b cc => Sys2Proof.Machine.execFldx g d a b cc s
  | .fgetx g d a cc => Sys2Proof.Machine.execFgetx g d a cc s
  | .frcp g m d a cc => Sys2Proof.Machine.execFrcp g m d a cc s
  | .frsq g m d a cc => Sys2Proof.Machine.execFrsq g m d a cc s
  | .fsqrt g m d a cc => Sys2Proof.Machine.execFsqrt g m d a cc s
  | .flg2 g d a cc => Sys2Proof.Machine.execFlg2 g d a cc s
  | .fex2 g d a cc => Sys2Proof.Machine.execFex2 g d a cc s
  | .fdot2 g m d a b c cc => Sys2Proof.Machine.execFdot2 g m d a b c cc s
  | .faddBf16x2 g m d a b cc => Sys2Proof.Machine.execFaddBf16x2 g m d a b cc s
  | .fmulBf16x2 g m d a b cc => Sys2Proof.Machine.execFmulBf16x2 g m d a b cc s
  | .ffmaBf16x2 g m d a b c cc => Sys2Proof.Machine.execFfmaBf16x2 g m d a b c cc s
  | .cvt g op m d a b cc => Sys2Proof.Machine.execCvt g op m d a b cc s
  | .numstatWindowStart team => Sys2Proof.Machine.execNumstatWindowStart team s
  | .shflIdx g seg pd d a b cc => Sys2Proof.Machine.execShflIdx g seg pd d a b cc s
  | .shflUp g seg pd d a b cc => Sys2Proof.Machine.execShflUp g seg pd d a b cc s
  | .shflDn g seg pd d a b cc => Sys2Proof.Machine.execShflDn g seg pd d a b cc s
  | .shflXor g seg pd d a b cc => Sys2Proof.Machine.execShflXor g seg pd d a b cc s
  | .vote g op pn ps d cc => Sys2Proof.Machine.execVote g op pn ps d cc s
  | .red g op d a cc => Sys2Proof.Machine.execRed g op d a cc s
  | .scan g exc op d a cc => Sys2Proof.Machine.execScan g exc op d a cc s
  | .prmt g d a b c cc => Sys2Proof.Machine.execPrmt g d a b c cc s
  | .matchAny g w64 d a cc => Sys2Proof.Machine.execMatchAny g w64 d a cc s
  | .matchAll g w64 d a cc => Sys2Proof.Machine.execMatchAll g w64 d a cc s
  | .ld g w fs d a b cc => Sys2Proof.Machine.execLd g w fs d a b cc s
  | .ldk g w fs d a b => Sys2Proof.Machine.execLdk g w fs d a b s
  | .st g w fs a b c => Sys2Proof.Machine.execSt g w fs a b c s
  | .stk g w fs a b c => Sys2Proof.Machine.execStk g w fs a b c s
  | .ldCv g x2 fs d a b cc => Sys2Proof.Machine.execLdCv g x2 fs d a b cc s
  | .stCv g m fs a b c => Sys2Proof.Machine.execStCv g m fs a b c s
  | .ldFe g w take d a b cc => Sys2Proof.Machine.execLdFe g w take d a b cc s
  | .ldFeGrant w e lane => Sys2Proof.Machine.execLdFeGrant w e lane s
  | .fetimeExpiry w e => Sys2Proof.Machine.execFetimeExpiry w e s
  | .stFeFill g w fs a b c => Sys2Proof.Machine.execStFeFill g w fs a b c s
  | .feSet g full fs a b => Sys2Proof.Machine.execFeSet g full fs a b s
  | .fePeek g fs d a b cc => Sys2Proof.Machine.execFePeek g fs d a b cc s
  | .pref g hm a b => Sys2Proof.Machine.execPref g hm a b s
  | .memAccessComplete w op lanes => Sys2Proof.Machine.execMemAccessComplete w op lanes s
  | .storePermProbe w op lanes => Sys2Proof.Machine.execStorePermProbe w op lanes s
  | .l1Writeback core asid addr => Sys2Proof.Machine.execL1Writeback core asid addr s
  | .hmWriteArrive id => Sys2Proof.Machine.execHmWriteArrive id s
  | .heldWritebackPerform id => Sys2Proof.Machine.execHeldWritebackPerform id s
  | .pin g fs d a cc => Sys2Proof.Machine.execPin g fs d a cc s
  | .unpin g fs d a cc => Sys2Proof.Machine.execUnpin g fs d a cc s
  | .flushL1 g fs a => Sys2Proof.Machine.execFlushL1 g fs a s
  | .flushHm g fs a => Sys2Proof.Machine.execFlushHm g fs a s
  | .invalL1 g fs a => Sys2Proof.Machine.execInvalL1 g fs a s
  | .invalHm g fs a => Sys2Proof.Machine.execInvalHm g fs a s
  | .hmzero g fs a b => Sys2Proof.Machine.execHmzero g fs a b s
  | .hmstat g sel fs d => Sys2Proof.Machine.execHmstat g sel fs d s
  | .atom g o sc op w64 fs d a b cc => Sys2Proof.Machine.execAtom g o sc op w64 fs d a b cc s
  | .atomCas g o sc w64 fs d a b c cc => Sys2Proof.Machine.execAtomCas g o sc w64 fs d a b c cc s
  | .ldAcq g sc w fs d a b cc => Sys2Proof.Machine.execLdAcq g sc w fs d a b cc s
  | .stRel g sc w fs a b c => Sys2Proof.Machine.execStRel g sc w fs a b c s
  | .fence g sc => Sys2Proof.Machine.execFence g sc s
  | .bar lv => Sys2Proof.Machine.execBar lv s
  | .barInstanceComplete lv key => Sys2Proof.Machine.execBarInstanceComplete lv key s
  | .barc pd a => Sys2Proof.Machine.execBarc pd a s
  | .barcResize team => Sys2Proof.Machine.execBarcResize team s
  | .mbsend g fs d a kb => Sys2Proof.Machine.execMbsend g fs d a kb s
  | .mbrecv g pd try_ fs kb => Sys2Proof.Machine.execMbrecv g pd try_ fs kb s
  | .tkres g fs d a b => Sys2Proof.Machine.execTkres g fs d a b s
  | .tkcom g fs d a b => Sys2Proof.Machine.execTkcom g fs d a b s
  | .queueConsume q => Sys2Proof.Machine.execQueueConsume q s
  | .cpy g o tag cv m fs a b c => Sys2Proof.Machine.execCpy g o tag cv m fs a b c s
  | .cpyG g o tag size i64 fs a b kq => Sys2Proof.Machine.execCpyG g o tag size i64 fs a b kq s
  | .cpyS g o tag size i64 fs a b kq => Sys2Proof.Machine.execCpyS g o tag size i64 fs a b kq s
  | .coll g o tag op ty fs a b kq => Sys2Proof.Machine.execColl g o tag op ty fs a b kq s
  | .cstat g d b => Sys2Proof.Machine.execCstat g d b s
  | .engineCmdComplete w num => Sys2Proof.Machine.execEngineCmdComplete w num s
  | .engineFaultPost w num => Sys2Proof.Machine.execEngineFaultPost w num s
  | .collInstanceComplete asid group inst others => Sys2Proof.Machine.execCollInstanceComplete asid group inst others s
  | .collTimeout asid group inst => Sys2Proof.Machine.execCollTimeout asid group inst s
  | .mstart g t parm fs => Sys2Proof.Machine.execMstart g t parm fs s
  | .mstop g => Sys2Proof.Machine.execMstop g s
  | .engineStop core => Sys2Proof.Machine.execEngineStop core s
  | .engineFetch core => Sys2Proof.Machine.execEngineFetch core s
  | .engineProgramFault core => Sys2Proof.Machine.execEngineProgramFault core s
  | .tld g td map slot b fs => Sys2Proof.Machine.execTld g td map slot b fs s
  | .tldDone core => Sys2Proof.Machine.execTldDone core s
  | .mma g f acc ta tb fs => Sys2Proof.Machine.execMma g f acc ta tb fs s
  | .mmaPair g f acc ta tb fs => Sys2Proof.Machine.execMmaPair g f acc ta tb fs s
  | .mmaDone core => Sys2Proof.Machine.execMmaDone core s
  | .accz g acc => Sys2Proof.Machine.execAccz g acc s
  | .acrel g acc => Sys2Proof.Machine.execAcrel g acc s
  | .ringWait g ring core self a => Sys2Proof.Machine.execRingWait g ring core self a s
  | .ringArv g ring core self a => Sys2Proof.Machine.execRingArv g ring core self a s
  | .mloop g t x => Sys2Proof.Machine.execMloop g t x s
  | .acqA g acc => Sys2Proof.Machine.execAcqA g acc s
  | .accret g acc => Sys2Proof.Machine.execAccret g acc s
  | .accrd g bf16 fs d b acc cc => Sys2Proof.Machine.execAccrd g bf16 fs d b acc cc s
  | .mint g fs kb => Sys2Proof.Machine.execMint g fs kb s
  | .mintServe w op => Sys2Proof.Machine.execMintServe w op s
  | .mintDone g fs d kb => Sys2Proof.Machine.execMintDone g fs d kb s
  | .tqAdd g fs d a b c cc => Sys2Proof.Machine.execTqAdd g fs d a b c cc s
  | .nodeSpawn g fs kq a => Sys2Proof.Machine.execNodeSpawn g fs kq a s
  | .arChk g r a => Sys2Proof.Machine.execArChk g r a s
  | .recast g fs d b => Sys2Proof.Machine.execRecast g fs d b s
  | .safePointTransfer w e => Sys2Proof.Machine.execSafePointTransfer w e s
  | .kverApply core kernel => Sys2Proof.Machine.execKverApply core kernel s
  | .csrrd g d csr => Sys2Proof.Machine.execCsrrd g d csr s
  | .csrwr g csr a => Sys2Proof.Machine.execCsrwr g csr a s
  | .wtimerloWrite g a => Sys2Proof.Machine.execWtimerloWrite g a s
  | .wtimerhiWrite g a => Sys2Proof.Machine.execWtimerhiWrite g a s
  | .nswinWrite g a => Sys2Proof.Machine.execNswinWrite g a s
  | .mectlWrite g a => Sys2Proof.Machine.execMectlWrite g a s
  | .ringdWrite g n a => Sys2Proof.Machine.execRingdWrite g n a s
  | .splitCsrWrite g csr a => Sys2Proof.Machine.execSplitCsrWrite g csr a s
  | .trap g b => Sys2Proof.Machine.execTrap g b s
  | .tclr g b => Sys2Proof.Machine.execTclr g b s
  | .trace g a => Sys2Proof.Machine.execTrace g a s
  | .smark g a => Sys2Proof.Machine.execSmark g a s
  | .pwrReq g fs d b => Sys2Proof.Machine.execPwrReq g fs d b s
  | .mon g fs kb => Sys2Proof.Machine.execMon g fs kb s
  | .handlerEntry w => Sys2Proof.Machine.execHandlerEntry w s
  | .waveHalt w => Sys2Proof.Machine.execWaveHalt w s
  | .wtimerExpiry w => Sys2Proof.Machine.execWtimerExpiry w s
  | .gangSave gang => Sys2Proof.Machine.execGangSave gang s
  | .gangResume gang => Sys2Proof.Machine.execGangResume gang s
  | .contextSpill gang => Sys2Proof.Machine.execContextSpill gang s
  | .sampleRecord w => Sys2Proof.Machine.execSampleRecord w s
  | .sampleInterval core part => Sys2Proof.Machine.execSampleInterval core part s
  | .traceRecord w => Sys2Proof.Machine.execTraceRecord w s
  | .launchConsume id => Sys2Proof.Machine.execLaunchConsume id s
  | .gangPlace die => Sys2Proof.Machine.execGangPlace die s
  | .spruePour die => Sys2Proof.Machine.execSpruePour die s
  | .sprueWaitExpiry core => Sys2Proof.Machine.execSprueWaitExpiry core s
  | .stealRequest core => Sys2Proof.Machine.execStealRequest core s
  | .stealAnswer core => Sys2Proof.Machine.execStealAnswer core s
  | .arenaBirth node => Sys2Proof.Machine.execArenaBirth node s
  | .arenaEntryApply core key => Sys2Proof.Machine.execArenaEntryApply core key s
  | .nodeDeath node => Sys2Proof.Machine.execNodeDeath node s
  | .kernelRetire kernel => Sys2Proof.Machine.execKernelRetire kernel s
  | .slotNop id => Sys2Proof.Machine.execSlotNop id s
  | .slotLaunch id => Sys2Proof.Machine.execSlotLaunch id s
  | .slotGrow id => Sys2Proof.Machine.execSlotGrow id s
  | .slotMail id => Sys2Proof.Machine.execSlotMail id s
  | .slotAsid id => Sys2Proof.Machine.execSlotAsid id s
  | .invalidateRange id => Sys2Proof.Machine.execInvalidateRange id s
  | .invalidateGrants id => Sys2Proof.Machine.execInvalidateGrants id s
  | .invalidateAsid id => Sys2Proof.Machine.execInvalidateAsid id s
  | .teardown id => Sys2Proof.Machine.execTeardown id s
  | .slotAnswer id => Sys2Proof.Machine.execSlotAnswer id s
  | .poolArena id => Sys2Proof.Machine.execPoolArena id s
  | .poolSave id => Sys2Proof.Machine.execPoolSave id s
  | .vacate ask => Sys2Proof.Machine.execVacate ask s
  | .transferRequest ask => Sys2Proof.Machine.execTransferRequest ask s
  | .cancel id => Sys2Proof.Machine.execCancel id s
  | .configCodebook id => Sys2Proof.Machine.execConfigCodebook id s
  | .configDeepFmtw id => Sys2Proof.Machine.execConfigDeepFmtw id s
  | .configVaultFmtw id => Sys2Proof.Machine.execConfigVaultFmtw id s
  | .configGrantbase id => Sys2Proof.Machine.execConfigGrantbase id s
  | .configPlacectl id => Sys2Proof.Machine.execConfigPlacectl id s
  | .configSpruectl id => Sys2Proof.Machine.execConfigSpruectl id s
  | .configStealseed id => Sys2Proof.Machine.execConfigStealseed id s
  | .debugOpen id => Sys2Proof.Machine.execDebugOpen id s
  | .debugClose id => Sys2Proof.Machine.execDebugClose id s
  | .hostBreak gang => Sys2Proof.Machine.execHostBreak gang s
  | .service id => Sys2Proof.Machine.execService id s
  | .ringEntryWrite asid node => Sys2Proof.Machine.execRingEntryWrite asid node s
  | .irqHoldExpiry asid node => Sys2Proof.Machine.execIrqHoldExpiry asid node s
  | .quadGate quad => Sys2Proof.Machine.execQuadGate quad s
  | .quadUngate quad => Sys2Proof.Machine.execQuadUngate quad s
  | .patchStore asid addr x => Sys2Proof.Machine.execPatchStore asid addr x s
  | .hmFill asid addr => Sys2Proof.Machine.execHmFill asid addr s
  | .pageWalk asid addr => Sys2Proof.Machine.execPageWalk asid addr s
  | .softError loc => Sys2Proof.Machine.execSoftError loc s
  | .doorbellReserve q => Sys2Proof.Machine.execDoorbellReserve q s
  | .doorbellCommit q ticket => Sys2Proof.Machine.execDoorbellCommit q ticket s
  | .configCollGroup id members limit => Sys2Proof.Machine.execConfigCollGroup id members limit s
  | .mctpLimit host watts => Sys2Proof.Machine.execMctpLimit host watts s
  | .attest nonce => Sys2Proof.Machine.execAttest nonce s
  | .stage host place image => Sys2Proof.Machine.execStage host place image s
  | .dramtempCrossing die pkg temp => Sys2Proof.Machine.execDramtempCrossing die pkg temp s
  | .configurationWindowWrite q vals => Sys2Proof.Machine.execConfigurationWindowWrite q vals s
  | .ringAcknowledge asid node count => Sys2Proof.Machine.execRingAcknowledge asid node count s
  | .debugReply w op words => Sys2Proof.Machine.execDebugReply w op words s
  | .powerLimitControl field x => Sys2Proof.Machine.execPowerLimitControl field x s
  | .unitRetire kind unit => Sys2Proof.Machine.execUnitRetire kind unit s
  | .podBringUp pkg => Sys2Proof.Machine.execPodBringUp pkg s
  | .tallowRecompute vals => Sys2Proof.Machine.execTallowRecompute vals s
  | .trr => Sys2Proof.Machine.execTrr s
  | .trn => Sys2Proof.Machine.execTrn s
  | .bkpt => Sys2Proof.Machine.execBkpt s
  | .trapret => Sys2Proof.Machine.execTrapret s
  | .nodeRelease => Sys2Proof.Machine.execNodeRelease s
  | .mctpHealth => Sys2Proof.Machine.execMctpHealth s
  | .mctpSensors => Sys2Proof.Machine.execMctpSensors s
  | .moduleReset => Sys2Proof.Machine.execModuleReset s
  | .boot => Sys2Proof.Machine.execBoot s

end Sys2Proof.Machine
end

