-- ==== Sys2Proof/Machine/Schedule.lean ====
section
/-!
DEFINITION. How the module's steps follow one another: the issue of a word that has been chosen (R55-R66, R83), what happens by
itself as soon as it can, what may happen next in an order the spec leaves open (R2), and the clock (R86, R452).
-/

namespace Sys2Proof.Machine

/-! ## The word of an issuer -/

/-- The place of word n of a line: its clause's flags, its extension word where the clause has one after it, and where its issuer
goes on (R55, R57, R62). -/
def Line.ctx (b : Line) (who : Who) (n : Nat) : Option Ctx :=
  (b.cover n).map fun h =>
    let c := b.clause h
    let size := if hasExt (b.word n) then 2 else 1
    let last := decide (h + c.len < n + size)
    { who := who, pc := pcAt b.num n, size := size, next := if last then b.fall h else pcAt b.num (n + size), hdr := last,
      word := b.word n, ext := if size = 2 then b.word (n + 1) else 0, fa := if c.av then some c.fa else none,
      fb := if c.bv then some c.fb else none, patch := b.kind == 3 }

/-- The extension word that the clause has after a word. -/
def Line.extAfter (b : Line) (n : Nat) : Option W64 :=
  (b.cover n).bind fun h => if n + 1 ≤ h + b.len h then some (b.word (n + 1)) else none

/-- Decode word n of a line: a control word that does not end its clause is a fault of the clause (R64); else the decoder's answer
(R83). -/
def Line.decode (b : Line) (regs n : Nat) (c : Ctx) : Except Detail Instr :=
  if endsClause (b.word n) && !c.hdr then .error .clause else decodeWord regs (b.word n) (b.extAfter n)

/-- The word at or after a position: a clause header takes no issue slot (R84). -/
def Line.wordAt (b : Line) (pc : W64) : Nat := if b.isHdr (wordIdx pc) then wordIdx pc + 1 else wordIdx pc

/-- A word that does not decode: it issues, and ILLEGAL is precise at it (R82, R83). -/
def State.decodeTrap (s : State) (u e : Nat) (c : Ctx) (d : Detail) : State :=
  let t := s.issue u e c 0
  match t.wave? u with
  | none => s
  | some w => match w.split? e with
    | none => s
    | some x => t.illegal ⟨u, e, w, x, c, w.serial, s.draws⟩ d

/-- The header at which a split still stands before the first word of its clause. -/
def State.headOf (s : State) (u e : Nat) (b : Line) : Option W64 :=
  ((s.wave? u).bind fun w => w.split? e).bind fun x => if b.isHdr (wordIdx x.pc) then some x.pc else none

/-- The state in which a split executes word n of its line: it stands at the word, and the word's place is known. -/
def State.atWord (s : State) (u e n : Nat) (b : Line) (c : Ctx) : State :=
  { s.updSplit u e fun x => { x with pc := pcAt b.num n, arrived := false } with
    sel := none, cur := some { c with head := s.headOf u e b } }

/-- The state in which an engine program executes word n of its line. -/
def State.engineAt (s : State) (core n : Nat) (b : Line) (c : Ctx) : State :=
  { s.updEngine core fun e => { e with mepc := pcAt b.num n } with sel := none, cur := some c }

/-- A split issues the word it stands at. -/
def issueSplit (u e : Nat) (s : State) : Out :=
  match (s.wave? u).bind fun w => (w.split? e).bind fun x => x.buf.map fun b => (w, x, b) with
  | none => .next { s with sel := none }
  | some (w, x, b) =>
    let n := b.wordAt x.pc
    match b.ctx (.split u e) n with
    | none => .next { s with sel := none }
    | some c =>
      match b.decode w.regs n c with
      | .error d => .next ((s.atWord u e n b c).decodeTrap u e c d)
      | .ok i => exec i (s.atWord u e n b { c with preds := predSources i })

/-- An engine program issues the word it stands at (R345, R346). -/
def issueEngine (core : Nat) (s : State) : Out :=
  match (s.engine core).buf with
  | none => .next { s with sel := none }
  | some b =>
    let n := b.wordAt (s.engine core).mepc
    match b.ctx (.engine core) n with
    | none => .next { s with sel := none }
    | some c =>
      match b.decode 256 n c with
      | .error d => .next ((s.engineAt core n b c).engineIllegal core d)
      | .ok i => exec i (s.engineAt core n b c)

/-- The issuer that has been chosen issues. -/
def issueWord (who : Who) (s : State) : Out :=
  match who with
  | .split u e => issueSplit u e s
  | .engine core => issueEngine core s

/-! ## What happens -/

/-- Carrying out a step would change the state. -/
def State.changes (s : State) (i : Instr) : Bool :=
  match exec i s with
  | .next t => decide (t ≠ s)
  | _ => true

/-- Entries of a split table with the handler's. -/
def entries : List Nat := List.range 5

/-- Levels of a barrier. -/
def barLevels : List BarLevel := [.wave, .team, .gang, .quad, .die, .pkg, .pod]

/-- Steps of a wave that come as soon as they can. -/
def Wave.prompt (u : Nat) (w : Wave) : List Instr :=
  [.waveHalt u, .handlerEntry u, .waveEnd u, .wtimerExpiry u] ++
    entries.flatMap (fun e => [.overflowPop u e, .sleepEnd u e, .mergeHoldExpiry u e, .fetimeExpiry u e]) ++
    barLevels.map (fun l => .barInstanceComplete l (w.barKey u l)) ++ [.barcResize w.teamKey]

/-- Rings of the service blocks: ASID and which. -/
def State.ringNames (s : State) : List (Nat × Bool) := s.front.rings.map fun r => (r.1 / 2, r.1 % 2 == 1)

/-- Steps that come as soon as they can, in the order in which the model takes them (log 2). -/
def State.prompts (s : State) : List Instr :=
  s.engines.flatMap (fun e => [.engineProgramFault e.1, .engineStop e.1]) ++ s.waves.flatMap (fun w => w.2.prompt w.1) ++
    s.graph.nodes.flatMap (fun n => [.nodeDeath n.1, .arenaBirth n.1]) ++ s.graph.gangs.map (fun g => .gangResume g.1) ++
    (List.range 4).flatMap (fun d => [.gangPlace d, .spruePour d]) ++
    ((s.graph.teams.filterMap fun t => t.2.core).eraseDups.map fun c => .sprueWaitExpiry c) ++ s.graph.teams.map (fun t => .numstatWindowStart t.1) ++ s.graph.insts.map (fun x => .collTimeout x.asid x.group x.inst) ++
    (s.ringNames ++ [(65536, false), (65536, true)]).map fun (r : Nat × Bool) => .irqHoldExpiry r.1 r.2

/-- The first step that must come now. -/
def State.prompt? (s : State) : Option Instr := s.prompts.find? s.changes

/-- The command that a slot record names. -/
def slotStep (id : Nat) (c : Slotrec) (s : State) : List Instr :=
  let k := fun (xs : List Instr) (n : Nat) => (xs[n]?).toList
  if !s.knownSlot c then [.slotNop id]
  else match c.kind with
    | 0 => [.slotNop id]
    | 1 => if c.begun then [.launchConsume id] else [.slotLaunch id]
    | 2 => [.slotGrow id]
    | 3 => [.slotMail id]
    | 16 => [.slotAsid id]
    | 17 => k [.invalidateRange id, .invalidateGrants id, .invalidateAsid id] (c.get 8 1)
    | 18 => [.teardown id]
    | 19 => [.slotAnswer id]
    | 20 => k [.poolArena id, .poolSave id] (c.get 0x0A 1)
    | 21 => [.vacate (.cmd id)]
    | 22 => [.transferRequest (.cmd id)]
    | 23 => [.cancel id]
    | 24 =>
      if c.get 8 1 = 5 then k [.configPlacectl id, .configSpruectl id, .configStealseed id] (c.get 0x0C 2)
      else k [.configCodebook id, .configDeepFmtw id, .configVaultFmtw id, .configGrantbase id, .slotNop id] (c.get 8 1)
    | 25 => if c.get 0x0A 1 = 2 then [.hostBreak ((s.breakGang c).getD 0)] else k [.debugOpen id, .debugClose id] (c.get 0x0A 1)
    | 26 => [.service id]
    | _ => [.slotNop id]

/-- Steps of a wave's outstanding work. -/
def Wave.steps (u : Nat) (w : Wave) : List Instr :=
  entries.flatMap (fun e => [.fetchLine u e, .safePointTransfer u e]) ++
    w.ops.flatMap (fun o => (lanesOf o.todo).map (fun l => .memAccessComplete u o.serial (laneBit l)) ++
      (lanesOf o.probe).map (fun l => .storePermProbe u o.serial (laneBit l)) ++ [.mintServe u o.serial] ++
      o.cmd.elim [] fun c => [.engineFaultPost u c.num, .engineCmdComplete u c.num]) ++
    entries.flatMap (fun e => match (w.split? e).map Split.block with
      | some (.fe o _) => (lanesOf o.todo).map fun l => .ldFeGrant u e l
      | _ => []) ++ [.traceRecord u, .sampleRecord u]

/-- Steps of the memory system. -/
def State.memSteps (s : State) : List Instr :=
  s.mem.wbs.flatMap (fun b => [.hmWriteArrive b.id, .heldWritebackPerform b.id]) ++
    s.cores.flatMap (fun c => c.2.left.flatMap fun l => [.traceRecord l.1, .sampleRecord l.1]) ++
    s.cores.flatMap fun c => c.2.l1.map fun l => .l1Writeback c.1 (keyAsid l.1) (keyAddr l.1)

/-- Further steps of the graph unit, the Sprues, the engines, the collective engines and the Anvil. -/
def State.unitSteps (s : State) : List Instr :=
  let cores := (s.graph.teams.filterMap fun t => t.2.core).eraseDups
  [.nodeRelease] ++ s.graph.kernels.map (fun k => .kernelRetire k.1) ++
    s.graph.gangs.flatMap (fun g => [.gangSave g.1, .contextSpill g.1]) ++ cores.map (fun c => .stealRequest c) ++ s.cores.map (fun c => .stealAnswer c.1) ++
    s.engines.flatMap (fun e => [.engineFetch e.1, .tldDone e.1, .mmaDone e.1]) ++
    s.graph.insts.map (fun x => .collInstanceComplete x.asid x.group x.inst []) ++
    (s.mod.closing ++ s.mod.retiredQuads).map (fun q => .quadGate q) ++ s.mod.gated.map fun q => .quadUngate q

/-- Steps of the front end. -/
def State.frontSteps (s : State) : List Instr :=
  s.front.queues.map (fun q => .queueConsume q.1) ++ s.front.cmds.flatMap (fun c => slotStep c.1 c.2 s) ++
    s.ringNames.map fun r => .ringEntryWrite r.1 r.2

/-- Everything that may happen next: steps that would change something, and the turns of partitions and engine sequencers in this
clock. -/
def State.open? (s : State) : List Instr :=
  (s.waves.flatMap (fun w => w.2.steps w.1) ++ s.memSteps ++ s.unitSteps ++ s.frontSteps).filter s.changes

/-! ## The clock -/

/-- Stall reasons of a split in a clock (R85). -/
def State.stallBits (s : State) (w : Wave) (x : Split) (eligible : Bool) : Nat :=
  let bit := fun (b : Bool) (n : Nat) => if b then 2 ^ n else 0
  let miss := !(x.buf.elim false fun b => b.num == lineNum x.pc)
  let waits := x.arrived && x.buf.elim false fun b => b.isHdr (wordIdx x.pc) && !w.waitClear (b.clause (wordIdx x.pc)).wait
  let held := x.mergeTo.isSome || x.sleepTo.isSome || decide (s.clk < x.yieldTo) || match x.block with
    | .barrier .. => true
    | _ => false
  let blk := match x.block with
    | .fe .. => 8
    | .token _ => 16
    | .ring .. => 32
    | .flag => 2
    | .unit | .barc => 128
    | .ops two | .drain _ two => if two then 4 else 128
    | _ => 0
  bit miss 0 ||| bit x.xfer 1 ||| bit waits 1 ||| bit held 2 ||| blk ||| bit eligible 7

/-- A split at the end of a clock in which it did not issue: W rises where it was eligible (R86), its stall reasons are noted
(R85, R459). A unit that could not take its word may take it in the next clock. -/
def Split.wait (x : Split) (eligible : Bool) (m : Nat) : Split :=
  { x with
    w := if eligible then x.w + 1 else x.w
    stall := x.stall ||| m
    stallFetch := if m % 2 = 1 then x.stallFetch + 1 else x.stallFetch
    stallWait := if m % 2 = 1 then x.stallWait else x.stallWait + 1 }

/-- What a unit refused in this clock it may take in the next. -/
def Split.retry (x : Split) : Split :=
  match x.block with
  | .unit => { x with block := .none }
  | .flag => { x with block := .none }
  | _ => x

/-- Entries of a wave that were eligible and did not issue in this clock: the split whose word the partition still gathers among them, where
its next word is eligible (R119; DESIGN CHOICE, log 90). -/
def State.passedOver (s : State) (u : Nat) (w : Wave) : List Nat :=
  entries.filter fun e => (w.split? e).elim false fun x => x.issued != s.clk + 1 && s.eligible u e

/-- A placed wave at the end of a clock. -/
def State.endClock (s : State) (u : Nat) (w : Wave) : Wave :=
  if w.place.isNone then w
  else
    let skipped := s.passedOver u w
    entries.foldl (fun w e => w.updSplit e fun x =>
      (if x.issued = s.clk + 1 then x else x.wait (skipped.contains e) (s.stallBits w x (skipped.contains e))).retry) w

/-- PMC2 rises by the splits passed over (R462). -/
def State.countPassed (s : State) : State :=
  s.waves.foldl (fun t w =>
    let n := (s.passedOver w.1 w.2).length
    if n = 0 then t else t.updBank w.2 fun b => { b with pmc := smSet 0 b.pmc 2 (smGet 0 b.pmc 2 + BitVec.ofNat 64 n) }) s

/-- The turns of a clock: partitions with waves, and sequencers of running engines. -/
def State.allTurns (s : State) : List (Nat × Nat) :=
  ((s.waves.filter fun w => w.2.place.isSome).map fun w => (w.2.core, w.2.slot % 4)).eraseDups ++
    (s.engines.filter fun e => e.2.run).map fun e => (e.1, 4)

/-- Every 2^16 clocks the Anvil recomputes the allowances, with values that are free (R491). -/
def State.clockAllowance (s : State) : State :=
  if s.clk % 65536 = 0 then s.reallow fun q => Config.allowance (s.draws * 128 + q) else s

/-- Broadcasts and changes of KVER that cores have still to apply (R399, R425). -/
def State.lagging (s : State) : List Instr :=
  s.mem.lags.flatMap (fun l => l.cores.map fun c => .arenaEntryApply c l.key) ++
    s.graph.kernels.flatMap fun k => k.2.lag.map fun l => .kverApply l.1 k.1

/-- Which of them reach their cores in this clock is free (log 3); those that do come before the clock's accesses and arrivals (R415,
R439). -/
def State.landing (s : State) : List Instr :=
  (s.lagging.zipIdx.filter fun x => Config.freeChoice (2 ^ 40 + s.draws * 65536 + x.2) % 2 == 0).map Prod.fst

/-- The `tq.add`s of the clock before, which its reports have come before (R415). -/
def State.lateTasks (s : State) : List Instr :=
  s.waves.flatMap fun w => (w.2.ops.filter fun o => o.late &&& o.todo != 0).map fun o => .memAccessComplete w.1 o.serial (o.late &&& o.todo)

/-- What is due at the first moment of a clock: the broadcasts that land, the tasks of the clock before, and the start of a sampling
interval. -/
def State.clockSteps (s : State) : List Instr :=
  s.landing ++ s.lateTasks ++
    ((s.graph.teams.filterMap fun t => t.2.core).eraseDups.filter fun c => (s.sampBank c).elim false fun b => s.clk % b.interval == 0).flatMap
      fun c => (List.range 4).map fun p => .sampleInterval c p

/-- Entry e of a wave has a word that its unit, its flag or a held access refuses: the split stands there with that hold (R84 items 4
and 5, R314), and its partition has not chosen it. -/
def State.refuseUnit (s : State) (u e : Nat) : State :=
  if !s.eligible u e then s
  else match issueSplit u e s with
    | .next t =>
      if (((t.wave? u).bind fun w => w.split? e).elim false fun x => x.block.refuses) then
        { t with turns := s.turns, sel := s.sel, cur := s.cur }
      else s
    | _ => s

/-- The same for every split of every wave. -/
def State.refuseUnits (s : State) : State :=
  (s.waves.map Prod.fst).foldl (fun s u => entries.foldl (fun s e => s.refuseUnit u e) s) s

/-- The Sprues begin to gather behind the head tasks that have become eligible in this clock, and what then finds room is dealt (R382,
R391). -/
def State.gatherAll (s : State) : State :=
  let s := (s.cores.map Prod.fst).foldl (fun s c => if (s.core c).tq.isEmpty && (s.core c).eligible.isEmpty then s else s.noteEligible c) s
  if s.graph.kernels.all fun k => k.2.undealt.isEmpty then s else s.dealAll

/-- A wave in the next clock: it has been started (R22), and the overflow stack may fill the entries that are unused now (R95). -/
def Wave.nextClock (w : Wave) : Wave :=
  { w with
    fresh := false
    pops := if w.ovf.isEmpty then [] else (List.range 4).filter fun e => (w.split? e).isNone }

/-- A gang in the next clock: CTXCLK advances where it stands and is not being saved (R452). -/
def Gang.nextClock (g : Gang) : Gang := if g.state = .placed then { g with ctxclk := g.ctxclk + 1 } else g

/-- What a clock leaves at its end: the events it brought are counted (R185), tasks are gathered, W and the stall reasons of the splits
that did not issue are noted (R85, R86). -/
def State.closeClock (s : State) : State :=
  let s := s.settleEvents.gatherAll.refuseUnits
  { s.countPassed with waves := s.countPassed.waves.map fun w => (w.1, (s.endClock w.1 w.2).nextClock) }

/-- The next clock begins: CLK, and CTXCLK of the gangs (R452); slots of waves that ended are free (R97). -/
def State.openClock (s : State) : State :=
  let t : State := { s with clk := s.clk + 1, draws := s.draws + 1 }
  let t := t.updGraph fun r => { r with gangs := r.gangs.map fun g => (g.1, g.2.nextClock), freed := [] }
  let t := t.clockAllowance.retireWorn.refuseUnits
  { t with turns := t.allTurns, agenda := t.clockSteps ++ t.agenda }

/-- One clock ends and the next begins. -/
def State.tick (s : State) : State := s.closeClock.openClock

/-! ## One step -/

/-- The word that a partition, or a sequencer (partition 4), would issue in its turn. -/
def State.turnWord (s : State) (c p : Nat) : Option Instr :=
  let word := fun (b : Line) (who : Who) (regs : Nat) (pc : W64) =>
    (b.ctx who (b.wordAt pc)).bind fun x => match b.decode regs (b.wordAt pc) x with
      | .ok i => some i
      | .error _ => none
  if p = 4 then if s.engineReady c then (s.engine c).buf.bind fun b => word b (.engine c) 256 (s.engine c).mepc else none
  else (s.partBest c p).bind fun k => (s.wave? k.u).bind fun w => (w.split? k.e).bind fun x => x.buf.bind fun b =>
    word b (.split k.u k.e) w.regs x.pc

/-- The word that a partition would issue holds its split at a phase bit (R368). -/
def State.turnHolds (s : State) (c p : Nat) : Bool :=
  (s.partBest c p).elim false fun k => match issueSplit k.u k.e s with
    | .next t => ((t.wave? k.u).bind fun w => w.split? k.e).elim false fun x => match x.block with
      | .ring .. => true
      | _ => false
    | _ => false

/-- The place of a word among those that one clock brings to a quad: flips before waits (R348, R368), the waves' tokens before the engine's
token checks (R372). A turn without a word gives way in this clock before a wait passes or an engine checks a token, and a wait that
holds its split gives the partition's next word its turn before another wait passes. -/
def turnRank (holds : Bool) : Option Instr → Nat
  | some (.accret ..) | some (.acqA ..) => 1
  | some (.mma ..) | some (.mmaPair ..) | some (.accz ..) | some (.acrel ..) => 4
  | some (.ringWait ..) => if holds then 3 else 4
  | none => 2
  | some _ => 0

/-- A turn's place: the rank of its word, and for the waves' tokens the slot (R372). -/
def State.turnPlace (s : State) (t : Nat × Nat) : Nat :=
  let r := turnRank (t.2 != 4 && s.turnHolds t.1 t.2) (s.turnWord t.1 t.2)
  64 * r + if r = 1 then (s.partBest t.1 t.2).elim 0 Cand.slotNo else 0

/-- The turns that may come next: in each quad the first of those that are left. -/
def State.nextTurns (s : State) : List (Nat × Nat) :=
  s.turns.filter fun t => s.turns.all fun o => quadOf o.1 != quadOf t.1 || decide (s.turnPlace t ≤ s.turnPlace o)

/-- Take a turn: the partition, or the sequencer, chooses (R86). -/
def takeTurn (c p : Nat) (s : State) : Out := exec (.issueSelect c p) { s with turns := s.turns.erase (c, p) }

/-- One of the things that may happen next happens; with none of the turns left, the clock may go on (log 2, log 3). -/
def anyStep (s : State) : Out :=
  let xs := s.open?
  let ts := s.nextTurns
  let t := { s with draws := s.draws + 1 }
  let n := xs.length + ts.length + if s.turns.isEmpty then 1 else 0
  let k := Config.freeChoice s.draws % n
  match xs[k]? with
  | some i => exec i t
  | none => match ts[k - xs.length]? with
    | some (c, p) => takeTurn c p t
    | none => .next t.tick

/-- What happens when no word is about to issue: an input or a timer, what must come now, or one of what may. -/
def otherStep (s : State) : Out :=
  match s.agenda with
  | i :: r => exec i { s with agenda := r }
  | [] => match s.prompt? with
    | some i => exec i s
    | none => anyStep s

/-! ## The bytes of the next word -/

/-- A wave with a handler split that stands at word 2 of a line: any word a wave may issue, it may issue. -/
def probeWave (gang kernel : Nat) (b : Line) : Wave :=
  let h : Split := { pc := pcAt b.num 2, mask := 0xFFFFFFFF, ver := 0, buf := some b }
  { gang := gang, team := 0, index := 0, role := .vector, kernel := kernel, asid := 0, regs := 256, place := some (0, 0),
    live := [some { pc := pcAt b.num 2, mask := 0xFFFFFFFF, ver := 0, stop := true }, none, none, none], t := { handler := some h } }

/-- A line whose one clause holds the word, with its extension word: flag A is f0, flag B is f1. -/
def probeLine (w ext : W64) : Line :=
  let n := if hasExt w then 2 else 1
  let hdr : Nat := 2 ^ 32 + 2 ^ 16 + 3 + 2 ^ 48
  let clause : Nat := 2 ^ 16 + 2 ^ 17 + 2 ^ 21 + n * 2 ^ 22
  ⟨1, [BitVec.ofNat 64 hdr, BitVec.ofNat 64 clause, w] ++ (if n = 2 then [ext] else [])⟩

/-- A word that only an engine program may issue (R346, R356). -/
def engineOnly (i : Instr) : Bool :=
  match i with
  | .tld .. | .mma .. | .mmaPair .. | .accz .. | .acrel .. | .mloop .. => true
  | _ => false

/-- A resident kernel with one gang of one team on core 0. -/
def State.withTeam (s : State) (kernel gang : Nat) : State :=
  let k : Kernel := { num := 0, asid := 0, launch := 0, kobj := 0, gangs := 1, regs := 256, waves := 1, teams := 1, roles := 2, podgrp := 0,
                      prio := 0, stack := 256, tasks := 0, l1 := 1, spad := 1, qmask := 1, stackbase := 0, mbox := 0, param := [],
                      crec := 0, firstNode := 0, nnodes := 0, vmask := 1, slots := 0, vers := [], kver := 0 }
  let t : Team := { core := some 0, regG := 4, spadG := 1, l1G := 1, slots := [0] }
  s.updGraph fun r => { r with
    kernels := smPut kernel k r.kernels
    gangs := smPut gang { kernel := kernel, num := 0, state := .placed, cores := [0] } r.gangs
    teams := smPut (teamKey gang 0) t r.teams
    nextId := gang + 1 }

/-- Lay a word out where the next step fetches it: in the buffered line of a split of a wave that is about to issue, or, for a word
that only an engine program may issue, of a running engine. -/
def State.layWord (s : State) (w ext : W64) : State :=
  let kernel := s.graph.nextId
  let gang := kernel + 1
  let u := s.nextWave
  let b := probeLine w ext
  let s := { (s.withTeam kernel gang).setWave u (probeWave gang kernel b) with nextWave := u + 1 }
  let only := match decodeWord 256 w (some ext) with
    | .ok i => engineOnly i
    | .error _ => false
  if only then
    { s.setEngine 0 { owner := some (teamKey gang 0), run := true, mepc := pcAt b.num 2, buf := some b, arrived := true } with
      sel := some (.engine 0) }
  else { s with sel := some (.split u 4) }

end Sys2Proof.Machine
end

