-- ==== Sys2Proof/Machine/Step.lean ====
section
/-!
DEFINITION. One step of the module: the word that has been chosen issues; else what comes next happens. And the state in which
a given word is the next to issue.
-/

namespace Sys2Proof.Machine

/-- One step. -/
def step (s : State) : Host.Outcome State Fault Refusal :=
  match s.sel with
  | some who => issueWord who s
  | none => otherStep s

/-- `s` with the word of `nbits` bits `w`, and 0 above them, where the next step fetches. -/
def State.withFetchWord (s : State) (nbits w : Nat) : State :=
  let x := w % 2 ^ nbits
  s.layWord (BitVec.ofNat 64 x) (BitVec.ofNat 64 (x / 2 ^ 64))

end Sys2Proof.Machine
end

