-- ==== Sys2Proof/Safety.lean ====
section
/-!
DEFINITION. The terms in which claims about the machine are stated: who issues a word and what it sees, what a word of one wave leaves
alone, what it writes, and the form of memory that every step keeps.
-/

namespace Sys2Proof.Machine

/-! ## The issuing word -/

/-- `v` is the split that issues the word in `cur`, with its wave as it stands before the word; no predicate of the wave holds an
uncorrectable error (R457). -/
structure State.Issues (s : State) (v : Env) : Prop where
  cur : s.cur = some v.ctx
  who : v.ctx.who = .split v.u v.e
  wave : s.wave? v.u = some v.w
  split : v.w.split? v.e = some v.sp
  serial : v.serial = v.w.serial + 1
  draw : v.draw = s.draws
  preds : ∀ p, smGet false v.w.r.badP p = false

/-- The role check of R89 lets the word issue. -/
def Env.mayIssue (v : Env) (row : RoleRow) : Prop := row.allows v.w.role (v.e == 4) = true

/-- The word selects flag `n`, which stands below 63 (R62). -/
def Env.flagFree (v : Env) (fs : Bool) (n : Nat) : Prop := v.ctx.flag fs = some n ∧ v.w.getF n < 63

/-- The registers that the word reads in the lanes `m` may be read: none is released (R121) and none holds an uncorrectable error
(R457). -/
def State.Readable (s : State) (v : Env) (m : Mask) (xs : List (Src × Nat)) : Prop :=
  (v.ctx.patch = true ∨ ∀ n ∈ vRegs xs, v.w.deadLanes m n = 0) ∧ s.badRead v m xs = none

/-! ## Code at hand -/

/-- The home of a code line holds it as `b`, executable and without an uncorrectable error: a fetch and a branch read it there. -/
def State.HasLine (s : State) (asid line : Nat) (b : Line) : Prop :=
  ∃ t, smFind s.mem.tags (lineKey asid (line % 2 ^ 49 * 128)) = some t ∧ t.x = true ∧
    s.mem.badLine (lineKey asid (line % 2 ^ 49 * 128)) = false ∧
    b = Line.ofData (line % 2 ^ 49) (s.mem.content (lineKey asid (line % 2 ^ 49 * 128)) t)

/-! ## What a word leaves alone -/

/-- From `s` to `t` nothing changed but the wave `u`, counters and queues: every byte of memory reads as before, in LPDDR-6, host and
vault memory, the Hallmark, the L1s and the scratchpads, and so do the engines, the module registers and every other wave. -/
structure State.Local (s t : State) (u : Nat) : Prop where
  clk : t.clk = s.clk
  mem : t.mem = s.mem
  engines : t.engines = s.engines
  mod : t.mod = s.mod
  l1 : ∀ c, (t.core c).l1 = (s.core c).l1
  spad : ∀ k, (t.team? k).map (fun x => (x.spad, x.fe)) = (s.team? k).map fun x => (x.spad, x.fe)
  gangs : t.graph.gangs = s.graph.gangs
  kernels : t.graph.kernels = s.graph.kernels
  nodes : t.graph.nodes = s.graph.nodes
  waves : ∀ x, x ≠ u → t.wave? x = s.wave? x

/-- What is the same of a split before and after a word of another split of its wave. -/
def Split.place (x : Split) : W64 × Mask × Nat × W64 × W64 := (x.pc, x.mask, x.ver, x.lr, x.tlr)

/-- From `w` to `x` a word of the split `e` changed registers at most: predicates, flags, the other splits, operations and work are
as before. -/
structure Wave.Rest (w x : Wave) (e : Nat) : Prop where
  p : x.r.p = w.r.p
  f : x.r.f = w.r.f
  splits : ∀ i, i ≠ e → (x.split? i).map Split.place = (w.split? i).map Split.place
  ovf : x.ovf = w.ovf
  exited : x.exited = w.exited
  ops : x.ops = w.ops
  wk : x.wk = w.wk
  asid : x.asid = w.asid
  gang : x.gang = w.gang
  team : x.team = w.team
  role : x.role = w.role
  at_ : x.place = w.place

/-- From `w` to `x` only consumer counts (R121), and what an issue counts, have changed: every register, predicate, flag and operation
is as before, and every split stands where it stood. -/
structure Wave.Reads (w x : Wave) : Prop where
  v : x.r.v = w.r.v
  k : x.r.k = w.r.k
  p : x.r.p = w.r.p
  f : x.r.f = w.r.f
  splits : ∀ i, (x.split? i).map Split.place = (w.split? i).map Split.place
  ovf : x.ovf = w.ovf
  exited : x.exited = w.exited
  ops : x.ops = w.ops
  wk : x.wk = w.wk
  asid : x.asid = w.asid
  gang : x.gang = w.gang
  team : x.team = w.team
  role : x.role = w.role
  at_ : x.place = w.place

/-- From `w` to `x` the operation `o` has become outstanding and its flag has risen by one (R62); every register, predicate and other
flag is as before. -/
structure Wave.Began (w x : Wave) (o : Op) : Prop where
  v : x.r.v = w.r.v
  k : x.r.k = w.r.k
  p : x.r.p = w.r.p
  f : ∀ n, x.getF n = if o.flag = some n then w.getF n + 1 else w.getF n
  ops : x.ops = w.ops ++ [o]
  splits : ∀ i, (x.split? i).map Split.place = (w.split? i).map Split.place
  ovf : x.ovf = w.ovf
  exited : x.exited = w.exited

/-- Every register but `d` in the lanes `m` reads as before, and `d` reads as `f` gives it: a vector register lane by lane, a
uniform register once, with the value of the lowest lane (R72). -/
def Wave.Wrote (w : Wave) (sp : Split) (x : Wave) (e : Nat) (d : Dst) (m : Mask) (f : Nat → W32) : Prop :=
  ∃ y, x.split? e = some y ∧ y.mask = sp.mask ∧ y.pc = sp.pc ∧
    match d with
    | .v n => (∀ i l, l < 32 → x.getV i l = if i = n ∧ hasLane m l then f l else w.getV i l) ∧ ∀ i, x.getK y i = w.getK sp i
    | .k n => (∀ i l, x.getV i l = w.getV i l) ∧ ∀ i, x.getK y i = if i = n then f (lowLane m) else w.getK sp i

/-- The same for a 64-bit result in a register pair. -/
def Wave.WrotePair (w : Wave) (sp : Split) (x : Wave) (e : Nat) (d : Dst) (m : Mask) (f : Nat → W64) : Prop :=
  ∃ y, x.split? e = some y ∧ y.mask = sp.mask ∧ y.pc = sp.pc ∧
    match d with
    | .v n => (∀ i l, l < 32 → x.getV i l = if hasLane m l then (if i = n then lo32 (f l) else if i = n + 1 then hi32 (f l) else w.getV i l)
        else w.getV i l) ∧ ∀ i, x.getK y i = w.getK sp i
    | .k n => (∀ i l, x.getV i l = w.getV i l) ∧
        ∀ i, x.getK y i = if i = n then lo32 (f (lowLane m)) else if i = n + 1 then hi32 (f (lowLane m)) else w.getK sp i

/-- A word wrote `r`, by COMB (R144), into the predicate `pd` in the lanes `m`, and no other register: a write of p7 is ignored (R113). -/
structure Wave.Tested (w x : Wave) (pd : Nat) (comb : Comb) (m : Mask) (r : Nat → Bool) : Prop where
  v : x.r.v = w.r.v
  k : x.r.k = w.r.k
  f : x.r.f = w.r.f
  splits : ∀ i, (x.split? i).map Split.place = (w.split? i).map Split.place
  ops : x.ops = w.ops
  wk : x.wk = w.wk
  exited : x.exited = w.exited
  p : ∀ i l, l < 32 → hasLane (x.getP i) l = if i = pd ∧ pd ≠ 7 ∧ hasLane m l then (match comb with
      | .set => r l
      | .and => hasLane (w.getP pd) l && r l
      | .or => hasLane (w.getP pd) l || r l) else hasLane (w.getP i) l

/-! ## Memory in its canonical form -/

/-- The three memories are in their canonical form. -/
def State.memoryWf (s : State) : Bool := Memory.wf s.mem.phys && Memory.wf s.mem.host && Memory.wf s.mem.vault

end Sys2Proof.Machine
end

