-- ==== Sys2Proof/Certificates/Slice0/Obligations.lean ====
section
/-!
DEFINITION. The statements for the provers, from the numbered rules of the spec. A statement about an instruction word speaks of a
state in which some split issues it (`State.Issues`), says what the word leaves before the split goes on, and ends in `State.goOn`,
`State.moveTo` or another operation that says where the split goes.
-/

open Sys2Proof Sys2Proof.Machine

/-! ## Register words -/

/-- A word with one 32-bit result in each lane: guard, destination, consumer count, what it reads, and the result of a lane. -/
structure Sys2Proof.Form32 where
  g : Guard
  d : Dst
  cc : Nat
  srcs : List (Src × Nat)
  res : State → Env → Nat → W32

/-- The moves, integer and lane words with a 32-bit result. -/
def Sys2Proof.intForm : Instr → Option Form32
  | .mov g d a cc => some ⟨g, d, cc, [(a, 1)], fun s v l => s.rd v l a⟩
  | .movi g d b cc => some ⟨g, d, cc, [(b, 1)], fun s v l => s.rd v l b⟩
  | .sel g false pn ps d a b cc => some ⟨g, d, cc, [(a, 1), (b, 1)],
      fun s v l => if hasLane (v.w.getP ps) l != pn then s.rd v l a else s.rd v l b⟩
  | .iadd g d a b cc => some ⟨g, d, cc, [(a, 1), (b, 1)], fun s v l => s.rd v l a + s.rd v l b⟩
  | .isub g d a b cc => some ⟨g, d, cc, [(a, 1), (b, 1)], fun s v l => s.rd v l a - s.rd v l b⟩
  | .imul g d a b cc => some ⟨g, d, cc, [(a, 1), (b, 1)], fun s v l => s.rd v l a * s.rd v l b⟩
  | .imulh g d a b cc => some ⟨g, d, cc, [(a, 1), (b, 1)],
      fun s v l => BitVec.ofInt 32 ((s.rd v l a).toInt * (s.rd v l b).toInt / 2 ^ 32)⟩
  | .imulhU g d a b cc => some ⟨g, d, cc, [(a, 1), (b, 1)],
      fun s v l => BitVec.ofNat 32 ((s.rd v l a).toNat * (s.rd v l b).toNat / 2 ^ 32)⟩
  | .imad g d a b c cc => some ⟨g, d, cc, [(a, 1), (b, 1), (c, 1)], fun s v l => s.rd v l a * s.rd v l b + s.rd v l c⟩
  | .ishl g d a b cc => some ⟨g, d, cc, [(a, 1), (b, 1)],
      fun s v l => if 32 ≤ (s.rd v l b).toNat then 0 else s.rd v l a <<< (s.rd v l b).toNat⟩
  | .ishr g d a b cc => some ⟨g, d, cc, [(a, 1), (b, 1)],
      fun s v l => if 32 ≤ (s.rd v l b).toNat then 0 else s.rd v l a >>> (s.rd v l b).toNat⟩
  | .isar g d a b cc => some ⟨g, d, cc, [(a, 1), (b, 1)], fun s v l => (s.rd v l a).sshiftRight (min 31 (s.rd v l b).toNat)⟩
  | .iand g d a b cc => some ⟨g, d, cc, [(a, 1), (b, 1)], fun s v l => s.rd v l a &&& s.rd v l b⟩
  | .ior g d a b cc => some ⟨g, d, cc, [(a, 1), (b, 1)], fun s v l => s.rd v l a ||| s.rd v l b⟩
  | .ixor g d a b cc => some ⟨g, d, cc, [(a, 1), (b, 1)], fun s v l => s.rd v l a ^^^ s.rd v l b⟩
  | .inot g d a cc => some ⟨g, d, cc, [(a, 1)], fun s v l => ~~~s.rd v l a⟩
  | .ibfe g d a f cc => some ⟨g, d, cc, (a, 1) :: fieldSrcs f, fun s v l => bfeS (s.rd v l a) (s.field v l f).1 (s.field v l f).2⟩
  | .ibfeU g d a f cc => some ⟨g, d, cc, (a, 1) :: fieldSrcs f, fun s v l => bfeU (s.rd v l a) (s.field v l f).1 (s.field v l f).2⟩
  | .ibfi g d a f cc => some ⟨g, d, cc, (a, 1) :: (dstSrc d, 1) :: fieldSrcs f,
      fun s v l => bfi (s.rd v l (dstSrc d)) (s.rd v l a) (s.field v l f).1 (s.field v l f).2⟩
  | .ipopc g d a cc => some ⟨g, d, cc, [(a, 1)], fun s v l => BitVec.ofNat 32 ((List.range 32).filter (s.rd v l a).getLsbD).length⟩
  | .iclz g d a cc => some ⟨g, d, cc, [(a, 1)],
      fun s v l => if s.rd v l a = 0 then 32 else BitVec.ofNat 32 (31 - Nat.log2 (s.rd v l a).toNat)⟩
  | .ibrev g d a cc => some ⟨g, d, cc, [(a, 1)], fun s v l => brev32 (s.rd v l a)⟩
  | .imin g d a b cc => some ⟨g, d, cc, [(a, 1), (b, 1)],
      fun s v l => if (s.rd v l b).toInt < (s.rd v l a).toInt then s.rd v l b else s.rd v l a⟩
  | .imax g d a b cc => some ⟨g, d, cc, [(a, 1), (b, 1)],
      fun s v l => if (s.rd v l a).toInt < (s.rd v l b).toInt then s.rd v l b else s.rd v l a⟩
  | .iminU g d a b cc => some ⟨g, d, cc, [(a, 1), (b, 1)],
      fun s v l => if (s.rd v l b).toNat < (s.rd v l a).toNat then s.rd v l b else s.rd v l a⟩
  | .imaxU g d a b cc => some ⟨g, d, cc, [(a, 1), (b, 1)],
      fun s v l => if (s.rd v l a).toNat < (s.rd v l b).toNat then s.rd v l b else s.rd v l a⟩
  | .iabs g d a cc => some ⟨g, d, cc, [(a, 1)], fun s v l => if (s.rd v l a).msb then -s.rd v l a else s.rd v l a⟩
  | .i2i g .satS32 d a cc => some ⟨g, d, cc, [(a, 2)], fun s v l => BitVec.ofInt 32 (max (-2 ^ 31) (min (2 ^ 31 - 1) (s.rd64 v l a).toInt))⟩
  | .i2i g .satU32 d a cc => some ⟨g, d, cc, [(a, 2)], fun s v l => BitVec.ofInt 32 (max 0 (min (2 ^ 32 - 1) (s.rd64 v l a).toInt))⟩
  | .i2i _ .s64 _ _ _ => none
  | .i2i _ .u64 _ _ _ => none
  | .i2i g op d a cc => some ⟨g, d, cc, [(a, 1)], fun s v l => i2iNarrow op (s.rd v l a)⟩
  | .vote g op pn ps d cc => some ⟨g, d, cc, [],
      fun _ v _ => voteF op (v.active g) (if pn then ~~~(v.w.getP ps) else v.w.getP ps)⟩
  | .prmt g d a b c cc => some ⟨g, d, cc, [(a, 1), (b, 1), (c, 1)], fun s v l => prmtF (s.rd v l a) (s.rd v l b) (s.rd v l c)⟩
  | .matchAny g w64 d a cc => some ⟨g, .v d, cc, [(a, if w64 then 2 else 1)],
      fun s v l => lanesWhere (v.active g) fun k => s.matchVal v w64 k a == s.matchVal v w64 l a⟩
  | .matchAll g w64 d a cc => some ⟨g, d, cc, [(a, if w64 then 2 else 1)],
      fun s v _ => if (lanesOf (v.active g)).all fun k => s.matchVal v w64 k a == s.matchVal v w64 (lowLane (v.active g)) a
        then v.active g else 0⟩
  | _ => none

/-- What each move, integer or lane word with a 32-bit result computes (R125, R127, R136-R145, R197, R200, R201): it writes the result
in every active lane (once, for a uniform destination), changes no other register, no flag, no predicate and no byte of memory, and
the split goes on. -/
def Obligations.IntegerWordsWriteTheirResult : Prop :=
  ∀ i F s v, intForm i = some F → s.Issues v → v.active F.g ≠ 0 → s.Readable v (v.active F.g) F.srcs →
    ∃ t x, exec i s = .next (t.goOn v) ∧ s.Local t v.u ∧ t.wave? v.u = some x ∧ v.w.Rest x v.e ∧
      v.w.Wrote v.sp x v.e F.d (v.active F.g) (F.res s v)

/-- A floating-point word with a 32-bit result in each lane, and the events of the lane. -/
structure Sys2Proof.FormF where
  g : Guard
  d : Dst
  cc : Nat
  srcs : List (Src × Nat)
  res : State → Env → Nat → W32 × Events

/-- The floating-point words with a 32-bit result; what each rounds and counts is in the number-format operations of the model. -/
def Sys2Proof.floatForm : Instr → Option FormF
  | .fadd g m d a b cc => some ⟨g, d, cc, [(a, 1), (b, 1)],
      fun s v l => word32 (ffF32.add m (s.rd v l a).toNat (s.rd v l b).toNat)⟩
  | .fsub g m d a b cc => some ⟨g, d, cc, [(a, 1), (b, 1)],
      fun s v l => word32 (ffF32.sub m (s.rd v l a).toNat (s.rd v l b).toNat)⟩
  | .fmul g m d a b cc => some ⟨g, d, cc, [(a, 1), (b, 1)],
      fun s v l => word32 (ffF32.mul m (s.rd v l a).toNat (s.rd v l b).toNat)⟩
  | .ffma g m d a b c cc => some ⟨g, d, cc, [(a, 1), (b, 1), (c, 1)],
      fun s v l => word32 (ffF32.fma m (s.rd v l a).toNat (s.rd v l b).toNat (s.rd v l c).toNat)⟩
  | .fmin g d a b cc => some ⟨g, d, cc, [(a, 1), (b, 1)],
      fun s v l => word32 (fminmaxF false (s.rd v l a).toNat (s.rd v l b).toNat)⟩
  | .fmax g d a b cc => some ⟨g, d, cc, [(a, 1), (b, 1)],
      fun s v l => word32 (fminmaxF true (s.rd v l a).toNat (s.rd v l b).toNat)⟩
  | .fclass g d a cc => some ⟨g, d, cc, [(a, 1)], fun s v l => word32 (fclassF (s.rd v l a).toNat, [])⟩
  | .frndi g m d a cc => some ⟨g, d, cc, [(a, 1)], fun s v l => word32 (frndiF m (s.rd v l a).toNat)⟩
  | .fexp g d a cc => some ⟨g, d, cc, [(a, 1)], fun s v l => word32 (fexpF (s.rd v l a).toNat)⟩
  | .fldx g d a b cc => some ⟨g, d, cc, [(a, 1), (b, 1)],
      fun s v l => word32 (fldxF (s.rd v l a).toNat (s.rd v l b).toInt)⟩
  | .fgetx g d a cc => some ⟨g, d, cc, [(a, 1)], fun s v l => word32 (fgetxF (s.rd v l a).toNat)⟩
  | .frcp g m d a cc => some ⟨g, d, cc, [(a, 1)], fun s v l => word32 (frcpF m (s.rd v l a).toNat)⟩
  | .frsq g m d a cc => some ⟨g, d, cc, [(a, 1)], fun s v l => word32 (frsqF m (s.rd v l a).toNat)⟩
  | .fsqrt g m d a cc => some ⟨g, d, cc, [(a, 1)], fun s v l => word32 (fsqrtF m (s.rd v l a).toNat)⟩
  | .flg2 g d a cc => some ⟨g, d, cc, [(a, 1)], fun s v l => word32 (flg2F (s.rd v l a).toNat)⟩
  | .fex2 g d a cc => some ⟨g, d, cc, [(a, 1)], fun s v l => word32 (fex2F (s.rd v l a).toNat)⟩
  | .fdot2 g m d a b c cc => some ⟨g, d, cc, [(a, 1), (b, 1), (c, 1)],
      fun s v l => word32 (fdot2F m (s.rdHalves v l a).toNat (s.rdHalves v l b).toNat (s.rd v l c).toNat)⟩
  | .faddBf16x2 g m d a b cc => some ⟨g, d, cc, [(a, 1), (b, 1)],
      fun s v l => word32 (halves (ffBf16.add m) (s.rdHalves v l a).toNat (s.rdHalves v l b).toNat)⟩
  | .fmulBf16x2 g m d a b cc => some ⟨g, d, cc, [(a, 1), (b, 1)],
      fun s v l => word32 (halves (ffBf16.mul m) (s.rdHalves v l a).toNat (s.rdHalves v l b).toNat)⟩
  | .ffmaBf16x2 g m d a b c cc => some ⟨g, d, cc, [(a, 1), (b, 1), (c, 1)],
      fun s v l => word32 (fmaHalves m (s.rdHalves v l a).toNat (s.rdHalves v l b).toNat (s.rdHalves v l c).toNat)⟩
  | .cvt g .bf16Lo _ d a _ cc => some ⟨g, d, cc, [(a, 1)], fun s v l => word32 (fromBf16F ((s.rd v l a).toNat % 65536))⟩
  | .cvt g .bf16Hi _ d a _ cc => some ⟨g, d, cc, [(a, 1)], fun s v l => word32 (fromBf16F ((s.rd v l a).toNat / 65536))⟩
  | .cvt g .toBf16x2 m d a b cc => some ⟨g, d, cc, [(a, 1), (b.getD (.int 0), 1)], fun s v l =>
      word32 ((toBf16F m (s.rd v l (b.getD (.int 0))).toNat).1 * 65536 + (toBf16F m (s.rd v l a).toNat).1,
        (toBf16F m (s.rd v l a).toNat).2 ++ (toBf16F m (s.rd v l (b.getD (.int 0))).toNat).2)⟩
  | .cvt g .fromI32 m d a _ cc => some ⟨g, d, cc, [(a, 1)], fun s v l => word32 (cvtFromIntF m (s.rd v l a).toInt)⟩
  | .cvt g .fromU32 m d a _ cc => some ⟨g, d, cc, [(a, 1)], fun s v l => word32 (cvtFromIntF m ((s.rd v l a).toNat : Int))⟩
  | .cvt g .toI32 m d a _ cc => some ⟨g, d, cc, [(a, 1)], fun s v l => word32 (cvtToIntF true m (s.rd v l a).toNat)⟩
  | .cvt g .toU32 m d a _ cc => some ⟨g, d, cc, [(a, 1)], fun s v l => word32 (cvtToIntF false m (s.rd v l a).toNat)⟩
  | _ => none

/-- What a word's lanes record for the statistics block of its wave (R184, R185): nothing where no lane records a class, else the classes
with their lanes, or with 32 for a uniform word. -/
def Sys2Proof.recorded (v : Env) (d : Dst) (m : Mask) (ev : Nat → Events) : List EvRec :=
  if ((dstLanes d m).flatMap fun l => evAt (evLane d l) (ev l)) = [] then []
  else [⟨v.w.teamKey, v.w.slot, v.w.asid, v.w.core, v.evSrc m, (dstLanes d m).flatMap fun l => evAt (evLane d l) (ev l)⟩]

/-- What the statistics block does with `n` events of a class (R185): both counts rise and saturate, and FIRED is set where the window
count passes its threshold. -/
def Sys2Proof.Counted (b x : Bank) (c : NsClass) (n : Nat) : Prop :=
  smGet 0 x.nscnt c.code = satAdd32 (smGet 0 b.nscnt c.code) n ∧ smGet 0 x.nswcnt c.code = satAdd16 (smGet 0 b.nswcnt c.code) n ∧
  x.nsctl.getLsbD (16 + c.code) = (b.nsctl.getLsbD (16 + c.code) || (decide (smGet 0 b.nswcnt c.code ≤ smGet 0xFFFF b.nsthr c.code) &&
    decide (smGet 0xFFFF b.nsthr c.code < satAdd16 (smGet 0 b.nswcnt c.code) n)))

/-- What each floating-point word computes (R168-R183): its result stands in every active lane (once, for a uniform destination), its
events are recorded for the statistics of the wave's context (R184), and no other register, no flag, no predicate and no byte of
memory changes. The block of a context adds each class of an instruction's events, once for each lane that recorded it (R185). The
values of `fexp`, `fex2` and `flg2`, whose exact results are irrational, how `cvt.f32.bf16` reads an inline operand, and the lanes and
the entry that an event record holds are the model's reading (log 9, log 69, log 12, log 17). -/
def Obligations.FloatWordsWriteTheirResult : Prop :=
  (∀ i F s v, floatForm i = some F → s.Issues v → v.active F.g ≠ 0 → s.Readable v (v.active F.g) F.srcs →
    ∃ t x, exec i s = .next (t.goOn v) ∧ s.Local t v.u ∧ t.wave? v.u = some x ∧ v.w.Rest x v.e ∧
      v.w.Wrote v.sp x v.e F.d (v.active F.g) (fun l => (F.res s v l).1) ∧
      t.events = s.events ++ recorded v F.d (v.active F.g) fun l => (F.res s v l).2) ∧
  ∀ (s : State) (r : EvRec) (c : NsClass) (y : Team), s.team? r.key = some y →
    ∃ z, (s.addClass r c.code).team? r.key = some z ∧ Counted y.bank z.bank c (r.lanesIn c.code).length

/-- A word with one 64-bit result in each lane. -/
structure Sys2Proof.Form64 where
  g : Guard
  d : Dst
  cc : Nat
  srcs : List (Src × Nat)
  res : State → Env → Nat → W64

/-- The words with a 64-bit result. -/
def Sys2Proof.wideForm : Instr → Option Form64
  | .movx g d b cc => some ⟨g, d, cc, [(b, 2)], fun s v l => s.rd64 v l b⟩
  | .sel g true pn ps d a b cc => some ⟨g, d, cc, [(a, 2), (b, 2)],
      fun s v l => if hasLane (v.w.getP ps) l != pn then s.rd64 v l a else s.rd64 v l b⟩
  | .imadWide g d a b c cc => some ⟨g, d, cc, [(a, 1), (b, 1), (c, 2)],
      fun s v l => BitVec.ofInt 64 ((s.rd v l a).toInt * (s.rd v l b).toInt) + s.rd64 v l c⟩
  | .imadWideU g d a b c cc => some ⟨g, d, cc, [(a, 1), (b, 1), (c, 2)],
      fun s v l => BitVec.ofNat 64 ((s.rd v l a).toNat * (s.rd v l b).toNat) + s.rd64 v l c⟩
  | .ishl64 g d a b cc => some ⟨g, d, cc, [(a, 2), (b, 1)],
      fun s v l => if 64 ≤ (s.rd v l b).toNat then 0 else s.rd64 v l a <<< (s.rd v l b).toNat⟩
  | .ishr64 g d a b cc => some ⟨g, d, cc, [(a, 2), (b, 1)],
      fun s v l => if 64 ≤ (s.rd v l b).toNat then 0 else s.rd64 v l a >>> (s.rd v l b).toNat⟩
  | .isar64 g d a b cc => some ⟨g, d, cc, [(a, 2), (b, 1)],
      fun s v l => (s.rd64 v l a).sshiftRight (min 63 (s.rd v l b).toNat)⟩
  | .iadd64 g d a b cc => some ⟨g, d, cc, [(a, 2), (b, 2)], fun s v l => s.rd64 v l a + s.rd64 v l b⟩
  | .lea g u shift d a b cc => some ⟨g, d, cc, [(a, 2), (b, 1)],
      fun s v l => s.rd64 v l a + ((if u then (s.rd v l b).zeroExtend 64 else (s.rd v l b).signExtend 64) <<< shift)⟩
  | .leaAr g d a b cc => some ⟨g, d, cc, [(a, 1), (b, 2)], fun s v l => leaArF (s.rd v l a) (s.rd64 v l b)⟩
  | .leaArAdd g d a b cc => some ⟨g, d, cc, [(a, 2), (b, 2)], fun s v l => leaArAddF (s.rd64 v l a) (s.rd64 v l b)⟩
  | .i2i g .s64 d a cc => some ⟨g, d, cc, [(a, 1)], fun s v l => (s.rd v l a).signExtend 64⟩
  | .i2i g .u64 d a cc => some ⟨g, d, cc, [(a, 1)], fun s v l => (s.rd v l a).zeroExtend 64⟩
  | _ => none

/-- A word that tests each active lane into a predicate. -/
structure Sys2Proof.FormP where
  g : Guard
  pd : Nat
  comb : Comb
  srcs : List (Src × Nat)
  test : State → Env → Nat → Bool

/-- The comparisons and the predicate words. -/
def Sys2Proof.testForm : Instr → Option FormP
  | .psetNe g pd a => some ⟨g, pd, .set, [(a, 1)], fun s v l => s.rd v l a != 0⟩
  | .psetMask g pd a => some ⟨g, pd, .set, [(a, 1)], fun s v l => (s.rd v l a).getLsbD l⟩
  | .pand g pd pa pb => some ⟨g, pd, .set, [], fun _ v l => hasLane (v.w.getP pa) l && hasLane (v.w.getP pb) l⟩
  | .por g pd pa pb => some ⟨g, pd, .set, [], fun _ v l => hasLane (v.w.getP pa) l || hasLane (v.w.getP pb) l⟩
  | .pxor g pd pa pb => some ⟨g, pd, .set, [], fun _ v l => hasLane (v.w.getP pa) l != hasLane (v.w.getP pb) l⟩
  | .pnot g pd pa => some ⟨g, pd, .set, [], fun _ v l => !hasLane (v.w.getP pa) l⟩
  | .pmov g pd pa => some ⟨g, pd, .set, [], fun _ v l => hasLane (v.w.getP pa) l⟩
  | .icmp g false false c pd comb a b => some ⟨g, pd, comb, [(a, 1), (b, 1)], fun s v l => condHolds c (s.rd v l a).toInt (s.rd v l b).toInt⟩
  | .icmp g false true c pd comb a b => some ⟨g, pd, comb, [(a, 1), (b, 1)],
      fun s v l => condHolds c ((s.rd v l a).toNat : Int) ((s.rd v l b).toNat : Int)⟩
  | .icmp g true false c pd comb a b => some ⟨g, pd, comb, [(a, 2), (b, 2)],
      fun s v l => condHolds c (s.rd64 v l a).toInt (s.rd64 v l b).toInt⟩
  | .icmp g true true c pd comb a b => some ⟨g, pd, comb, [(a, 2), (b, 2)],
      fun s v l => condHolds c ((s.rd64 v l a).toNat : Int) ((s.rd64 v l b).toNat : Int)⟩
  | .fcmp g c pd comb a b => some ⟨g, pd, comb, [(a, 1), (b, 1)], fun s v l => (fcmpF c (s.rd v l a).toNat (s.rd v l b).toNat).1⟩
  | _ => none

/-- What each comparison and predicate word leaves in its predicate (R128, R144, R175): the active lanes take the test by COMB, every
other lane, predicate, register and flag keeps its value, and a write of p7 is ignored (R113). -/
def Obligations.TestsWriteTheirPredicate : Prop :=
  ∀ i F s v, testForm i = some F → s.Issues v → v.active F.g ≠ 0 → s.Readable v (v.active F.g) F.srcs →
    ∃ t x, exec i s = .next (t.goOn v) ∧ s.Local t v.u ∧ t.wave? v.u = some x ∧ v.w.Tested x F.pd F.comb (v.active F.g) (F.test s v)

/-- The exact sum of `iaddc` in a lane (R137). -/
def Sys2Proof.carrySum (s : State) (v : Env) (sub : Bool) (pc : Nat) (a b : Src) (l : Nat) : Nat :=
  (s.rd v l a).toNat + (if sub then ~~~(s.rd v l b) else s.rd v l b).toNat + if hasLane (v.w.getP pc) l then 1 else 0

/-- What each word with a 64-bit result computes (R125, R127, R136, R138, R139, R145, R146, R148): it writes the register pair in every
active lane (once, for a uniform pair) and changes nothing else. `iaddc` (R137): the sum modulo 2^32 goes to D and its carry to p[PC], in
every active lane; with a uniform D the carry of the lowest lane. -/
def Obligations.WideWordsWriteTheirPair : Prop :=
  (∀ i F s v, wideForm i = some F → s.Issues v → v.active F.g ≠ 0 → s.Readable v (v.active F.g) F.srcs →
    ∃ t x, exec i s = .next (t.goOn v) ∧ s.Local t v.u ∧ t.wave? v.u = some x ∧ v.w.Rest x v.e ∧
      v.w.WrotePair v.sp x v.e F.d (v.active F.g) (F.res s v)) ∧
  ∀ g sub pc d a b cc s v, s.Issues v → v.active g ≠ 0 → s.Readable v (v.active g) [(a, 1), (b, 1)] →
    ∃ t x, exec (.iaddc g sub pc d a b cc) s = .next (t.goOn v) ∧ s.Local t v.u ∧ t.wave? v.u = some x ∧ x.r.f = v.w.r.f ∧
      v.w.Wrote v.sp x v.e d (v.active g) (fun l => BitVec.ofNat 32 (carrySum s v sub pc a b l)) ∧
      ∀ i l, l < 32 → hasLane (x.getP i) l = if i = pc ∧ pc ≠ 7 ∧ hasLane (v.active g) l
        then decide (2 ^ 32 ≤ carrySum s v sub pc a b (match d with
          | .v _ => l
          | .k _ => lowLane (v.active g)))
        else hasLane (v.w.getP i) l

/-- The source lane of a shuffle and whether it lies in the segment of width `w` (R196). -/
def Sys2Proof.shflSource : Instr → Option (Guard × Nat × Nat × Nat × Src × Src × Nat × (Nat → Nat → Nat → Nat × Bool))
  | .shflIdx g seg pd d a b cc => some (g, seg, pd, d, a, b, cc, fun w l k => (l - l % w + k % w, true))
  | .shflUp g seg pd d a b cc => some (g, seg, pd, d, a, b, cc, fun w l k => (l - k, decide (k < w) && decide (l - l % w + k ≤ l)))
  | .shflDn g seg pd d a b cc => some (g, seg, pd, d, a, b, cc, fun w l k => (l + k, decide (k < w) && decide (l + k < l - l % w + w)))
  | .shflXor g seg pd d a b cc => some (g, seg, pd, d, a, b, cc, fun w l k => (l - l % w + Nat.xor (l % w) (k % w), true))
  | _ => none

/-- The left fold of the values of lanes, in ascending order (R198, R199). -/
def Sys2Proof.laneFold (op : RedOp) (f : Nat → W32) : List Nat → W32
  | [] => redId op
  | l :: ls => ls.foldl (fun x k => (redStep op x (f k)).1) (f l)

/-- `movk`, `vtok` and `ktov` (R126): the lowest active lane of A, or lane B of A where it is active, goes to a uniform register; A goes
to lane B of a vector register where that lane is active, and nowhere else. The shuffles (R196): a lane whose source lies in its segment
and is active takes that lane's A, every other active lane keeps its own A; PD says which. `red` and `scan` (R198, R199): the left fold over
all active lanes, or for each lane over the active lanes up to it, or before it. -/
def Obligations.LaneWordsMoveBetweenLanes : Prop :=
  ((∀ g d a s v, s.Issues v → v.active g ≠ 0 → s.Readable v (laneBit (lowLane (v.active g))) [(a, 1)] →
     ∃ t x, exec (.movk g d a) s = .next (t.goOn v) ∧ s.Local t v.u ∧ t.wave? v.u = some x ∧ v.w.Rest x v.e ∧
       v.w.Wrote v.sp x v.e (.k d) (v.active g) fun l => s.rd v l a) ∧
   (∀ g d a b s v, s.Issues v → v.active g ≠ 0 → hasLane (v.active g) ((s.rd v 0 b).toNat % 32) = true →
     s.Readable v (laneBit ((s.rd v 0 b).toNat % 32)) [(a, 1)] →
     ∃ t x, exec (.vtok g d a b) s = .next (t.goOn v) ∧ s.Local t v.u ∧ t.wave? v.u = some x ∧ v.w.Rest x v.e ∧
       v.w.Wrote v.sp x v.e (.k d) (v.active g) fun _ => s.rd v ((s.rd v 0 b).toNat % 32) a) ∧
   (∀ g d a b cc s v, s.Issues v → v.active g ≠ 0 → s.Readable v (v.active g) [(a, 1), (b, 1)] →
     ∃ t x, exec (.ktov g d a b cc) s = .next (t.goOn v) ∧ s.Local t v.u ∧ t.wave? v.u = some x ∧ v.w.Rest x v.e ∧
       v.w.Wrote v.sp x v.e (.v d) (v.active g &&& laneBit ((s.rd v 0 b).toNat % 32)) fun l => s.rd v l a)) ∧
  (∀ i g seg pd d a b cc f s v, shflSource i = some (g, seg, pd, d, a, b, cc, f) → s.Issues v → v.active g ≠ 0 →
     s.Readable v (v.active g) [(a, 1), (b, 1)] →
     let src := fun l => f (2 ^ seg) l (s.rd v l b).toNat
     let ok := fun l => (src l).2 && hasLane (v.active g) (src l).1
     ∃ t x, exec i s = .next (t.goOn v) ∧ s.Local t v.u ∧ t.wave? v.u = some x ∧ x.r.f = v.w.r.f ∧
       v.w.Wrote v.sp x v.e (.v d) (v.active g) (fun l => if ok l then s.rd v (src l).1 a else s.rd v l a) ∧
       ∀ i l, l < 32 → hasLane (x.getP i) l = if i = pd ∧ pd ≠ 7 ∧ hasLane (v.active g) l then ok l else hasLane (v.w.getP i) l) ∧
  (∀ g op d a cc s v, s.Issues v → v.active g ≠ 0 → s.Readable v (v.active g) [(a, 1)] →
    ∃ t x, exec (.red g op d a cc) s = .next (t.goOn v) ∧ s.Local t v.u ∧ t.wave? v.u = some x ∧ v.w.Rest x v.e ∧
      v.w.Wrote v.sp x v.e d (v.active g) fun _ => laneFold op (fun k => s.rd v k a) (lanesOf (v.active g))) ∧
  ∀ g exc op d a cc s v, s.Issues v → v.active g ≠ 0 → s.Readable v (v.active g) [(a, 1)] →
    ∃ t x, exec (.scan g exc op d a cc) s = .next (t.goOn v) ∧ s.Local t v.u ∧ t.wave? v.u = some x ∧ v.w.Rest x v.e ∧
      v.w.Wrote v.sp x v.e (.v d) (v.active g) fun l =>
        laneFold op (fun k => s.rd v k a) ((lanesOf (v.active g)).filter fun k => if exc then decide (k < l) else decide (k ≤ l))

/-- A pair word (R75, R76): both slots read their registers before either writes; each writes its result in the lanes of its own guard,
and where both name one register the second stands. -/
def Obligations.PairWordReadsBeforeItWrites : Prop :=
  ∀ a b s v, s.Issues v → (v.ctx.patch = true ∨ ∀ r ∈ pairReads v a b, v.w.deadLanes r.2 r.1 = 0) →
    v.w.r.badV = [] → v.w.r.badK = [] →
    ∃ t x, exec (.pairWord a b) s = .next (t.goOn v) ∧ s.Local t v.u ∧ t.wave? v.u = some x ∧ v.w.Rest x v.e ∧ x.r.k = v.w.r.k ∧
      ∀ i l, l < 32 → x.getV i l =
        if i = b.d ∧ hasLane (slotLanes v b) l then (popF b.pop (v.readV b.d l) (s.rd v l b.s)).1
        else if i = a.d ∧ hasLane (slotLanes v a) l then (popF a.pop (v.readV a.d l) (s.rd v l a.s)).1
        else v.w.getV i l

/-- The words of `aluOp`'s shape with their guards, sources and no result: what is common to every register word above. -/
def Sys2Proof.readForm (i : Instr) : Option (Guard × List (Src × Nat)) :=
  match intForm i, floatForm i, wideForm i, testForm i with
  | some f, _, _, _ => some (f.g, f.srcs)
  | _, some f, _, _ => some (f.g, f.srcs)
  | _, _, some f, _ => some (f.g, f.srcs)
  | _, _, _, some f => some (f.g, f.srcs)
  | _, _, _, _ => none

/-- `rel` (R129): the named slots are released in the active lanes; every value and every other tag stays. A register word that reads a
released slot raises DEADREAD for the lanes concerned and has no effect: TRAPCAUSE takes bit 1 and the detail names the register, no
register changes, and the split stays at the word (R121, R442). The entry byte of a handler split's detail is the model's reading (log
12). -/
def Obligations.ReleasedSlotsTrapWhereTheyAreRead : Prop :=
  (∀ g d n s v, s.Issues v →
     ∃ t x, exec (.rel g d n) s = .next (t.goOn v) ∧ s.Local t v.u ∧ t.wave? v.u = some x ∧ v.w.Rest x v.e ∧ x.r.v = v.w.r.v ∧
       x.r.k = v.w.r.k ∧
       ∀ i l, l < 32 → x.getTag i l = if d ≤ i ∧ i < d + n ∧ hasLane (v.active g) l then 4 else v.w.getTag i l) ∧
  (∀ i g xs s v n, readForm i = some (g, xs) → s.Issues v → v.ctx.patch = false → v.active g ≠ 0 →
     (vRegs xs).find? (fun r => v.w.deadLanes (v.active g) r ≠ 0) = some n →
     ∃ t x y, exec i s = .next t ∧ s.Local t v.u ∧ t.wave? v.u = some x ∧ x.r = v.w.r ∧ x.t.cause = v.w.t.cause ||| 2 ∧
       x.t.planes = v.w.t.planes ||| v.w.deadLanes (v.active g) n ∧ x.split? v.e = some y ∧ y.pc = v.sp.pc ∧
       (v.w.t.dq.length < 4 → ⟨v.serial, v.ctx.pc, 1, 0, if v.e = 4 then 0xFF else v.e, v.sp.ver, v.w.deadLanes (v.active g) n,
         padTo 16 (le 2 n)⟩ ∈ x.t.dq))

/-- `tcfg` and `omcfg` (R130, R337): a wave claims an engine that no team owns, or owns it, and writes the shape register without its
reserved bits while no program runs; it waits while the state of a saved team stands in the engine and is to be spilled (R354). The
engine's own program writes it at once. -/
def Obligations.ShapeWordsWriteTheEngine : Prop :=
  (∀ g n b s v, s.Issues v → v.active g ≠ 0 → s.Readable v (v.active g) [(b, 1)] →
    ((s.engine v.w.core).owner = none ∨ s.ownerAt v.w.core = some v.w.teamKey ∧ (s.engine v.w.core).run = false) →
    (∃ t : State, exec (.tcfg g n b) s = .next (t.goOn v) ∧ t.mem = s.mem ∧ (t.engine v.w.core).owner = some v.w.teamKey ∧
      smGet 0 (t.engine v.w.core).tshape n = s.rd v 0 b &&& 0x0FF7F3FF) ∧
    ∃ t : State, exec (.omcfg g n b) s = .next (t.goOn v) ∧ t.mem = s.mem ∧ (t.engine v.w.core).owner = some v.w.teamKey ∧
      smGet 0 (t.engine v.w.core).omap n = s.rd v 0 b &&& 0xFFFFFF8F) ∧
  (∀ i g n b s v, (i = .tcfg g n b ∨ i = .omcfg g n b) → s.Issues v → v.active g ≠ 0 → s.Readable v (v.active g) [(b, 1)] →
    s.engineHeld v.w.core = true →
    ∃ t x y, exec i s = .next t ∧ t.mem = s.mem ∧ (t.engine v.w.core).wanted = true ∧ t.wave? v.u = some x ∧ x.r = v.w.r ∧
      x.split? v.e = some y ∧ y.block = .unit) ∧
  (∀ n b s c core x, s.cur = some c → c.who = .engine core → s.engineRd core (s.engine core) b = some x →
    exec (.tcfg .always n b) s = .next ((s.setEngine core { s.engine core with
      tshape := smSet 0 (s.engine core).tshape n (x &&& 0x0FF7F3FF) }).engineGo core c) ∧
    exec (.omcfg .always n b) s = .next ((s.setEngine core { s.engine core with
      omap := smSet 0 (s.engine core).omap n (x &&& 0xFFFFFF8F) }).engineGo core c))

/-! ## Going on, and control words -/

/-- How a split goes on after a word (R57, R93): no byte of memory, no register, no operation and no other wave changes, whether it
steps inside its clause, moves to a fall-through point or to a target, merges or traps there; inside a clause it stands at the next
word with its lanes, version and links. -/
def Obligations.GoingOnMovesOnlySplits : Prop :=
  (∀ (s : State) v w, s.wave? v.u = some w → ∃ x, (s.goOn v).wave? v.u = some x ∧ s.Local (s.goOn v) v.u ∧ x.r = w.r ∧ x.ops = w.ops ∧
    x.exited = w.exited ∧ x.ovf = w.ovf ∧ x.wk = w.wk) ∧
  (∀ (s : State) u e pc d w, s.wave? u = some w → ∃ x, (s.moveTo u e pc d).wave? u = some x ∧ s.Local (s.moveTo u e pc d) u ∧
    x.r = w.r ∧ x.ops = w.ops ∧ x.exited = w.exited ∧ x.ovf = w.ovf ∧ x.wk = w.wk) ∧
  ∀ (s : State) v w sp, s.wave? v.u = some w → w.split? v.e = some sp → v.ctx.hdr = false →
    ∃ x y, (s.goOn v).wave? v.u = some x ∧ x.split? v.e = some y ∧ y.place = (v.ctx.next, sp.mask, sp.ver, sp.lr, sp.tlr) ∧
      ∀ i, i ≠ v.e → (x.split? i).map Split.place = (w.split? i).map Split.place

/-- `nop` and `trn` have no effect; `yield` makes the split not eligible in the next clock and clears W; `sleep` holds it until CTXCLK
has advanced by B, at most 2^24 (R79, R100). No register changes. -/
def Obligations.WaitingWordsGoOn : Prop :=
  (∀ i s v, i = .trn ∨ (∃ g, i = .nop g) → s.Issues v →
    ∃ t x, exec i s = .next (t.goOn v) ∧ s.Local t v.u ∧ t.wave? v.u = some x ∧ v.w.Reads x ∧ x.r = v.w.r) ∧
  (∀ g s v, s.Issues v → v.active g ≠ 0 →
    ∃ t x y, exec (.yield g) s = .next (t.goOn v) ∧ s.Local t v.u ∧ t.wave? v.u = some x ∧ v.w.Reads x ∧ x.split? v.e = some y ∧
      y.yieldTo = s.clk + 2 ∧ y.w = 0) ∧
  (∀ g b s v, s.Issues v → v.active g ≠ 0 → s.Readable v (v.active g) [(b, 1)] → s.rd v 0 b ≠ 0 →
    ∃ t x y, exec (.sleep g b) s = .next (t.goOn v) ∧ s.Local t v.u ∧ t.wave? v.u = some x ∧ v.w.Reads x ∧ x.split? v.e = some y ∧
      y.sleepTo = some (s.ctxclk v.w.gang + min (s.rd v 0 b).toNat (2 ^ 24))) ∧
  ∀ core c s, s.cur = some c → c.who = .engine core → exec (.nop .always) s = .next (s.engineGo core c)

/-- A word that sends lanes to a target: guard, what it reads, the check its target must pass, the target of a lane, and which link it
writes. -/
structure Sys2Proof.Jump where
  g : Guard
  srcs : List (Src × Nat)
  due : Env → Due
  dest : State → Env → Nat → Option W64
  lr : Bool := false
  tlr : Bool := false

/-- The branches, calls and trampolines to a target. -/
def Sys2Proof.jumpForm : Instr → Option Jump
  | .bra g t => some ⟨g, [], fun v => .branch v.ctx.patchSrc, fun _ v _ => targetAt v.ctx.pc t 0, false, false⟩
  | .braInd g a => some ⟨g, [(a, 2)], fun _ => .indirect, fun s v l => some (s.rd64 v l a), false, false⟩
  | .call g t => some ⟨g, [], fun v => .call v.ctx.patchSrc, fun _ v _ => targetAt v.ctx.pc t 0, true, false⟩
  | .callInd g a => some ⟨g, [(a, 2)], fun _ => .callInd, fun s v l => some (s.rd64 v l a), true, false⟩
  | .ret g => some ⟨g, [], fun _ => .ret, fun _ v _ => some v.sp.lr, false, false⟩
  | .brx g t x n => some ⟨g, [(x, 1)], fun v => .branch v.ctx.patchSrc,
      fun s v l => if (s.rd v l x).toNat < n then targetAt v.ctx.pc t (s.rd v l x).toNat else none, false, false⟩
  | .trj _ tgt => some ⟨.always, [], fun _ => .indirect, fun _ _ _ => some (trampPc tgt), false, false⟩
  | .trc _ tgt => some ⟨.always, [], fun _ => .tramp, fun _ _ _ => some (trampPc tgt), false, true⟩
  | _ => none

/-- A branch sends these lanes to one place: what a taken lane's target must pass (R77, R102). -/
def Sys2Proof.Reaches (s : State) (v : Env) (J : Jump) (pc : W64) : Prop :=
  targetShape (J.due v) pc = true ∧ ∃ b, s.HasLine v.w.asid (lineNum pc) b ∧
    ∀ t : State, t.mem = s.mem → t.targetOk v.w.asid (J.due v) b (wordIdx pc) = true

/-- Where a jump sends a lane of its split: an active lane to its target, every other to the fall-through point (R91, R101-R104). -/
def Sys2Proof.Jump.goesTo (J : Jump) (s : State) (v : Env) (l : Nat) : W64 :=
  if hasLane (v.active J.g) l then (J.dest s v l).getD v.ctx.next else v.ctx.next

/-- The sets of lanes of a split by destination, as R91 orders them: the larger first, then the one with the lower lane; a call's lanes
stand apart from others. -/
def Sys2Proof.Divides (m : Mask) (dest : Nat → W64) (called : Nat → Bool) (gs : List Group) : Prop :=
  (∀ g ∈ gs, g.mask ≠ 0 ∧ ∀ l, hasLane g.mask l = true ↔ (hasLane m l = true ∧ dest l = g.pc ∧ called l = g.called)) ∧
  (∀ l, hasLane m l = true → ∃ g ∈ gs, hasLane g.mask l = true) ∧
  gs.Pairwise fun a b => laneCount b.mask < laneCount a.mask ∨ laneCount b.mask = laneCount a.mask ∧ lowLane a.mask < lowLane b.mask

/-- A split that a Redirect has put into an entry arrives at its PC, whose line is kept where it is the jump's own (R91, R93). -/
def Sys2Proof.arriveNew (buf : Option Line) (u : Nat) (s : State) (e : Nat) : State :=
  match (s.wave? u).bind fun w => w.split? e with
  | some x => (s.updSplit u e fun y => { y with buf := buf }).moveTo u e x.pc x.due
  | none => s

/-- A jump of the whole split to one target whose line is at its home and passes its check (R77-R79, R101-R105): the split moves to the
target, keeps its lanes and version, and writes the link the word names, `lr` with the point after the word, `tlr` with the PC after the
trampoline; no register changes. A jump that divides its split (R91): the first group stays in its entry, the others take the free live
entries in order, then the overflow stack, each with its PC, lanes, version and links, and then those in live entries arrive; where the
stack would hold more than 12, SPLITOVF is raised and nothing changes (R92); a handler split never divides (R447). An entry of `brx` that
is its fall-through point is not checked, and the split goes on (R102). `trr` goes to `tlr` where its line is at hand and the word is a target, a clause header or follows a
clause body or a trampoline inside one (R79); past fill words it goes on at word 1 of the next line (R57). That a jump inside its line
keeps the buffered line, and what stands before word 1, are the model's reading (log 15, log 60). -/
def Obligations.JumpsReachTheirTarget : Prop :=
  (∀ i J s v pc b, jumpForm i = some J → s.Issues v → v.sp.mask ≠ 0 → v.active J.g = v.sp.mask → s.Readable v v.sp.mask J.srcs →
     v.w.ovf.length ≤ 12 → (∀ l ∈ lanesOf v.sp.mask, J.dest s v l = some pc) → targetShape (J.due v) pc = true →
     (∀ g t x n, i = .brx g t x n → pc ≠ v.ctx.next) →
     s.HasLine v.w.asid (lineNum pc) b →
     (∀ t : State, t.mem = s.mem → t.targetOk v.w.asid (J.due v) b (wordIdx pc) = true) →
     ∃ t x y, exec i s = .next (t.moveTo v.u v.e pc .none) ∧ s.Local t v.u ∧ t.wave? v.u = some x ∧ x.r.v = v.w.r.v ∧ x.r.k = v.w.r.k ∧
       x.r.p = v.w.r.p ∧ x.ops = v.w.ops ∧ x.exited = v.w.exited ∧ x.ovf = v.w.ovf ∧
       (∀ e, e ≠ v.e → (x.split? e).map Split.place = (v.w.split? e).map Split.place) ∧ x.split? v.e = some y ∧ y.mask = v.sp.mask ∧
       y.ver = v.sp.ver ∧ y.lr = (if J.lr then v.ctx.next else v.sp.lr) ∧
       y.tlr = if J.tlr then v.ctx.pc + BitVec.ofNat 64 (8 * v.ctx.size) else v.sp.tlr) ∧
  (∀ i J s v g rest, jumpForm i = some J → s.Issues v → s.Readable v (v.active J.g) J.srcs → v.w.live.length = 4 →
     (∀ l ∈ lanesOf (v.active J.g), ∀ pc, J.dest s v l = some pc →
       Reaches s v J pc ∨ pc = v.ctx.next ∧ ∃ g t x n, i = .brx g t x n) →
     (∀ l ∈ lanesOf (v.active J.g), J.dest s v l = none → ∃ g t x n, i = .brx g t x n ∧ n ≤ (s.rd v l x).toNat) →
     Divides v.sp.mask (J.goesTo s v) (fun l => J.lr && hasLane (v.active J.g) l) (g :: rest) → rest ≠ [] →
     let free := (List.range 4).filter fun e => (v.w.split? e).isNone
     let link := fun (y : Group) => if y.called then v.ctx.next else v.sp.lr
     let placed := fun (y : Group) => (y.pc, y.mask, v.sp.ver, link y, v.sp.tlr)
     (v.e ≠ 4 → v.w.ovf.length + (rest.length - free.length) ≤ 12 →
       ∃ t x y, exec i s = .next ((free.take rest.length).foldl (arriveNew v.sp.buf v.u) (t.moveTo v.u v.e g.pc .none)) ∧ s.Local t v.u ∧
         t.wave? v.u = some x ∧ x.r.v = v.w.r.v ∧ x.r.k = v.w.r.k ∧ x.r.p = v.w.r.p ∧ x.ops = v.w.ops ∧ x.exited = v.w.exited ∧
         x.split? v.e = some y ∧ y.mask = g.mask ∧ y.ver = v.sp.ver ∧ y.lr = link g ∧ y.tlr = v.sp.tlr ∧
         (∀ (n : Nat) (e : Nat), free[n]? = some e → (x.split? e).map (fun z => (z.place, z.w)) = (rest[n]?).map fun z => (placed z, 0)) ∧
         (∀ e, e ≠ v.e → e ∉ free → (x.split? e).map Split.place = (v.w.split? e).map Split.place) ∧
         x.ovf.map Split.place = ((rest.drop free.length).map placed).reverse ++ v.w.ovf.map Split.place) ∧
     (v.e ≠ 4 → 12 < v.w.ovf.length + (rest.length - free.length) →
       ∃ t x, exec i s = .next t ∧ s.Local t v.u ∧ t.wave? v.u = some x ∧ v.w.Reads x ∧ x.r = v.w.r ∧ x.t.cause = v.w.t.cause ||| 0x2000) ∧
     (v.e = 4 → ∃ t x, exec i s = .next t ∧ s.Local t v.u ∧ t.wave? v.u = some x ∧ v.w.Reads x ∧ x.r = v.w.r ∧
       x.t.cause = v.w.t.cause ||| 1)) ∧
  (∀ g t x n s v, s.Issues v → v.active g ≠ 0 → s.Readable v (v.active g) [(x, 1)] →
     (∀ l ∈ lanesOf (v.active g), (s.rd v l x).toNat < n → targetAt v.ctx.pc t (s.rd v l x).toNat = some v.ctx.next) →
     ∃ r y, exec (.brx g t x n) s = .next (r.goOn v) ∧ s.Local r v.u ∧ r.wave? v.u = some y ∧ v.w.Reads y) ∧
  (∀ s v b, s.Issues v → pcShape v.sp.tlr = true → wordIdx v.sp.tlr ≠ 0 → s.HasLine v.w.asid (lineNum v.sp.tlr) b →
     (b.isTarget (wordIdx v.sp.tlr) = true ∨ b.isHdr (wordIdx v.sp.tlr) = true ∨ b.afterBody (wordIdx v.sp.tlr) = true) →
     ∃ t x, exec .trr s = .next (t.moveTo v.u v.e (if b.isStart (wordIdx v.sp.tlr) then v.sp.tlr else pcAt (b.num + 1) 1) .none) ∧
       s.Local t v.u ∧ t.wave? v.u = some x ∧ v.w.Reads x)

/-- A word whose guard is true in no lane has no effect and the split goes on (R37, R98): a register word reads nothing, writes nothing
and records no event; a jump that no lane takes falls through; `exit`, `yield` and `sleep` in no lane do nothing. No register, lane or link
changes. -/
def Obligations.WordsInNoLaneDoNothing : Prop :=
  (∀ i g xs s v, readForm i = some (g, xs) → s.Issues v → v.active g = 0 →
     ∃ t x, exec i s = .next (t.goOn v) ∧ s.Local t v.u ∧ t.events = s.events ∧ t.wave? v.u = some x ∧ x.r = v.w.r ∧ x.ops = v.w.ops ∧
       ∀ e, (x.split? e).map Split.place = (v.w.split? e).map Split.place) ∧
  (∀ i g s v, ((∃ J, jumpForm i = some J ∧ J.g = g ∧ J.tlr = false ∧ ∀ b t, i ≠ .trj b t) ∨ i = .exit g ∨ i = .yield g ∨
       ∃ b, i = .sleep g b) → s.Issues v → v.active g = 0 →
     ∃ t x, exec i s = .next (t.goOn v) ∧ s.Local t v.u ∧ t.wave? v.u = some x ∧ v.w.Reads x ∧ x.r = v.w.r)

/-- `exit` (R106): the active lanes leave the wave: no split of the wave holds one of them any more; the lanes of the split that remain
go on. In a handler split whose last lane leaves it, the wave returns from the handler (R447). An engine program stops with code 1
(R346). -/
def Obligations.ExitedLanesLeaveEverySplit : Prop :=
  (∀ g s v, s.Issues v → v.active g ≠ 0 → v.active g &&& v.w.exited = 0 →
    ∃ (t : State) (x : Wave) (z : Env), z.u = v.u ∧ z.e = v.e ∧ z.ctx = v.ctx ∧
      exec (.exit g) s = .next (if v.sp.mask &&& ~~~(v.active g) ≠ 0 then t.goOn v else if v.e = 4 then t.trapReturn z else t) ∧
      t.mem = s.mem ∧ t.wave? v.u = some x ∧ x.exited = v.w.exited ||| v.active g ∧ x.r.v = v.w.r.v ∧ x.r.k = v.w.r.k ∧
      (∀ e y, x.split? e = some y → y.mask &&& v.active g = 0) ∧ ∀ y ∈ x.ovf, y.mask &&& v.active g = 0) ∧
  ∀ core c s, s.cur = some c → c.who = .engine core →
    ∃ t, exec (.exit .always) s = .next t ∧ (t.engine core).stopping = some 1 ∧ (t.engine core).mepc = c.next

/-! ## What happens to splits and waves between words -/

/-- The choice of the split that issues (R86): where a partition takes its turn and is not gathering, the split it chooses is eligible, and
no eligible split of the partition has a higher level, or the same level and a larger W, or with these the same a lower slot or entry. A
word of the engine program issues when its sequencer stands at one. Whose turn it is is a field of the model's own (log 2). -/
def Obligations.TheBestEligibleSplitIssues : Prop :=
  (∀ core part s, part ≠ 4 → s.partCands core part ≠ [] → smGet 0 (s.core core).busy part ≤ s.clk →
    ∃ c ∈ s.partCands core part, exec (.issueSelect core part) s = .next { s with sel := some (.split c.u c.e) } ∧ s.eligible c.u c.e = true ∧
      ∀ d ∈ s.partCands core part, d.level < c.level ∨ (d.level = c.level ∧ (d.w < c.w ∨ (d.w = c.w ∧
        (c.slotNo < d.slotNo ∨ (c.slotNo = d.slotNo ∧ c.e ≤ d.e)))))) ∧
  ∀ core s, s.engineReady core = true → exec (.issueSelect core 4) s = .next { s with sel := some (.engine core) }

/-- A sleep ends at its CTXCLK, an overflow entry moves into an entry that became free in an earlier clock, a merge hold ends at its
clock, and a code line that is at hand reaches a split's fetch buffer (R58, R95, R96, R100): no register and no byte of memory changes.
That a split whose sleep ends arrives only then is the model's choice (log 75). A wave that has no lane, flag, operation, split or handler
left ends (R97): it is no more, the accumulator tokens it held are returned (R349), and with the last wave of its gang the gang has
exited. -/
def Obligations.SplitsWakeAndWavesEnd : Prop :=
  ((∀ u e s w x n, s.wave? u = some w → w.split? e = some x → x.sleepTo = some n → n ≤ s.ctxclk w.gang →
     ∃ (r : State) (z : Wave) (y : Split), exec (.sleepEnd u e) s = .next (r.arrive u e) ∧ s.Local r u ∧ r.wave? u = some z ∧ w.Reads z ∧ z.split? e = some y ∧
       y.sleepTo = none) ∧
   (∀ u e s w x xs, s.wave? u = some w → w.ovf = x :: xs → e < 4 → w.live.length = 4 → w.split? e = none → e ∈ w.pops → w.t.handler = none →
     ∃ (r : State) (z : Wave) (y : Split), exec (.overflowPop u e) s = .next (r.moveTo u e x.pc x.due) ∧ s.Local r u ∧ r.wave? u = some z ∧ z.ovf = xs ∧
       z.split? e = some y ∧ y.place = x.place ∧ z.r = w.r) ∧
   (∀ u e s w x n, s.wave? u = some w → w.split? e = some x → x.mergeTo = some n → n ≤ s.clk →
     ∃ (r : State) (z : Wave) (y : Split), exec (.mergeHoldExpiry u e) s = .next r ∧ s.Local r u ∧ r.wave? u = some z ∧ w.Reads z ∧ z.split? e = some y ∧
       y.mergeTo = none) ∧
   ∀ u e s w x b, s.wave? u = some w → w.split? e = some x → s.mayFetch w e x = true → pcShape x.pc = true → x.due = .none →
     s.HasLine w.asid (lineNum x.pc) b → b.check x.ver = none →
     ∃ (r : State) (z : Wave) (y : Split), exec (.fetchLine u e) s = .next (r.arrive u e) ∧ s.Local r u ∧ r.wave? u = some z ∧ w.Reads z ∧ z.split? e = some y ∧
       y.buf = some b) ∧
  (∀ u s w, s.wave? u = some w → w.over = true →
     ∃ r, exec (.waveEnd u) s = .next r ∧ r.wave? u = none ∧ r.mem.host = s.mem.host ∧
       ((∀ y, s.team? w.teamKey = some y → y.engine = none) → r.mem.phys = s.mem.phys) ∧
       r.mem.vault = s.mem.vault ∧ (∀ x, x ≠ u → r.wave? x = s.wave? x) ∧
       ((∀ y ∈ s.waves, y.1 ≠ u → y.2.gang ≠ w.gang) → ∀ g, s.gang? w.gang = some g → (r.gang? w.gang).map Gang.state = some .gone) ∧
       ∀ c n, s.engineOf w.teamKey = some c → n < 16 → (r.engine c).token n = if (s.engine c).holds n u then 3 else (s.engine c).token n)

/-! ## Words whose work is done after they issue -/

/-- The scope of the release that comes first, where the word makes one (R264). -/
structure Sys2Proof.Access where
  row : RoleRow
  g : Guard
  fs : Bool
  rel : Option Scope := none

/-- The memory, residency and atomic words. -/
def Sys2Proof.accessForm : Instr → Option Access
  | .ld g _ fs _ _ _ _ => some ⟨.load, g, fs, none⟩
  | .ldk g _ fs _ _ _ => some ⟨.load, g, fs, none⟩
  | .st g _ fs _ _ _ => some ⟨.store, g, fs, none⟩
  | .stk g _ fs _ _ _ => some ⟨.store, g, fs, none⟩
  | .ldCv g _ fs _ _ _ _ => some ⟨.load, g, fs, none⟩
  | .stCv g _ fs _ _ _ => some ⟨.store, g, fs, none⟩
  | .stFeFill g _ fs _ _ _ => some ⟨.store, g, fs, some .quad⟩
  | .feSet g full fs _ _ => some ⟨.store, g, fs, if full then some .quad else none⟩
  | .fePeek g fs _ _ _ _ => some ⟨.load, g, fs, none⟩
  | .pin g fs _ _ _ => some ⟨.any, g, fs, none⟩
  | .unpin g fs _ _ _ => some ⟨.any, g, fs, none⟩
  | .flushL1 g fs _ => some ⟨.any, g, fs, none⟩
  | .flushHm g fs _ => some ⟨.any, g, fs, none⟩
  | .invalL1 g fs _ => some ⟨.any, g, fs, none⟩
  | .invalHm g fs _ => some ⟨.any, g, fs, none⟩
  | .atom g o sc _ _ fs _ _ _ _ => some ⟨.vecOnly, g, fs, if o = .rel ∨ o = .acqrel then some sc else none⟩
  | .atomCas g o sc _ fs _ _ _ _ _ => some ⟨.vecOnly, g, fs, if o = .rel ∨ o = .acqrel then some sc else none⟩
  | .ldAcq g _ _ fs _ _ _ _ => some ⟨.load, g, fs, none⟩
  | .stRel g sc _ fs _ _ _ => some ⟨.store, g, fs, some sc⟩
  | _ => none

/-- A release has nothing to wait for (R263, R305): it has been made, or no access of the split is outstanding and, at a scope beyond
the core, no line of the core's L1 is dirty and none of its write-backs is on its way. -/
def Sys2Proof.Released (s : State) (v : Env) (rel : Option Scope) : Prop :=
  ∀ sc, rel = some sc → v.sp.released = true ∨ (v.w.accessOut v.sp.mask = false ∧ (scopeWide sc = true →
    (∀ x ∈ (s.core v.w.core).l1, x.2.dirty = 0) ∧ ∀ b ∈ s.mem.wbs, b.core ≠ v.w.core))

/-- The operation that an access word leaves outstanding: one access for each active lane, or one for a uniform form, with the address
A + B of R203 and the data read at issue. -/
def Sys2Proof.accessOp (s : State) (v : Env) (i : Instr) (g : Guard) (fs : Bool) : Op :=
  v.op i fs (v.active g) (memForm i).uni ((if (memForm i).uni then [0] else lanesOf (v.active g)).map fun l =>
    s.laneArg v (memForm i) l (s.effAddr v (memForm i) l).1)

/-- A memory, residency or atomic word that its role may issue, with a free flag, readable registers and addresses that R203 and R204
let pass, becomes outstanding where its units can take it, no acquire of its split is to come, and no `barc` of its team completes (R62,
R211, R219, R305, R314, R453): its flag rises by one, its operation holds what the lanes read, and the split goes on;
no register, no predicate and no byte of memory changes. That R203 and R204 take `fe.set` and `fe.peek` with a width of one byte, and what
counts as a request of the L1, are the model's choice (log 76, log 87). -/
def Obligations.AccessWordsBecomeOutstanding : Prop :=
  ∀ i A s v n, accessForm i = some A → s.Issues v → v.mayIssue A.row → v.flagFree A.fs n → v.active A.g ≠ 0 →
    Released s v A.rel → s.Readable v (v.active A.g) (memForm i).reads →
    (∀ l, (l ∈ if (memForm i).uni then [0] else lanesOf (v.active A.g)) → (s.laneAddr v (memForm i) l).2 = none) →
    s.accessFull v (accessOp s v i A.g A.fs) = false →
    s.barcHolds v (s.laneAddrs v (memForm i) (v.active A.g)) = false →
    ∃ t x, exec i s = .next (t.goOn v) ∧ s.Local t v.u ∧ t.wave? v.u = some x ∧ v.w.Began x (accessOp s v i A.g A.fs)

/-- An address that R203 or R204 refuses, in lanes of an access word: ADDR or ARENA is precise and no lane acts (R219): TRAPCAUSE takes
the bit of each refusal, and DEADREAD's bit where another lane reads a released register; the split stays at its word, no flag rises and
no register or byte of memory changes. -/
def Obligations.RefusedAddressTrapsPrecisely : Prop :=
  ∀ i A s v n l c, accessForm i = some A → s.Issues v → v.mayIssue A.row → v.flagFree A.fs n → v.active A.g ≠ 0 → Released s v A.rel →
    s.badRead v (v.active A.g) (memForm i).reads = none →
    l ∈ (if (memForm i).uni then [0] else lanesOf (v.active A.g &&& ~~~(v.deadMask (v.active A.g) (memForm i).reads))) →
    (s.laneAddr v (memForm i) l).2 = some c →
    ∃ t x, exec i s = .next t ∧ s.Local t v.u ∧ t.wave? v.u = some x ∧ x.t.cause.getLsbD c.1.num = true ∧
      (v.deadMask (v.active A.g) (memForm i).reads ≠ 0 → x.t.cause.getLsbD 1 = true) ∧ v.w.Reads x ∧ x.r = v.w.r

/-- A word that its role may not issue is ILLEGAL with detail "role" and has no effect (R83, R89). The entry byte of a handler split's
detail is the model's reading (log 12). -/
def Obligations.RoleViolationIsIllegal : Prop :=
  ∀ i A s v n, accessForm i = some A → s.Issues v → ¬ v.mayIssue A.row → v.ctx.flag A.fs = some n →
    ∃ t x, exec i s = .next t ∧ s.Local t v.u ∧ t.wave? v.u = some x ∧ x.t.cause = v.w.t.cause ||| 1 ∧ v.w.Reads x ∧ x.r = v.w.r ∧
      (v.w.t.dq.length < 4 → ⟨v.serial, v.ctx.pc, 0, Detail.role.code, if v.e = 4 then 0xFF else v.e, v.sp.ver, v.sp.mask,
        padTo 16 (le 8 v.ctx.word.toNat)⟩ ∈ x.t.dq)

/-- A release at a scope beyond the core, with no access of the split outstanding, starts the write-back of every dirty line of the
core's L1 and holds the split until they are acknowledged (R263, R305): no line of the L1 stays dirty, what was dirty is on its way with
its bytes, and no byte of memory has changed yet. -/
def Obligations.ReleaseWritesBackDirtyLines : Prop :=
  ∀ g sc s v, s.Issues v → v.active g ≠ 0 → scopeWide sc = true → v.sp.released = false → v.w.accessOut v.sp.mask = false →
    smWf ({} : L1Line) (s.core v.w.core).l1 = true → (∃ x ∈ (s.core v.w.core).l1, x.2.dirty ≠ 0) →
    ∃ (t : State) (x : Wave) (y : Split) (ids : List Nat), exec (.fence g sc) s = .next t ∧ t.mem.phys = s.mem.phys ∧ t.mem.host = s.mem.host ∧
      t.mem.vault = s.mem.vault ∧ (∀ z ∈ (t.core v.w.core).l1, z.2.dirty = 0) ∧ t.wave? v.u = some x ∧ x.r = v.w.r ∧
      x.split? v.e = some y ∧ y.block = .drain ids true ∧ y.pc = v.sp.pc ∧
      ∀ z ∈ (s.core v.w.core).l1, z.2.dirty ≠ 0 → ∃ b ∈ t.mem.wbs, b.core = v.w.core ∧ b.key = z.1 ∧ b.data = z.2.data ∧
        b.mask = z.2.dirty ∧ b.id ∈ ids

/-! ## Accesses that are performed -/

/-- Where a byte that a wave addresses lies: in a scratchpad, or in a line as its core sees it. -/
inductive Sys2Proof.Cell where
  | spad (team off : Nat)
  | line (key off : Nat)
  deriving DecidableEq

/-- The cell of an address (R204, R209). -/
def Sys2Proof.cellOf (s : State) (w : Wave) (a : Nat) : Option Cell :=
  if windowOf a = 3 then (s.spadAt w a).map fun p => .spad p.1 p.2 else some (.line (lineKey w.asid a) (a % 128))

/-- The byte of a cell as a core has it at hand: in a scratchpad, or valid in its L1. -/
def Sys2Proof.cellByte (s : State) (core : Nat) : Cell → Option Byte
  | .spad t off => (s.team? t).map fun x => smGet 0 x.spad off
  | .line key off => (s.l1 core key).bind fun x => if x.valid.getLsbD off then some (lineByte x.data off) else none

/-- Lane `l` of the outstanding access `o` may be performed now: it is not done, not parked, no earlier access of its split or lower
lane stands in its way (R211, R225), and no transfer has moved the access in this clock (R439). -/
structure Sys2Proof.Performs (s : State) (u n l : Nat) (w : Wave) (o : Op) (x : LaneArg) : Prop where
  wave : s.wave? u = some w
  op : w.op? n = some o
  arg : o.arg? l = some x
  lane : l < 32
  todo : hasLane o.todo l = true
  free : hasLane o.atRest l = false ∧ hasLane o.probe l = false
  first : w.lineBusy o (lineKey w.asid x.addr.toNat) = false ∧ o.lowerFirst x = false
  rest : w.parksBehind o x = false
  still : o.movedAt ≠ s.clk + 1

/-- The lane of an access is over: the operation loses it, or ends with its last (R225). -/
def Sys2Proof.LaneOver (o : Op) (n l : Nat) (y : Wave) : Prop :=
  if o.todo = laneBit l then y.op? n = none else ∃ p, y.op? n = some p ∧ p.todo = o.todo &&& ~~~laneBit l

/-- D and the registers after it have taken the words of a lane (R225, R227): a vector register in that lane, where it has not exited, a
uniform register as the split that holds the operation's lanes sees it (R90). Every other register and every predicate is as before. -/
def Sys2Proof.Took (w y : Wave) (o : Op) (d : Dst) (l : Nat) (xs : List W32) : Prop :=
  y.r.p = w.r.p ∧ match d with
  | .v n => y.r.k = w.r.k ∧ ∀ j m, m < 32 → y.getV j m = if m = l ∧ n ≤ j ∧ j < n + xs.length ∧ hasLane w.exited l = false
      then xs.getD (j - n) 0 else w.getV j m
  | .k n => y.r.v = w.r.v ∧ ∀ z, w.split? (w.entryOf o) = some z → ∃ q, y.split? (w.entryOf o) = some q ∧
      ∀ j, y.getK q j = if n ≤ j ∧ j < n + xs.length then xs.getD (j - n) 0 else w.getK z j

/-- An acquire by a core at a scope has been made (R263): beyond the core no clean byte is left in its L1; no other L1 changes. -/
def Sys2Proof.AfterAcquire (s t : State) (core : Nat) (sc : Scope) : Prop :=
  (scopeWide sc = true → ∀ y ∈ (t.core core).l1, y.2.dirty ≠ 0 ∧ y.2.valid = y.2.dirty) ∧ ∀ c, c ≠ core → (t.core c).l1 = (s.core c).l1

/-- The tag of a deep or arena line owns its content alone, in a frame, and may be written. -/
structure Sys2Proof.OwnLine (s : State) (key : Nat) (t : Tag) (e : Entry) : Prop where
  tag : smFind s.mem.tags key = some t
  w : t.w = true
  frame : t.frame.isSome = true
  zero : t.zero = false
  entry : smFind s.mem.entries (entryKey (homeSlice (keyAddr key)) t.index) = some e
  one : e.count = 1
  index : t.index < 32768

/-- A core has no dirty byte of a line in its L1, and none on its way to the line's home (R303). -/
def Sys2Proof.CoreClean (s : State) (core key : Nat) : Prop := (s.l1 core key).elim 0 L1Line.dirty = 0 ∧ s.mem.wbOut core key = false

/-- Beyond the L1s a line reads as `d` and may be read and written: at its home, in a tag of its own, or at its vault, by a cached grant
(R208, R210, R303). It is no cb4x line. -/
structure Sys2Proof.Beyond (s : State) (key : Nat) (d : LineData) : Prop where
  fmt : s.backFmt key ≠ 2
  home : windowOf (keyAddr key) ≠ 1 → ∃ t e, OwnLine s key t e ∧ t.r = true ∧ e.bad = false ∧ d = e.content
  vault : windowOf (keyAddr key) = 1 → s.mod.gated.contains (vaultOf (keyAddr key)) = false ∧
    s.mem.badBanks.contains (vaultCell (keyAddr key) / 2 ^ 23) = false ∧ s.mem.vaultBad (keyAddr key) = false ∧
    (∃ g, smFind s.mem.grants (128 * keyAsid key + vaultOf (keyAddr key)) = some g ∧
      ∀ b, b < 2 → g.testBit (2 * (vaultOff (keyAddr key) / 2 ^ 20) + b) = true) ∧
    d = lineOf (Memory.read s.mem.vault (vaultCell (keyAddr key) / 128 * 128) 128)

/-- Beyond the L1s the line now reads as `d`, and no other line, no byte of LPDDR-6 and none of host memory has changed: at its home it is
dirty (R246), at its vault its bytes stand in memory. -/
def Sys2Proof.Written (s t : State) (key : Nat) (d : LineData) : Prop :=
  t.mem.phys = s.mem.phys ∧ t.mem.host = s.mem.host ∧ (∀ k, k ≠ key → smFind t.mem.tags k = smFind s.mem.tags k) ∧
  (windowOf (keyAddr key) ≠ 1 → t.mem.vault = s.mem.vault ∧ ∃ z, smFind t.mem.tags key = some z ∧ z.dirty = true ∧ t.mem.content key z = d) ∧
  (windowOf (keyAddr key) = 1 → ∀ a, Memory.get t.mem.vault a =
    if vaultCell (keyAddr key) / 128 * 128 ≤ a ∧ a < vaultCell (keyAddr key) / 128 * 128 + 128
    then lineByte d (a - vaultCell (keyAddr key) / 128 * 128) else Memory.get s.mem.vault a)

/-- The loads of bytes: width, destination, and the scope of an acquiring one (R227, R306). -/
def Sys2Proof.loadForm : Instr → Option (Width × Dst × Option Scope)
  | .ld _ wd _ d _ _ _ => some (wd, .v d, none)
  | .ldk _ wd _ d _ _ => some (wd, .k d, none)
  | .ldAcq _ sc wd _ d _ _ _ => some (wd, d, some sc)
  | _ => none

/-- A load performed (R210, R226, R227, R306). From bytes at hand, in the scratchpad or valid in the L1, D and the registers after it take
the words of the bytes, and no byte of memory or of a scratchpad changes; `ld.acq` acquires, and beyond the core reads at the home or
vault. `ld.cv` reads its element there, converted, and leaves no copy in the L1 (R228); `fe.peek` reads the granule's bit (R230). The
operation loses the lane, or ends with its last. -/
def Obligations.LoadsTakeTheBytesAtHand : Prop :=
  (∀ s u n l w o x bs wd d sc, Performs s u n l w o x → loadForm o.ins = some (wd, d, sc) → o.uni = dstUni d →
    (∀ c, sc = some c → scopeWide c = true → windowOf x.addr.toNat = 3) →
    x.addr.toNat % accessBytes wd = 0 → bs.length = accessBytes wd →
    (∀ i, i < accessBytes wd → (cellOf s w (x.addr.toNat + i)).bind (cellByte s w.core) = bs[i]?) →
    (∀ k off, s.spadAt w x.addr.toNat = some (k, off) → ∀ i, i < accessBytes wd → (s.team? k).elim true (fun y => !smGet false y.bad (off + i)) = true) →
    (∀ z, s.l1 w.core (lineKey w.asid x.addr.toNat) = some z → z.bad &&& spanMask (x.addr.toNat % 128) (accessBytes wd) = 0) →
    ∃ t y, exec (.memAccessComplete u n (laneBit l)) s = .next t ∧ t.mem = s.mem ∧ t.wave? u = some y ∧ Took w y o d l (loadWords wd bs) ∧
      LaneOver o n l y ∧ (∀ core k off, cellByte t core (.spad k off) = cellByte s core (.spad k off)) ∧
      match sc with
      | none => ∀ core c, cellByte t core c = cellByte s core c
      | some c => AfterAcquire s t w.core c ∧ (scopeWide c = false → ∀ core c, cellByte t core c = cellByte s core c)) ∧
  (∀ s u n l w o x dt g sc wd fs d a b cc, Performs s u n l w o x → o.ins = .ldAcq g sc wd fs d a b cc → o.uni = dstUni d → scopeWide sc = true →
    windowOf x.addr.toNat < 3 → x.addr.toNat % accessBytes wd = 0 → Beyond s (lineKey w.asid x.addr.toNat) dt → CoreClean s w.core (lineKey w.asid x.addr.toNat) →
    ∃ t y, exec (.memAccessComplete u n (laneBit l)) s = .next t ∧ t.mem = s.mem ∧ t.wave? u = some y ∧ LaneOver o n l y ∧
      Took w y o d l (loadWords wd ((List.range (accessBytes wd)).map fun i => lineByte dt (x.addr.toNat % 128 + i))) ∧ AfterAcquire s t w.core sc) ∧
  (∀ s u n l w o x dt g x2 fs d a b cc, Performs s u n l w o x → o.ins = .ldCv g x2 fs d a b cc → o.uni = false →
    windowOf x.addr.toNat < 3 → Beyond s (lineKey w.asid x.addr.toNat) dt → CoreClean s w.core (lineKey w.asid x.addr.toNat) →
    let p := s.port (lineKey w.asid x.addr.toNat)
    let i := (x.data.headD 0).toNat
    ∃ t y, exec (.memAccessComplete u n (laneBit l)) s = .next t ∧ t.mem = s.mem ∧ t.wave? u = some y ∧ LaneOver o n l y ∧
      Took w y o (.v d) l [if x2 then BitVec.ofNat 32 ((p.readBf16 dt (i + 1)).1 * 65536 + (p.readBf16 dt i).1)
        else BitVec.ofNat 32 (p.readF32 dt i).1] ∧
      ∀ core k, t.l1 core k = if core = w.core ∧ k = lineKey w.asid x.addr.toNat then none else s.l1 core k) ∧
  ∀ s u n l w o x g fs d a b cc k off, Performs s u n l w o x → o.ins = .fePeek g fs d a b cc → o.uni = false →
    s.spadAt w x.addr.toNat = some (k, off) →
    ∃ t y, exec (.memAccessComplete u n (laneBit l)) s = .next t ∧ t.mem = s.mem ∧ t.wave? u = some y ∧ LaneOver o n l y ∧
      Took w y o (.v d) l [if s.feBit k off then 1 else 0] ∧ t.cores = s.cores ∧ ∀ core c, cellByte t core c = cellByte s core c

/-- The stores of bytes: width, and the scope of a releasing one (R227, R307). -/
def Sys2Proof.storeForm : Instr → Option (Width × Option Scope)
  | .st _ wd _ _ _ _ => some (wd, none)
  | .stk _ wd _ _ _ _ => some (wd, none)
  | .stRel _ sc wd _ _ _ _ => some (wd, some sc)
  | _ => none

/-- A store performed (R210, R226, R227, R307): the cells that its address names take its bytes, in the scratchpad or, for the core alone,
in its L1; every other cell of every core, every byte of memory and every register keeps its value. In a line whose W permission is
known, and in the scratchpad, the lane is done; else it waits for its permission probe. `st.rel` beyond the core writes at the home or
vault, and leaves no copy in the L1; so does `st.cv`, which writes its element encoded, and nothing for an element past the line (R228).
`st.fe.fill` and `fe.set` set the granule's bit (R230). -/
def Obligations.StoresWriteTheirBytesOnly : Prop :=
  (∀ s u n l w o x wd sc, Performs s u n l w o x → storeForm o.ins = some (wd, sc) → x.addr.toNat % accessBytes wd = 0 →
    (∀ c, sc = some c → scopeWide c = true → windowOf x.addr.toNat = 3) →
    x.data.length = accessRegs wd → (∀ k off, s.spadAt w x.addr.toNat = some (k, off) → (s.team? k).isSome = true) →
    (cellOf s w x.addr.toNat).isSome = true →
    let bs := storeBytes wd x.data
    let known := windowOf x.addr.toNat = 3 ∨ ((s.l1 w.core (lineKey w.asid x.addr.toNat)).elim false L1Line.w) = true
    ∃ t y, exec (.memAccessComplete u n (laneBit l)) s = .next t ∧ t.mem = s.mem ∧ t.wave? u = some y ∧ y.r.v = w.r.v ∧ y.r.k = w.r.k ∧
      (∀ i, i < accessBytes wd → (cellOf s w (x.addr.toNat + i)).bind (cellByte t w.core) = bs[i]?) ∧
      (∀ core z, (∀ i, i < accessBytes wd → cellOf s w (x.addr.toNat + i) ≠ some z ∨ (core ≠ w.core ∧ windowOf x.addr.toNat ≠ 3)) →
        cellByte t core z = cellByte s core z) ∧
      (known → LaneOver o n l y) ∧ (¬ known → ∃ p, y.op? n = some p ∧ p.todo = o.todo ∧ p.probe = o.probe ||| laneBit l)) ∧
  (∀ s u n l w o x dt g sc wd fs a b c, Performs s u n l w o x → o.ins = .stRel g sc wd fs a b c → scopeWide sc = true →
    windowOf x.addr.toNat < 3 → x.addr.toNat % accessBytes wd = 0 → x.data.length = accessRegs wd →
    Beyond s (lineKey w.asid x.addr.toNat) dt → CoreClean s w.core (lineKey w.asid x.addr.toNat) →
    ∃ t y, exec (.memAccessComplete u n (laneBit l)) s = .next t ∧ t.wave? u = some y ∧ y.r.v = w.r.v ∧ y.r.k = w.r.k ∧ LaneOver o n l y ∧
      Written s t (lineKey w.asid x.addr.toNat) (lineSet dt (x.addr.toNat % 128) (storeBytes wd x.data)) ∧
      ∀ core k, t.l1 core k = if core = w.core ∧ k = lineKey w.asid x.addr.toNat then none else s.l1 core k) ∧
  (∀ s u n l w o x dt g m fs a b c, Performs s u n l w o x → o.ins = .stCv g m fs a b c → windowOf x.addr.toNat < 3 →
    Beyond s (lineKey w.asid x.addr.toNat) dt → CoreClean s w.core (lineKey w.asid x.addr.toNat) →
    let p := s.port (lineKey w.asid x.addr.toNat)
    let i := (x.data.headD 0).toNat
    ∃ t y, exec (.memAccessComplete u n (laneBit l)) s = .next t ∧ t.wave? u = some y ∧ y.r.v = w.r.v ∧ y.r.k = w.r.k ∧ LaneOver o n l y ∧
      (i < elemsPerLine p.fmt → Written s t (lineKey w.asid x.addr.toNat)
        (elemPut p.fmt dt i (encodeElem p.fmt p.cb p.sat m (x.data.getD 1 0).toNat).1)) ∧
      (elemsPerLine p.fmt ≤ i → t.mem = s.mem) ∧
      ∀ core k, t.l1 core k = if core = w.core ∧ k = lineKey w.asid x.addr.toNat then none else s.l1 core k) ∧
  (∀ s u n l w o x g wd fs a b c k off z, Performs s u n l w o x → o.ins = .stFeFill g wd fs a b c → x.data.length = accessRegs wd →
    s.spadAt w x.addr.toNat = some (k, off) → s.team? k = some z →
    ∃ t y, exec (.memAccessComplete u n (laneBit l)) s = .next t ∧ t.mem = s.mem ∧ t.cores = s.cores ∧ t.wave? u = some y ∧ y.r.v = w.r.v ∧
      y.r.k = w.r.k ∧ LaneOver o n l y ∧ (∀ j, j ≠ k → (t.team? j).map (fun q => (q.spad, q.fe)) = (s.team? j).map fun q => (q.spad, q.fe)) ∧
      ∃ q, t.team? k = some q ∧ (∀ i, smGet false q.fe i = if i = off / 16 then true else smGet false z.fe i) ∧
        ∀ i, smGet 0 q.spad i = if off ≤ i ∧ i < off + accessBytes wd then (storeBytes wd x.data).getD (i - off) 0 else smGet 0 z.spad i) ∧
  ∀ s u n l w o x g full fs a b k off z, Performs s u n l w o x → o.ins = .feSet g full fs a b →
    s.spadAt w x.addr.toNat = some (k, off) → s.team? k = some z →
    ∃ t y, exec (.memAccessComplete u n (laneBit l)) s = .next t ∧ t.mem = s.mem ∧ t.cores = s.cores ∧ t.wave? u = some y ∧ y.r.v = w.r.v ∧
      y.r.k = w.r.k ∧ LaneOver o n l y ∧ (∀ j, j ≠ k → (t.team? j).map (fun q => (q.spad, q.fe)) = (s.team? j).map fun q => (q.spad, q.fe)) ∧
      ∃ q, t.team? k = some q ∧ q.spad = z.spad ∧ ∀ i, smGet false q.fe i = if i = off / 16 then full else smGet false z.fe i

/-- The atomics: destination, width, order, scope, and the new value by the data read and the old value, none where nothing is written
(R304). -/
def Sys2Proof.rmwForm : Instr → Option (Dst × Bool × MemOrd × Scope × (List W32 → Nat → Option Nat))
  | .atom _ od sc op w64 _ d _ _ _ => some (d, w64, od, sc, fun xs old => some (atomResult op (if w64 then 64 else 32) old (wordsNat xs)).1)
  | .atomCas _ od sc w64 _ d _ _ _ _ => some (d, w64, od, sc, fun xs old =>
      if old = wordsNat (xs.take (if w64 then 2 else 1)) then some (wordsNat (xs.drop (if w64 then 2 else 1))) else none)
  | _ => none

/-- An atomic performed (R303, R304), in the scratchpad, at the home or vault for a scope beyond the core, or in the core's L1: D takes the
old value in its lane, the location takes the result of the operation, or keeps its value where `atom.cas` finds another than it compares
with; every other cell and every other byte keeps its value. An acquiring one acquires. That no lower lane is in the way is the model's
order of lanes (log 59). -/
def Obligations.AtomicsReadModifyWrite : Prop :=
  ∀ s u n l w o x d w64 od sc f, Performs s u n l w o x → rmwForm o.ins = some (d, w64, od, sc, f) → o.uni = dstUni d →
    let size := if w64 then 8 else 4
    let key := lineKey w.asid x.addr.toNat
    let at_ := x.addr.toNat % 128
    x.addr.toNat % size = 0 →
    (∀ k off z, windowOf x.addr.toNat = 3 → s.spadAt w x.addr.toNat = some (k, off) → s.team? k = some z → (∀ i, smGet false z.bad i = false) →
      let old := natOfBytes ((List.range size).map fun i => smGet 0 z.spad (off + i))
      ∃ t y, exec (.memAccessComplete u n (laneBit l)) s = .next t ∧ t.mem = s.mem ∧ t.wave? u = some y ∧ Took w y o d l (valueWords w64 old) ∧
        LaneOver o n l y ∧ (od = .acq ∨ od = .acqrel → AfterAcquire s t w.core sc) ∧
        (∀ i, i < size → cellByte t w.core (.spad k (off + i)) = (le size ((f x.data old).getD old))[i]?) ∧
        ∀ core k' off', (k' ≠ k ∨ off' < off ∨ off + size ≤ off') → cellByte t core (.spad k' off') = cellByte s core (.spad k' off')) ∧
    (∀ dt, windowOf x.addr.toNat < 3 → scopeWide sc = true → Beyond s key dt → CoreClean s w.core key →
      let old := natOfBytes ((List.range size).map fun i => lineByte dt (at_ + i))
      ∃ t y, exec (.memAccessComplete u n (laneBit l)) s = .next t ∧ t.wave? u = some y ∧ Took w y o d l (valueWords w64 old) ∧ LaneOver o n l y ∧
        (od = .acq ∨ od = .acqrel → AfterAcquire s t w.core sc) ∧ t.l1 w.core key = none ∧ (∀ c, c ≠ w.core → (t.core c).l1 = (s.core c).l1) ∧
        (∀ new, f x.data old = some new → Written s t key (lineSet dt at_ (le size new))) ∧
        (f x.data old = none → t.mem.phys = s.mem.phys ∧ t.mem.host = s.mem.host ∧ t.mem.vault = s.mem.vault ∧
          ∀ k, smFind t.mem.tags k = smFind s.mem.tags k)) ∧
    ∀ dt z bs, windowOf x.addr.toNat < 3 → scopeWide sc = false → Beyond s key dt → s.l1 w.core key = some z →
      z.bad &&& spanMask at_ size = 0 → bs.length = size → (∀ i, i < size → cellByte s w.core (.line key (at_ + i)) = bs[i]?) →
      ∃ t y, exec (.memAccessComplete u n (laneBit l)) s = .next t ∧ t.wave? u = some y ∧ Took w y o d l (valueWords w64 (natOfBytes bs)) ∧
        LaneOver o n l y ∧ t.mem.phys = s.mem.phys ∧ t.mem.host = s.mem.host ∧ t.mem.vault = s.mem.vault ∧
        (∀ i, i < size → cellByte t w.core (.line key (at_ + i)) = (le size ((f x.data (natOfBytes bs)).getD (natOfBytes bs)))[i]?) ∧
        ∀ core q, (∀ i, i < size → core ≠ w.core ∨ q ≠ .line key (at_ + i)) → cellByte t core q = cellByte s core q

/-- The permission probe of a store (R210): at a home that grants W and holds no cb4x line it is confirmed, the lane is done and the
L1 line's W is known; at a home without W the store's bytes leave the L1 and the lane is left out with PERM, which becomes pending when
the operation ends with its last lane (R219). Memory does not change. -/
def Obligations.StoreProbeConfirmsOrDiscards : Prop :=
  ∀ s u n l w o x tag, s.wave? u = some w → w.op? n = some o → o.arg? l = some x → l < 32 → hasLane o.probe l = true → hasLane o.todo l = true →
    o.stuck = 0 →
    windowOf (keyAddr (lineKey w.asid x.addr.toNat)) ≠ 1 → smFind s.mem.tags (lineKey w.asid x.addr.toNat) = some tag →
    s.backFmt (lineKey w.asid x.addr.toNat) ≠ 2 →
    ∃ t y, exec (.storePermProbe u n (laneBit l)) s = .next t ∧ t.mem = s.mem ∧ t.wave? u = some y ∧ y.r.v = w.r.v ∧
      (if o.todo = laneBit l then y.op? n = none else ∃ p, y.op? n = some p ∧ p.todo = o.todo &&& ~~~laneBit l ∧ p.probe = o.probe &&& ~~~laneBit l ∧
        (tag.w = false → ⟨4, 0, l, x.addr⟩ ∈ p.found)) ∧
      (tag.w = false → o.todo = laneBit l → y.t.cause.getLsbD 4 = true) ∧
      (tag.w = true → ∀ z, s.l1 w.core (lineKey w.asid x.addr.toNat) = some z → z.valid ≠ 0 →
        t.l1 w.core (lineKey w.asid x.addr.toNat) = some { z with w := true }) ∧
      (tag.w = false → ∀ i, i < (memForm o.ins).n → x.addr.toNat % 128 + i < 128 →
        cellByte t w.core (.line (lineKey w.asid x.addr.toNat) (x.addr.toNat % 128 + i)) = none)

/-- A core evicts a line (R209, R210): it is gone from the L1, its dirty bytes are on their way to the line's home, and neither memory
nor any other line of an L1 changes. A write-back performed, at once or after it was held (R210, R218, R246): the line's home reads the
written bytes merged into what it held, dirty, and LPDDR-6 keeps its bytes; at a vault whose grant is cached, the vault's bytes under the
mask change and no other. The write-back is over. One that comes behind an earlier write-back of its core's line stays on its way
(R211). One with an uncorrectable error writes nothing, which is the model's choice (log 79), and the node that owns its arena slot fails
(R254, R457). A line whose entry other tags share is un-shared first (R246): it reads the merged bytes, and the others what they read. -/
def Obligations.WriteBacksLandWhereTheirLineLives : Prop :=
  (∀ s core asid addr x, s.l1 core (lineKey asid addr) = some x →
     ∃ t, exec (.l1Writeback core asid addr) s = .next t ∧ t.l1 core (lineKey asid addr) = none ∧
       (∀ c k, (c ≠ core ∨ k ≠ lineKey asid addr) → t.l1 c k = s.l1 c k) ∧ t.waves = s.waves ∧ t.mem.phys = s.mem.phys ∧
       t.mem.host = s.mem.host ∧ t.mem.vault = s.mem.vault ∧ t.mem.wbs = if x.dirty = 0 then s.mem.wbs else
         s.mem.wbs ++ [⟨s.mem.nextWb, core, lineKey asid addr, x.data, x.dirty, false, x.bad &&& x.dirty != 0⟩]) ∧
  (∀ s i id b, (i = .hmWriteArrive id ∨ i = .heldWritebackPerform id) → s.mem.wbs.find? (fun w => w.id == id) = some b →
     s.mem.wbBehind b = true → exec i s = .next s) ∧
  (∀ s i id b, (i = .hmWriteArrive id ∧ b.held = false ∨ i = .heldWritebackPerform id ∧ b.held = true) →
     s.mem.wbs.find? (fun w => w.id == id) = some b → s.mem.wbBehind b = false → s.mem.arenaDying b.key = false →
     (b.bad = false → ∀ t e, windowOf (keyAddr b.key) ≠ 1 → OwnLine s b.key t e →
       ∃ r t', exec i s = .next r ∧ smFind r.mem.tags b.key = some t' ∧ t'.dirty = true ∧
         r.mem.content b.key t' = mergeLine e.content b.data b.mask ∧ r.mem.phys = s.mem.phys ∧ r.mem.host = s.mem.host ∧
         r.mem.vault = s.mem.vault ∧ r.waves = s.waves ∧ ∀ c ∈ r.mem.wbs, c.id ≠ id) ∧
     (b.bad = false → ∀ t e, windowOf (keyAddr b.key) ≠ 1 → smFind s.mem.tags b.key = some t → t.w = true → t.frame.isSome = true → t.zero = false →
       smFind s.mem.entries (entryKey (homeSlice (keyAddr b.key)) t.index) = some e → 2 ≤ e.count → e.bad = false → t.index < 32768 →
       smWf ({} : Entry) s.mem.entries = true → (s.mem.sliceEntries (homeSlice (keyAddr b.key))).length < 32768 →
       ∃ r t', exec i s = .next r ∧ smFind r.mem.tags b.key = some t' ∧ t'.dirty = true ∧
         r.mem.content b.key t' = mergeLine e.content b.data b.mask ∧ r.mem.phys = s.mem.phys ∧ r.mem.host = s.mem.host ∧
         r.waves = s.waves ∧ (∀ c ∈ r.mem.wbs, c.id ≠ id) ∧
         ∀ k z, k ≠ b.key → smFind s.mem.tags k = some z → homeSlice (keyAddr k) = homeSlice (keyAddr b.key) → z.zero = false → z.index = t.index →
           smFind r.mem.tags k = some z ∧ r.mem.content k z = e.content) ∧
     (b.bad = true → ∃ r : State, exec i s = .next r ∧ r.mem.phys = s.mem.phys ∧ r.mem.host = s.mem.host ∧ r.mem.vault = s.mem.vault ∧
       r.mem.tags = s.mem.tags ∧ r.mem.entries = s.mem.entries ∧ r.waves = s.waves ∧ (∀ c ∈ r.mem.wbs, c.id ≠ id) ∧
       ∀ k n, windowOf (keyAddr b.key) = 2 → s.node? k = some n → n.asid = keyAsid b.key → n.slot.map Prod.fst = some (arenaSlot (keyAddr b.key)) →
         n.state ≠ .dead → n.failed = 0 → (r.node? k).map Node.failed = some 1) ∧
     (b.bad = false → ∀ g, windowOf (keyAddr b.key) = 1 → s.mod.gated.contains (vaultOf (keyAddr b.key)) = false →
       s.mem.badBanks.contains (vaultCell (keyAddr b.key) / 2 ^ 23) = false →
       smFind s.mem.grants (128 * keyAsid b.key + vaultOf (keyAddr b.key)) = some g →
       g.testBit (2 * (vaultOff (keyAddr b.key) / 2 ^ 20) + 1) = true →
       ∃ r, exec i s = .next r ∧ r.mem.phys = s.mem.phys ∧ r.mem.host = s.mem.host ∧ r.waves = s.waves ∧ (∀ c ∈ r.mem.wbs, c.id ≠ id) ∧
         ∀ a, Memory.get r.mem.vault a = if vaultCell (keyAddr b.key) / 128 * 128 ≤ a ∧ a < vaultCell (keyAddr b.key) / 128 * 128 + 128 ∧
           b.mask.getLsbD (a - vaultCell (keyAddr b.key) / 128 * 128) = true
           then lineByte b.data (a - vaultCell (keyAddr b.key) / 128 * 128) else Memory.get s.mem.vault a))

/-- A line can come into its home slice without pushing anything out: its translation is cached and names this address, and its set and
its slice have room. -/
structure Sys2Proof.Fills (s : State) (key : Nat) (t : Tlb) : Prop where
  window : windowOf (keyAddr key) = 0 ∨ windowOf (keyAddr key) = 2
  absent : smFind s.mem.tags key = none
  hit : s.mem.tlbHit (keyAsid key) (keyAddr key) = some t
  own : aliased t.leaf t.big (keyAsid key) (keyAddr key) = false
  set : (s.mem.tags.filter fun x => homeSlice (keyAddr x.1) == homeSlice (keyAddr key) && homeSet (keyAddr x.1) == homeSet (keyAddr key)).length < 16
  slice : (s.mem.sliceEntries (homeSlice (keyAddr key))).length < 32768

/-- What a lane of `pin` answers for a tag at its home (R257, R258). -/
def Sys2Proof.pinStatus (s : State) (asid key : Nat) (t : Tag) : Nat :=
  let es := s.mem.pinnedEntries (homeSlice (keyAddr key))
  if t.pin then 1 else if 12 ≤ s.mem.pinnedWays key then 2
  else if t.zero = false ∧ t.index ∉ es ∧ 24576 ≤ es.length then 3
  else if (s.asid asid).pinq ≤ (s.asid asid).pins then 4 else 0

/-- What the residency words do when a lane of theirs is performed (R257-R260). -/
def Sys2Proof.ResidencyWordsActOnTheirLines : Prop :=
  (∀ s u n l w o x g fs d a cc, Performs s u n l w o x → o.ins = .pin g fs d a cc → o.uni = dstUni d →
    let key := lineKey w.asid x.addr.toNat
    (windowOf x.addr.toNat ≠ 0 → windowOf x.addr.toNat ≠ 2 →
      ∃ t y, exec (.memAccessComplete u n (laneBit l)) s = .next t ∧ t.mem = s.mem ∧ t.wave? u = some y ∧ Took w y o d l [5] ∧ LaneOver o n l y) ∧
    ∀ z, windowOf x.addr.toNat = 0 ∨ windowOf x.addr.toNat = 2 → smFind s.mem.tags key = some z →
      ∃ t y, exec (.memAccessComplete u n (laneBit l)) s = .next t ∧ t.mem.phys = s.mem.phys ∧ t.wave? u = some y ∧
        Took w y o d l [BitVec.ofNat 32 (pinStatus s w.asid key z)] ∧ LaneOver o n l y ∧
        (pinStatus s w.asid key z ≠ 0 → t.mem = s.mem) ∧
        (pinStatus s w.asid key z = 0 → (t.asid w.asid).pins = (s.asid w.asid).pins + 1 ∧
          ∀ k, smFind t.mem.tags k = if k = key then some { z with pin := true } else smFind s.mem.tags k)) ∧
  (∀ s u n l w o x g fs d a cc, Performs s u n l w o x → o.ins = .unpin g fs d a cc → o.uni = dstUni d →
    let key := lineKey w.asid x.addr.toNat
    let pinned := (smFind s.mem.tags key).elim false Tag.pin
    let st := if windowOf x.addr.toNat ≠ 0 ∧ windowOf x.addr.toNat ≠ 2 then 5 else if pinned then 0 else 1
    ∃ t y, exec (.memAccessComplete u n (laneBit l)) s = .next t ∧ t.mem.phys = s.mem.phys ∧ t.wave? u = some y ∧ Took w y o d l [st] ∧
      LaneOver o n l y ∧ (st ≠ 0 → t.mem = s.mem) ∧ (st = 0 → (t.asid w.asid).pins = (s.asid w.asid).pins - 1 ∧
        ∀ k, smFind t.mem.tags k = if k = key then (smFind s.mem.tags k).map fun z => { z with pin := false } else smFind s.mem.tags k)) ∧
  (∀ s u n l w o x g fs a, Performs s u n l w o x → o.ins = .flushL1 g fs a ∨ o.ins = .flushHm g fs a →
    let key := lineKey w.asid x.addr.toNat
    (∀ z, windowOf x.addr.toNat ≠ 3 → s.l1 w.core key = some z → z.dirty ≠ 0 → o.args = [x] →
      ∃ t y p, exec (.memAccessComplete u n (laneBit l)) s = .next t ∧ t.mem.phys = s.mem.phys ∧ t.mem.tags = s.mem.tags ∧ t.wave? u = some y ∧
        y.r = w.r ∧ y.op? n = some p ∧ p.todo = o.todo ∧ (t.l1 w.core key).elim 0 L1Line.dirty = 0 ∧
        ∃ b ∈ t.mem.wbs, b.core = w.core ∧ b.key = key ∧ b.data = z.data ∧ b.mask = z.dirty) ∧
    (o.ins = .flushL1 g fs a → windowOf x.addr.toNat = 3 ∨ CoreClean s w.core key → o.args = [x] →
      ∃ t y, exec (.memAccessComplete u n (laneBit l)) s = .next t ∧ t.mem = s.mem ∧ t.cores = s.cores ∧ t.wave? u = some y ∧ y.r.v = w.r.v ∧
        y.r.k = w.r.k ∧ LaneOver o n l y) ∧
    ∀ z e host pa, o.ins = .flushHm g fs a → CoreClean s w.core key → o.args = [x] → windowOf x.addr.toNat = 0 ∨ windowOf x.addr.toNat = 2 →
      OwnLine s key z e → e.bad = false → z.dirty = true → z.frame = some (host, pa) →
      ∃ t y, exec (.memAccessComplete u n (laneBit l)) s = .next t ∧ t.cores = s.cores ∧ t.wave? u = some y ∧ y.r.v = w.r.v ∧ y.r.k = w.r.k ∧
        LaneOver o n l y ∧ smFind t.mem.tags key = some { z with dirty := false } ∧ t.mem.entries = s.mem.entries ∧
        t.mem.store (!host) = s.mem.store (!host) ∧
        ∀ i, Memory.get (t.mem.store host) i = if pa ≤ i ∧ i < pa + 128 then lineByte e.content (i - pa) else Memory.get (s.mem.store host) i) ∧
  (∀ s u n l w o x g fs a, Performs s u n l w o x → o.ins = .invalL1 g fs a ∨ o.ins = .invalHm g fs a → windowOf x.addr.toNat < 4 →
    let key := lineKey w.asid x.addr.toNat
    (∀ z, o.ins = .invalHm g fs a → windowOf x.addr.toNat = 0 ∨ windowOf x.addr.toNat = 2 → smFind s.mem.tags key = some z → z.w = true) →
    (o.ins = .invalHm g fs a → windowOf x.addr.toNat = 0 ∨ windowOf x.addr.toNat = 2 → (smFind s.mem.tags key).isSome = true) →
    ∃ t y, exec (.memAccessComplete u n (laneBit l)) s = .next t ∧ t.mem.phys = s.mem.phys ∧ t.mem.host = s.mem.host ∧ t.mem.vault = s.mem.vault ∧
      t.wave? u = some y ∧ y.r.v = w.r.v ∧ y.r.k = w.r.k ∧ LaneOver o n l y ∧
      (∀ c k, t.l1 c k = if c = w.core ∧ k = key ∧ windowOf x.addr.toNat ≠ 3 then none else s.l1 c k) ∧
      ∀ k, smFind t.mem.tags k = if k = key ∧ o.ins = .invalHm g fs a ∧ (windowOf x.addr.toNat = 0 ∨ windowOf x.addr.toNat = 2)
        then none else smFind s.mem.tags k) ∧
  ∀ s u n w o x g fs a b, s.wave? u = some w → w.op? n = some o → o.arg? 0 = some x → o.ins = .hmzero g fs a b → o.movedAt ≠ s.clk + 1 →
    hasLane o.todo 0 = true → o.atRest = 0 → w.lineParked o (lineKey w.asid x.addr.toNat) = false →
    let key := fun (j : Nat) => lineKey w.asid (x.addr.toNat + 128 * j)
    (∀ j, j < (x.data.headD 0).toNat → w.lineBusy o (key j) = false ∧ s.mem.wbOut w.core (key j) = false ∧
      ∃ z, smFind s.mem.tags (key j) = some z ∧ z.w = true) →
    ∃ t y, exec (.memAccessComplete u n (laneBit 0)) s = .next t ∧ t.mem.phys = s.mem.phys ∧ t.mem.host = s.mem.host ∧ t.mem.vault = s.mem.vault ∧
      t.wave? u = some y ∧ y.r.v = w.r.v ∧ y.r.k = w.r.k ∧ y.op? n = none ∧
      (∀ j, j < (x.data.headD 0).toNat → t.l1 w.core (key j) = none ∧
        ∃ z, smFind t.mem.tags (key j) = some z ∧ z.dirty = true ∧ t.mem.content (key j) z = 0) ∧
      ∀ k, (∀ j, j < (x.data.headD 0).toNat → k ≠ key j) → smFind t.mem.tags k = smFind s.mem.tags k ∧ ∀ c, t.l1 c k = s.l1 c k

/-- A fill brings the memory's bytes of a line into its home slice with the permissions of its leaf (R214, R243); a walk's leaf is kept
by the TLB of the home die (R212); neither changes memory. A tool's store of a patch word over a patch site (R80) changes that word of the
line and no other, and no memory byte behind it. `pref` (R231) goes on, with no register changed: with its lines at the home, readable, the
whole lines come into the L1; `pref.hm` brings an absent line to its home. The residency words when they are performed: `pin` and `unpin`
answer with their status and mark the tag (R257, R258); a flush sends the core's dirty bytes and waits for them, `flush.hm` then writes a
dirty tag's content to its frame, and an invalidation drops the core's copy, or the tag too (R259); `hmzero` leaves every line of its
run reading zero at its home, dirty (R260). The width with which R203 and R204 take `pref`, and how long a TLB keeps a leaf, are the
model's choice (log 76, log 72). -/
def Obligations.LinesAreFilledFetchedAndPatched : Prop :=
  ((∀ s asid addr t, (windowOf addr = 0 ∨ windowOf addr = 2) → Fills s (lineKey asid addr) t →
     ∃ r x, exec (.hmFill asid addr) s = .next r ∧ smFind r.mem.tags (lineKey asid addr) = some x ∧ x.r = leafR t.leaf ∧ x.w = leafW t.leaf ∧
       x.x = leafX t.leaf ∧ x.dirty = false ∧ r.mem.content (lineKey asid addr) x = lineOf (Memory.read (s.mem.store (leafHost t.leaf))
         (frameAddr t.leaf t.big (keyAddr (lineKey asid addr))) 128) ∧
       r.mem.phys = s.mem.phys ∧ r.mem.host = s.mem.host ∧ r.mem.vault = s.mem.vault ∧ r.waves = s.waves ∧ r.cores = s.cores) ∧
   ∀ s asid a e big, windowOf a = 0 → s.mem.tlbHit asid a = none → s.mem.walkDeep asid a = .leaf e big →
     ∃ r, exec (.pageWalk asid a) s = .next r ∧ r.translate asid a = (.leaf e big, r) ∧ r.mem.phys = s.mem.phys ∧
       r.mem.tags = s.mem.tags ∧ r.waves = s.waves) ∧
  (∀ s asid addr x t e h, addr % 8 = 0 → addr < 2 ^ 56 → patchWordOk x = true → OwnLine s (lineKey asid addr) t e → t.x = true →
     (Line.ofData (addr / 128) e.content).cover (addr / 8 % 16) = some h →
     ((Line.ofData (addr / 128) e.content).clause h).patch = true → h + 1 = addr / 8 % 16 →
     patchWordOk ((Line.ofData (addr / 128) e.content).word (addr / 8 % 16)) = true →
     ∃ r t', exec (.patchStore asid addr x) s = .next r ∧ smFind r.mem.tags (lineKey asid addr) = some t' ∧ r.mem.phys = s.mem.phys ∧
       r.waves = s.waves ∧ ∀ n, n < 16 → (Line.ofData (addr / 128) (r.mem.content (lineKey asid addr) t')).word n =
         if n = addr / 8 % 16 then x else (Line.ofData (addr / 128) e.content).word n) ∧
  (∀ g hm a b s v, s.Issues v → v.mayIssue .load → v.active g ≠ 0 → s.Readable v (v.active g) [(a, 2), (b, 1)] →
     (∀ l ∈ lanesOf (v.active g), (s.laneAddr v (memForm (.pref g hm a b)) l).2 = none) →
     let key := fun (l : Nat) => lineKey v.w.asid (s.effAddr v (memForm (.pref g hm a b)) l).1
     (hm = false → (∀ l ∈ lanesOf (v.active g), (windowOf (s.effAddr v (memForm (.pref g hm a b)) l).1 = 0 ∨
         windowOf (s.effAddr v (memForm (.pref g hm a b)) l).1 = 2) ∧ s.mem.badLine (key l) = false ∧
         s.l1 v.w.core (key l) = none ∧ s.mem.wbOut v.w.core (key l) = false ∧ ∃ t, smFind s.mem.tags (key l) = some t ∧ t.r = true) →
       ∃ (r : State) (x : Wave), exec (.pref g hm a b) s = .next (r.goOn v) ∧ r.mem = s.mem ∧ r.wave? v.u = some x ∧ v.w.Reads x ∧
         ∀ l ∈ lanesOf (v.active g), ∀ t, smFind s.mem.tags (key l) = some t → ∀ i, i < 128 →
           cellByte r v.w.core (.line (key l) i) = some (lineByte (s.mem.content (key l) t) i)) ∧
     ∀ t l, hm = true → lanesOf (v.active g) = [l] → Fills s (key l) t → leafR t.leaf = true →
       ∃ (r : State) (x : Wave), exec (.pref g hm a b) s = .next (r.goOn v) ∧ r.wave? v.u = some x ∧ v.w.Reads x ∧ r.mem.phys = s.mem.phys ∧
         (smFind r.mem.tags (key l)).isSome = true) ∧
  ResidencyWordsActOnTheirLines

/-! ## Full-empty bits -/

/-- `ld.fe` (R229): the word holds its split with an operation for every active lane, and changes no register. A lane that finds its
granule full (R206), with no earlier access of its split to the line outstanding (R211): D takes the scratchpad's words, `take` empties the granule's bit and no other bit changes, and the split goes on with
its last lane. One that has been held for FETIMEOUT clocks of CTXCLK raises FETIME for its pending lanes and changes no register (R207). -/
def Obligations.FullEmptyLoadsWaitTakeOrTimeOut : Prop :=
  (∀ g wd take d a b cc s v, s.Issues v → v.mayIssue .load → v.active g ≠ 0 → v.sp.feLeft = none →
     s.Readable v (v.active g) [(a, 2), (b, 1)] → v.w.acquireOut v.sp.mask = false →
     (∀ l ∈ lanesOf (v.active g), (s.laneAddr v (memForm (.ldFe g wd take d a b cc)) l).2 = none) →
     s.barcHolds v (s.laneAddrs v (memForm (.ldFe g wd take d a b cc)) (v.active g)) = false →
     ∃ t x y, exec (.ldFe g wd take d a b cc) s = .next t ∧ s.Local t v.u ∧ t.wave? v.u = some x ∧ v.w.Reads x ∧ x.split? v.e = some y ∧
       y.next = v.ctx.next ∧ y.block = .fe { v.op (.ldFe g wd take d a b cc) false (v.active g) false ((lanesOf (v.active g)).map fun l =>
         s.laneArg v (memForm (.ldFe g wd take d a b cc)) l (s.effAddr v (memForm (.ldFe g wd take d a b cc)) l).1) with flag := none }
         (s.ctxclk v.w.gang)) ∧
  ((∀ s u e l w x o since g wd take d a b cc y k off z, s.wave? u = some w → w.split? e = some x → x.block = .fe o since →
     o.ins = .ldFe g wd take d a b cc → o.arg? l = some y → l < 32 → hasLane o.todo l = true → hasLane w.exited l = false →
     s.spadAt w y.addr.toNat = some (k, off) → s.team? k = some z → smGet false z.fe (off / 16) = true → (∀ i, smGet false z.bad i = false) →
     (∀ m, m < l → hasLane o.todo m = true → ∀ q, o.arg? m = some q → q.addr.toNat / 16 ≠ y.addr.toNat / 16) →
     w.lineBusy o (lineKey w.asid y.addr.toNat) = false →
     ∃ t w', exec (.ldFeGrant u e l) s = .next t ∧ t.mem = s.mem ∧ t.wave? u = some w' ∧
       (∀ j m, m < 32 → w'.getV j m = if m = l ∧ d ≤ j ∧ j < d + accessRegs wd
         then (loadWords wd ((List.range (accessBytes wd)).map fun i => smGet 0 z.spad (off + i))).getD (j - d) 0 else w.getV j m) ∧
       (∀ k' n, (t.team? k').map (fun x => smGet false x.fe n) =
         if k' = k ∧ n = off / 16 ∧ take = true then some false else (s.team? k').map fun x => smGet false x.fe n) ∧
       (∀ core c, (∃ k' o', c = .spad k' o') → cellByte t core c = cellByte s core c) ∧
       (o.todo ≠ laneBit l → ∃ x' p, w'.split? e = some x' ∧ x'.block = .fe p since ∧ p.todo = o.todo &&& ~~~laneBit l) ∧
       (o.todo = laneBit l → (x.nextHdr = false → ∃ x', w'.split? e = some x' ∧ x'.pc = x.next ∧ x'.mask = x.mask ∧ x'.block = .none) ∧
         (x.nextHdr = true → ∃ (r : State) (z : Split), t = r.moveTo u e x.next .none ∧ (r.wave? u).bind (fun q => q.split? e) = some z ∧ z.place = x.place))) ∧
   ∀ s u e w x o since, s.wave? u = some w → w.split? e = some x → x.block = .fe o since → (s.bank w).fetimeout ≠ 0 →
     since + (s.bank w).fetimeout.toNat ≤ s.ctxclk w.gang →
     ∃ t w' x', exec (.fetimeExpiry u e) s = .next t ∧ s.Local t u ∧ t.wave? u = some w' ∧ w'.r = w.r ∧ w'.t.cause = w.t.cause ||| 0x100 ∧
       w'.t.planes = w.t.planes ||| o.todo ∧ w'.split? e = some x' ∧ x'.block = .none ∧ x'.feLeft = some o.todo ∧ x'.pc = x.pc)

/-! ## Words that a unit answers once -/

/-- A word that acts once for its wave: role row, guard, flag, release, what it reads, and the address and words it sends. -/
structure Sys2Proof.Once where
  g : Guard
  fs : Bool
  rel : Option Scope
  srcs : List (Src × Nat)
  addr : State → Env → W64
  data : State → Env → List W32

/-- Mailboxes, tickets, the Mint, spawns, `recast`, `pwr.req` and `hmstat`. -/
def Sys2Proof.onceForm : Instr → Option Once
  | .mbsend g fs _ a kb => some ⟨g, fs, some .pkg, [(a, 2), (.k kb, 8)], fun s v => s.rd64 v 0 a, fun s v => (List.range 8).map fun i => s.rd v 0 (.k (kb + i))⟩
  | .mbrecv g _ _ fs _ => some ⟨g, fs, none, [], fun _ _ => 0, fun _ _ => []⟩
  | .tkres g fs _ a b => some ⟨g, fs, none, [(a, 1), (b, 1)], fun _ _ => 0, fun s v => [s.rd v 0 a, s.rd v 0 b]⟩
  | .tkcom g fs _ a b => some ⟨g, fs, some .pkg, [(a, 1), (b, 1)], fun _ _ => 0, fun s v => [s.rd v 0 a, s.rd v 0 b]⟩
  | .hmstat g _ fs _ => some ⟨g, fs, none, [], fun _ _ => 0, fun _ _ => []⟩
  | .mint g fs _ => some ⟨g, fs, none, [], fun _ _ => 0,
      fun _ v => [if 4 ≤ v.w.wk.held.length + (v.w.ops.filter Op.isMint).length then 1 else 0]⟩
  | .mintDone g fs _ kb => some ⟨g, fs, some .pkg, [(.k (kb + 1), 4)], fun _ _ => 0, fun s v => (List.range 4).map fun i => s.rd v 0 (.k (kb + 1 + i))⟩
  | .nodeSpawn g fs _ a => some ⟨g, fs, some .pkg, [(a, 2)], fun s v => s.rd64 v 0 a, fun _ _ => []⟩
  | .recast g fs _ b => some ⟨g, fs, none, [(b, 1)], fun _ _ => 0, fun s v => [s.rd v 0 b]⟩
  | .pwrReq g fs _ b => some ⟨g, fs, none, [(b, 1)], fun _ _ => 0, fun s v => [s.rd v 0 b]⟩
  | _ => none

/-- Such a word is outstanding until its unit answers (R62, R261, R317-R321, R410, R411, R413, R441, R471): its operation holds what it
sends, its flag rises by one, the split goes on, and no register and no byte of memory changes. `mon` does the same for a handler split
(R472), and `hmzero` for a run of lines that R260 lets pass. `hmstat` and `hmzero` wait for an acquire of their split that is to come
(R305). -/
def Obligations.OnceWordsAwaitTheirAnswer : Prop :=
  (∀ i F s v n, onceForm i = some F → s.Issues v → v.flagFree F.fs n → v.active F.g ≠ 0 → Released s v F.rel →
    s.Readable v (v.active F.g) F.srcs → (∀ g sel fs d, i = .hmstat g sel fs d → v.w.acquireOut v.sp.mask = false) →
    ∃ t x, exec i s = .next (t.goOn v) ∧ s.Local t v.u ∧ t.wave? v.u = some x ∧
      v.w.Began x (v.op i F.fs (v.active F.g) true [⟨0, F.addr s v, F.data s v⟩])) ∧
  (∀ g fs kb s v n, s.Issues v → v.e = 4 → v.flagFree fs n → v.active g ≠ 0 → s.Readable v (v.active g) [(.k kb, 8)] →
    ∃ t x, exec (.mon g fs kb) s = .next (t.goOn v) ∧ s.Local t v.u ∧ t.wave? v.u = some x ∧
      v.w.Began x (v.op (.mon g fs kb) fs (v.active g) true [⟨0, 0, (List.range 8).map fun i => s.rd v 0 (.k (kb + i))⟩])) ∧
  ∀ g fs a b s v n, s.Issues v → v.flagFree fs n → v.active g ≠ 0 → s.Readable v (v.active g) [(a, 2), (b, 1)] →
    s.accessFull v (v.op (.hmzero g fs a b) fs (v.active g) true [⟨0, s.rd64 v 0 a, [s.rd v 0 b]⟩]) = false → s.zeroCheck v.w (s.rd64 v 0 a).toNat (s.rd v 0 b).toNat = none →
    ∃ t x, exec (.hmzero g fs a b) s = .next (t.goOn v) ∧ s.Local t v.u ∧ t.wave? v.u = some x ∧
      v.w.Began x (v.op (.hmzero g fs a b) fs (v.active g) true [⟨0, s.rd64 v 0 a, [s.rd v 0 b]⟩])

/-! ## Fences and barriers -/

/-- A fence whose release has nothing to wait for acquires and goes on (R263, R308): at a scope beyond the core every byte of its L1 that is
not dirty is gone, no other L1 changes, and no memory changes. A split that reaches a barrier is held there with the place where it goes
on, and at `bar.wave` merges with its mates; a handler split, and a task wave above the wave, only releases and acquires (R310-R312).
`barc` is held in the same way with its predicate and request (R313). A handler split and a task wave at `barc` are the model's reading
(log 19). -/
def Obligations.FencesAcquireAndBarriersHold : Prop :=
  (∀ g sc s v, s.Issues v → v.active g ≠ 0 → Released s v (some sc) →
    ∃ (t : State) (x : Wave), exec (.fence g sc) s = .next (t.goOn v) ∧ t.mem = s.mem ∧ t.wave? v.u = some x ∧ v.w.Reads x ∧
      (scopeWide sc = true → ∀ y ∈ (t.core v.w.core).l1, y.2.dirty ≠ 0 ∧ y.2.valid = y.2.dirty) ∧
      ∀ c, c ≠ v.w.core ∨ scopeWide sc = false → (t.core c).l1 = (s.core c).l1) ∧
  (∀ i l pd a s v, i = .bar l ∨ (i = .barc pd a ∧ l = .team) → s.Issues v → Released s v (some (barScope l)) →
    (i = .barc pd a → s.Readable v v.sp.mask [(a, 1)]) →
    (v.e = 4 ∨ (v.w.res.isSome = true ∧ l ≠ .wave) →
      ∃ (t : State) (x : Wave), exec i s = .next (t.goOn v) ∧ t.mem = s.mem ∧ t.wave? v.u = some x ∧ v.w.Reads x) ∧
    (v.e ≠ 4 → l ≠ .wave → v.w.res = none →
      ∃ (t : State) (x : Wave) (y : Split), exec i s = .next t ∧ s.Local t v.u ∧ t.wave? v.u = some x ∧ v.w.Reads x ∧
        x.split? v.e = some y ∧ y.next = v.ctx.next ∧ y.nextHdr = v.ctx.hdr ∧
        y.block = .barrier l v.serial (if i = .bar l then none else some (pd, s.rd v 0 a)))) ∧
  ∀ s v, s.Issues v → Released s v (some .wave) → v.e ≠ 4 → v.w.ovf = [] →
    ∃ (t : State) (x : Wave) (e : Nat) (y : Split), exec (.bar .wave) s = .next t ∧ s.Local t v.u ∧ t.wave? v.u = some x ∧ x.r = v.w.r ∧
      x.split? e = some y ∧ y.heldAt .wave = true ∧ y.mask &&& v.sp.mask = v.sp.mask ∧ y.next = v.ctx.next

/-- An instance whose participants have all arrived completes (R310, R311): no split of theirs stays held at it, and no register and no
byte of memory changes. A `barc` instance completes by its resize (R313, R314): the request of the lowest wave is carried out where it
fits, the wave's predicate takes 1 in every lane, and the scratchpad keeps its bytes below its new size. -/
def Obligations.BarrierInstancesComplete : Prop :=
  (∀ l key s, s.barReady l key = true → (l = .team → ∀ q ∈ s.barWaves .team key, q.2.barReq = none) →
    ∃ t : State, exec (.barInstanceComplete l key) s = .next t ∧ t.mem = s.mem ∧ t.engines = s.engines ∧
      ∀ u w, s.wave? u = some w → (l = .wave ∧ u = key ∨ l ≠ .wave ∧ (u, w) ∈ s.barWaves l key) →
        ∃ x, t.wave? u = some x ∧ x.r = w.r ∧ x.exited = w.exited ∧ ∀ e y, e < 4 → x.split? e = some y → y.heldAt l = false) ∧
  ∀ key s k core u w pd req k', s.team? key = some k → k.core = some core → s.barReady .team key = true → k.barc = true →
    s.teamBusy key = false → (u, w) ∈ s.barWaves .team key → s.wave? u = some w → w.barReq = some (pd, req) →
    (∀ q ∈ s.barWaves .team key, q.2.barReq.isSome = true → q ≠ (u, w) → w.index < q.2.index) →
    s.carve key k core req = some k' →
    (k'.granules ≤ k.granules ∨ k'.granules - k.granules + s.heldGranules core ≤ s.freeGranules core) →
    ∃ (t : State) (x : Wave), exec (.barcResize key) s = .next t ∧ t.mem.phys = s.mem.phys ∧ t.mem.host = s.mem.host ∧
      t.mem.vault = s.mem.vault ∧ (t.team? key).map (fun y => (y.regG, y.spadG, y.l1G, y.barc)) =
        some (k.regG, req.toNat % 256, req.toNat / 256 % 256, false) ∧
      (∀ off, (t.team? key).map (fun y => smGet 0 y.spad off) = some (if off < req.toNat % 256 * 16384 then smGet 0 k.spad off else 0)) ∧
      t.wave? u = some x ∧ x.getP pd &&& w.present = w.present ∧ x.r.v = w.r.v

/-! ## Engine commands -/

/-- A command has been accepted (R323, R325, R330): it has the next number, its status entry says pending, its flag rises by one, the
register D of a tagged form takes the number, and no other register and no byte of memory changes. -/
def Sys2Proof.Accepted (s t : State) (v : Env) (i : Instr) (fs : Bool) (m : Mask) (tag : Option Nat) (n : Nat) (c : Cmd) : Prop :=
  ∃ x y, s.Local t v.u ∧ t.wave? v.u = some x ∧ x.split? v.e = some y ∧ c.num = v.w.wk.cmdseq ∧ x.getF n = v.w.getF n + 1 ∧
    x.ops = v.w.ops ++ [{ v.op i fs m true [] with cmd := some c, todo := 1 }] ∧ x.wk.cmdseq = (c.num + 1) % 2 ^ 32 ∧
    smFind x.wk.status (c.num % 16) = some ⟨c.num, 0, 0xFF, 0, none⟩ ∧ x.r.v = v.w.r.v ∧ x.r.p = v.w.r.p ∧
    ∀ j, x.getK y j = if tag = some j then BitVec.ofNat 32 c.num else v.w.getK v.sp j

/-- The two words of `cstat` (R336): those of the status entry of a command that is among the latest 16 of its wave, else code 10 and 0. -/
def Sys2Proof.cmdWords (w : Wave) (n : Nat) : W32 × W32 :=
  let back := (w.wk.cmdseq + 2 ^ 32 - n) % 2 ^ 32
  match smFind w.wk.status (n % 16) with
  | some e => if 1 ≤ back ∧ back ≤ 16 ∧ e.num = n then (BitVec.ofNat 32 (e.code + 256 * e.lane), e.mask) else (10, 0)
  | none => (10, 0)

/-- An engine command whose operands pass the checks of R326 is accepted (R322, R323, R330-R334): `cpy` with one segment for each active
lane, or one in all for uniform addresses; `cpy.g`, `cpy.s` and `coll` with one. A `coll` joins the next instance of its member, or ends
with status none where the group does not name it. `cstat` writes the two words of a command's status to D and the register after it and
changes no memory (R336). That `cpy` checks the first byte alone of a source it decodes is the model's choice (log 30). -/
def Obligations.EngineCommandsAreAccepted : Prop :=
  ((∀ g o tag cv m fs a b c s v n, s.Issues v → v.mayIssue .load → v.flagFree fs n → v.active g ≠ 0 → v.w.entryBusy = false →
     v.w.acquireOut v.sp.mask = false → s.Readable v (v.active g) [(a, 2), (b, 2), (c, 1)] →
     let ls := if srcUni a && srcUni b then [0] else lanesOf (v.active g)
     let len := (s.rd v 0 c).toNat
     (s.copyLoad v.w.core).1 < 64 → (s.copyLoad v.w.core).2 + ls.length ≤ 1024 → len ≤ 2 ^ 26 →
     (∀ l ∈ ls, (s.rd64 v l a).toNat % (cpyExtents cv len).1.2 = 0 ∧ s.rangeBad v.w (s.rd64 v l a).toNat (cpyExtents cv len).1.1 = none ∧
       (s.rd64 v l b).toNat % (cpyExtents cv len).2.2 = 0 ∧ s.rangeBad v.w (s.rd64 v l b).toNat (cpyExtents cv len).2.1 = none) →
     ∃ t, exec (.cpy g o tag cv m fs a b c) s = .next (t.goOn v) ∧ Accepted s t v (.cpy g o tag cv m fs a b c) fs (v.active g) tag n
       { num := v.w.wk.cmdseq, ord := o, par := [s.rd v 0 c], segs := ls.map fun l =>
           { lane := if srcUni a && srcUni b then none else some l, dst := s.rd64 v l a, src := s.rd64 v l b,
             code := if len = 0 then 1 else 0 } }) ∧
   (∀ i g o tag size i64 fs a b kq s v n, i = .cpyG g o tag size i64 fs a b kq ∨ i = .cpyS g o tag size i64 fs a b kq →
     s.Issues v → v.mayIssue .load → v.flagFree fs n → v.active g ≠ 0 → v.w.entryBusy = false → v.w.acquireOut v.sp.mask = false →
     s.Readable v (v.active g) [(a, 2), (b, 2), (.k kq, 4)] → s.copyFull v = false →
     s.listCheck v i64 (s.rd64 v 0 a).toNat (s.rd64 v 0 b).toNat ((List.range 4).map fun j => s.rd v 0 (.k (kq + j))) = none →
     ∃ t, exec i s = .next (t.goOn v) ∧ Accepted s t v i fs (v.active g) tag n
       { num := v.w.wk.cmdseq, ord := o, par := (List.range 4).map fun j => s.rd v 0 (.k (kq + j)),
         segs := [{ lane := none, dst := s.rd64 v 0 a, src := s.rd64 v 0 b }] }) ∧
   ∀ g o tag op ty fs a b kq s v n, s.Issues v → v.mayIssue .vecOnly → v.flagFree fs n → v.active g ≠ 0 → v.w.entryBusy = false →
     v.w.acquireOut v.sp.mask = false → s.Readable v (v.active g) [(a, 2), (b, 2), (.k kq, 4)] → s.collLoad (dieOf v.w.core) < 256 →
     let q := (List.range 4).map fun j => s.rd v 0 (.k (kq + j))
     s.collCheck v (s.rd64 v 0 a).toNat (s.rd64 v 0 b).toNat q = none →
     (s.collMember v op q = none →
       ∃ t, exec (.coll g o tag op ty fs a b kq) s = .next (t.goOn v) ∧ Accepted s t v (.coll g o tag op ty fs a b kq) fs (v.active g) tag n
         { num := v.w.wk.cmdseq, ord := o, par := q, coll := some (0, 0, 0),
           segs := [{ lane := none, dst := s.rd64 v 0 a, src := s.rd64 v 0 b, code := 9 }] }) ∧
     ∀ gr gn rank, s.collMember v op q = some (gr, gn, rank) →
       (∀ z ∈ s.graph.insts, z.asid = v.w.asid → z.group = gn → z.inst = smGet 0 s.graph.collCount (collKey v.w.asid gn rank) → z.aborted = false) →
       ∃ t, exec (.coll g o tag op ty fs a b kq) s = .next (t.goOn v) ∧ Accepted s t v (.coll g o tag op ty fs a b kq) fs (v.active g) tag n
         { num := v.w.wk.cmdseq, ord := o, par := q, coll := some (gn, smGet 0 s.graph.collCount (collKey v.w.asid gn rank), rank),
           segs := [{ lane := none, dst := s.rd64 v 0 a, src := s.rd64 v 0 b }] } ∧
         smGet 0 t.graph.collCount (collKey v.w.asid gn rank) = smGet 0 s.graph.collCount (collKey v.w.asid gn rank) + 1 ∧
         ∃ z ∈ t.graph.insts, z.asid = v.w.asid ∧ z.group = gn ∧ z.inst = smGet 0 s.graph.collCount (collKey v.w.asid gn rank) ∧
           ⟨rank, v.u, v.w.wk.cmdseq⟩ ∈ z.parts) ∧
  (∀ g d b s v, s.Issues v → v.active g ≠ 0 → s.Readable v (v.active g) [(b, 1)] →
     ∃ (t : State) (x : Wave), exec (.cstat g d b) s = .next (t.goOn v) ∧ t.mem = s.mem ∧ t.wave? v.u = some x ∧ v.w.Rest x v.e ∧
       v.w.WrotePair v.sp x v.e (.k d) (v.active g) fun _ => join32 (cmdWords v.w (s.rd v 0 b).toNat).2 (cmdWords v.w (s.rd v 0 b).toNat).1)

/-- What an engine does with a command (R269, R277, R323-R327). Within scratchpads a raw `cpy`, behind no earlier access of its split,
leaves the bytes of its source in its destination and changes no other scratchpad byte. While an earlier access of its split is
outstanding a pending command waits. A command of a placed wave whose segments are all final leaves its number and the first code other than
1 in its status entry, and its flag falls; a segment with a code of 3 or more makes ENGINE pending for its lane. A walk that failed is
posted once as a fault record with the address, the kind of access (0 a read, 1 a write) and the reason; in the model's list of records it is
one of class 2, an engine command's; how a record reaches the driver is the model's reading (log 14). -/
def Obligations.EngineCommandsMoveBytesAndEnd : Prop :=
  (∀ s u num n w o c h g0 od tag m fs a b l k1 o1 z1 k2 o2, s.wave? u = some w → w.cmdOp num = some n → w.op? n = some o → o.cmd = some c →
    o.ins = .cpy g0 od tag .raw m fs a b l → c.segs = [h] → h.code = 0 → h.fault = none → windowOf h.src.toNat = 3 → windowOf h.dst.toNat = 3 →
    s.spadAt w h.src.toNat = some (k1, o1) → s.team? k1 = some z1 → s.spadAt w h.dst.toNat = some (k2, o2) → (s.team? k2).isSome = true →
    (∀ i, smGet false z1.bad i = false) → h.pos = 0 → h.bad = 1 → (∀ p ∈ w.ops, p.precedes o = false) →
    (∀ p ∈ w.ops, p.movedAt ≠ s.clk + 1) → (∀ z, s.team? w.teamKey = some z → z.frames = []) →
    let len := (c.par.getD 0 0).toNat
    ∃ t, exec (.engineCmdComplete u num) s = .next t ∧ t.mem.phys = s.mem.phys ∧ t.mem.host = s.mem.host ∧ t.mem.vault = s.mem.vault ∧
      (∀ i, i < len → (t.team? k2).map (fun y => smGet 0 y.spad (o2 + i)) = some (smGet 0 z1.spad (o1 + i))) ∧
      ∀ k off, (k ≠ k2 ∨ off < o2 ∨ o2 + len ≤ off) → (t.team? k).map (fun y => smGet 0 y.spad off) = (s.team? k).map fun y => smGet 0 y.spad off) ∧
  (∀ s u num n w o c, s.wave? u = some w → w.cmdOp num = some n → w.op? n = some o → o.cmd = some c → (∃ g ∈ c.segs, g.code = 0) →
    (∃ p ∈ w.ops, p.precedes o = true) → (∀ z, s.team? w.teamKey = some z → z.frames = []) → exec (.engineCmdComplete u num) s = .next s) ∧
  (∀ s u num n w o c, s.wave? u = some w → w.cmdOp num = some n → w.op? n = some o → o.cmd = some c → (∀ g ∈ c.segs, g.code ≠ 0) →
    w.place.isSome = true → (∀ p ∈ w.ops, p.movedAt ≠ s.clk + 1) → (∀ z, s.team? w.teamKey = some z → z.frames = []) →
    (∀ g ∈ c.segs, g.code = 1 → s.arenaDead w.asid g.dst.toNat = false) →
    (c.ord.rel = true → (∀ y ∈ (s.core w.core).l1, y.2.dirty = 0) ∧ ∀ y ∈ s.mem.wbs, y.core ≠ w.core) →
    ∃ (t : State) (x : Wave), exec (.engineCmdComplete u num) s = .next t ∧ t.mem = s.mem ∧ t.wave? u = some x ∧ x.op? n = none ∧
      x.r.v = w.r.v ∧ x.r.k = w.r.k ∧ (∀ f, o.flag = some f → x.getF f = w.getF f - 1) ∧
      (smFind x.wk.status (c.num % 16)).map (fun e => (e.num, e.code)) = some (c.num, ((c.segs.find? fun g => g.code != 1).map Seg.code).getD 1) ∧
      ((1 < c.segs.length ∧ ∃ g ∈ c.segs, 3 ≤ g.code ∧ ∃ l, g.lane = some l ∧ l < 32 ∧ hasLane w.exited l = false) ∨
        (∃ g, c.segs = [g] ∧ 3 ≤ g.code ∧ o.issued &&& w.present ≠ 0) → x.t.cause.getLsbD 17 = true)) ∧
  ∀ s u num n w o c g j reason wr a, s.wave? u = some w → w.cmdOp num = some n → w.op? n = some o → o.cmd = some c →
    c.segs.zipIdx.find? (fun x => x.1.fault.isSome && x.1.record.isNone) = some (g, j) → g.fault = some (reason, wr, a) →
    ∃ (t : State) (x : Wave) (p : Op) (c' : Cmd) (f : FaultRec), exec (.engineFaultPost u num) s = .next t ∧ t.mem = s.mem ∧ t.wave? u = some x ∧
      x.r = w.r ∧ x.op? n = some p ∧ p.cmd = some c' ∧ c'.segs[j]? = some { g with record := some s.front.nextFault } ∧
      t.front.faults = s.front.faults ++ [f] ∧ f.serial = s.front.nextFault ∧ f.kind = 2 ∧ f.wave = u ∧ f.op = some n ∧ f.settled = false ∧
      f.bytes.take 8 = le 8 a.toNat ∧ f.bytes.getD 0x0A 0 = (if wr then 1 else 0) ∧ f.bytes.getD 0x1B 0 = BitVec.ofNat 8 reason

/-- A collective whose members are all of this module (R334, R335): where they agree on operation, type, count and root, and their sources
are read, every command goes on with the result of its rank; where they do not, every command ends with status mismatch. An instance that
is not complete LIMIT microseconds after its first command is aborted. Each time the instance takes no further member. -/
def Obligations.CollectivesFoldOverRanks : Prop :=
  (∀ s x gr k ks, s.graph.insts.find? (fun y => y.asid == x.asid && y.group == x.group && y.inst == x.inst) = some x →
    smFind s.graph.groups (256 * x.asid + x.group) = some gr → x.aborted = false → (s.collAsks x).length = x.parts.length →
    (s.collAsks x).length = gr.members.length → ((s.collAsks x).map CollAsk.rank).eraseDups.length = gr.members.length →
    (s.collAsks x).map (fun y => (y.op, y.ty, (y.c.par.headD 0).toNat, (y.c.par.getD 2 0).toNat)) = k :: ks →
    ((∃ y ∈ ks, y ≠ k) → ∃ t : State, exec (.collInstanceComplete x.asid x.group x.inst []) s = .next t ∧ t.mem = s.mem ∧
      (∀ y ∈ t.graph.insts, ¬ (y.asid = x.asid ∧ y.group = x.group ∧ y.inst = x.inst)) ∧
      ∀ y ∈ s.collAsks x, ∃ z p c, t.wave? y.u = some z ∧ z.op? y.serial = some p ∧ p.cmd = some c ∧ ∀ g ∈ c.segs, g.code = 7) ∧
    ∀ got r, (∀ y ∈ ks, y = k) → s.collReads gr.members.length k.2.2.2 (s.collAsks x) [] = .ok (got, r) →
      (s.collAsks x).Pairwise (fun y z => (y.u, y.serial) ≠ (z.u, z.serial)) →
      ∃ t : State, exec (.collInstanceComplete x.asid x.group x.inst []) s = .next t ∧ t.mem = r.mem ∧
        (∀ y ∈ t.graph.insts, ¬ (y.asid = x.asid ∧ y.group = x.group ∧ y.inst = x.inst)) ∧
        ∀ y ∈ s.collAsks x, ∀ z p, r.wave? y.u = some z → z.op? y.serial = some p →
          ∃ z' p', t.wave? y.u = some z' ∧ z'.op? y.serial = some p' ∧ p'.cmd.map Cmd.result = p.cmd.map fun _ =>
            some (collResult k.1 k.2.1 k.2.2.1 k.2.2.2 y.rank ((List.range gr.members.length).map fun j =>
              ((got.find? fun q => q.1 == j).map Prod.snd).getD []))) ∧
  ∀ s x gr, s.graph.insts.find? (fun y => y.asid == x.asid && y.group == x.group && y.inst == x.inst) = some x →
    smFind s.graph.groups (256 * x.asid + x.group) = some gr → x.aborted = false → x.first + 1400 * gr.limit ≤ s.clk →
    ∃ t : State, exec (.collTimeout x.asid x.group x.inst) s = .next t ∧ (s.collAsks x = [] → t.mem = s.mem ∧ t.waves = s.waves) ∧
      (∀ y ∈ s.collAsks x, ∃ z p c, t.wave? y.u = some z ∧ z.op? y.serial = some p ∧ p.cmd = some c ∧ ∀ g ∈ c.segs, g.code = 8) ∧
      ∀ y ∈ t.graph.insts, y.asid = x.asid ∧ y.group = x.group ∧ y.inst = x.inst → y.aborted = true ∧ y.parts = []

/-! ## The matrix engine -/

/-- How an engine program starts and stops (R337, R345, R347, R359-R361): `mstart` claims an engine that is free or idle and sets RUN, VER,
START and MEPC, with k0 to k7 from its parameter block; `mstop` asks it to stop; when its work is done, and for a stop request while its gang
is placed, RUN falls, the code stands in MESTAT and the starting wave's count falls; loads that wait are withdrawn by a stop request, and
MEPC then names the first of them, which is the model's reading, as it is that a failure withdraws them (log 85). A fetched line is kept, and the program stands at its header. A failure sets the code and makes
a cause pending for the lanes of the starting wave. -/
def Obligations.EngineProgramsStartAndStop : Prop :=
  (∀ g t parm fs s v n pc b, s.Issues v → v.mayIssue .start → v.flagFree fs n → v.active g ≠ 0 →
    (∀ p, parm = some p → s.Readable v (v.active g) [(.k p, 8)]) → ((s.engine v.w.core).owner = none ∨ s.ownerAt v.w.core = some v.w.teamKey ∧ (s.engine v.w.core).run = false) →
    targetAt v.ctx.pc t 0 = some pc → targetShape .entry pc = true → s.HasLine v.w.asid (lineNum pc) b → b.kind = 2 → wordIdx pc = 1 →
    ∃ (r : State) (x : Wave), exec (.mstart g t parm fs) s = .next (r.goOn v) ∧ r.mem = s.mem ∧ r.wave? v.u = some x ∧
      v.w.Began x { v.op (.mstart g t parm fs) fs (v.active g) true [] with todo := 1, waiting := true } ∧
      (r.engine v.w.core).run = true ∧ (r.engine v.w.core).ver = v.sp.ver ∧ (r.engine v.w.core).mepc = pc ∧
      (r.engine v.w.core).owner = some v.w.teamKey ∧ (r.engine v.w.core).start = v.w.slot ∧ (r.engine v.w.core).starter = some (v.u, v.serial) ∧
      (r.engine v.w.core).jobs = [] ∧ (r.engine v.w.core).f = [] ∧
      ∀ p j, parm = some p → j < 8 → smGet 0 (r.engine v.w.core).k j = s.rd v 0 (.k (p + j))) ∧
  (∀ g s v, s.Issues v → v.mayIssue .start → v.active g ≠ 0 → s.ownerAt v.w.core = some v.w.teamKey →
    ∃ (r : State) (x : Wave), exec (.mstop g) s = .next (r.goOn v) ∧ r.mem = s.mem ∧ r.wave? v.u = some x ∧ v.w.Reads x ∧
      r.engine v.w.core = if (s.engine v.w.core).run = true ∧ (s.engine v.w.core).stopping = none ∧ (s.engine v.w.core).fault = none
        then { s.engine v.w.core with stopping := some 2, stopAt := s.clk } else s.engine v.w.core) ∧
  (∀ core code s, (s.engine core).stopping = some code → (s.engine core).run = true → (s.engine core).fault = none →
    (∀ j ∈ (s.engine core).jobs, code = 2 ∧ j.load.isSome = true) → (code ≠ 2 ∨ (s.engine core).stopAt < s.clk ∧ s.engineStands (s.engine core) = true) →
    (∀ u n w o, (s.engine core).starter = some (u, n) → s.wave? u = some w → w.op? n = some o → o.movedAt ≠ s.clk + 1) →
    ∃ r : State, exec (.engineStop core) s = .next r ∧ r.mem = s.mem ∧ (r.engine core).run = false ∧ (r.engine core).stopCode = code ∧
      (r.engine core).stopping = none ∧ (r.engine core).acc = (s.engine core).acc ∧ (r.engine core).tile = (s.engine core).tile ∧
      (r.engine core).jobs = [] ∧
      (r.engine core).mepc = (if code = 2 then ((s.engine core).jobs.findSome? Job.load).elim (s.engine core).mepc Load.pc else (s.engine core).mepc) ∧
      ∀ u n w o, (s.engine core).starter = some (u, n) → s.wave? u = some w → w.op? n = some o →
        ∃ x, r.wave? u = some x ∧ x.op? n = none ∧ ∀ f, o.flag = some f → x.getF f = w.getF f - 1) ∧
  (∀ core b s, s.engineUp core = true → (s.engine core).arrived = false → (s.engine core).lineIn = false → (s.engine core).due = .none →
    s.HasLine (s.engineAsid (s.engine core)) (lineNum (s.engine core).mepc) b → b.check (s.engine core).ver = none →
    b.isHdr (wordIdx (s.engine core).mepc) = true → b.clauseCheck (wordIdx (s.engine core).mepc) = none →
    exec (.engineFetch core) s = .next (s.setEngine core { s.engine core with buf := some b, due := .none, arrived := true })) ∧
  ∀ core code d a u n w s, (s.engine core).fault = some (code, d, a) → (s.engine core).starter = some (u, n) → s.wave? u = some w →
    3 ≤ code → code ≤ 8 →
    ∃ (r : State) (x : Wave), exec (.engineProgramFault core) s = .next r ∧ r.mem = s.mem ∧ r.wave? u = some x ∧ x.r = w.r ∧
      (r.engine core).stopCode = code ∧ (r.engine core).stopping = some code ∧ (r.engine core).fault = none ∧
      (r.engine core).jobs = (s.engine core).jobs.filter (fun j => j.load.isNone) ∧ x.t.cause = w.t.cause ||| ((1 : W32) <<< [17, 6, 7, 14, 3, 4].getD (code - 3) 0) ∧ x.t.planes = w.t.planes ||| w.present

/-- The engine program issues a word of its own, with the plain guard and a flag that has room. -/
structure Sys2Proof.ByEngine (s : State) (core : Nat) (c : Ctx) (fs : Bool) : Prop where
  cur : s.cur = some c
  who : c.who = .engine core
  flag : (c.flag fs).isSome = true ∧ (s.engine core).flagRoom (c.flag fs) = true
  slave : (s.engine core).slave = false

/-- Array work or a load has begun: the job is the engine's latest, its flag rises by one, and the program goes on. -/
def Sys2Proof.Working (e x : Engine) (c : Ctx) (i : Instr) (f : Option Nat) (l : Option Load := none) : Prop :=
  x.jobs = e.jobs ++ [⟨i, f, l⟩] ∧ x.mepc = c.next ∧ ∀ n, f = some n → smGet 0 x.f n = smGet 0 e.f n + 1

/-- No accumulator but `acc`, and its shadow where Touchstone is in force, has changed. -/
def Sys2Proof.OtherAccs (touch : Bool) (acc : Nat) (e x : Engine) : Prop :=
  ∀ n i j, i < 64 → j < 64 → n ≠ acc → (touch = true → n ≠ acc + 8) → x.accAt n i j = e.accAt n i j

/-- The operands of an `mma.pair` pass the checks that are made when it issues (R351, R364). -/
structure Sys2Proof.PairIssues (s : State) (core : Nat) (e y : Engine) (f : Fmt) (acc ta tb : Nat) : Prop where
  leader : core % 2 = 0
  owned : (s.ownerAt (core + 1)).isSome = true
  gang : y.owner.map (· / 4) = e.owner.map (· / 4)
  fmts : (e.shape ta).fmt = fmtCode f ∧ (e.shape tb).fmt = fmtCode f ∧ (y.shape ta).fmt = fmtCode f
  acc_ : e.accBad acc = false
  tokens : ∀ x, x = y ∨ x = e → x.token acc ≠ 1 ∧ x.token acc ≠ 2
  free : e.jobs.any (fun j => j.writesTile ta || j.writesTile tb || j.onAcc e.touch acc) = false

/-- What the words of the array compute (R349, R351, R352, R362-R366). `mma` and `mma.pair` replace every element of the accumulator by its
product of a row of each tile with the old element, and no other accumulator but Touchstone's shadow; a pair waits for the follower's
array; `accz` zeroes it; `acrel` makes its token available, for a wave from the next clock on (R372); `tld` begins to wait for its phase,
and the program goes on. When the bit has it, the oldest load acquires and fills the rows of its tile with the bytes of the team's
scratchpad (R348, R362); one whose rows leave the slot or the scratchpad writes nothing and is ILLEGAL. Work ends (R346, R351, R358): the
oldest load, or the oldest array operation, is over and its flag falls; a pair frees its follower. When `mma` reads its sources, bytes
that nothing has loaded, and the format a tile is read with are the model's choice (log 11, log 27, log 28). -/
def Obligations.ArrayWordsComputeTheTile : Prop :=
  ((∀ f acc ta tb fs s core c, ByEngine s core c fs → ((s.engine core).shape ta).fmt = fmtCode f → ((s.engine core).shape tb).fmt = fmtCode f →
     (s.engine core).accBad acc = false → (s.engine core).token acc ≠ 1 → (s.engine core).token acc ≠ 2 →
     (s.engine core).jobs.any (fun j => j.writesTile ta || j.writesTile tb || j.onAcc (s.engine core).touch acc) = false →
     ∃ r : State, exec (.mma .always f acc ta tb fs) s = .next r ∧ r.mem = s.mem ∧ r.waves = s.waves ∧
       Working (s.engine core) (r.engine core) c (.mma .always f acc ta tb fs) (c.flag fs) ∧ (r.engine core).token acc = 0 ∧
       (∀ i j, i < 64 → j < 64 → (r.engine core).accAt acc i j = mmaElem (fmtCode f) ((s.engine core).accAt acc i j)
         ((s.engine core).row s.mem (fmtCode f) ta i) ((s.engine core).row s.mem (fmtCode f) tb j)) ∧
       OtherAccs (s.engine core).touch acc (s.engine core) (r.engine core)) ∧
   (∀ f acc ta tb fs s core c, ByEngine s core c fs →
     let e := s.engine core
     let y := s.engine (core + 1)
     (e.pairing = true ∨ PairIssues s core e y f acc ta tb → s.pairWaits (core + 1) ta = false →
       ∃ r : State, exec (.mmaPair .always f acc ta tb fs) s = .next r ∧ r.mem = s.mem ∧ r.waves = s.waves ∧
         Working e (r.engine core) c (.mmaPair .always f acc ta tb fs) (c.flag fs) ∧ (r.engine core).pairing = false ∧
         (r.engine (core + 1)).slave = true ∧ (r.engine (core + 1)).jobs = y.jobs ∧
         OtherAccs e.touch acc e (r.engine core) ∧ OtherAccs e.touch acc y (r.engine (core + 1)) ∧
         ∀ i j, i < 64 → j < 64 →
           (r.engine core).accAt acc i j = mmaElem (fmtCode f) (e.accAt acc i j) (e.row s.mem (fmtCode f) ta i) (e.row s.mem (fmtCode f) tb j) ∧
           (r.engine (core + 1)).accAt acc i j = mmaElem (fmtCode f) (y.accAt acc i j) (y.row s.mem (fmtCode f) ta i)
             (e.row s.mem (fmtCode f) tb j)) ∧
     (e.pairing = false → PairIssues s core e y f acc ta tb → s.pairWaits (core + 1) ta = true →
       ∃ r : State, exec (.mmaPair .always f acc ta tb fs) s = .next r ∧ r.mem = s.mem ∧ r.waves = s.waves ∧ (r.engine core).pairing = true ∧
         (r.engine core).mepc = e.mepc ∧ (r.engine core).jobs = e.jobs ∧ (r.engine core).acc = e.acc ∧ (r.engine (core + 1)).acc = y.acc ∧
         (r.engine core).token acc = 0 ∧ (r.engine (core + 1)).token acc = 0)) ∧
   (∀ acc s core c, s.cur = some c → c.who = .engine core → (s.engine core).slave = false → (s.engine core).accBad acc = false → (s.engine core).token acc ≠ 1 → (s.engine core).token acc ≠ 2 →
     (s.engine core).jobs.any (fun j => j.onAcc (s.engine core).touch acc) = false →
     (∃ r : State, exec (.accz .always acc) s = .next r ∧ r.mem = s.mem ∧ r.waves = s.waves ∧ (r.engine core).mepc = c.next ∧
       ∀ n i j, i < 64 → j < 64 → (r.engine core).accAt n i j =
         if n = acc ∨ ((s.engine core).touch = true ∧ n = acc + 8) then 0 else (s.engine core).accAt n i j) ∧
     ((s.engine core).touch = false ∨ (s.engine core).mismatch acc = none →
       ∃ r : State, exec (.acrel .always acc) s = .next r ∧ r.mem = s.mem ∧ r.waves = s.waves ∧ (r.engine core).mepc = c.next ∧
         (r.engine core).token acc = 1 ∧ (r.engine core).acc = (s.engine core).acc ∧ (r.engine core).takable acc s.clk = false ∧
         (r.engine core).takable acc (s.clk + 1) = true)) ∧
   ∀ td map slot b fs s core c off sl ph, ByEngine s core c fs → s.engineRd core (s.engine core) b = some off →
     let e := s.engine core
     let mp := e.omapAt map
     let rg := e.ring mp.ring
     let start := rg.base * 128 + sl * ((rg.slotsz + 1) * 128)
     let load : Load := ⟨td, e.shape td, mp.ring, sl, ph, start + 16 * off.toNat, 16 * mp.stride, start + (rg.slotsz + 1) * 128, c.pc⟩
     (slot = none ∧ sl = mp.slot ∧ ph = mp.phase ∨
       ∃ x sw, slot = some x ∧ s.engineRd core e x = some sw ∧ sl = sw.toNat % 256 ∧ ph = sw.getLsbD 8) →
     loadShapeBad (e.shape td) mp = false → rg.names sl = true → e.jobs.any (fun j => j.readsTile td) = false →
     ∃ r : State, exec (.tld .always td map slot b fs) s = .next r ∧ r.mem = s.mem ∧ r.waves = s.waves ∧
       Working e (r.engine core) c (.tld .always td map slot b fs) (c.flag fs) (some load) ∧
       (r.engine core).tile = e.tile ∧ (r.engine core).scale = e.scale ∧ (r.engine core).latch = e.latch ∧ (r.engine core).acc = e.acc) ∧
  ((∀ core s j l z, (s.engine core).jobs.find? (fun j => j.load.isSome) = some j → j.load = some l →
     (s.loadDue core l = false → exec (.tldDone core) s = .next s) ∧
     (s.loadDue core l = true → s.team? ((s.engine core).owner.getD 0) = some z →
       let e := s.engine core
       let row := fun (n : Nat) => l.base + l.step * n
       let scales := if l.shape.fmt = 2 then (l.shape.rowlen + 32) / 32 else 0
       let fits := fun (n : Nat) => row n + l.shape.rowlen + 1 ≤ min l.top (z.spadG * 16384) ∧
         (l.shape.fmt = 2 → row n + 128 + scales ≤ min l.top (z.spadG * 16384))
       ((∃ n, n ≤ l.shape.rows ∧ ¬ fits n) →
         ∃ r : State, exec (.tldDone core) s = .next r ∧ r.mem = s.mem ∧ r.waves = s.waves ∧ (r.engine core).mepc = l.pc ∧
           (r.engine core).fault = some (3, Detail.operand.code, 0) ∧ (r.engine core).tile = e.tile ∧ (r.engine core).acc = e.acc) ∧
       ((∀ n, n ≤ l.shape.rows → fits n) → (∀ i, smGet false z.bad i = false) → l.shape.rows < 64 → l.shape.rowlen < 128 →
         ∃ r : State, exec (.tldDone core) s = .next r ∧ r.mem = s.mem ∧ r.waves = s.waves ∧
           (r.engine core).jobs = e.jobs.eraseP (fun j => j.load.isSome) ∧ (r.engine core).acc = e.acc ∧ (r.engine core).mepc = e.mepc ∧
           (∀ f, j.flag = some f → smGet 0 (r.engine core).f f = smGet 0 e.f f - 1) ∧
           (∀ n, smFind (r.engine core).latch n = if n = l.tile then some (l.shape.fmt, l.shape.cb) else smFind e.latch n) ∧
           (∀ y ∈ (r.core core).l1, y.2.dirty ≠ 0 ∧ y.2.valid = y.2.dirty) ∧
           (∀ n k i, n < 64 → i < 128 → smFind (r.engine core).tile (8192 * k + 128 * n + i) = if k = l.tile ∧ n ≤ l.shape.rows ∧ i ≤ l.shape.rowlen
             then some (smGet 0 z.spad (row n + i)) else smFind e.tile (8192 * k + 128 * n + i)) ∧
           ∀ n k i, n < 64 → i < 4 → smFind (r.engine core).scale (256 * k + 4 * n + i) = if k = l.tile ∧ n ≤ l.shape.rows ∧ i < scales
             then some (smGet 0 z.spad (row n + 128 + i)) else smFind e.scale (256 * k + 4 * n + i)))) ∧
   ∀ core s n j, (s.engine core).jobs.findIdx? Job.isArray = some n → (s.engine core).jobs[n]? = some j →
     ∃ r : State, exec (.mmaDone core) s = .next r ∧ r.mem = s.mem ∧ r.waves = s.waves ∧ (r.engine core).jobs = (s.engine core).jobs.eraseIdx n ∧
       (r.engine core).acc = (s.engine core).acc ∧ (∀ f, j.flag = some f → smGet 0 (r.engine core).f f = smGet 0 (s.engine core).f f - 1) ∧
       ((∃ g f a b c fs, j.ins = .mmaPair g f a b c fs) → (r.engine (core + 1)).slave = false))

/-- `ring.wait` goes on where the phase bit is the awaited one, and `ring.arv` flips it, in a wave and in the engine program (R348, R367,
R368): a wave names an engine of its gang and makes its release first; the engine waits for its own work and its core's write-backs.
`mloop` counts k down and goes on at 0, else branches to its target (R369); one whose target is refused leaves k as it was (R356). -/
def Obligations.RingsSynchroniseTheEngine : Prop :=
  (∀ g ring core self a s v t, s.Issues v → v.mayIssue .ring → v.active g ≠ 0 → s.Readable v (v.active g) [(a, 1)] →
    s.ownerAt (ringCore v.w.core core self) = some t → t / 4 = v.w.gang →
    let c := ringCore v.w.core core self
    let slot := (s.rd v 0 a).toNat % 256
    ((s.engine c).ring ring).names slot = true →
    ((s.engine c).phaseBit ring slot = (s.rd v 0 a).getLsbD 8 →
      ∃ (r : State) (x : Wave), exec (.ringWait g ring core self a) s = .next (r.goOn v) ∧ r.mem = s.mem ∧ r.engines = s.engines ∧
        r.wave? v.u = some x ∧ v.w.Reads x) ∧
    (Released s v (some .quad) →
      ∃ (r : State) (x : Wave), exec (.ringArv g ring core self a) s = .next (r.goOn v) ∧ r.mem = s.mem ∧ r.wave? v.u = some x ∧
        v.w.Reads x ∧ ∀ n m k, (r.engine k).phaseBit n m =
          if k = c ∧ 256 * n + m = 256 * ring + slot then !(s.engine c).phaseBit ring slot else (s.engine k).phaseBit n m)) ∧
  (∀ ring q a s core c x, s.cur = some c → c.who = .engine core → s.engineRd core (s.engine core) a = some x →
    ((s.engine core).ring ring).names (x.toNat % 256) = true →
    ((s.engine core).phaseBit ring (x.toNat % 256) = x.getLsbD 8 →
      ∃ r : State, exec (.ringWait .always ring q true a) s = .next (r.engineGo core c) ∧ r.mem = s.mem ∧ r.engines = s.engines ∧ r.waves = s.waves) ∧
    ((s.engine core).jobs = [] → (∀ y ∈ (s.core core).l1, y.2.dirty = 0) → (∀ y ∈ s.mem.wbs, y.core ≠ core) →
      ∃ r : State, exec (.ringArv .always ring q true a) s = .next (r.engineGo core c) ∧ r.mem = s.mem ∧ r.waves = s.waves ∧
        ∀ n m, (r.engine core).phaseBit n m = if 256 * n + m = 256 * ring + x.toNat % 256
          then !(s.engine core).phaseBit ring (x.toNat % 256) else (s.engine core).phaseBit n m)) ∧
  ∀ t k s core c, s.cur = some c → c.who = .engine core →
    (smGet 0 (s.engine core).k k = 1 → ∃ r : State, exec (.mloop .always t k) s = .next r ∧ r.mem = s.mem ∧
      (r.engine core).mepc = c.next ∧ smGet 0 (r.engine core).k k = 0) ∧
    (smGet 0 (s.engine core).k k ≠ 1 → (targetAt c.pc t 0).all (fun pc => !targetShape (.branch c.patchSrc) pc) = true →
      exec (.mloop .always t k) s = .next (s.engineIllegal core .target)) ∧
    ∀ pc b, smGet 0 (s.engine core).k k ≠ 1 → targetAt c.pc t 0 = some pc → targetShape (.branch c.patchSrc) pc = true →
      s.HasLine (s.engineAsid (s.engine core)) (lineNum pc) b →
      (∀ r : State, r.mem = s.mem → r.targetOk (s.engineAsid (s.engine core)) (.branch c.patchSrc) b (wordIdx pc) = true) →
      ∃ r : State, exec (.mloop .always t k) s = .next r ∧ r.mem = s.mem ∧ (r.engine core).mepc = pc ∧
        smGet 0 (r.engine core).k k = smGet 0 (s.engine core).k k - 1 ∧ ∀ n, n ≠ k → smGet 0 (r.engine core).k n = smGet 0 (s.engine core).k n

/-- The tokens of accumulators (R349, R370, R371): `acq.a` takes an available token, or waits for it, as behind a lower slot that can take it (R372); `accret` returns one that the wave
holds; `accrd` reads the row of an accumulator whose token the wave holds. Each raises ENGINE where the wave's team does not own the
engine, and `accret` and `accrd` raise TOKEN where the wave does not hold the token; then no register, token or byte changes. -/
def Obligations.TokensPassBetweenEngineAndWaves : Prop :=
  ∀ g acc s v, s.Issues v → v.mayIssue .acc → v.active g ≠ 0 →
    (s.ownerAt v.w.core = some v.w.teamKey → (s.engine v.w.core).accBad acc = false →
      ((s.engine v.w.core).takable acc s.clk = true → s.lowerWaits v.w acc = false →
        ∃ (r : State) (x : Wave), exec (.acqA g acc) s = .next (r.goOn v) ∧ r.mem = s.mem ∧ r.wave? v.u = some x ∧ v.w.Reads x ∧
          r.engine v.w.core = (s.engine v.w.core).setToken acc 2 (some v.u)) ∧
      ((s.engine v.w.core).takable acc s.clk = false ∨ s.lowerWaits v.w acc = true →
        ∃ (r : State) (x : Wave) (y : Split), exec (.acqA g acc) s = .next r ∧ r.mem = s.mem ∧ r.engines = s.engines ∧ r.wave? v.u = some x ∧
          x.r = v.w.r ∧ x.split? v.e = some y ∧ y.block = .token acc ∧ y.pc = v.sp.pc) ∧
      ((s.engine v.w.core).holds acc v.u = true → Released s v (some .core) →
        ∃ (r : State) (x : Wave), exec (.accret g acc) s = .next (r.goOn v) ∧ r.mem = s.mem ∧ r.wave? v.u = some x ∧ v.w.Reads x ∧
          r.engine v.w.core = (s.engine v.w.core).setToken acc 3 none) ∧
      ∀ bf16 fs d b cc n, v.flagFree fs n → s.Readable v (v.active g) [(b, 1)] → (s.engine v.w.core).holds acc v.u = true →
        ∃ (r : State) (x : Wave), exec (.accrd g bf16 fs d b acc cc) s = .next (r.goOn v) ∧ s.Local r v.u ∧ r.wave? v.u = some x ∧
          v.w.Began x (v.op (.accrd g bf16 fs d b acc cc) fs (v.active g) false ((lanesOf (v.active g)).map fun l =>
            ⟨l, BitVec.allOnes 64, [(s.engine v.w.core).accAt acc ((s.rd v 0 b).toNat % 64) l,
              (s.engine v.w.core).accAt acc ((s.rd v 0 b).toNat % 64) (l + 32)]⟩))) ∧
    (∀ bf16 fs d b cc n, v.flagFree fs n → s.Readable v (v.active g) [(b, 1)] →
      (s.ownerAt v.w.core ≠ some v.w.teamKey → ∃ (r : State) (x : Wave), exec (.accrd g bf16 fs d b acc cc) s = .next r ∧ s.Local r v.u ∧
        r.wave? v.u = some x ∧ v.w.Reads x ∧ x.t.cause = v.w.t.cause ||| 0x20000) ∧
      (s.ownerAt v.w.core = some v.w.teamKey → (s.engine v.w.core).holds acc v.u = false →
        ∃ (r : State) (x : Wave), exec (.accrd g bf16 fs d b acc cc) s = .next r ∧ s.Local r v.u ∧ r.wave? v.u = some x ∧ v.w.Reads x ∧
          x.t.cause = v.w.t.cause ||| 0x40)) ∧
    (s.ownerAt v.w.core ≠ some v.w.teamKey → ∀ i, i = .acqA g acc ∨ i = .accret g acc →
      ∃ (r : State) (x : Wave), exec i s = .next r ∧ s.Local r v.u ∧ r.wave? v.u = some x ∧ v.w.Reads x ∧ x.t.cause = v.w.t.cause ||| 0x20000) ∧
    (s.ownerAt v.w.core = some v.w.teamKey → (s.engine v.w.core).accBad acc = false → (s.engine v.w.core).holds acc v.u = false →
      ∃ (r : State) (x : Wave), exec (.accret g acc) s = .next r ∧ s.Local r v.u ∧ r.wave? v.u = some x ∧ v.w.Reads x ∧
        x.t.cause = v.w.t.cause ||| 0x40)

/-! ## Work, arenas and versions -/

/-- `tq.add` becomes outstanding with one task for the wave, or one for each active lane (R412); `ar.chk` gives each active lane the code
of its pointer, or its predicate (R414). -/
def Obligations.WorkWordsQueueAndCheck : Prop :=
  (∀ g fs d a b c cc s v n, s.Issues v → v.flagFree fs n → v.active g ≠ 0 → Released s v (some .pkg) →
    s.Readable v (v.active g) [(a, 2), (c, 1), (if dstUni d then Src.k b else Src.v b, 8)] →
    let rec_ := if dstUni d then Src.k b else Src.v b
    ∃ t x, exec (.tqAdd g fs d a b c cc) s = .next (t.goOn v) ∧ s.Local t v.u ∧ t.wave? v.u = some x ∧
      v.w.Began x (v.op (.tqAdd g fs d a b c cc) fs (v.active g) (dstUni d) ((if dstUni d then [0] else lanesOf (v.active g)).map fun l =>
        ⟨l, s.rd64 v l a, s.rd v l c :: s.rdN v 8 l rec_⟩))) ∧
  (∀ g d cc a s v, s.Issues v → v.active g ≠ 0 → s.Readable v (v.active g) [(a, 2)] →
    ∃ t x, exec (.arChk g (.st d cc) a) s = .next (t.goOn v) ∧ s.Local t v.u ∧ t.wave? v.u = some x ∧ v.w.Rest x v.e ∧
      v.w.Wrote v.sp x v.e d (v.active g) fun l => BitVec.ofNat 32 (s.arCode v.w.core v.w.asid (s.rd64 v l a).toNat)) ∧
  ∀ g p a s v, s.Issues v → v.active g ≠ 0 → s.Readable v (v.active g) [(a, 2)] →
    ∃ t x, exec (.arChk g (.pred p) a) s = .next (t.goOn v) ∧ s.Local t v.u ∧ t.wave? v.u = some x ∧
      v.w.Tested x p .set (v.active g) fun l => s.arCode v.w.core v.w.asid (s.rd64 v l a).toNat == 0

/-- The Mint (R389, R390, R410): a request reaches it; in its turn, from the next clock on, it receives the next coordinate of the node that
comes first, with the node's number, handle, arena size and priority, and the wave holds it; a wave that holds four coordinates receives
code 3. No memory changes. That an answer comes in a later clock is the model's reading (log 40). -/
def Obligations.TheMintGivesEachCoordinateOnce : Prop :=
  (∀ s u n w o g fs kb, s.wave? u = some w → w.op? n = some o → o.ins = .mint g fs kb → o.isMint = true → o.movedAt ≠ s.clk + 1 → w.place.isSome = true →
    (∀ r ∈ s.graph.mintReqs, ¬ (r.wave = u ∧ r.op = n)) →
    ∃ t : State, exec (.mintServe u n) s = .next t ∧ t.mem = s.mem ∧ t.waves = s.waves ∧
      t.graph.mintReqs = s.graph.mintReqs ++ [⟨u, n, quadOf w.core, w.core, s.clk⟩]) ∧
  (∀ s u n w o g fs kb r key nd, s.wave? u = some w → w.op? n = some o → o.ins = .mint g fs kb → o.isMint = true → o.movedAt ≠ s.clk + 1 → o.serial = n →
    s.graph.mintReqs.find? (fun q => q.wave == u && q.op == n) = some r → r.clk < s.clk →
    (∀ q ∈ s.graph.mintReqs, ∀ y, s.wave? q.wave = some y → y.kernel = w.kernel → s.mintBefore q r = false) →
    s.mintFirst w.kernel = some (key, nd) → s.node? key = some nd → s.defers w.kernel r = false → kb + 7 < 58 →
    ∃ (t : State) (x : Wave), exec (.mintServe u n) s = .next t ∧ t.mem = s.mem ∧ t.wave? u = some x ∧ x.op? n = none ∧
      x.wk.held = nd.coord nd.given :: w.wk.held ∧ (t.node? key).map Node.given = some (nd.given + 1) ∧
      (∀ q ∈ t.graph.mintReqs, ¬ (q.wave = u ∧ q.op = n)) ∧ x.r.v = w.r.v ∧ x.r.p = w.r.p ∧
      ∀ j, smGet 0 x.r.k j = if kb ≤ j ∧ j < kb + 8 then BitVec.ofNat 32 ([0, nd.num, (nd.coord nd.given).x, (nd.coord nd.given).y,
        (nd.coord nd.given).z, nd.handle, if nd.slot.isSome then nd.arena else 0, s.prioOf key].getD (j - kb) 0) else smGet 0 w.r.k j) ∧
  ∀ s u n w o g fs kb, s.wave? u = some w → w.op? n = some o → o.serial = n → o.ins = .mint g fs kb → o.isMint = false → o.movedAt ≠ s.clk + 1 → kb + 7 < 58 →
    ∃ (t : State) (x : Wave), exec (.mintServe u n) s = .next t ∧ t.mem = s.mem ∧ t.wave? u = some x ∧ x.op? n = none ∧ x.wk = w.wk ∧
      ∀ j, smGet 0 x.r.k j = if kb ≤ j ∧ j < kb + 8 then (if j = kb then 3 else 0) else smGet 0 w.r.k j

/-- A core applies a change of KVER (R425). A split held at a safe point whose maps pass every check takes the PC, version and return
address of the new version, and every vector register and predicate that a placed slot names takes its value in its lane, with no other
register or predicate changed (R429-R433, R438); with its kernel's version unchanged it goes on where it stands. How maps are read is
the model's reading (log 45). -/
def Obligations.SplitsTransferAtSafePoints : Prop :=
  (∀ core k s x, s.kernel? k = some x →
    ∃ t : State, exec (.kverApply core k) s = .next t ∧ t.mem = s.mem ∧ t.waves = s.waves ∧
      t.kernel? k = some { x with lag := x.lag.filter fun l => l.1 != core }) ∧
  ∀ u e s w x k b, s.wave? u = some w → w.split? e = some x → s.kernel? w.kernel = some k → x.buf = some b → x.xfer = true →
    w.place.isSome = true → w.parked = false → w.xferHeld x.mask = false → s.xferTurn w e = true →
    (s.kverAt w = x.ver →
      ∃ (t : State) (z : Wave) (y : Split), exec (.safePointTransfer u e) s = .next (t.goArrive u e b x.pc) ∧ s.Local t u ∧ t.wave? u = some z ∧
        w.Reads z ∧ z.split? e = some y ∧ y.xfer = false) ∧
    ∀ p r, s.kverAt w ≠ x.ver → s.planXfer w x k (b.clause (wordIdx x.pc)).safen (s.kverAt w) = .ok (p, r) →
      p.line.check (s.kverAt w) = none → p.line.clauseCheck (wordIdx p.pc) = none →
      ∃ (t : State) (z : Wave) (y : Split), exec (.safePointTransfer u e) s = .next (t.goArrive u e p.line p.pc) ∧ t.wave? u = some z ∧
        z.split? e = some y ∧ y.pc = p.pc ∧ y.ver = s.kverAt w ∧ y.lr = p.lr ∧ y.mask = x.mask ∧ y.tlr = x.tlr ∧ y.xfer = false ∧
        z.r.k = w.r.k ∧ z.exited = w.exited ∧ (∀ i, i ≠ e → (z.split? i).map Split.place = (w.split? i).map Split.place) ∧
        (∀ j l, l < 32 → (∀ q ∈ p.places, ¬ (slotKind q.1 = 1 ∧ slotPay q.1 = j ∧ q.2.1 = l)) → z.getV j l = w.getV j l) ∧
        (∀ j l, j < 7 → l < 32 → (∀ q ∈ p.places, ¬ (slotKind q.1 = 3 ∧ slotPay q.1 = j ∧ q.2.1 = l)) →
          hasLane (z.getP j) l = hasLane (w.getP j) l) ∧
        ∀ q ∈ p.places, q.2.1 < 32 →
          (∀ q' ∈ p.places, slotKind q'.1 = slotKind q.1 → slotPay q'.1 = slotPay q.1 → q'.2.1 = q.2.1 → q' = q) →
          (slotKind q.1 = 1 → z.getV (slotPay q.1) q.2.1 = q.2.2) ∧
          (slotKind q.1 = 3 → slotPay q.1 < 7 → hasLane (z.getP (slotPay q.1)) q.2.1 = q.2.2.getLsbD 0)

/-! ## Control registers -/

/-- A word that writes a control register: guard, value, number, and what it reads. -/
structure Sys2Proof.CsrForm where
  g : Guard
  a : Src
  num : State → Env → Nat
  srcs : List (Src × Nat)

/-- `csrwr` and the writes of single registers. -/
def Sys2Proof.csrForm : Instr → Option CsrForm
  | .csrwr g csr a => some ⟨g, a, fun s v => (s.rd v 0 csr).toNat, [(a, 1), (csr, 1)]⟩
  | .wtimerloWrite g a => some ⟨g, a, fun _ _ => 0x064, [(a, 1)]⟩
  | .wtimerhiWrite g a => some ⟨g, a, fun _ _ => 0x065, [(a, 1)]⟩
  | .nswinWrite g a => some ⟨g, a, fun _ _ => 0x071, [(a, 1)]⟩
  | .mectlWrite g a => some ⟨g, a, fun _ _ => 0x090, [(a, 1)]⟩
  | .ringdWrite g n a => some ⟨g, a, fun _ _ => 0x0A0 + n, [(a, 1)]⟩
  | .splitCsrWrite g csr a => some ⟨g, a, fun _ _ => csr, [(a, 1)]⟩
  | _ => none

/-- Bits of a register of the wave or its context bank that software writes (R186, R191, R207, R452, R466). -/
def Sys2Proof.csrBits (c : Nat) : W32 :=
  if c = 0x070 then 0x3FFF
  else if c = 0x07F then 0xFFFF
  else if 0x080 ≤ c ∧ c ≤ 0x083 then 0
  else if c = 0x0C0 then 7
  else if c = 0x0C4 then 0x1F01
  else 0xFFFFFFFF

/-- What a handler's write of a split CSR leaves there (R446, R466). -/
def Sys2Proof.splitBits (c : Nat) : W32 :=
  if c = 0x02C then 0xFFFF else if c = 0x02D then 0xF else if 0x030 ≤ c ∧ c % 4 = 3 then 7 else 0xFFFFFFFF

/-- The performance counters that the issue of the reading word itself has raised (R462). -/
def Sys2Proof.issueCount (c : Nat) (m : Mask) (x : W64) : W32 :=
  half (x + (if c / 2 = 0x68 then 1 else if c / 2 = 0x69 then BitVec.ofNat 64 (laneCount m) else 0)) (c % 2 == 1)

/-- Control registers (R446, R452, R465-R467). A read that R465 allows gives the register's value. A write that R465 allows changes the
bits that software writes and leaves every other control register: of the wave, of its gang's bank, of its core's engine where the wave's
team may claim it and it is idle (R337, R339, R341), or of the split table in a handler. An access that R465 refuses and a
number outside the table are ILLEGAL and have no effect. That a performance counter already counts the reading word is the model's
choice (log 63). -/
def Obligations.ControlRegistersReadAndWrite : Prop :=
  (∀ g d csr s v, s.Issues v → v.active g ≠ 0 → s.Readable v (v.active g) [(csr, 1)] →
    let c := (s.rd v 0 csr).toNat
    (∀ r w, csrRow c = some (r, w) → r.allows (v.e == 4) = true →
      ∃ (t : State) (x : Wave), exec (.csrrd g d csr) s = .next (t.goOn v) ∧ s.Local t v.u ∧ t.wave? v.u = some x ∧ v.w.Rest x v.e ∧
        v.w.Wrote v.sp x v.e (.k d) (v.active g) fun _ =>
          if 0x0D0 ≤ c ∧ (s.team? v.w.teamKey).isSome then issueCount c (v.active g) (smGet 0 (s.bank v.w).pmc ((c - 0x0D0) / 2)) else s.csrGet v c) ∧
    ((csrRow c = none ∨ ∃ r w, csrRow c = some (r, w) ∧ r.allows (v.e == 4) = false) →
      ∃ (t : State) (x : Wave), exec (.csrrd g d csr) s = .next t ∧ s.Local t v.u ∧ t.wave? v.u = some x ∧ x.r.k = v.w.r.k ∧ x.t.cause = v.w.t.cause ||| 1)) ∧
  ∀ i F s v, csrForm i = some F → s.Issues v → v.active F.g ≠ 0 → s.Readable v (v.active F.g) F.srcs → (s.team? v.w.teamKey).isSome = true →
    v.w.live.length = 4 →
    let c := F.num s v
    let x := s.rd v 0 F.a
    (csrRow c = none → ∃ (t : State) (y : Wave), exec i s = .next t ∧ s.Local t v.u ∧ t.wave? v.u = some y ∧ v.w.Reads y ∧ y.t.cause = v.w.t.cause ||| 1) ∧
    ∀ r w, csrRow c = some (r, w) →
      (w.allows (v.e == 4) = false → ∃ (t : State) (y : Wave), exec i s = .next t ∧ s.Local t v.u ∧ t.wave? v.u = some y ∧ v.w.Reads y ∧
        y.t.cause = v.w.t.cause ||| 1) ∧
      (w.allows (v.e == 4) = true →
        (c < 0x010 ∨ (0x060 ≤ c ∧ c < 0x090) ∨ 0x0C0 ≤ c →
          ∃ (t : State) (y : Wave), exec i s = .next (t.goOn v) ∧ t.mem = s.mem ∧ t.engines = s.engines ∧ t.wave? v.u = some y ∧ v.w.Reads y ∧
            t.csrGet v c = (s.csrGet v c &&& ~~~csrBits c) ||| (x &&& csrBits c) ∧
            ∀ c', c' < 0x0D0 → c' ≠ c → (c = 0x071 → c' ≠ 0x070 ∧ ¬ (0x080 ≤ c' ∧ c' ≤ 0x083)) → t.csrGet v c' = s.csrGet v c') ∧
        (0x020 ≤ c ∧ c < 0x060 →
          ∃ (t : State) (y : Wave), exec i s = .next (t.goOn v) ∧ s.Local t v.u ∧ t.wave? v.u = some y ∧ y.r.v = v.w.r.v ∧ y.r.k = v.w.r.k ∧
            t.csrGet v c = x &&& splitBits c ∧ ∀ c', c' < 0x0D0 → c' ≠ c → t.csrGet v c' = s.csrGet v c') ∧
        (0x090 ≤ c ∧ c < 0x0C0 →
          ((s.engine v.w.core).owner = none ∨ s.ownerAt v.w.core = some v.w.teamKey ∧ (s.engine v.w.core).run = false →
            ∃ (t : State) (y : Wave), exec i s = .next (t.goOn v) ∧ t.mem = s.mem ∧ t.wave? v.u = some y ∧ v.w.Reads y ∧
              (t.engine v.w.core).owner = some v.w.teamKey ∧
              (∀ c', c' < 0x0D0 → c' ≠ c → if 0x090 ≤ c' ∧ c' < 0x0C0 then (t.engine v.w.core).csr c' = (s.engineSeen v.w.core).csr c'
                else t.csrGet v c' = s.csrGet v c') ∧
              if c = 0x090 then (t.engine v.w.core).mectl.getLsbD 0 = x.getLsbD 0
              else smGet 0 (t.engine v.w.core).ringd (c - 0x0A0) = x &&& 0xBFFFFFFF) ∧
          ((s.engine v.w.core).run = true ∧ (s.ownerAt v.w.core).isSome = true ∨
              (∃ k, s.ownerAt v.w.core = some k ∧ k ≠ v.w.teamKey) →
            ∃ (t : State) (y : Wave), exec i s = .next t ∧ s.Local t v.u ∧ t.wave? v.u = some y ∧ v.w.Reads y ∧ y.t.cause = v.w.t.cause ||| 0x20000)))

/-! ## Traps, handlers and timers -/

/-- `tclr` clears the causes that B names, but for those that have become pending in this clock, `smark` sets the mark, `trace` adds a user record where user records are on (R460, R468, R470):
no register changes. `trap` and `bkpt` make SWTRAP and BKPT pending for the active lanes, with a detail of the word, and the split stops
before its next word (R468, R442). The entry 0xFF of a handler split in a record is the model's choice (log 12). -/
def Obligations.SystemWordsMarkAndTrap : Prop :=
  (∀ g b s v, s.Issues v → v.active g ≠ 0 → s.Readable v (v.active g) [(b, 1)] →
    (∃ (t : State) (x : Wave), exec (.tclr g b) s = .next (t.goOn v) ∧ s.Local t v.u ∧ t.wave? v.u = some x ∧ v.w.Reads x ∧
      x.t.cause = v.w.t.cause &&& ~~~(s.rd v 0 b &&& 0x3FFFF &&& ~~~v.w.t.fresh s.clk) ∧ x.t.dq = v.w.t.dq) ∧
    (∃ (t : State) (x : Wave), exec (.smark g b) s = .next (t.goOn v) ∧ s.Local t v.u ∧ t.wave? v.u = some x ∧ v.w.Reads x ∧
      x.t.smark = (s.rd v 0 b).extractLsb' 0 16 ∧ x.t.cause = v.w.t.cause) ∧
    (∃ (t : State) (x : Wave), exec (.trace g b) s = .next (t.goOn v) ∧ s.Local t v.u ∧ t.wave? v.u = some x ∧ v.w.Reads x ∧
      if (s.bank v.w).tracectl.getLsbD 0 = true ∧ (s.bank v.w).tracectl.getLsbD 2 = true
      then [6, BitVec.ofNat 8 v.w.slot, if v.e = 4 then 0xFF else BitVec.ofNat 8 v.e, BitVec.ofNat 8 v.sp.ver] ++
        padTo 12 (le 4 (s.rd v 0 b).toNat ++ le 8 v.ctx.pc.toNat) ∈ x.traces
      else x.traces = v.w.traces) ∧
    ∃ (t : State) (x : Wave), exec (.trap g b) s = .next (t.goOn v) ∧ s.Local t v.u ∧ t.wave? v.u = some x ∧ v.w.Reads x ∧
      x.t.cause = v.w.t.cause ||| 0x800 ∧ x.t.planes = v.w.t.planes ||| v.active g ∧
      (v.e < 4 → (x.split? v.e).map Split.stop = some true) ∧
      (v.w.t.dq.length < 4 → ⟨v.serial, v.ctx.pc, 11, 0, if v.e = 4 then 0xFF else v.e, v.sp.ver, v.active g,
        padTo 16 (le 4 (s.rd v 0 b).toNat)⟩ ∈ x.t.dq)) ∧
  ∀ s v, s.Issues v → v.active .always ≠ 0 →
    ∃ (t : State) (x : Wave), exec .bkpt s = .next (t.goOn v) ∧ s.Local t v.u ∧ t.wave? v.u = some x ∧ v.w.Reads x ∧
      x.t.cause = v.w.t.cause ||| 0x1000 ∧ x.t.planes = v.w.t.planes ||| v.active .always ∧
      (v.e < 4 → (x.split? v.e).map Split.stop = some true) ∧
      (v.w.t.dq.length < 4 → ⟨v.serial, v.ctx.pc, 12, 0, if v.e = 4 then 0xFF else v.e, v.sp.ver, v.active .always, padTo 16 []⟩ ∈ x.t.dq)

/-- The PC at which a wave's handler begins (R445, R473): ASSAYVEC for a pending BKPT where it is not 0, else TRAPVEC. -/
def Sys2Proof.vectorOf (s : State) (w : Wave) : W64 :=
  if w.t.cause.getLsbD 12 = true ∧ (s.bank w).assayvec ≠ 0 then (s.bank w).assayvec else (s.bank w).trapvec

/-- Taking an exception (R445, R448, R452): a wave that wants its handler enters it at its vector, in the lanes with causes that have not
exited, or in all that have not; TRAPLANES is cleared, k56 and k57 take the address of its trap scratch, and every stopped split, every
cause and every detail stays. With no vector, and when a handler split has raised a cause, the wave halts and a fault record of kind 3 is
posted. An armed WTIMER that CTXCLK has reached makes TIMER pending and is disarmed. That an outstanding operation, an `mbrecv` among
them, keeps its place and flag at handler entry is the model's choice (log 33). -/
def Obligations.ExceptionsEnterTheHandler : Prop :=
  (∀ u s w, s.wave? u = some w → w.wantsHandler = true → w.place.isSome = true → (s.gang? w.gang).map Gang.state = some .placed →
    w.inXfer = false → (s.team? w.teamKey).isSome = true → w.live.length = 4 →
    (vectorOf s w ≠ 0 →
      ∃ (t : State) (x : Wave) (h : Split), exec (.handlerEntry u) s = .next t ∧ t.mem = s.mem ∧ t.engines = s.engines ∧ t.wave? u = some x ∧
        x.split? 4 = some h ∧ h.pc = vectorOf s w ∧
        h.mask = (if w.t.planes &&& w.present = 0 then w.present else w.t.planes &&& w.present) ∧ x.t.planes = 0 ∧ x.t.cause = w.t.cause ∧
        x.t.dq = w.t.dq ∧ x.r.v = w.r.v ∧ x.r.p = w.r.p ∧ x.r.f = w.r.f ∧ x.ops = w.ops ∧ x.exited = w.exited ∧
        (∀ n, smGet 0 x.r.k n = if n = 56 then lo32 (BitVec.ofNat 64 ((s.bank w).trapscr.toNat + 8192 * s.waveIndex w))
          else if n = 57 then hi32 (BitVec.ofNat 64 ((s.bank w).trapscr.toNat + 8192 * s.waveIndex w)) else smGet 0 w.r.k n) ∧
        ∀ e, e < 4 → (x.split? e).map Split.place = (w.split? e).map Split.place) ∧
    (vectorOf s w = 0 →
      ∃ (t : State) (x : Wave) (f : FaultRec), exec (.handlerEntry u) s = .next t ∧ t.mem = s.mem ∧ t.wave? u = some x ∧ x.t.halted = true ∧
        x.t.haltRecord = some s.front.nextFault ∧ x.t.planes = w.t.planes ∧ x.r = w.r ∧ t.front.faults = s.front.faults ++ [f] ∧ f.kind = 3 ∧
        f.serial = s.front.nextFault ∧ f.wave = u)) ∧
  (∀ u s w m pc reason, s.wave? u = some w → w.t.halting = some (m, pc, reason) →
    ∃ (t : State) (x : Wave) (f : FaultRec), exec (.waveHalt u) s = .next t ∧ t.mem = s.mem ∧ t.wave? u = some x ∧ x.t.halted = true ∧
      x.t.halting = none ∧ x.t.haltRecord = some s.front.nextFault ∧ x.r = w.r ∧ t.front.faults = s.front.faults ++ [f] ∧ f.kind = 3 ∧
      f.wave = u ∧ f.bytes.getD 0x1B 0 = BitVec.ofNat 8 reason) ∧
  ∀ u s w, s.wave? u = some w → w.t.armed = true → w.t.timer.toNat ≤ s.ctxclk w.gang →
    ∃ (t : State) (x : Wave), exec (.wtimerExpiry u) s = .next t ∧ s.Local t u ∧ t.wave? u = some x ∧ x.r = w.r ∧
      x.t.cause = w.t.cause ||| 0x400 ∧ x.t.planes = w.t.planes ||| w.present ∧ x.t.timer = 0 ∧ x.t.armed = false

/-- `trapret` (R446, R469): with a split table that is in order, that keeps every lane and in which no PC has changed, the handler split
is gone, the head detail has left the queue, the lanes of the next one are in TRAPLANES, LOST is cleared with the last, and every split
may issue again where it stood. A table that is not in order is ILLEGAL with detail "operand" and the word, where the queue has room (what
else the detail names is the model's choice, log 12), and the handler stays. -/
def Obligations.HandlersReturnToTheSplits : Prop :=
  ∀ s v, s.Issues v → v.e = 4 → v.w.live.length = 4 →
    (v.w.tableOk = true → v.w.present &&& ~~~v.w.held = 0 →
      v.w.t.entryPcs = (v.w.live ++ v.w.ovf.reverse.map some).map (fun y => y.map Split.pc) →
      ∃ (t : State) (x : Wave), exec .trapret s = .next t ∧ s.Local t v.u ∧ t.wave? v.u = some x ∧ x.r = v.w.r ∧ x.ops = v.w.ops ∧
        x.exited = v.w.exited ∧ x.t.handler = none ∧ x.t.dq = v.w.t.dq.tail ∧ x.t.cause = v.w.t.cause ∧
        x.t.planes = v.w.t.planes ||| (v.w.t.dq.tail.head?.map TDetail.lanes).getD 0 ∧
        x.t.lost = (if v.w.t.dq.tail = [] then 0 else v.w.t.lost) ∧
        ∀ e, e < 4 → (x.split? e).map Split.place = (v.w.split? e).map Split.place ∧ ∀ y, x.split? e = some y → y.stop = false) ∧
    (v.w.tableOk = false →
      ∃ (t : State) (x : Wave), exec .trapret s = .next t ∧ s.Local t v.u ∧ t.wave? v.u = some x ∧ x.r = v.w.r ∧
        x.t.handler.isSome = true ∧ x.t.cause = v.w.t.cause ||| 1 ∧
        (v.w.t.dq.length < 4 → ⟨v.serial, v.ctx.pc, 0, Detail.operand.code, 0xFF, v.sp.ver, v.sp.mask, padTo 16 (le 8 v.ctx.word.toNat)⟩ ∈ x.t.dq))

/-! ## Contexts -/

/-- A gang stops and comes back (R449-R451). When its work has drained, the dirty lines of its cores are sent to their homes; when these are
acknowledged it is saved: it has no core, its waves stand in no slot and keep every register, its teams' contexts stay where they are,
and CTXCLK stands. A part of a context that is claimed, a granule, the stores of a slot or the bank, goes to frames of the save pool, and
the rest stays. A gang whose cores are set up resumes: it is placed, nothing of it is held or spilled, and the frames go back. An engine
state that another team claims goes to frames of its own (R354). Which part goes first, and where an image has it, is the model's choice
(log 7, log 41). -/
def Obligations.GangsAreSavedAndResumed : Prop :=
  (∀ g s x, s.gang? g = some x → x.state = .saving → s.gangDrained g = true → x.drain = none →
    (∀ c ∈ x.cores, smWf ({} : L1Line) (s.core c).l1 = true) →
    ∃ (t : State) (ids : List Nat), exec (.gangSave g) s = .next t ∧ t.mem.phys = s.mem.phys ∧ t.mem.host = s.mem.host ∧
      t.mem.vault = s.mem.vault ∧ t.waves = s.waves ∧ (t.gang? g).map Gang.drain = some (some ids) ∧
      (∀ c ∈ x.cores, (∀ y ∈ (t.core c).l1, y.2.dirty = 0) ∧ ∀ b ∈ t.mem.wbs, b.core = c → b.id ∈ ids)) ∧
  (∀ g s x ids, s.gang? g = some x → x.state = .saving → s.gangDrained g = true → x.drain = some ids →
    (∀ b ∈ s.mem.wbs, b.id ∉ ids) →
    ∃ t : State, exec (.gangSave g) s = .next t ∧ t.mem = s.mem ∧ (t.gang? g).map (fun y => (y.state, y.cores, y.ctxclk)) = some (.saved, [], x.ctxclk) ∧
      (∀ u w, s.wave? u = some w → ∃ y, t.wave? u = some y ∧ y.r = w.r ∧ y.ops = w.ops ∧ y.exited = w.exited ∧
        y.place = (if w.gang = g then none else w.place)) ∧
      ∀ k c y, s.team? k = some y → k / 4 = g → y.core = some c → (s.gangTeams g).Pairwise (fun a b => a.1 ≠ b.1) →
        (t.team? k).map (fun z => (z.core, z.heldOn, z.heldG, z.heldSlots, z.heldBank, z.spad, z.fe, z.bank)) =
          some (none, some c, List.range y.granules, y.slots, true, y.spad, y.fe, y.bank)) ∧
  (∀ g s k y p, (s.gangTeams g).findSome? (fun t => (s.duePart t.1 t.2).map fun p => (t.1, t.2, p)) = some (k, y, p) → s.team? k = some y →
    s.partBad k y p = false → (y.newFrames (s.partPieces k y p)).length ≤ s.mem.savePool.length →
    ∃ (t : State) (z : Team), exec (.contextSpill g) s = .next t ∧ t.mem.host = s.mem.host ∧ t.mem.vault = s.mem.vault ∧ t.cores = s.cores ∧
      t.mem.savePool = s.mem.savePool.drop (y.newFrames (s.partPieces k y p)).length ∧
      t.team? k = some z ∧ z.spad = y.spad ∧ z.fe = y.fe ∧ z.bank = y.bank ∧
      (∀ n ∈ y.newFrames (s.partPieces k y p), ∃ f ∈ s.mem.savePool, smFind z.frames n = some f) ∧
      (∀ i, i ∈ z.heldG ↔ i ∈ y.heldG ∧ p ≠ .granule i) ∧ (∀ i, z.heldSlots.getD i 64 = if p = .slot i then 64 else y.heldSlots.getD i 64) ∧
      z.heldBank = (y.heldBank && p != .bank) ∧
      ∀ u w n l, s.wave? u = some w → w.teamKey = k → n < w.regs → w.keepsRow n = true → l < 32 →
        (t.wave? u).map (fun z => z.getV n l) = some (w.getV n l)) ∧
  (∀ g s c k, (∀ t ∈ s.gangTeams g, s.duePart t.1 t.2 = none) → s.wantedEngine g = some c →
    (s.engine c).owner = some k → (s.engine c).bad = false → (s.team? k).isSome = true → engineFrames ≤ s.mem.savePool.length →
    ∃ t : State, exec (.contextSpill g) s = .next t ∧ t.engine c = (s.engine c).idle ∧ t.waves = s.waves ∧ t.mem.host = s.mem.host ∧
      t.mem.vault = s.mem.vault ∧ t.mem.savePool = s.mem.savePool.drop engineFrames ∧
      (t.team? k).map (fun z => (z.engine, z.engFrames)) = some (some { s.engine c with wanted := false }, s.mem.savePool.take engineFrames)) ∧
  ∀ g s x, s.gang? g = some x → x.state = .resuming → (∀ t ∈ s.gangTeams g, s.coreReady t = true) →
    (∀ w ∈ s.gangWaves g, ∀ y, s.wave? w.1 = some y → y.parked = false ∧ y.wantsHandler = false ∧
      ∀ o ∈ y.ops, ∀ c, o.cmd = some c → ∃ q ∈ c.segs, q.code = 0) →
    ∃ t : State, exec (.gangResume g) s = .next t ∧ t.mem.phys = s.mem.phys ∧ t.mem.host = s.mem.host ∧ t.mem.vault = s.mem.vault ∧
      t.waves = s.waves ∧ (t.gang? g).map Gang.state = some .placed ∧
      ∀ k c y, s.team? k = some y → k / 4 = g → y.core = some c → (s.gangTeams g).Pairwise (fun a b => a.1 ≠ b.1) →
        (t.team? k).map (fun z => (z.core, z.heldOn, z.heldG, z.heldSlots, z.heldBank, z.frames)) = some (some c, none, [], [], false, []) ∧
        ∀ f ∈ y.frames, f.2 ∈ t.mem.savePool

/-! ## Observers and errors -/

/-- What the module observes of itself (R186, R457, R459-R461, R472). A statistics window begins once, with its counts and FIRED bits at 0;
at the start of an interval a partition draws the next sample clock from its LFSR; a record of a placed wave leaves for its ring, a sample
once its word has completed, or is dropped where the ring is off; a `mon` takes the host's eight words; an error comes to be in one place.
A register word that reads a register or slot with an error raises DATAERR and has no effect, and one that writes a vector register takes
its errors away in the lanes written; a corrected error is counted by its die. How the sample clock is drawn, the free latencies of a
sample and the code of a slot in a detail, and that an engine with an error goes on are the model's choice (log 48, log 20, log 79). -/
def Obligations.ObserversRecordAndReply : Prop :=
  (∀ k s y c, s.team? k = some y → y.bank.windowDue c = true → s.ctxclk (k / 4) = c →
    ∃ t : State, exec (.numstatWindowStart k) s = .next t ∧ t.mem = s.mem ∧ t.waves = s.waves ∧
      (t.team? k).map (fun z => (z.bank.nswcnt, z.bank.nsctl, z.bank.windowDue c, z.spad)) = some ([], y.bank.nsctl &&& 0xFF80FFFF, false, y.spad)) ∧
  (∀ core part s b, s.sampBank core = some b → s.clk % b.interval = 0 →
    (∀ d, smFind (s.core core).sampDraw part = some d → d.1 ≠ s.clk) →
    let x := execSampleInterval.lfsrNext (smGet ((s.core core).stealSeed + BitVec.ofNat 16 part) (s.core core).sampLfsr part)
    ∃ t : State, exec (.sampleInterval core part) s = .next t ∧ t.mem = s.mem ∧ t.waves = s.waves ∧
      smFind (t.core core).sampLfsr part = some x ∧ smFind (t.core core).sampDraw part = some (s.clk, x.toNat % b.interval)) ∧
  (∀ u s w r rs, s.wave? u = some w → w.traces = r :: rs → w.place.isSome = true → w.dropped = 0 ∨ recf r 0 1 = 7 →
    (ringSizeOk (s.bank w).tracesize.toNat = false →
      ∃ t x, exec (.traceRecord u) s = .next t ∧ s.Local t u ∧ t.wave? u = some x ∧ x.traces = rs ∧ x.r = w.r) ∧
    ∀ p, s.ringRecord w (s.bank w).tracebase.toNat (s.bank w).tracesize.toNat r = .done p →
      ∃ t : State, exec (.traceRecord u) s = .next t ∧ t.mem = p.mem ∧
        (t.wave? u).map (fun x => (x.traces, x.r)) = (p.wave? u).map fun x => (rs, x.r)) ∧
  (∀ u s w n r, s.wave? u = some w → w.samples.find? (fun x => !w.unfinished x.1) = some (n, r) → w.place.isSome = true →
    (ringSizeOk (s.bank w).sampsize.toNat = false →
      ∃ t x, exec (.sampleRecord u) s = .next t ∧ s.Local t u ∧ t.wave? u = some x ∧ x.samples = w.samples.filter (fun y => y.1 != n) ∧ x.r = w.r) ∧
    ∀ p, s.ringRecord w (s.bank w).sampbase.toNat (s.bank w).sampsize.toNat (sampleTail r s.draws) = .done p →
      ∃ t : State, exec (.sampleRecord u) s = .next t ∧ t.mem = p.mem ∧
        (t.wave? u).map (fun x => (x.samples, x.r)) = (p.wave? u).map fun x => (x.samples.filter fun y => y.1 != n, x.r)) ∧
  (∀ u n words s w o c g fs kb, s.wave? u = some w → w.op? n = some o → o.ins = .mon g fs kb → smFind s.front.channels w.asid = some c →
    (c.sent.any fun m => m.1 == u && m.2.1 == n) = true → kb + 7 < 58 →
    ∃ (t : State) (x : Wave), exec (.debugReply u n words) s = .next t ∧ t.mem = s.mem ∧ t.wave? u = some x ∧ x.op? n = none ∧ x.r.v = w.r.v ∧
      ∀ j, smGet 0 x.r.k j = if kb ≤ j ∧ j < kb + 8 then words.getD (j - kb) 0 else smGet 0 w.r.k j) ∧
  (∀ i g xs s v c, readForm i = some (g, xs) → s.Issues v → v.active g ≠ 0 →
    (v.ctx.patch = true ∨ ∀ n ∈ vRegs xs, v.w.deadLanes (v.active g) n = 0) → s.badRead v (v.active g) xs = some c →
    ∃ t x y, exec i s = .next t ∧ s.Local t v.u ∧ t.wave? v.u = some x ∧ x.r = v.w.r ∧ x.t.cause = v.w.t.cause ||| 0x4000 ∧
      x.t.planes = v.w.t.planes ||| v.active g ∧ x.split? v.e = some y ∧ y.pc = v.sp.pc ∧
      (v.w.t.dq.length < 4 → ⟨v.serial, v.ctx.pc, 14, 0, if v.e = 4 then 0xFF else v.e, v.sp.ver, v.active g, padTo 16 (le 8 c)⟩ ∈ x.t.dq)) ∧
  (∀ i F s v d, intForm i = some F → F.d = .v d → s.Issues v → v.active F.g ≠ 0 → s.Readable v (v.active F.g) F.srcs →
    ∃ (t : State) (x : Wave), exec i s = .next (t.goOn v) ∧ t.wave? v.u = some x ∧ ∀ n l, l < 32 →
      smGet false x.r.badV (vkey n l) = if n = d ∧ hasLane (v.active F.g) l then false else smGet false v.w.r.badV (vkey n l)) ∧
  ∀ s, (∀ u n l w, s.wave? u = some w → ∃ t x, exec (.softError (.reg u n l)) s = .next t ∧ s.Local t u ∧ t.wave? u = some x ∧
      smGet false x.r.badV (vkey n l) = true ∧ x.r.v = w.r.v ∧ x.r.k = w.r.k) ∧
    (∀ u k w, s.wave? u = some w → ∃ t x, exec (.softError (.slot u k)) s = .next t ∧ s.Local t u ∧ t.wave? u = some x ∧
      smGet false x.r.badK k = true ∧ x.r.v = w.r.v ∧ x.r.k = w.r.k) ∧
    (∀ u p w, s.wave? u = some w → p < 7 → ∃ t x, exec (.softError (.pred u p)) s = .next t ∧ s.Local t u ∧ t.wave? u = some x ∧
      smGet false x.r.badP p = true ∧ x.r.v = w.r.v ∧ x.r.p = w.r.p) ∧
    (∀ asid a z x, smFind s.mem.tags (lineKey asid a) = some z → z.zero = false →
      smFind s.mem.entries (entryKey (homeSlice (keyAddr (lineKey asid a))) z.index) = some x →
      ∃ t : State, exec (.softError (.line asid a)) s = .next t ∧ t.mem.badLine (lineKey asid a) = true ∧ t.mem.tags = s.mem.tags ∧
        (smFind t.mem.entries (entryKey (homeSlice (keyAddr (lineKey asid a))) z.index)).map Entry.indexed = some false ∧
        (∀ key y, smFind s.mem.tags key = some y → y.zero = false → homeSlice (keyAddr key) = homeSlice (keyAddr (lineKey asid a)) →
          y.index = z.index → t.mem.badLine key = true) ∧ t.mem.phys = s.mem.phys ∧ t.waves = s.waves) ∧
    (∀ a, ∃ t : State, exec (.softError (.vault a)) s = .next t ∧ a / 128 * 128 ∈ t.mem.badVault ∧ t.mem.vault = s.mem.vault ∧ t.waves = s.waves) ∧
    (∀ core asid a z, s.l1 core (lineKey asid a) = some z → z.valid ≠ 0 → ∃ t : State, exec (.softError (.l1 core asid a)) s = .next t ∧
      t.mem = s.mem ∧ t.waves = s.waves ∧
      (t.l1 core (lineKey asid a)).map (fun y => (y.bad, y.data, y.valid)) = some (z.bad ||| spanMask (a % 128) 1, z.data, z.valid)) ∧
    (∀ core, ∃ t : State, exec (.softError (.engine core)) s = .next t ∧ t.mem = s.mem ∧ t.waves = s.waves ∧ t.engine core = { s.engine core with bad := true }) ∧
    (∀ die, ∃ t : State, exec (.softError (.corrected die)) s = .next t ∧ t.mem = s.mem ∧ t.waves = s.waves ∧ t.cores = s.cores ∧
      smGet 0 t.mod.corrected die = smGet 0 s.mod.corrected die + 1) ∧
    ∀ k off y, s.team? k = some y → ∃ t : State, exec (.softError (.spad k off)) s = .next t ∧ t.mem = s.mem ∧ t.waves = s.waves ∧
      (t.team? k).map (fun z => (smGet false z.bad off, z.spad)) = some (true, y.spad)

/-! ## The graph unit -/

/-- No undealt task of a kernel is of a failed node. -/
def Sys2Proof.NoneFailed (s : State) (k : Nat) : Prop :=
  ∀ x, s.kernel? k = some x → ∀ y ∈ x.undealt, ∃ n, s.node? (nodeKey x.asid y.node) = some n ∧ n.failed = 0

/-- An arena slot of an address space that a birth may take. -/
def Sys2Proof.FreeSlot (s : State) (asid k : Nat) : Prop := k < 4096 ∧ s.slotFree asid k = true

/-- The order in which a slot was freed; 0 for one that was never used. -/
def Sys2Proof.freedOf (s : State) (asid k : Nat) : Nat := (smGet ({} : Arena) s.mem.arenas (arenaKey asid k)).freed

/-- The life of a node from readiness on (R384, R398-R404). One release for each clock: the ready node with the highest E, and among
equals the one that became ready first; one that waits for an arena slot, none being free, is passed over. The best node of its ASID that
waits for its birth takes the lowest slot that was never used, else the one freed longest ago, with the next generation, and every core
hears of it, and so does a spawn that waits for the node's handle. A core takes the news before its accesses of the clock (R415). That a
slot is free only once the record of its last node has been written is the model's reading (log 82). -/
def Obligations.NodesAreReleasedAndBorn : Prop :=
  (∀ s k n, s.graph.relClk ≠ s.clk + 1 → (k, n) ∈ s.graph.nodes → s.node? k = some n → n.state = .ready →
    (n.arena = 0 ∨ n.slot.isSome = true) → n.failed = 0 →
    (∀ x ∈ s.graph.nodes, x ≠ (k, n) → x.2.state = .ready → s.slotless x.2 = false →
      s.prioOf x.1 < s.prioOf k ∨ s.prioOf x.1 = s.prioOf k ∧ n.readyAt < x.2.readyAt) →
    (∀ x, n.slot = some x → s.mem.settled (arenaKey n.asid x.1) = true) →
    ∃ (t : State) (m : Node), exec .nodeRelease s = .next t ∧ t.mem = s.mem ∧ t.waves = s.waves ∧ t.graph.relClk = s.clk + 1 ∧
      t.node? k = some m ∧ m.state = .released ∧ m.releaseClk = s.clk ∧ m.batch = [] ∧ m.tasks = n.batch.length ∧
      (∀ j, j ≠ k → (t.node? j).map Node.state = (s.node? j).map Node.state) ∧
      ∀ x y c, n.work = 1 → n.batch = [x] → s.kernel? n.kernel = some y → y.undealt = [] → nodeKey y.asid x.node = k →
        nextAfter y.dealt ((s.kernelCores n.kernel).filter fun c => decide ((s.core c).queued < 4096)) = some c →
        (t.core c).tq = (s.core c).tq ++ [{ x with arg := if n.arena = 0 then x.arg else x.arg.set 7 (BitVec.ofNat 32 n.handle) }]) ∧
  (∀ s, s.graph.relClk = s.clk + 1 → exec .nodeRelease s = .next s) ∧
  (∀ key s n k, s.node? key = some n → n.state = .ready → n.arena ≠ 0 → n.slot = none → FreeSlot s n.asid k →
    (∀ x ∈ s.graph.nodes, x.2.asid = n.asid → x.2.unborn = true → s.readier x (key, n) = false) →
    (freedOf s n.asid k = 0 ∧ (∀ j, FreeSlot s n.asid j → freedOf s n.asid j = 0 → k ≤ j) ∨
      (∀ j, FreeSlot s n.asid j → freedOf s n.asid j ≠ 0 ∧ (j ≠ k → freedOf s n.asid k < freedOf s n.asid j))) →
    let old := smGet ({} : Arena) s.mem.arenas (arenaKey n.asid k)
    let handle := (if old.gen = 1023 then 1 else old.gen + 1) * 4096 + k
    ∃ t : State, exec (.arenaBirth key) s = .next t ∧
      (∀ u w, s.wave? u = some w → ∃ y, t.wave? u = some y ∧ y.r = w.r ∧ y.live = w.live ∧ y.exited = w.exited ∧
        (w.asid ≠ n.asid → y = w) ∧
        ∀ i o x g fs kq a, w.asid = n.asid → w.op? i = some o → o.ins = .nodeSpawn g fs kq a → o.arg? 0 = some x →
          x.data = [0, BitVec.ofNat 32 n.num] →
          ∃ p, y.op? i = some p ∧ (p.arg? 0).map LaneArg.data = some [0, BitVec.ofNat 32 n.num, BitVec.ofNat 32 handle]) ∧
      (t.node? key).map Node.slot = some (some (k, if old.gen = 1023 then 1 else old.gen + 1)) ∧
      smGet ({} : Arena) t.mem.arenas (arenaKey n.asid k) =
        { old with gen := (if old.gen = 1023 then 1 else old.gen + 1), size := n.arena, state := 1, ltwo := 0, two := 0, frames := [] } ∧
      (∀ c, c < 512 → ∃ l ∈ t.mem.lags, l.key = arenaKey n.asid k ∧ l.old = old ∧ c ∈ l.cores) ∧
      ∀ a, (a < (s.asid n.asid).arena + 16 * k ∨ (s.asid n.asid).arena + 16 * k + 16 ≤ a) → Memory.get t.mem.phys a = Memory.get s.mem.phys a) ∧
  ∀ core key s, (s.issuedOn core = true → exec (.arenaEntryApply core key) s = .next s) ∧
    (s.issuedOn core = false → ∃ t : State, exec (.arenaEntryApply core key) s = .next t ∧ t.waves = s.waves ∧ t.mem.arenas = s.mem.arenas ∧
      t.mem.phys = s.mem.phys ∧ (∀ l ∈ t.mem.lags, l.key = key → core ∉ l.cores) ∧
      ∀ l ∈ s.mem.lags, (l.key ≠ key ∧ l.cores ≠ [] → l ∈ t.mem.lags))

/-- The death of a node (R401, R404, R407, R483), step by step: with nothing outstanding it goes to its record, or its arena is dying and
every core hears of it; when all have, and no accepted access to the slot is left, the slot is swept from tags, L1s, write-backs and
translations; its frames, zeroed, go back to the pool and the slot is free; when every core has heard that, its record waits in the node
ring; when that has been written the node is gone and each successor's count falls by one. -/
def Obligations.NodesDieStepByStep : Prop :=
  ∀ key s n, s.node? key = some n → NoneFailed s n.kernel →
    (n.state = .released → n.over = true → n.slot = none →
      ∃ t : State, exec (.nodeDeath key) s = .next t ∧ t.mem = s.mem ∧ t.waves = s.waves ∧
        (t.node? key).map (fun x => (x.state, x.step)) = some (.recording, 6)) ∧
    (∀ k g, n.state = .released → n.over = true → n.slot = some (k, g) →
      let old := smGet ({} : Arena) s.mem.arenas (arenaKey n.asid k)
      ∃ t : State, exec (.nodeDeath key) s = .next t ∧ t.waves = s.waves ∧ (t.node? key).map (fun x => (x.state, x.step)) = some (.dying, 3) ∧
        smGet ({} : Arena) t.mem.arenas (arenaKey n.asid k) = { old with state := 2 } ∧
        ∀ c, c < 512 → ∃ l ∈ t.mem.lags, l.key = arenaKey n.asid k ∧ c ∈ l.cores) ∧
    (∀ k g, n.state = .dying → n.slot = some (k, g) → n.step = 3 → s.mem.settled (arenaKey n.asid k) = true →
      s.slotBusy n.asid k = false →
      ∃ t : State, exec (.nodeDeath key) s = .next t ∧ t.waves = s.waves ∧ t.mem.phys = s.mem.phys ∧ t.mem.host = s.mem.host ∧
        t.mem.vault = s.mem.vault ∧ (t.node? key).map (fun x => (x.state, x.step)) = some (.dying, 5) ∧
        (∀ a, keyInSlot n.asid k a = true → smFind t.mem.tags a = none ∧ ∀ c ∈ t.cores, ∀ l ∈ c.2.l1, l.1 ≠ a) ∧
        (∀ b ∈ t.mem.wbs, keyInSlot n.asid k b.key = false) ∧
        ∀ x ∈ t.mem.tlb, x.asid = n.asid → x.arena = true → x.page / 2 ^ 18 % 4096 ≠ k) ∧
    (∀ k g, n.state = .dying → n.slot = some (k, g) → n.step = 5 →
      let old := smGet ({} : Arena) s.mem.arenas (arenaKey n.asid k)
      ∃ t : State, exec (.nodeDeath key) s = .next t ∧ t.waves = s.waves ∧
        (t.node? key).map (fun x => (x.state, x.step, x.frames)) = some (.recording, 6, old.frames.length) ∧
        (t.asid n.asid).pool = (s.asid n.asid).pool ++ old.frames ∧
        (smGet ({} : Arena) t.mem.arenas (arenaKey n.asid k)).state = 0 ∧ (smGet ({} : Arena) t.mem.arenas (arenaKey n.asid k)).gen = old.gen ∧
        ∀ a, (a < (s.asid n.asid).arena + 16 * k ∨ (s.asid n.asid).arena + 16 * k + 16 ≤ a) →
          Memory.get t.mem.phys a = if ∃ f ∈ old.frames, f ≤ a ∧ a < f + 65536 then 0 else Memory.get s.mem.phys a) ∧
    (n.state = .recording → n.step = 6 → (∃ k g, n.slot = some (k, g) ∧ s.mem.settled (arenaKey n.asid k) = false) →
      ∃ t : State, exec (.nodeDeath key) s = .next t ∧ t.mem = s.mem ∧ t.waves = s.waves ∧ t.node? key = some n) ∧
    (n.state = .recording → n.step = 6 → (∀ k g, n.slot = some (k, g) → s.mem.settled (arenaKey n.asid k) = true) →
      ∃ t : State, exec (.nodeDeath key) s = .next t ∧ t.mem = s.mem ∧ t.waves = s.waves ∧ (t.node? key).map Node.step = some 7 ∧
        (smGet ({} : Ring) t.front.rings (ringKey n.asid true)).queue =
          (smGet ({} : Ring) s.front.rings (ringKey n.asid true)).queue ++ [s.nodeRecord n]) ∧
    (n.state = .recording → n.step = 7 → s.recordWaits n = false →
      ∃ t : State, exec (.nodeDeath key) s = .next t ∧ t.mem = s.mem ∧ t.waves = s.waves ∧ t.node? key = none ∧
        ∀ i y, i ∈ n.succ → n.succ.Nodup → nodeKey n.asid i ≠ key → s.node? (nodeKey n.asid i) = some y → y.state = .pending →
          ∃ z, t.node? (nodeKey n.asid i) = some z ∧ z.deps = y.deps - 1 ∧ (2 ≤ y.deps → z.state = .pending) ∧
            (y.deps = 1 → z.state = if y.doomed = true ∨ n.failed ≠ 0 ∨ y.failed ≠ 0 then .recording else .ready)) ∧
    (n.state = .recording → n.step = 7 → s.recordWaits n = true →
      ∃ t : State, exec (.nodeDeath key) s = .next t ∧ t.mem = s.mem ∧ t.node? key = some n)

/-- The command of a slot record is done: its record is gone, and its entry waits in the command ring of its queue's ASID (R482; log 21). -/
def Sys2Proof.Answered (s t : State) (id : Nat) (c : Slotrec) (status value : Nat) : Prop :=
  smFind t.front.cmds id = none ∧ (smGet ({} : Ring) t.front.rings (ringKey (s.queue c.queue).asid false)).queue =
    (smGet ({} : Ring) s.front.rings (ringKey (s.queue c.queue).asid false)).queue ++ [cmdEntry c.tag c.queue c.kind status value]

/-- Kernels (R22, R374-R379, R386, R388). A launch record whose reads succeeded at its consumption and that passed every check becomes a
kernel with the lowest free number, its waiting gangs and its nodes, or waits while every number is held (log 77); another creates nothing,
and its record says "shape" or "page". The first gang of the placement list with an entirely free candidate set is placed on the first such
set: its teams claim slots that no other team on their cores has, and where no saved context stands there the launch waves of a new gang
start, each as one split of all lanes. A kernel whose gangs have all exited and of which
no node lives is gone, with its last record. The status of a refused command, where a record without CREC goes, and where the launch
address lies in its command, whose entry goes to the ring of its queue's ASID, are the model's choice (log 35, log 43, log 21). -/
def Obligations.KernelsComeAndGo : Prop :=
  (∀ id s c l, smFind s.front.cmds id = some c → c.kind = 1 → c.begun = true → c.plan = some l →
    s.kernelNumber (s.queue c.queue).asid = none → exec (.launchConsume id) s = .next s) ∧
  (∀ id s c l num, smFind s.front.cmds id = some c → c.kind = 1 → c.begun = true → c.plan = some l →
    s.kernelNumber (s.queue c.queue).asid = some num →
    let asid := (s.queue c.queue).asid
    let kid := s.graph.nextId
    let first := (s.nodeNumbers asid l.nodes.length).1
    ∃ (t : State) (k : Kernel), exec (.launchConsume id) s = .next t ∧ t.waves = s.waves ∧ t.kernel? kid = some k ∧ k.asid = asid ∧
      k.num < 65535 ∧ (∀ x ∈ s.graph.kernels, x.2.asid = asid → x.2.num ≠ k.num) ∧
      (∀ n, n < k.num → ∃ x ∈ s.graph.kernels, x.2.asid = asid ∧ x.2.num = n) ∧
      k.gangs = recf l.rec0 8 4 ∧ k.regs = 8 * (bitsOf (recf l.rec0 0x0C 4) 20 16 + 1) ∧ k.waves = bitsOf (recf l.rec0 0x0C 4) 11 8 + 1 ∧
      k.teams = bitsOf (recf l.rec0 0x0C 4) 5 4 + 1 ∧ k.prio = bitsOf (recf l.rec0 0x14 4) 2 0 ∧ k.tasks = bitsOf (recf l.rec0 0x1C 4) 23 16 ∧
      k.kver = bitsOf (recf l.rec0 0x0C 4) 2 0 ∧ k.firstNode = first ∧ smFind t.front.cmds id = none ∧
      (∀ i, i < k.gangs → (kid + 1 + i, ({ kernel := kid, num := i, since := s.clk } : Gang)) ∈ t.graph.gangs) ∧
      ∀ i d, l.nodes[i]? = some d → i < l.lists.length → ∃ n, t.node? (nodeKey asid (first + i)) = some n ∧ n.kernel = kid ∧ n.prio = d.prio ∧
        n.deps = d.deps ∧ n.arena = d.arena ∧ n.ext = d.ext ∧ n.succ = d.succ.map (first + ·) ∧
        n.state = if d.deps = 0 then .ready else .pending) ∧
  (∀ id s c, smFind s.front.cmds id = some c → c.kind = 1 → c.begun = true → c.plan = none →
    let b := c.launch.getD []
    let st := c.refused
    ∃ t : State, exec (.launchConsume id) s = .next t ∧ t.waves = s.waves ∧ t.graph.kernels = s.graph.kernels ∧
      t.graph.gangs = s.graph.gangs ∧ (∀ k, (t.node? k).isSome = (s.node? k).isSome) ∧
      Answered s t id c (if st = 3 then 4 else 1) 0 ∧
      (smGet ({} : Ring) t.front.rings (ringKey (s.queue c.queue).asid true)).queue =
        (smGet ({} : Ring) s.front.rings (ringKey (s.queue c.queue).asid true)).queue ++
          [padTo 128 (kernelRecord 0xFFFF (s.queue c.queue).asid st (c.get 8 8) 0xFFFFFFFF (recf b 0x60 4) s.clk (recf b 8 4) 0)]) ∧
  (∀ die s g x k cs xs ys, smGet 0 s.graph.placeClk die ≠ s.clk + 1 → (s.reserveFor die).placeList = xs ++ (g, x) :: ys →
    (∀ y ∈ xs, ∀ z, s.kernel? y.2.kernel = some z → ∀ c ∈ (s.reserveFor die).candidates y.2 die, (s.reserveFor die).setFree y.1 z c = false) →
    s.kernel? x.kernel = some k → s.gang? g = some x →
    ((s.reserveFor die).candidates x die).find? ((s.reserveFor die).setFree g k) = some cs →
    ∃ t : State, exec (.gangPlace die) s = .next t ∧ smFind t.graph.placeClk die = some (s.clk + 1) ∧
      (t.gang? g).map (fun y => (y.cores, y.placedAt)) = some (cs, s.clk + 1) ∧
      (x.state = .saved → ∀ i core z, cs[i]? = some core → s.team? (teamKey g i) = some z → (t.team? (teamKey g i)).map Team.core = some (some core)) ∧
      (x.state = .waiting → (∀ y ∈ s.graph.teams, y.1 / 4 ≠ g) →
        let ready := (∀ c ∈ cs, s.heldTeams c = []) ∧ ∀ e ∈ s.engines, e.2.owner.map (· / 4) ≠ some g
        t.mem = s.mem ∧ (ready → (t.gang? g).map Gang.state = some .placed) ∧
        ∀ i core, cs[i]? = some core → ∃ z, t.team? (teamKey g i) = some z ∧ z.core = some core ∧ z.slots.length = k.waves + k.tasks ∧ z.spad = [] ∧
          (∀ j y, j ≠ teamKey g i → t.team? j = some y → y.core = some core → ∀ n ∈ z.slots, n < 64 ∧ n ∉ y.slots) ∧
          (ready → ∀ w, w < k.waves → ∃ u y, t.wave? u = some y ∧ y.gang = g ∧ y.team = i ∧ y.index = w ∧ y.role = k.role w ∧ y.regs = k.regs ∧
            y.place = some (core, z.slots.getD w 0) ∧ y.fresh = true ∧ y.exited = 0 ∧ y.r.v = [] ∧ y.r.p = [] ∧ y.r.f = [] ∧
            (∀ n, smGet 0 y.r.k n = if n = 60 then lo32 (BitVec.ofNat 64 (k.sp x.num i w)) else if n = 61 then hi32 (BitVec.ofNat 64 (k.sp x.num i w))
              else k.param.getD n 0) ∧
            y.live = [some { pc := pcAt ((k.vers.getD k.kver (0, 0, 0, 0)).1 / 128) 1, mask := 0xFFFFFFFF, ver := k.kver }, none, none, none]))) ∧
  ∀ kern s k, s.kernel? kern = some k →
    (k.gangs + k.grown ≤ k.gone → (∀ n ∈ s.graph.nodes, n.2.kernel ≠ kern) →
      ∃ t : State, exec (.kernelRetire kern) s = .next t ∧ t.waves = s.waves ∧ t.kernel? kern = none ∧
        (smGet ({} : Ring) t.front.rings (ringKey k.asid true)).queue = (smGet ({} : Ring) s.front.rings (ringKey k.asid true)).queue ++
          [padTo 128 (kernelRecord k.num k.asid 1 k.launch k.firstNode k.nnodes s.clk k.gangs k.grown)]) ∧
    (k.gone < k.gangs + k.grown → exec (.kernelRetire kern) s = .next s)

/-- Task waves and steals (R391-R393). A kernel's gathered tasks are poured on the core that comes next, full or when the wait is over:
lane i receives task i, lanes above have exited, and the wave takes a free reservation of its kernel. A thief asks the victim that its
LFSR gives; the victim gives up half its tasks of the kernel that no Sprue has gathered, from its tail, at most 32, in their order, or
answers "none". That no more come than the thief has room for, and that %wave counts the pours of the die before this one, are the model's
reading (log 78, log 44). -/
def Obligations.TasksArePouredAndStolen : Prop :=
  (∀ i s core kern k ts key j z, i = .spruePour (dieOf core) ∧ ts.length = 32 ∨ i = .sprueWaitExpiry core →
    s.pourCore (dieOf core) = some core → s.pourOn core = some (kern, ts) → s.freeRes kern core = some (key, j) → s.kernel? kern = some k →
    s.team? key = some z → ts ≠ [] →
    ∃ (t : State) (w : Wave), exec i s = .next t ∧ t.mem = s.mem ∧ (∀ key x, t.l1 core key = some x → x.valid = x.dirty) ∧
      t.wave? s.nextWave = some w ∧ t.nextWave = s.nextWave + 1 ∧
      (∀ u, u ≠ s.nextWave → t.wave? u = s.wave? u) ∧ w.kernel = kern ∧ w.teamKey = key ∧ w.res = some j ∧ w.role = .task ∧ w.regs = k.regs ∧
      w.index = 16 + smGet 0 s.graph.pours (dieOf core) % 48 ∧ w.place = some (core, z.slots.getD (k.waves + j) 0) ∧
      (∀ l, hasLane w.exited l = (decide (l < 32) && decide (ts.length ≤ l))) ∧
      (∀ l x n, ts[l]? = some x → n < 8 → w.getV n l = x.arg.getD n 0) ∧
      (w.wk.tasks = ts.zipIdx.map fun x => ⟨x.2, x.1.node⟩) ∧ w.r.p = [] ∧ w.r.f = [] ∧
      (w.split? 0).map (fun y => (y.pc, y.mask, y.due)) = some ((ts.headD ⟨kern, 0, 0, [], true⟩).entry, ~~~w.exited, .entry) ∧
      (∃ xs, (t.core core).tq = (gatherTasks (s.core core).tq kern).2 ++ xs) ∧ smGet 0 t.graph.pours (dieOf core) = smGet 0 s.graph.pours (dieOf core) + 1) ∧
  (∀ core s k, nextAfter (some (s.core core).turn) (s.stealKernels core) = some k → (s.core core).steal = none → (s.core core).gapTo ≤ s.clk →
    let x := lfsrStep (s.core core).lfsr
    let y := if x.toNat % 128 = core % 128 then lfsrStep x else x
    ∃ t : State, exec (.stealRequest core) s = .next t ∧ t.mem = s.mem ∧ t.waves = s.waves ∧ (t.core core).lfsr = y ∧ (t.core core).turn = k ∧
      (t.core core).steal = some (k, 128 * dieOf core + y.toNat % 128) ∧ (t.core core).tq = (s.core core).tq) ∧
  ∀ core victim s k, (s.core core).steal = some (k, victim) → victim ≠ core →
    let r := (s.updCore core fun c => { c with steal := none }).noteEligible victim
    let mine := fun (t : Task) => t.kernel == k && !t.gathered
    let n := min (min 32 ((((r.core victim).tq.filter mine).length + 1) / 2)) (4096 - (s.core core).queued)
    (n = 0 → ∃ t : State, exec (.stealAnswer core) s = .next t ∧ t.mem = s.mem ∧ t.waves = s.waves ∧ (t.core core).steal = none ∧
      (t.core core).gapTo = s.clk + bitsOf (s.spruectl (dieOf core)) 25 16 ∧ ∀ c, (t.core c).tq = (r.core c).tq) ∧
    (n ≠ 0 → (∀ x ∈ s.graph.kernels, x.2.undealt = []) →
      ∃ (t : State) (kept got : List Task), exec (.stealAnswer core) s = .next t ∧ t.mem = s.mem ∧ t.waves = s.waves ∧
        (t.core core).steal = none ∧ (t.core victim).tq = kept ∧ (t.core core).tq = (s.core core).tq ++ got ∧ got.length = n ∧
        (r.core victim).tq.filter mine = kept.filter mine ++ got ∧
        (r.core victim).tq.filter (fun t => !mine t) = kept.filter (fun t => !mine t))

/-- A command record that starts now: its queue takes it, no earlier one of its queue waits, and its reserved bytes are zero (R481). -/
structure Sys2Proof.Starts (s : State) (id : Nat) (c : Slotrec) (fields : List (Nat × Nat)) : Prop where
  found : smFind s.front.cmds id = some c
  fresh : c.begun = false
  driver : c.queue ≠ anvilQueue
  turn : s.mayStart id c = true
  takes : c.kind ≤ 3 ∨ s.privSlot c = true
  clean : c.clean fields = true

/-- Page faults (R220-R222, R448). A load whose walk fails, and a code fetch whose walk fails, post a record with what R221 says and park
the wave; the register, the flag and the lane stay. The driver's "resume" marks the instruction, and with the last record of the wave it
is tried again and the wave goes on; "fail" makes PAGE pending at once for its unfinished lanes, which leave it. A halted wave enters its handler anew, or all its lanes exit. The
records stand in a list (log 14). Where a command has the serial and the action, and which ring takes its entry, are the model's choice
(log 21). -/
def Obligations.PageFaultsWaitForTheDriver : Prop :=
  (∀ s u n l w o x g wd fs d a b cc r, Performs s u n l w o x → o.ins = .ld g wd fs d a b cc → o.uni = false → windowOf x.addr.toNat = 0 →
    o.stuck = 0 → hasLane o.asked l = false → o.record = none → s.l1 w.core (lineKey w.asid x.addr.toNat) = none →
    s.mem.wbOut w.core (lineKey w.asid x.addr.toNat) = false → smFind s.mem.tags (lineKey w.asid x.addr.toNat) = none →
    (s.translate (keyAsid (lineKey w.asid x.addr.toNat)) (keyAddr (lineKey w.asid x.addr.toNat))).1 = .fault r →
    ∃ (t : State) (y : Wave) (p : Op) (f : FaultRec), exec (.memAccessComplete u n (laneBit l)) s = .next t ∧ t.mem = s.mem ∧
      t.wave? u = some y ∧ y.r = w.r ∧ y.parked = true ∧ y.op? n = some p ∧ p.todo = o.todo ∧ p.stuck = laneBit l ∧ p.parked = true ∧
      p.record = some s.front.nextFault ∧ t.front.faults = s.front.faults ++ [f] ∧ f.serial = s.front.nextFault ∧ f.wave = u ∧ f.op = some n ∧
      f.kind = 0 ∧ f.settled = false ∧ f.bytes = le 8 x.addr.toNat ++ le 2 w.asid ++ le 1 0 ++ le 1 0 ++ le 4 (laneBit l).toNat ++
        le 8 o.pc.toNat ++ le 2 w.core ++ le 1 w.slot ++ le 1 r ++ le 4 s.front.nextFault) ∧
  (∀ u e s w x r z, s.wave? u = some w → w.split? e = some x → s.mayFetch w e x = true → pcShape x.pc = true →
    s.codeLine w.asid (lineNum x.pc) = .page r z →
    ∃ (t : State) (y : Wave) (f : FaultRec), exec (.fetchLine u e) s = .next t ∧ t.mem = s.mem ∧ t.wave? u = some y ∧ y.r = w.r ∧
      y.parked = true ∧ t.front.faults = s.front.faults ++ [f] ∧ f.serial = s.front.nextFault ∧ f.wave = u ∧ f.settled = false ∧
      f.bytes = le 8 x.pc.toNat ++ le 2 w.asid ++ le 1 2 ++ le 1 (windowOf x.pc.toNat) ++ le 4 x.mask.toNat ++ le 8 x.pc.toNat ++ le 2 w.core ++
        le 1 w.slot ++ le 1 r ++ le 4 s.front.nextFault) ∧
  ∀ id s c r w, Starts s id c [(8, 4), (0x0C, 1)] → c.kind = 19 → s.front.faults.find? (fun x => x.serial == c.get 8 4) = some r →
    r.settled = false → (s.asid (recf r.bytes 8 2)).dying = false → s.wave? r.wave = some w →
    (∀ n o, r.kind = 0 → r.op = some n → w.op? n = some o → w.parked = true → w.place.isSome = true → c.get 0x0C 1 = 0 →
      ((∃ x ∈ s.front.faults, x.serial ≠ r.serial ∧ x.wave = r.wave ∧ x.kind ≤ 1 ∧ x.settled = false) →
        ∃ (t : State) (y : Wave) (p : Op), exec (.slotAnswer id) s = .next t ∧ Answered s t id c 0 0 ∧ t.mem = s.mem ∧ t.wave? r.wave = some y ∧
          y.r = w.r ∧ y.parked = true ∧ y.op? n = some p ∧ p.replay = true ∧ p.record = none ∧ p.todo = o.todo) ∧
      ((∀ x ∈ s.front.faults, x.serial ≠ r.serial → x.wave = r.wave → 1 < x.kind ∨ x.settled = true) → o.todo ≠ 0 → o.stuck ≠ 0 →
        (∀ p ∈ w.ops, p.atRest ≠ 0 → p.serial = n) → (∀ p ∈ w.ops, p.serial = n → p = o) →
        (∀ l, hasLane o.atRest l = true → s.arenaDead w.asid (s.effAddr (s.replayEnv r.wave w o) (memForm o.ins) l).1 = false) →
        (∀ x ∈ o.args, hasLane o.atRest x.lane = true → s.arenaDead w.asid x.addr.toNat = false) →
        ∃ (t : State) (y : Wave) (p : Op), exec (.slotAnswer id) s = .next t ∧ Answered s t id c 0 0 ∧ t.mem = s.mem ∧ t.wave? r.wave = some y ∧
          y.r.v = w.r.v ∧ y.r.k = w.r.k ∧ y.parked = false ∧ y.op? n = some p ∧ p.parked = false ∧ p.stuck = 0 ∧ p.record = none ∧
          p.todo = o.todo)) ∧
    (∀ n o g wd fs d a b cc, r.kind = 0 → r.op = some n → w.op? n = some o → o.ins = .ld g wd fs d a b cc → o.todo = o.stuck →
      o.hmark = false → o.stuck ≠ 0 → (∀ l, hasLane o.stuck l = true → ∃ x, o.arg? l = some x ∧ s.arenaDead w.asid x.addr.toNat = false) →
      (∀ p ∈ w.ops, p.atRest ≠ 0 → p.serial = n) → c.get 0x0C 1 = 1 →
      ∃ (t : State) (y : Wave), exec (.slotAnswer id) s = .next t ∧ Answered s t id c 0 0 ∧ t.mem = s.mem ∧ t.wave? r.wave = some y ∧
        y.r.v = w.r.v ∧ y.r.k = w.r.k ∧ y.op? n = none ∧ y.t.cause.getLsbD 3 = true ∧
        ∀ k, y.getF k = if o.flag = some k then w.getF k - 1 else w.getF k) ∧
    (r.kind = 3 → w.t.haltRecord = some r.serial →
      (c.get 0x0C 1 = 0 → ∃ (t : State) (y : Wave), exec (.slotAnswer id) s = .next t ∧ Answered s t id c 0 0 ∧ t.mem = s.mem ∧
        t.wave? r.wave = some y ∧ y.r = w.r ∧ y.t.cause = w.t.cause ∧ y.t.planes = w.t.planes ∧ y.t.dq = w.t.dq ∧ y.t.halted = false ∧
        y.t.handler = none ∧ y.exited = w.exited) ∧
      (c.get 0x0C 1 = 1 → ∃ (t : State) (y : Wave), exec (.slotAnswer id) s = .next t ∧ Answered s t id c 0 0 ∧
        t.wave? r.wave = some y ∧ y.t.halted = false ∧ y.present = 0))

/-! ## The front end -/

/-- The ring of an ASID's node records or command entries. -/
def Sys2Proof.ringOf (s : State) (asid : Nat) (node : Bool) : Ring := smGet {} s.front.rings (ringKey asid node)

/-- A command step with the kind of its record, the payload fields that kind has, and what selects it below its kind. -/
def Sys2Proof.slotForm : Instr → Option (Nat × Nat × List (Nat × Nat) × (Slotrec → Bool))
  | .slotLaunch id => some (id, 1, [(8, 8)], anySlot)
  | .slotGrow id => some (id, 2, [(8, 2), (0x0C, 4)], anySlot)
  | .slotMail id => some (id, 3, [(8, 8), (0x10, 32)], anySlot)
  | .slotAsid id => some (id, 16, [(8, 2), (0x10, 32)], anySlot)
  | .invalidateGrants id => some (id, 17, [(8, 1), (0x0A, 2), (0x0C, 2)], subSlot 8 1)
  | .invalidateAsid id => some (id, 17, [(8, 1), (0x0A, 2)], subSlot 8 2)
  | .teardown id => some (id, 18, [(8, 2)], anySlot)
  | .slotAnswer id => some (id, 19, [(8, 4), (0x0C, 1)], anySlot)
  | .poolArena id => some (id, 20, [(8, 2), (0x0A, 1), (0x10, 8), (0x18, 4)], subSlot 0x0A 0)
  | .poolSave id => some (id, 20, [(8, 2), (0x0A, 1), (0x10, 8), (0x18, 4)], subSlot 0x0A 1)
  | .transferRequest (.cmd id) => some (id, 22, [(8, 2), (0x0A, 2), (0x0C, 1), (0x0D, 1)], anySlot)
  | .cancel id => some (id, 23, [(8, 2), (0x0C, 4)], anySlot)
  | .configCodebook id => some (id, 24, [(8, 1), (0x0C, 2), (0x0E, 2), (0x10, 32)], subSlot 8 0)
  | .debugOpen id => some (id, 25, [(8, 2), (0x0A, 1), (0x10, 8)], subSlot 0x0A 0)
  | .debugClose id => some (id, 25, [(8, 2), (0x0A, 1)], subSlot 0x0A 1)
  | .service id => some (id, 26, [(8, 2), (0x10, 8), (0x18, 8), (0x20, 4), (0x24, 4), (0x28, 2), (0x2A, 2), (0x2C, 4)], anySlot)
  | _ => none

/-- A gang that a vacate may select (R107, R395): it has been given cores, but not in this clock, or it has exited in this clock. -/
def Sys2Proof.Selectable (s : State) (k : Nat) (y : Gang) : Prop :=
  y.kernel = k ∧ (y.stands = true ∧ y.placedAt ≠ s.clk + 1 ∨ y.state = .gone ∧ y.goneAt = s.clk + 1)

/-- Gangs of `p` are told to leave their cores (R107, R395): one that stands is saved, but for one that exits; one whose cores are still
being set up gives them up. No wave changes, but that one of a gang that was to resume stands in no slot. -/
structure Sys2Proof.Leaves (s t : State) (p : Nat → Prop) : Prop where
  mem : t.mem = s.mem
  waves : ∀ u w, s.wave? u = some w → t.wave? u = some w ∨
    p w.gang ∧ (s.gang? w.gang).map Gang.state = some .resuming ∧ t.wave? u = some { w with place := none }
  saved : ∀ g y, p g → s.gang? g = some y → y.state = .placed → s.gangExits g = false → (t.gang? g).map Gang.state = some .saving
  exits : ∀ g y, p g → s.gang? g = some y → y.state = .placed → s.gangExits g = true → t.gang? g = some y
  starting : ∀ g y, p g → s.gang? g = some y → y.state = .starting → (t.gang? g).map (fun z => (z.state, z.cores)) = some (.waiting, [])
  resuming : ∀ g y, p g → s.gang? g = some y → y.state = .resuming → (t.gang? g).map (fun z => (z.state, z.cores)) = some (.saved, [])
  others : ∀ g y, s.gang? g = some y → ¬ p g → t.gang? g = some y

/-- What the commands of a slot record do (R215, R217, R378, R395, R403, R406, R426, R450, R458, R472, R481, R482): each has its effect and
is answered with status "done" and the value of its kind; a record with a reserved byte set is answered with status "bad" and has no
effect; `launch`, `vacate` and `transfer` are answered when what they began is over; the Anvil's requests stand beside the driver's. Where
the fields of a payload lie, and which ring takes the entry, are the model's choice (log 21); so are the length of a channel's ring (log
86), that the arena slots of an ASID that becomes valid are empty (log 57) and that frames join a pool as they are (log 56). -/
def Obligations.SlotCommandsActAndAnswer : Prop :=
  (∀ id s c, smFind s.front.cmds id = some c → c.begun = false → s.mayStart id c = true → s.knownSlot c = false →
    c.queue ≠ anvilQueue → ∃ t : State, exec (.slotNop id) s = .next t ∧ Answered s t id c 1 0 ∧ t.mem = s.mem ∧ t.waves = s.waves ∧ t.graph = s.graph) ∧
  (∀ i id kind fields sel s c, slotForm i = some (id, kind, fields, sel) → smFind s.front.cmds id = some c → c.begun = false →
    s.mayStart id c = true → (kind ≤ 3 ∨ s.privSlot c = true) → c.kind = kind → sel c = true → c.clean fields = false →
    c.queue ≠ anvilQueue → (kind = 22 → s.earlierAsk id 22 = false ∧ ∀ k x, s.kernelOf (c.get 8 2) (c.get 0x0A 2) = some (k, x) → x.recastAt ≠ s.clk + 1) →
    ∃ t : State, exec i s = .next t ∧ Answered s t id c 1 0 ∧ t.mem = s.mem ∧ t.waves = s.waves ∧ t.graph = s.graph) ∧
  (∀ id s c, Starts s id c [] → c.kind = 0 →
    ∃ t : State, exec (.slotNop id) s = .next t ∧ Answered s t id c 0 0 ∧ t.mem = s.mem ∧ t.waves = s.waves ∧ t.graph = s.graph) ∧
  (∀ id s c, Starts s id c [(8, 8)] → c.kind = 1 → s.liveAsid (s.queue c.queue).asid = true → windowOf (c.get 8 8) = 0 →
    c.get 8 8 % 128 = 0 → ∃ t : State, exec (.slotLaunch id) s = .next t ∧ smFind t.front.cmds id = some { c with begun := true } ∧ t.mem = s.mem ∧
      t.waves = s.waves ∧ t.graph = s.graph) ∧
  (∀ id s c k x, Starts s id c [(8, 2), (0x0C, 4)] → c.kind = 2 → s.liveAsid (s.queue c.queue).asid = true →
    s.kernelOf (s.queue c.queue).asid (c.get 8 2) = some (k, x) → s.kernel? k = some x →
    (x.gangs + x.grown + c.get 0x0C 4 ≤ 65536 →
      ∃ t : State, exec (.slotGrow id) s = .next t ∧ Answered s t id c 0 0 ∧ t.mem = s.mem ∧ t.waves = s.waves ∧
        t.kernel? k = some { x with grown := x.grown + c.get 0x0C 4 } ∧
        ∀ i, i < c.get 0x0C 4 → (s.graph.nextId + i, ({ kernel := k, num := x.gangs + x.grown + i, since := s.clk } : Gang)) ∈ t.graph.gangs) ∧
    (65536 < x.gangs + x.grown + c.get 0x0C 4 →
      ∃ t : State, exec (.slotGrow id) s = .next t ∧ Answered s t id c 1 0 ∧ t.graph = s.graph)) ∧
  (∀ id s c, Starts s id c [(8, 8), (0x10, 32)] → c.kind = 3 → s.liveAsid (s.queue c.queue).asid = true →
    let r := s.send (s.queue c.queue).asid none (c.get 8 8) ((List.range 8).map fun i => BitVec.ofNat 32 (c.get (0x10 + 4 * i) 4))
    ∃ t : State, exec (.slotMail id) s = .next t ∧ Answered s t id c 0 r.1 ∧ t.graph = r.2.graph ∧ t.waves = r.2.waves ∧ t.mem = r.2.mem) ∧
  (∀ id s c, Starts s id c [(8, 2), (0x10, 32)] → c.kind = 16 → (s.asid (c.get 8 2)).dying = false → descClean c = true →
    ∃ t : State, exec (.slotAsid id) s = .next t ∧ Answered s t id c 0 0 ∧ t.mem.phys = s.mem.phys ∧ t.waves = s.waves ∧ t.graph = s.graph ∧
      (t.asid (c.get 8 2)).valid = (c.get 0x10 8).testBit 0 ∧ (t.asid (c.get 8 2)).base = c.get 0x10 8 / 2 ^ 18 * 2 ^ 18 ∧
      (t.asid (c.get 8 2)).arena = c.get 0x18 8 ∧ (t.asid (c.get 8 2)).dom = c.get 0x20 4 ∧ (t.asid (c.get 8 2)).pinq = c.get 0x24 4 ∧
      (∀ a, a ≠ c.get 8 2 → t.asid a = s.asid a) ∧
      ((c.get 0x10 8).testBit 0 = true → (s.asid (c.get 8 2)).valid = false →
        ∀ k, k < 4096 → smGet ({} : Arena) t.mem.arenas (arenaKey (c.get 8 2) k) = {})) ∧
  (∀ id s c fs r, Starts s id c [(8, 2), (0x0A, 1), (0x10, 8), (0x18, 4)] → c.kind = 20 → s.liveAsid (c.get 8 2) = true →
    1 ≤ c.get 0x18 4 → c.get 0x18 4 ≤ 65536 → c.get 0x10 8 % 8 = 0 → c.get 0x10 8 + 8 * c.get 0x18 4 ≤ 2 ^ 56 →
    s.frameList c = .ok fs r → (∀ f ∈ fs, f % 65536 = 0 ∧ f < 2 ^ 48) →
    (c.get 0x0A 1 = 0 → ∃ t : State, exec (.poolArena id) s = .next t ∧ Answered s t id c 0 (t.asid (c.get 8 2)).pool.length ∧
      (t.asid (c.get 8 2)).pool = (r.asid (c.get 8 2)).pool ++ fs ∧ t.mem.savePool = r.mem.savePool ∧ t.mem.phys = r.mem.phys) ∧
    (c.get 0x0A 1 = 1 → ∃ t : State, exec (.poolSave id) s = .next t ∧ Answered s t id c 0 t.mem.savePool.length ∧
      t.mem.savePool = r.mem.savePool ++ fs ∧ t.mem.phys = r.mem.phys)) ∧
  (∀ id s c k x, smFind s.front.cmds id = some c → c.kind = 21 →
    (Starts s id c [(8, 2), (0x0A, 2), (0x0C, 4)] → s.liveAsid (c.get 8 2) = true → s.kernelOf (c.get 8 2) (c.get 0x0A 2) = some (k, x) →
      (∀ y ∈ s.front.cmds, y.2.kind ≠ 21 ∨ y.2.begun = false) → s.earlierAsk id 21 = false →
      ∃ (t : State) (gs : List Nat) (n : Nat), exec (.vacate (.cmd id)) s = .next t ∧ Leaves s t (· ∈ gs) ∧
        smFind t.front.cmds id = some { c with begun := true, gangs := gs, freed := n } ∧
        (c.get 0x0C 4 = 0 → gs = []) ∧ (∀ g ∈ gs, ∃ y, (g, y) ∈ s.graph.gangs ∧ Selectable s k y) ∧
        (c.get 0x0C 4 ≤ n ∨ ∀ g y, (g, y) ∈ s.graph.gangs → Selectable s k y → g ∈ gs)) ∧
    (c.begun = true → c.queue ≠ anvilQueue → (∀ g ∈ c.gangs, s.leaving g = false) →
      ∃ t : State, exec (.vacate (.cmd id)) s = .next t ∧ Answered s t id c 0 c.freed ∧ t.graph = s.graph) ∧
    (c.begun = true → (∃ g ∈ c.gangs, s.leaving g = true) →
      ∃ t : State, exec (.vacate (.cmd id)) s = .next t ∧ (smFind t.front.cmds id).isSome = true ∧ t.graph = s.graph)) ∧
  (∀ (r : AnvilReq) s, ∃ (t : State) (c : Slotrec), exec (.vacate (.anvil r)) s = .next t ∧ t.mem = s.mem ∧ t.waves = s.waves ∧ t.graph = s.graph ∧
    smFind t.front.cmds s.front.nextCmd = some c ∧ c.kind = 21 ∧ c.begun = false ∧ c.queue = anvilQueue ∧
    (r.asid < 65536 → r.kernel < 65536 → r.arg < 2 ^ 32 → c.get 8 2 = r.asid ∧ c.get 0x0A 2 = r.kernel ∧ c.get 0x0C 4 = r.arg)) ∧
  (∀ (r : AnvilReq) s, ∃ (t : State) (c : Slotrec), exec (.transferRequest (.anvil r)) s = .next t ∧ t.mem = s.mem ∧ t.waves = s.waves ∧
    t.graph = s.graph ∧ smFind t.front.cmds s.front.nextCmd = some c ∧ c.kind = 22 ∧ c.begun = false ∧ c.queue = anvilQueue ∧
    (r.asid < 65536 → r.kernel < 65536 → r.arg < 256 → r.lock < 256 →
      c.get 8 2 = r.asid ∧ c.get 0x0A 2 = r.kernel ∧ c.get 0x0C 1 = r.arg ∧ c.get 0x0D 1 = r.lock)) ∧
  (∀ id s c k x, Starts s id c [(8, 2), (0x0A, 2), (0x0C, 1), (0x0D, 1)] → c.kind = 22 → s.liveAsid (c.get 8 2) = true → c.get 0x0D 1 ≤ 2 →
    s.kernelOf (c.get 8 2) (c.get 0x0A 2) = some (k, x) → s.kernel? k = some x → s.earlierAsk id 22 = false → x.recastAt ≠ s.clk + 1 →
    (c.get 0x0C 1 < 8 → x.vmask.testBit (c.get 0x0C 1) = true → ∃ (t : State) (y : Kernel), exec (.transferRequest (.cmd id)) s = .next t ∧
      t.mem = s.mem ∧ t.waves = s.waves ∧ t.kernel? k = some y ∧ y.kver = c.get 0x0C 1 ∧
      y.lock = (if c.get 0x0D 1 = 0 then x.lock else decide (c.get 0x0D 1 = 1)) ∧
      (x.kver = c.get 0x0C 1 → Answered s t id c 0 0 ∧ y.lag = x.lag) ∧
      (x.kver ≠ c.get 0x0C 1 → smFind t.front.cmds id = some { c with begun := true })) ∧
    (x.vmask.testBit (c.get 0x0C 1) = false → ∃ t : State, exec (.transferRequest (.cmd id)) s = .next t ∧ Answered s t id c 1 1 ∧
      t.graph = s.graph)) ∧
  (∀ id s c, Starts s id c [(8, 2), (0x0A, 2), (0x0C, 1), (0x0D, 1)] → c.kind = 22 → c.get 0x0D 1 ≤ 2 → s.earlierAsk id 22 = false →
    (s.liveAsid (c.get 8 2) = false ∨ s.kernelOf (c.get 8 2) (c.get 0x0A 2) = none) →
    ∃ t : State, exec (.transferRequest (.cmd id)) s = .next t ∧ Answered s t id c 3 2 ∧ t.graph = s.graph) ∧
  (∀ id s c k x, smFind s.front.cmds id = some c → c.kind = 22 → c.begun = true → s.liveAsid (c.get 8 2) = true →
    s.kernelOf (c.get 8 2) (c.get 0x0A 2) = some (k, x) →
    (x.lag = [] → c.queue ≠ anvilQueue → ∃ t : State, exec (.transferRequest (.cmd id)) s = .next t ∧ Answered s t id c 0 0 ∧ t.graph = s.graph) ∧
    (x.lag = [] → c.queue = anvilQueue → ∃ t : State, exec (.transferRequest (.cmd id)) s = .next t ∧ smFind t.front.cmds id = none ∧
      t.front.answers = s.front.answers ++ [le 1 22 ++ le 1 0 ++ le 8 0] ∧ t.graph = s.graph) ∧
    (x.lag ≠ [] → exec (.transferRequest (.cmd id)) s = .next s)) ∧
  (∀ id s c n, Starts s id c [(8, 2), (0x0C, 4)] → c.kind = 23 → s.liveAsid (c.get 8 2) = true →
    s.node? (nodeKey (c.get 8 2) (c.get 0x0C 4)) = some n →
    ∃ (t : State) (m : Node), exec (.cancel id) s = .next t ∧ Answered s t id c 0 0 ∧ t.mem = s.mem ∧ t.waves = s.waves ∧
      t.node? (nodeKey (c.get 8 2) (c.get 0x0C 4)) = some m ∧ m.failed = (if n.failed = 0 then 2 else n.failed) ∧ m.given = n.given ∧
      m.done = n.done) ∧
  (∀ id s c, c.kind = 25 → s.liveAsid (c.get 8 2) = true →
    (Starts s id c [(8, 2), (0x0A, 1), (0x10, 8)] → c.get 0x0A 1 = 0 → c.get 0x10 8 % 128 = 0 → windowOf (c.get 0x10 8) = 0 →
      (c.get 0x10 8 + monRing ≤ 2 ^ 56 → ∃ t : State, exec (.debugOpen id) s = .next t ∧ Answered s t id c 0 0 ∧
        smFind t.front.channels (c.get 8 2) = some ⟨c.get 0x10 8, 0, []⟩ ∧ t.waves = s.waves ∧ t.mem = s.mem) ∧
      (2 ^ 56 < c.get 0x10 8 + monRing → ∃ t : State, exec (.debugOpen id) s = .next t ∧ Answered s t id c 2 0 ∧
        t.front.channels = s.front.channels ∧ t.waves = s.waves ∧ t.mem = s.mem)) ∧
    (Starts s id c [(8, 2), (0x0A, 1)] → c.get 0x0A 1 = 1 → ∃ t : State, exec (.debugClose id) s = .next t ∧ Answered s t id c 0 0 ∧
      smFind t.front.channels (c.get 8 2) = none ∧ t.waves = s.waves ∧ t.mem = s.mem) ∧
    ∀ g, Starts s id c [(8, 2), (0x0A, 1), (0x0C, 2), (0x0E, 2)] → c.get 0x0A 1 = 2 → s.breakGang c = some g →
      (∀ y ∈ s.front.cmds, y.2.kind = 25 → y.1 = id) →
      ∃ t : State, exec (.hostBreak g) s = .next t ∧ Answered s t id c 0 0 ∧ t.mem = s.mem ∧
        ∀ u w, s.wave? u = some w → ∃ y, t.wave? u = some y ∧ y.r = w.r ∧ y.ops = w.ops ∧
          ((∀ x, (u, x) ∈ s.waves → x.gang ≠ g) → y = w) ∧ (w.gang = g → y.t.cause.getLsbD 12 = true)) ∧
  ∀ id s c, Starts s id c [(8, 2), (0x10, 8), (0x18, 8), (0x20, 4), (0x24, 4), (0x28, 2), (0x2A, 2), (0x2C, 4)] → c.kind = 26 →
    s.liveAsid (c.get 8 2) = true → ringOk (c.get 0x10 8) (c.get 0x20 4) = true → ringOk (c.get 0x18 8) (c.get 0x24 4) = true →
    bitsOf (c.get 0x2C 4) 31 24 = 0 → bitsOf (c.get 0x2C 4) 15 8 = 0 → c.get 0x10 8 < 2 ^ 48 → c.get 0x18 8 < 2 ^ 48 →
    ∃ t : State, exec (.service id) s = .next t ∧ Answered s t id c 0 0 ∧ t.mem = s.mem ∧ t.waves = s.waves ∧ t.graph = s.graph ∧
      (ringOf t (c.get 8 2) true).base = c.get 0x10 8 / 2 * 2 ∧ (ringOf t (c.get 8 2) true).hostmem = (c.get 0x10 8).testBit 0 ∧
      (ringOf t (c.get 8 2) true).size = c.get 0x20 4 ∧ (ringOf t (c.get 8 2) true).vector = c.get 0x28 2 ∧
      (ringOf t (c.get 8 2) true).queue = (ringOf s (c.get 8 2) true).queue ∧
      (ringOf t (c.get 8 2) false).base = c.get 0x18 8 / 2 * 2 ∧ (ringOf t (c.get 8 2) false).hostmem = (c.get 0x18 8).testBit 0 ∧
      (ringOf t (c.get 8 2) false).size = c.get 0x24 4 ∧ (ringOf t (c.get 8 2) false).vector = c.get 0x2A 2 ∧
      ((s.queue c.queue).asid ≠ c.get 8 2 → (ringOf t (c.get 8 2) false).queue = (ringOf s (c.get 8 2) false).queue)

/-- The invalidate command of a kind (R456). -/
def Sys2Proof.invalStep (kind id : Nat) : Instr :=
  if kind = 0 then .invalidateRange id else if kind = 1 then .invalidateGrants id else .invalidateAsid id

/-- The payload fields of a kind of invalidate. -/
def Sys2Proof.invalFields (kind : Nat) : List (Nat × Nat) :=
  if kind = 0 then [(8, 1), (0x0A, 2), (0x10, 8), (0x18, 8), (0x20, 1)] else if kind = 1 then [(8, 1), (0x0A, 2), (0x0C, 2)] else [(8, 1), (0x0A, 2)]

/-- The values that a kind of invalidate allows. -/
def Sys2Proof.InvalOk (kind : Nat) (c : Slotrec) : Prop :=
  if kind = 0 then c.get 0x10 8 % 65536 = 0 ∧ 1 ≤ c.get 0x18 8 ∧ c.get 0x18 8 ≤ 2 ^ 32 ∧
    (c.get 0x20 1 = 0 ∨ c.get 0x20 1 = 2 ∨ c.get 0x20 1 = 3) ∧ c.get 0x10 8 + 65536 * c.get 0x18 8 ≤ 2 ^ 56
  else if kind = 1 then c.get 0x0C 2 < 128 ∨ c.get 0x0C 2 = 0xFFFF else True

/-- Lines that an invalidate names. -/
def Sys2Proof.doomed (kind : Nat) (c : Slotrec) (key : Nat) : Bool :=
  keyAsid key == c.get 0x0A 2 &&
    if kind = 0 then windowOf (keyAddr key) == 0 && decide (c.get 0x10 8 ≤ keyAddr key) && decide (keyAddr key < c.get 0x10 8 + 65536 * c.get 0x18 8)
    else if kind = 1 then windowOf (keyAddr key) == 1 else true

/-- No translation and no grant that an invalidate names is cached. -/
def Sys2Proof.Dropped (kind : Nat) (c : Slotrec) (t : State) : Prop :=
  (kind = 0 → ∀ x ∈ t.mem.tlb, x.inRange (c.get 0x0A 2) (c.get 0x10 8) (65536 * c.get 0x18 8) = false) ∧
  (kind = 2 → ∀ x ∈ t.mem.tlb, x.asid ≠ c.get 0x0A 2) ∧
  (kind ≠ 0 → ∀ v, v < 128 → (kind = 2 ∨ c.get 0x0C 2 = 0xFFFF ∨ c.get 0x0C 2 = v) → smFind t.mem.grants (128 * c.get 0x0A 2 + v) = none)

/-- Invalidates and the teardown of an address space (R456, R481, R485). An invalidate blocks its queue, drops what is cached and sends the
dirty L1 bytes of its lines home; when no such byte is left anywhere, its lines leave every L1 and every tag, and it is answered. A
teardown stops the placed gangs of its ASID and discards those that have no work on their cores; when all have come to rest and no dirty deep line is left, nothing
of the ASID remains: no gang, kernel, node, line, translation, grant or descriptor. Where the fields of a payload lie, and what of an
address space stays, are the model's choice (log 21, log 58). -/
def Obligations.InvalidatesAndTeardownDropWhatTheyName : Prop :=
  (∀ kind id s c, kind < 3 → c.kind = 17 → c.get 8 1 = kind →
    (Starts s id c (invalFields kind) → s.liveAsid (c.get 0x0A 2) = true → InvalOk kind c →
      ∃ t : State, exec (invalStep kind id) s = .next t ∧ t.waves = s.waves ∧ t.mem.phys = s.mem.phys ∧ t.mem.host = s.mem.host ∧
        t.mem.vault = s.mem.vault ∧ smFind t.front.cmds id = some { c with begun := true } ∧ (t.queue c.queue).blocked = some id ∧
        (∀ core key, doomed kind c key = true → (t.l1 core key).elim 0 L1Line.dirty = 0) ∧ Dropped kind c t) ∧
    (smFind s.front.cmds id = some c → c.begun = true → s.linesClean (c.get 0x0A 2) (doomed kind c) = true → c.queue ≠ anvilQueue →
      ∃ t : State, exec (invalStep kind id) s = .next t ∧ Answered s t id c 0 0 ∧ t.waves = s.waves ∧ (t.queue c.queue).blocked ≠ some id ∧
        (∀ core key, doomed kind c key = true → t.l1 core key = none) ∧ (∀ key, doomed kind c key = true → smFind t.mem.tags key = none) ∧
        Dropped kind c t) ∧
    (smFind s.front.cmds id = some c → c.begun = true → s.linesClean (c.get 0x0A 2) (doomed kind c) = false →
      ∃ t : State, exec (invalStep kind id) s = .next t ∧ t.front = s.front ∧ t.waves = s.waves ∧ t.mem.phys = s.mem.phys ∧
        ∀ core key, doomed kind c key = true → (t.l1 core key).elim 0 L1Line.dirty = 0)) ∧
  ∀ id s c, c.kind = 18 →
    (Starts s id c [(8, 2)] → s.liveAsid (c.get 8 2) = true →
      ∃ t : State, exec (.teardown id) s = .next t ∧ t.mem.phys = s.mem.phys ∧ (t.asid (c.get 8 2)).dying = true ∧
        (t.queue c.queue).blocked = some id ∧
        (∀ g x k, s.gang? g = some x → s.kernel? x.kernel = some k → k.asid = c.get 8 2 → x.state = .placed ∨ x.state = .saving →
          (∀ y, (g, y) ∈ s.graph.gangs → y = x) → (t.gang? g).map Gang.state = some .saving) ∧
        ∀ g x k, s.gang? g = some x → s.kernel? x.kernel = some k → k.asid = c.get 8 2 →
          x.state ≠ .placed → x.state ≠ .saving → x.state ≠ .gone →
          (∀ y, (g, y) ∈ s.graph.gangs → y = x) → (t.gang? g).map Gang.state = some .gone ∧ ∀ u w, t.wave? u = some w → w.gang ≠ g) ∧
    (smFind s.front.cmds id = some c → c.begun = true → ¬ (∀ g ∈ s.asidGangs (c.get 8 2), g.2.state = .saved ∨ s.gangDrained g.1 = true) →
      exec (.teardown id) s = .next s) ∧
    (smFind s.front.cmds id = some c → c.begun = true → (∀ g ∈ s.asidGangs (c.get 8 2), g.2.state = .saved ∨ s.gangDrained g.1 = true) →
      s.linesClean (c.get 8 2) (fun key => keyAsid key == c.get 8 2 && windowOf (keyAddr key) != 2) = true → c.queue ≠ anvilQueue →
      ∃ t : State, exec (.teardown id) s = .next t ∧ Answered s t id c 0 0 ∧ (t.asid (c.get 8 2)).valid = false ∧
        (∀ k x, t.kernel? k = some x → x.asid ≠ c.get 8 2) ∧ (∀ k n, t.node? k = some n → n.asid ≠ c.get 8 2) ∧
        (∀ g ∈ s.asidGangs (c.get 8 2), ∀ u w, t.wave? u = some w → w.gang ≠ g.1) ∧
        (∀ core key, keyAsid key = c.get 8 2 → t.l1 core key = none) ∧ (∀ key, keyAsid key = c.get 8 2 → smFind t.mem.tags key = none) ∧
        (∀ x ∈ t.mem.tlb, x.asid ≠ c.get 8 2) ∧ ∀ v, v < 128 → smFind t.mem.grants (128 * c.get 8 2 + v) = none)

/-- `config` (R152, R161, R208, R333, R387, R394, R481, R486): each target takes its value, at its index alone, and the command is answered; a
base beyond physical memory is out of bounds. A record of a collective group starts, and the Anvil's event, which brings the members and
the limit that it names, completes it. Where the fields of a payload and the list of members lie is the model's choice (log 21). -/
def Obligations.ConfigCommandsWriteTheirTarget : Prop :=
  (∀ id s c, smFind s.front.cmds id = some c → c.kind = 24 → c.get 8 1 = 4 → c.begun = false → s.mayStart id c = true → s.privSlot c = true →
    ∃ t : State, exec (.slotNop id) s = .next t ∧ smFind t.front.cmds id = some { c with begun := true } ∧ t.mem = s.mem ∧ t.waves = s.waves ∧
      t.graph = s.graph) ∧
  (∀ id s c ms r, smFind s.front.cmds id = some c → c.kind = 24 → c.get 8 1 = 4 → c.begun = true → c.queue ≠ anvilQueue →
    c.clean [(8, 1), (0x0C, 2), (0x0E, 2), (0x10, 32)] = true → s.liveAsid (c.get 0x0C 2) = true → c.get 0x0E 2 < 256 → 1 ≤ c.get 0x14 4 →
    c.get 0x14 4 ≤ 1024 → 1 ≤ c.get 0x10 4 → c.get 0x10 4 ≤ 65535 → c.get 0x20 16 = 0 → windowOf (c.get 0x18 8) = 0 →
    c.get 0x18 8 + 2 * c.get 0x14 4 ≤ 2 ^ 56 → s.memberList c = .ok ms r → (∀ m ∈ ms, m.die ≤ 3) →
    (∃ t : State, exec (.configCollGroup id ms (c.get 0x10 4)) s = .next t ∧ Answered s t id c 0 0 ∧ t.mem = r.mem ∧ t.waves = s.waves ∧
      ∀ i, smFind t.graph.groups i = if i = 256 * c.get 0x0C 2 + c.get 0x0E 2 then some ⟨ms, c.get 0x10 4⟩ else smFind s.graph.groups i) ∧
    ∀ xs limit, (xs, limit) ≠ (ms, c.get 0x10 4) → exec (.configCollGroup id xs limit) s = .next s) ∧
  ∀ id s c, c.kind = 24 → Starts s id c [(8, 1), (0x0C, 2), (0x0E, 2), (0x10, 32)] →
    (c.get 8 1 = 0 → c.get 0x0C 2 < 256 → c.get 0x0E 2 = 0 →
      ∃ t : State, exec (.configCodebook id) s = .next t ∧ Answered s t id c 0 0 ∧ t.mem.phys = s.mem.phys ∧ t.waves = s.waves ∧
        ∀ i, smGet 0 t.mem.cbook i = if i = c.get 0x0C 2 then BitVec.ofNat 256 (c.get 0x10 32) else smGet 0 s.mem.cbook i) ∧
    (c.get 8 1 = 1 → c.get 0x0C 2 < 64 → c.get 0x0E 2 = 0 → fmtwOk (c.get 0x10 16) = true → c.get 0x20 16 = 0 →
      ∃ t : State, exec (.configDeepFmtw id) s = .next t ∧ Answered s t id c 0 0 ∧ t.mem.phys = s.mem.phys ∧ t.waves = s.waves ∧
        ∀ i, smGet 0 t.mem.fmtw i = if i = c.get 0x0C 2 then BitVec.ofNat 128 (c.get 0x10 16) else smGet 0 s.mem.fmtw i) ∧
    (c.get 8 1 = 2 → c.get 0x0C 2 < 128 → c.get 0x0E 2 < 64 → fmtwOk (c.get 0x10 16) = true → c.get 0x20 16 = 0 →
      ∃ t : State, exec (.configVaultFmtw id) s = .next t ∧ Answered s t id c 0 0 ∧ t.mem.phys = s.mem.phys ∧ t.waves = s.waves ∧
        ∀ v i, i < 64 → smGet 0 t.mem.vfmtw (64 * v + i) =
          if v = c.get 0x0C 2 ∧ i = c.get 0x0E 2 then BitVec.ofNat 128 (c.get 0x10 16) else smGet 0 s.mem.vfmtw (64 * v + i)) ∧
    (c.get 8 1 = 3 → c.get 0x0C 2 < 4 → c.get 0x0E 2 = 0 → c.get 0x18 24 = 0 → 2 ^ 48 ≤ c.get 0x10 8 →
      ∃ t : State, exec (.configGrantbase id) s = .next t ∧ Answered s t id c 2 0 ∧ t.mem = s.mem ∧ t.waves = s.waves) ∧
    (c.get 8 1 = 3 → c.get 0x0C 2 < 4 → c.get 0x0E 2 = 0 → c.get 0x18 24 = 0 → c.get 0x10 8 < 2 ^ 48 →
      ∃ t : State, exec (.configGrantbase id) s = .next t ∧ Answered s t id c 0 0 ∧ t.mem.phys = s.mem.phys ∧ t.waves = s.waves ∧
        ∀ i, smGet 0 t.mem.grantbase i = if i = c.get 0x0C 2 then BitVec.ofNat 64 (c.get 0x10 8) else smGet 0 s.mem.grantbase i) ∧
    (c.get 8 1 = 5 → c.get 0x0C 2 = 0 → c.get 0x0E 2 = 0 → c.get 0x10 32 < 2 ^ 16 →
      ∃ t : State, exec (.configPlacectl id) s = .next t ∧ Answered s t id c 0 0 ∧ t.mem = s.mem ∧ t.waves = s.waves ∧
        t.mod = { s.mod with placectl := BitVec.ofNat 32 (c.get 0x10 32) }) ∧
    (c.get 8 1 = 5 → c.get 0x0C 2 = 1 → c.get 0x0E 2 < 4 → c.get 0x10 32 < 2 ^ 26 → bitsOf (c.get 0x10 32) 15 10 = 0 →
      ∃ t : State, exec (.configSpruectl id) s = .next t ∧ Answered s t id c 0 0 ∧ t.mem = s.mem ∧ t.waves = s.waves ∧
        ∀ d, t.spruectl d = if d = c.get 0x0E 2 then c.get 0x10 32 else s.spruectl d) ∧
    (c.get 8 1 = 5 → c.get 0x0C 2 = 2 → c.get 0x0E 2 < 512 → c.get 0x10 32 < 2 ^ 16 →
      ∃ t : State, exec (.configStealseed id) s = .next t ∧ Answered s t id c 0 0 ∧ t.mem = s.mem ∧ t.waves = s.waves ∧
        (t.core (c.get 0x0E 2)).seed = BitVec.ofNat 16 (c.get 0x10 32) ∧
        (t.core (c.get 0x0E 2)).lfsr = (if c.get 0x10 32 = 0 then 1 else BitVec.ofNat 16 (c.get 0x10 32)) ∧
        ∀ k, k ≠ c.get 0x0E 2 → t.core k = s.core k)

/-- Work queues and completion rings (R320, R321, R479-R484). A doorbell read reserves one ticket or says why not; a doorbell write commits
one; ticket HEAD is consumed when its bit is set, and with a launch its record and what that names are read (R374, R500), unless its nodes
would pass the module's limit (R381); it then waits to start. A descriptor is written while VALID is 0 or with a
write that clears it. A ring's next entry is written at its place and then counted, unless it would overwrite one that is not
acknowledged; the host's acknowledgement is taken; an interrupt whose oldest entry has waited HOLD µs is raised. How a ring is
addressed, and that an illegal write of a descriptor changes nothing, are the model's choice (log 21). -/
def Obligations.QueuesAndRingsCarryRecords : Prop :=
  (∀ q s, 65535 < q ∨ (s.queue q).valid = false →
    exec (.doorbellReserve q) s = .next (s.tellHost (le 4 0xFFFFFFFE)) ∧ ∀ x, exec (.doorbellCommit q x) s = .next s) ∧
  (∀ q s, q < 65536 → (s.queue q).valid = true →
    ∃ t : State, exec (.doorbellReserve q) s = .next t ∧ t.mem = s.mem ∧ t.waves = s.waves ∧ t.graph = s.graph ∧
      (∀ p, p ≠ q → t.queue p = s.queue p) ∧
      if 2 ^ (s.queue q).log2n < ((s.queue q).next + 1 - (s.queue q).head).toNat
      then t.queue q = s.queue q ∧ t.front.answers = s.front.answers ++ [le 4 0xFFFFFFFF]
      else t.queue q = { s.queue q with next := (s.queue q).next + 1 } ∧ t.front.answers = s.front.answers ++ [le 4 (s.queue q).next.toNat]) ∧
  (∀ q ticket s, q < 65536 → (s.queue q).valid = true →
    let x := s.queue q
    let live := (ticket - x.head).toNat < (x.next - x.head).toNat ∧ smGet false x.commit (ticket.toNat % 2 ^ x.log2n) = false
    ∃ t : State, exec (.doorbellCommit q ticket) s = .next t ∧ t.mem = s.mem ∧ t.waves = s.waves ∧ t.graph = s.graph ∧
      (live → ∀ i, smGet false (t.queue q).commit i = if i = ticket.toNat % 2 ^ x.log2n then true else smGet false x.commit i) ∧
      (¬ live → t.queue q = x) ∧ (t.queue q).next = x.next ∧ (t.queue q).head = x.head ∧ ∀ p, p ≠ q → t.queue p = s.queue p) ∧
  (∀ q s bs r, (s.queue q).valid = true → (s.asid (s.queue q).asid).dying = false → (s.queue q).next ≠ (s.queue q).head →
    let x := s.queue q
    smGet false x.commit (x.head.toNat % 2 ^ x.log2n) = true → s.slotBytes x x.head = .ok bs r →
    let y := r.takeSlot q x bs
    (y.1.nodes ≠ 0 → 262144 < s.liveNodes + y.1.nodes → exec (.queueConsume q) s = .next s) ∧
    ((y.1.nodes = 0 ∨ s.liveNodes + y.1.nodes ≤ 262144) →
      ∃ t : State, exec (.queueConsume q) s = .next t ∧ t.waves = y.2.waves ∧ t.mem = y.2.mem ∧ (t.queue q).head = x.head + 1 ∧
        (t.queue q).next = x.next ∧ smGet false (t.queue q).commit (x.head.toNat % 2 ^ x.log2n) = false ∧
        smFind t.front.cmds y.2.front.nextCmd = some y.1) ∧
    (y.1.queue, y.1.kind, y.1.tag, y.1.bytes, y.1.begun) = (q, recf bs 0 1, recf bs 4 4, bs, false) ∧
    ∀ b p, recf bs 0 1 = 1 → recf bs 8 8 % 128 = 0 → r.graphRead x.asid (recf bs 8 8) 128 = .ok b p →
      y.1.launch = some b ∧ ∀ l p', p.readLaunch x.asid b = .ok (l, p') → y.1.plan = some l ∧ y.1.nodes = l.nodes.length) ∧
  (∀ q s, (s.queue q).valid = true → smGet false (s.queue q).commit ((s.queue q).head.toNat % 2 ^ (s.queue q).log2n) = false →
    exec (.queueConsume q) s = .next s) ∧
  (∀ q s lo hi fl asid, q < 65536 →
    let x := s.queue q
    let base := lo.toNat + 2 ^ 32 * hi.toNat
    ∃ t : State, exec (.configurationWindowWrite q [lo, hi, fl, asid]) s = .next t ∧ t.mem = s.mem ∧ t.waves = s.waves ∧
      (∀ p, p ≠ q → t.queue p = s.queue p) ∧
      (x.valid = true → fl.getLsbD 31 = true → t.queue q = x) ∧
      ((x.valid = false ∨ fl.getLsbD 31 = false) → base % 128 ≤ 1 → base < 2 ^ 48 → fl.toNat / 2 ^ 4 % 16 = 0 → fl.toNat / 2 ^ 10 % 2 ^ 21 = 0 →
        asid.toNat < 65536 → 4 ≤ fl.toNat % 16 →
        t.queue q = { x with base := base / 128 * 128, hostmem := lo.getLsbD 0, log2n := fl.toNat % 16, isOpen := fl.getLsbD 8, priv := fl.getLsbD 9,
                             valid := fl.getLsbD 31, asid := asid.toNat })) ∧
  (∀ x s, ∃ t : State, exec (.configurationWindowWrite 65536 [x]) s = .next t ∧ t.front.coal = x &&& 0x00FF00FF ∧ t.front.queues = s.front.queues ∧
    t.mem = s.mem) ∧
  (∀ asid node s b bs, (ringOf s asid node).queue = b :: bs → (ringOf s asid node).size ≠ 0 →
    let r := ringOf s asid node
    let n := if node then 128 else 16
    (r.count - r.ack < (r.size - 128) / n →
      let a := r.base + 128 + r.count * n % (r.size - 128)
      ∃ t : State, exec (.ringEntryWrite asid node) s = .next t ∧ t.waves = s.waves ∧ t.graph = s.graph ∧ t.mem.vault = s.mem.vault ∧
        (ringOf t asid node).count = r.count + 1 ∧ (ringOf t asid node).queue = bs ∧ t.mem.store (!r.hostmem) = s.mem.store (!r.hostmem) ∧
        ∀ i, Memory.get (t.mem.store r.hostmem) i = if r.base ≤ i ∧ i < r.base + 8 then (le 8 (r.count + 1)).getD (i - r.base) 0
          else if a ≤ i ∧ i < a + n then b.getD (i - a) 0 else Memory.get (s.mem.store r.hostmem) i) ∧
    ((r.size - 128) / n ≤ r.count - r.ack → exec (.ringEntryWrite asid node) s = .next s)) ∧
  (∀ asid node s, asid < 65536 → (ringOf s asid node).co.pending ≠ 0 →
    (ringOf s asid node).co.oldest + 1400 * min 200 ((ringOf s asid node).coal.toNat % 256) ≤ s.clk →
    ∃ t : State, exec (.irqHoldExpiry asid node) s = .next t ∧ t.mem = s.mem ∧ t.waves = s.waves ∧ (ringOf t asid node).co.pending = 0 ∧
      t.front.irqs = (5, (ringOf s asid node).vector) :: s.front.irqs) ∧
  ∀ asid node count s, (ringOf s asid node).size ≠ 0 →
    ∃ t : State, exec (.ringAcknowledge asid node count) s = .next t ∧ t.waves = s.waves ∧ t.graph = s.graph ∧ t.mem.vault = s.mem.vault ∧
      (ringOf t asid node).ack = count % 2 ^ 64 ∧ (ringOf t asid node).queue = (ringOf s asid node).queue ∧
      ∀ i, Memory.get (t.mem.store (ringOf s asid node).hostmem) i =
        if (ringOf s asid node).base + 8 ≤ i ∧ i < (ringOf s asid node).base + 16 then (le 8 count).getD (i - ((ringOf s asid node).base + 8)) 0
        else Memory.get (s.mem.store (ringOf s asid node).hostmem) i

/-! ## The module -/

/-- A staged image that the boot takes against a fused counter (R487): its signature holds over its digest, the digest is that of its bytes,
and its version is not below the counter. -/
def Sys2Proof.TakenAtBoot (secver : Nat) (x : FwImage) : Prop :=
  Config.certified x.digest x.signature = true ∧ x.digest = Config.digest (x.bytes.take x.length) ∧ secver ≤ x.version

/-- The module (R15, R352, R390, R484, R487-R494): the side band, attestation and images; a reset, which ends all work and keeps what lies in
memory, and the boot after it, which takes every staged image that passes and no other; allowances and package temperatures; power; the
gating of quads, once what is dirty in their L1s has been written back; the retirement of units, with the health interrupt. The layout of
the sensor answer, the places of the images, the measurements before their first extension, what a crossing recomputes and what survives
a reset are the model's choice (log 22); so are when firmware writes ISSUECTL and FORCE and when it lowers grants (log 65, log 51) and
what counts as an access to a closing quad (log 55); digest, signature, sensors and allowances are free (log 13). -/
def Obligations.TheModuleIsGoverned : Prop :=
  (∀ s, ∃ t : State, exec .mctpHealth s = .next t ∧ t.front.answers = s.front.answers ++ [le 4 s.mod.health.toNat] ∧ t.mem = s.mem ∧
    t.waves = s.waves ∧ t.mod = s.mod) ∧
  (∀ s, ∃ (t : State) (b : List Byte), exec .mctpSensors s = .next t ∧ t.front.answers = s.front.answers ++ [b] ∧ t.mem = s.mem ∧
    t.waves = s.waves ∧ t.mod = s.mod ∧ ∀ d p, d < 4 → p < 8 → b[132 + 8 * d + p]? = some (BitVec.ofNat 8 ((s.dramtemp d p).toNat % 256))) ∧
  (∀ host watts s, s.mod.pwrlim.length = 2 → ∃ t : State, exec (.mctpLimit host watts) s = .next t ∧ t.mem = s.mem ∧ t.waves = s.waves ∧
    t.mod.pwrlim[if host then 0 else 1]? = some (min watts 2600) ∧ t.mod.pwrlim[if host then 1 else 0]? = s.mod.pwrlim[if host then 1 else 0]?) ∧
  (∀ nonce s, nonce.length = 32 → (∀ i, i < 8 → (s.measure i).length = 64) →
    ∃ (t : State) (b : List Byte), exec (.attest nonce) s = .next t ∧ t.front.answers = s.front.answers ++ [b] ∧ t.mem = s.mem ∧ t.mod = s.mod ∧
      b.take 32 = nonce ∧ (∀ i, i < 8 → (b.drop (32 + 64 * i)).take 64 = s.measure i) ∧ (b.drop 544).take 4 = le 4 s.mod.secver ∧
      b.drop 548 = Config.sign identityKey (Config.digest (b.take 548))) ∧
  (∀ host place x s, (place < 5 → ∃ t : State, exec (.stage host place x) s = .next t ∧ t.mod = { s.mod with staged := smPut place x s.mod.staged } ∧
      t.mem = s.mem ∧ t.waves = s.waves) ∧
    (5 ≤ place → exec (.stage host place x) s = .next s)) ∧
  (∀ s, ∃ t : State, exec .moduleReset s = .next t ∧ t.mem.phys = s.mem.phys ∧ t.mem.host = s.mem.host ∧ t.mem.vault = s.mem.vault ∧
    t.waves = [] ∧ t.graph = State.reset.graph ∧ t.engines = [] ∧ t.clk = 0 ∧ t.mem.tags = [] ∧ t.mem.tlb = [] ∧ t.front.rings = [] ∧
    t.front.cmds = [] ∧ t.mod.secver = s.mod.secver ∧ t.mod.staged = s.mod.staged ∧ t.mod.images = s.mod.images ∧ t.agenda = [.boot] ∧ t.sel = none) ∧
  (∀ s, ∃ t : State, exec .boot s = .next t ∧ t.mem = s.mem ∧ t.waves = s.waves ∧ t.mod.staged = [] ∧
    (∀ place x, smFind s.mod.staged place = some x → (∀ y, (place, y) ∈ s.mod.staged → y = x) → TakenAtBoot s.mod.secver x →
      smFind t.mod.images place = some x) ∧
    (∀ place, (∀ x, (place, x) ∈ s.mod.staged → ¬ TakenAtBoot s.mod.secver x) → smFind t.mod.images place = smFind s.mod.images place) ∧
    s.mod.secver ≤ t.mod.secver ∧ (∀ x ∈ s.mod.staged, TakenAtBoot s.mod.secver x.2 → x.2.version ≤ t.mod.secver) ∧
    (t.mod.secver = s.mod.secver ∨ ∃ x ∈ s.mod.staged, TakenAtBoot s.mod.secver x.2 ∧ x.2.version = t.mod.secver) ∧
    ((∀ x ∈ s.mod.staged, TakenAtBoot s.mod.secver x.2) → t.mod.health = s.mod.health ∧ t.front = s.front) ∧
    ((∃ x ∈ s.mod.staged, ¬ TakenAtBoot s.mod.secver x.2) → t.mod.health = s.mod.health ||| 0x40000000 ∧
      t.front.irqs = (6, 0) :: s.front.irqs) ∧
    t.mod.measures = extendAll (List.replicate 8 (List.replicate 64 0)) (Config.bootRom :: (List.range 5).map t.mod.imageAt)) ∧
  (∀ vals s, s.clk % 65536 = 0 → ∃ t : State, exec (.tallowRecompute vals) s = .next t ∧ t.mem = s.mem ∧ t.waves = s.waves ∧
    ∀ q, q < 128 → smGet 512 t.mod.tallow q =
      let new := BitVec.ofNat 10 (vals.getD q 512)
      let old : BitVec 10 := smGet 512 s.mod.tallow q
      if (s.dramtemp (q / 32) (q % 8)).getLsbD 8 = true ∧ old < new then old else new) ∧
  (∀ die pkg temp s, die < 4 → pkg < 8 → temp < 256 →
    ∃ t : State, exec (.dramtempCrossing die pkg temp) s = .next t ∧ t.mem = s.mem ∧ t.waves = s.waves ∧
      (t.dramtemp die pkg).toNat % 256 = temp ∧
      (t.dramtemp die pkg).getLsbD 8 = (decide (85 < temp) || (decide (83 ≤ temp) && (s.dramtemp die pkg).getLsbD 8)) ∧
      (∀ d p, p < 8 → (d, p) ≠ (die, pkg) → t.dramtemp d p = s.dramtemp d p) ∧
      (85 < temp → (s.dramtemp die pkg).getLsbD 8 = false → ∀ q, smGet 512 t.mod.tallow q =
        let old : BitVec 10 := smGet 512 s.mod.tallow q
        if q / 32 = die ∧ q % 8 = pkg ∧ 128 < old then 128 else old) ∧
      ((t.dramtemp die pkg).getLsbD 8 = (s.dramtemp die pkg).getLsbD 8 → t.mod.tallow = s.mod.tallow)) ∧
  (∀ g n s, n ≤ 3 → (∀ k x, (k, x) ∈ s.gangTeams g → x.bank.pwrctx.toNat % 4 ≤ n) →
    ∃ t : State, exec (.powerLimitControl (.grants g) n) s = .next t ∧ t.mem = s.mem ∧ t.waves = s.waves ∧
      ∀ k x, s.team? k = some x → k / 4 = g → ∃ y, t.team? k = some y ∧ y.bank.pwrctx = BitVec.ofNat 32 n ∧ y.spad = x.spad) ∧
  (∀ g n s, ∃ t : State, exec (.powerLimitControl (.issuectl g) n) s = .next t ∧ t.mem = s.mem ∧ t.waves = s.waves ∧
    ∀ k x, s.team? k = some x → k / 4 = g → ∃ y, t.team? k = some y ∧ y.bank.issuectl = BitVec.ofNat 32 n &&& 0x03FF0FFF ∧
      y.bank.pwrctx = x.bank.pwrctx ∧ y.spad = x.spad) ∧
  (∀ core n s, core < 512 → ∃ t : State, exec (.powerLimitControl (.force core) n) s = .next t ∧ t.mem = s.mem ∧ t.waves = s.waves ∧
    (t.engine core).mectl.getLsbD 1 = decide (n % 2 = 1) ∧ (t.engine core).mectl.getLsbD 0 = (s.engine core).mectl.getLsbD 0 ∧
    ∀ c, c ≠ core → t.engine c = s.engine c) ∧
  (∀ q s, q < 128 → q ∉ s.mod.gated → s.quadPlaced q = false → s.quadHeld q = [] →
    (q ∉ s.mod.closing → ∃ t : State, exec (.quadGate q) s = .next t ∧ t.mem = s.mem ∧ t.waves = s.waves ∧ q ∈ t.mod.closing ∧
      t.mod.gated = s.mod.gated ∧ t.cores = s.cores) ∧
    (q ∈ s.mod.closing → s.quadQuiet q = false → exec (.quadGate q) s = .next s) ∧
    (q ∈ s.mod.closing → s.quadQuiet q = true → (∀ c, quadOf c = q → smWf ({} : L1Line) (s.core c).l1 = true) →
      ((∃ c, quadOf c = q ∧ ((∃ y ∈ (s.core c).l1, y.2.dirty ≠ 0) ∨ ∃ b ∈ s.mem.wbs, b.core = c)) →
        ∃ t : State, exec (.quadGate q) s = .next t ∧ t.mem.phys = s.mem.phys ∧ t.mem.vault = s.mem.vault ∧ t.waves = s.waves ∧ t.mod = s.mod ∧
          ∀ c, quadOf c = q → ∀ y ∈ (t.core c).l1, y.2.dirty = 0) ∧
      ((∀ c, quadOf c = q → (∀ y ∈ (s.core c).l1, y.2.dirty = 0) ∧ ∀ b ∈ s.mem.wbs, b.core ≠ c) →
        ∃ t : State, exec (.quadGate q) s = .next t ∧ t.mem.phys = s.mem.phys ∧ t.mem.vault = s.mem.vault ∧ t.waves = s.waves ∧
          q ∈ t.mod.gated ∧ q ∉ t.mod.closing ∧ t.tallow q = 0 ∧ ∀ c, quadOf c = q → (t.core c).l1 = []))) ∧
  (∀ q s, q ∈ s.mod.gated ∨ s.quadPlaced q = true → exec (.quadGate q) s = .next s) ∧
  (∀ q s, s.quadWanted q = true → q ∈ s.mod.gated →
    (q ∉ s.mod.retiredQuads → ∃ t : State, exec (.quadUngate q) s = .next t ∧ t.mem = s.mem ∧ t.waves = s.waves ∧ q ∉ t.mod.gated) ∧
    (q ∈ s.mod.retiredQuads → exec (.quadUngate q) s = .next s)) ∧
  (∀ unit s, unit < 512 → (s.engine unit).retired = false →
    ∃ t : State, exec (.unitRetire 0 unit) s = .next t ∧ (t.engine unit).retired = true ∧
      t.mod.health.getLsbD 31 = true ∧ (t.mod.health.toNat / 2 ^ 8 % 256 = min 255 (s.mod.health.toNat / 2 ^ 8 % 256 + 1)) ∧
      t.front.irqs = (6, 0) :: s.front.irqs ∧ Leaves s t fun g => ∃ x, (g, x) ∈ s.graph.gangs ∧ unit ∈ x.cores) ∧
  (∀ unit s, unit / 16 < 128 → unit % 16 < 12 → unit ∉ s.mem.badBanks →
    ∃ t : State, exec (.unitRetire 1 unit) s = .next t ∧ t.waves = s.waves ∧ t.front.irqs = (6, 0) :: s.front.irqs ∧ unit ∈ t.mem.badBanks ∧ t.mem.vault = s.mem.vault ∧
      t.mod.health.getLsbD 31 = true ∧ t.mod.health.toNat % 256 = min 255 (s.mod.health.toNat % 256 + 1)) ∧
  (∀ unit s, unit < 128 → unit ∉ s.mod.retiredQuads →
    ∃ t : State, exec (.unitRetire 2 unit) s = .next t ∧ unit ∈ t.mod.retiredQuads ∧
      t.mod.health.getLsbD 31 = true ∧ (t.mod.health.toNat / 2 ^ 16 % 256 = min 255 (s.mod.health.toNat / 2 ^ 16 % 256 + 1)) ∧
      t.front.irqs = (6, 0) :: s.front.irqs ∧ Leaves s t fun g => ∃ x, (g, x) ∈ s.graph.gangs ∧ ∃ c ∈ x.cores, quadOf c = unit) ∧
  ∀ n s, n < 256 → ∃ t : State, exec (.podBringUp n) s = .next t ∧ t.mod = { s.mod with pkg := n } ∧ t.mem = s.mem ∧ t.waves = s.waves

/-! ## Words and steps -/

/-- A number with each value at its bit position. -/
def Sys2Proof.fieldsAt (fs : List (Nat × Nat)) : Nat := fs.foldl (fun n x => n + x.2 * 2 ^ x.1) 0

/-- Words written out field by field from the encoding tables decode to what they stand for (R65-R78, R99, R134, R226, R301, R330, R357,
R409, R440, R464); a reserved form, an unassigned major and a literal without its extension word decode to nothing. -/
def Obligations.WordsDecodeAsWritten : Prop :=
  decodeTableWord 64 (fieldsAt [(52, 7)]) = some (.nop ⟨false, 7⟩) ∧
  decodeTableWord 64 (fieldsAt [(56, 0x01), (55, 1), (52, 2), (30, 2 ^ 22 - 3), (26, 5)]) = some (.bra ⟨true, 2⟩ ⟨-3, 5⟩) ∧
  decodeTableWord 64 (fieldsAt [(56, 0x18), (55, 1), (52, 2), (43, 3), (34, 1), (25, 2), (0, 1)]) =
    some (.iadd ⟨true, 2⟩ (.v 3) (.v 1) (.v 2) 1) ∧
  decodeTableWord 128 (fieldsAt [(56, 0x10), (52, 7), (43, 0x104), (14, 1), (2, 2), (64, 0x123456789ABCDEF0)]) =
    some (.movx ⟨false, 7⟩ (.k 4) (.lit 0x123456789ABCDEF0) 0) ∧
  decodeTableWord 64 (fieldsAt [(63, 1), (55, 0x01), (52, 7), (44, 5), (35, 0x006), (33, 2), (24, 0x10), (21, 1), (13, 8), (4, 0x103)]) =
    some (.pairWord ⟨.iadd, 7, 5, .v 6, 2⟩ ⟨.fadd, 1, 8, .k 3, 0⟩) ∧
  decodeTableWord 64 (fieldsAt [(56, 0x50), (52, 7), (43, 4), (34, 8), (16, 2 ^ 18 - 16), (15, 1), (5, 2), (2, 1)]) =
    some (.ld ⟨false, 7⟩ .b32 true 4 (.v 8) (.imm true (-16)) 0) ∧
  decodeTableWord 64 (fieldsAt [(56, 0x2C), (52, 7), (43, 9), (34, 10), (25, 0x172), (4, 1), (2, 3)]) =
    some (.fsub ⟨false, 7⟩ .rd (.v 9) (.v 10) (.flt 2) 0) ∧
  decodeTableWord 64 (fieldsAt [(56, 0x60), (52, 7), (43, 1), (34, 2), (25, 4), (12, 3), (9, 4), (5, 9), (0, 2)]) =
    some (.atom ⟨false, 7⟩ .acqrel .pkg .incwrap false false (.v 1) (.v 2) (.v 4) 2) ∧
  decodeTableWord 64 (fieldsAt [(56, 0x68), (52, 7), (43, 0x110), (34, 0x102), (25, 0x104), (16, 0x106), (13, 1), (9, 5), (8, 1), (5, 3), (3, 2)]) =
    some (.cpy ⟨false, 7⟩ ⟨true, false, .pod⟩ (some 16) .enc .ru false (.k 2) (.k 4) (.k 6)) ∧
  decodeTableWord 64 (fieldsAt [(56, 0x6E), (52, 7), (43, 11), (34, 5), (25, 6), (3, 3), (2, 1)]) = some (.mma ⟨false, 7⟩ .fe4m3 11 5 6 true) ∧
  decodeTableWord 64 (fieldsAt [(56, 0x74), (52, 7), (43, 0x103), (34, 0x128), (3, 1), (2, 1)]) = some (.mintDone ⟨false, 7⟩ true 3 40) ∧
  decodeTableWord 64 0x7878A002C2000000 = some (.recast ⟨false, 7⟩ false 20 (.int 1)) ∧
  decodeTableWord 64 (fieldsAt [(56, 0x7A), (52, 7), (34, 0x109), (16, 0x064), (15, 1), (2, 1)]) = some (.wtimerloWrite ⟨false, 7⟩ (.k 9)) ∧
  decodeTableWord 64 (fieldsAt [(56, 0x0C), (6, 1000), (2, 9)]) = some (.trj false (1000 * 16 + 9)) ∧
  decodeTableWord 64 (2 ^ 64 - 1) = none ∧ decodeTableWord 64 (fieldsAt [(56, 0x79), (52, 7)]) = none ∧
  decodeWord 256 (BitVec.ofNat 64 (fieldsAt [(56, 0x10), (52, 7), (43, 0x104), (14, 1), (2, 2)])) none = .error .clause

/-- Decode of encode is the instruction, for every well-formed instruction word with every operand at every value its field holds (R65-R76
and the encoding table of each class). -/
def Obligations.EncodedInstructionsDecodeBack : Prop :=
  ∀ i : Instr, i.wf = true → decodeWord 256 ((encode i).headD 0) ((encode i)[1]?) = .ok i

/-- A step runs the word that stands at the issuer's PC (R55, R57, R62, R83): where the chosen split's buffered line has, at the word or
after the header it stands at, a word that decodes to `i`, the step is `exec i` on the state in which the split stands at that word,
with the word's place known: its PC, its size with the extension word, its clause's flags, and where the split goes on (the next word,
or after the clause's last word the fall-through point). A word that does not decode issues and traps. An engine program's word
likewise. With no word chosen, what the agenda holds comes first. Last: a word that `withFetchWord` lays out is the one the next step
runs. That the agenda comes first, and what `withFetchWord` lays out, are the model's choice (log 2, log 61). -/
def Obligations.AStepRunsTheDecodedWord : Prop :=
  (∀ (s : State) u e w x b c, s.sel = some (.split u e) → s.wave? u = some w → w.split? e = some x → x.buf = some b →
    b.ctx (.split u e) (b.wordAt x.pc) = some c →
    (∀ i, b.decode w.regs (b.wordAt x.pc) c = .ok i → step s = exec i (s.atWord u e (b.wordAt x.pc) b c)) ∧
    (∀ d, b.decode w.regs (b.wordAt x.pc) c = .error d →
      step s = .next ((s.atWord u e (b.wordAt x.pc) b c).decodeTrap u e c d))) ∧
  (∀ (s : State) core b c, s.sel = some (.engine core) → (s.engine core).buf = some b →
    b.ctx (.engine core) (b.wordAt (s.engine core).mepc) = some c →
    (∀ i, b.decode 256 (b.wordAt (s.engine core).mepc) c = .ok i →
      step s = exec i (s.engineAt core (b.wordAt (s.engine core).mepc) b c)) ∧
    (∀ d, b.decode 256 (b.wordAt (s.engine core).mepc) c = .error d →
      step s = .next ((s.engineAt core (b.wordAt (s.engine core).mepc) b c).engineIllegal core d))) ∧
  (∀ (b : Line) who n h, b.cover n = some h → ∃ c, b.ctx who n = some c ∧ c.who = who ∧ c.pc = pcAt b.num n ∧ c.word = b.word n ∧
    c.size = (if hasExt (b.word n) then 2 else 1) ∧
    c.next = (if n + c.size ≤ h + b.len h then pcAt b.num (n + c.size) else b.fall h) ∧
    (c.hdr = true ↔ h + b.len h < n + c.size) ∧
    c.fa = (if (b.clause h).av then some (b.clause h).fa else none) ∧ c.fb = (if (b.clause h).bv then some (b.clause h).fb else none)) ∧
  (∀ (s : State) i r, s.sel = none → s.agenda = i :: r → step s = exec i { s with agenda := r }) ∧
  (∀ (s : State) i, s.sel = none → s.agenda = [] → s.prompt? = some i → step s = exec i s) ∧
  (∀ (s : State) nbits n i, let y := n % 2 ^ nbits
    let w := BitVec.ofNat 64 y
    let ext := BitVec.ofNat 64 (y / 2 ^ 64)
    decodeWord 256 w (some ext) = .ok i → engineOnly i = false →
    ∃ c, (probeLine w ext).ctx (.split s.nextWave 4) 2 = some c ∧
      step (s.withFetchWord nbits n) = exec i ((s.withFetchWord nbits n).atWord s.nextWave 4 2 (probeLine w ext) c))

/-- Every step keeps the memories (LPDDR-6, host, vault) in their canonical form: addresses rise strictly and no entry holds what an
unlisted address reads as, so that equal memories are equal data. The form, and that an unlisted byte reads 0, are the model's choice
(log 4). -/
def Obligations.EveryStepKeepsMemoryCanonical : Prop :=
  ∀ s t : State, s.memoryWf = true → step s = .next t → t.memoryWf = true

/-- The machine right after reset: memory in its canonical form with nothing listed, CLK 0 (R452), and every module register at the value
its bit map gives: PLACECTL.AGE 0x2000 (R387), SPRUECTL GAP 64 and WAIT 128 and the seeds (R394), TALLOW 512 (R491), DRAMTEMP and HEALTH
0 (R492, R494), COALCTL COUNT 16 and HOLD 20 (R484), format windows and codebooks 0 (R152, R161). The registers of a context, an engine
and a wave begin with the values their bit maps give (R88, R189-R192, R207, R340-R342, R459, R466). That memory lists nothing is the
model's form (log 4). -/
def Obligations.ResetLeavesTheSpecsValues : Prop :=
  (State.reset.memoryWf = true ∧ State.reset.mem.phys = [] ∧ State.reset.mem.host = [] ∧ State.reset.mem.vault = []) ∧
  State.reset.clk = 0 ∧ State.reset.waves = [] ∧ State.reset.graph.kernels = [] ∧
  State.reset.mod.placectl = 0x00002000 ∧ (∀ d, State.reset.spruectl d = 64 * 2 ^ 16 + 128) ∧
  (∀ c, (State.reset.core c).seed = BitVec.ofNat 16 (c + 1)) ∧ (∀ q, State.reset.tallow q = 512) ∧
  (∀ p, smGet 0 State.reset.mod.dramtemp p = 0) ∧ State.reset.mod.health = 0 ∧
  State.reset.front.coal = 0x00100014 ∧ (∀ r, (smGet {} State.reset.front.rings r).coal = 0x00100014) ∧
  (∀ n, smGet 0 State.reset.mem.fmtw n = 0 ∧ smGet 0 State.reset.mem.vfmtw n = 0 ∧ smGet 0 State.reset.mem.cbook n = 0) ∧
  (∀ c e, e = State.reset.engine c →
    e.run = false ∧ e.slave = false ∧ e.stopCode = 0 ∧ e.mectl = 0 ∧ ∀ n, smGet 0 e.ringd n = 0 ∧ smGet 0 e.tok n = 0 ∧
      smGet 0 e.tshape n = 0 ∧ smGet 0 e.omap n = 0) ∧
  (∀ b : Bank, b = {} →
    b.issuectl = 64 * 2 ^ 16 + 256 ∧ b.fetimeout = 0x00100000 ∧ b.nsctl = 0 ∧ b.nswin = 0x00100000 ∧ b.trapvec = 0 ∧ b.assayvec = 0 ∧
      b.trapscr = 0 ∧ b.tracectl = 0 ∧ b.tracebase = 0 ∧ b.tracesize = 0 ∧ b.sampctl = 16 * 2 ^ 8 ∧ b.pwrctx = 0 ∧ b.sampbase = 0 ∧ b.sampsize = 0 ∧
      ∀ n, smGet 0 b.nscnt n = 0 ∧ smGet 0 b.nswcnt n = 0 ∧ smGet 0xFFFF b.nsthr n = 0xFFFF ∧ smGet 0 b.pmc n = 0) ∧
  (∀ t : WTrap, t = {} →
    t.cause = 0 ∧ t.planes = 0 ∧ t.dq = [] ∧ t.lost = 0 ∧ t.smark = 0 ∧ t.timer = 0 ∧ t.armed = false)
end

