-- ==== Sys2Proof/Laws/Maps.lean ====
section
/-!
SUPPORT. Sparse data: what is read after a write, and the canonical form, which every write keeps. The reading laws hold of every
list, canonical or not.
-/

namespace Sys2Proof

variable {α : Type}

/-! ## Reading after a write -/

@[simp] theorem smGet_nil (d : α) (k : Nat) : smGet d [] k = d := rfl

@[simp] theorem smFind_nil (k : Nat) : smFind ([] : SMap α) k = none := rfl

/-- The value that was put is read back. -/
@[simp] theorem smGet_put_self (d v : α) (m : SMap α) (k : Nat) : smGet d (smPut k v m) k = v := by
  induction m with
  | nil => simp [smPut, smGet]
  | cons x m ih =>
    obtain ⟨j, u⟩ := x
    simp only [smPut]
    split
    · simp [smGet]
    · split
      · simp [smGet]
      · next h => simp [smGet, h, ih]

/-- A write leaves every other key alone. -/
theorem smGet_put_ne (d v : α) (m : SMap α) {k i : Nat} (h : i ≠ k) : smGet d (smPut k v m) i = smGet d m i := by
  induction m with
  | nil => simp [smPut, smGet, Ne.symm h]
  | cons x m ih =>
    obtain ⟨j, u⟩ := x
    simp only [smPut]
    split
    · simp [smGet, Ne.symm h]
    · split
      · next e => subst e; simp [smGet, Ne.symm h]
      · simp [smGet, ih]

@[simp] theorem smFind_put_self (v : α) (m : SMap α) (k : Nat) : smFind (smPut k v m) k = some v := by
  induction m with
  | nil => simp [smPut, smFind]
  | cons x m ih =>
    obtain ⟨j, u⟩ := x
    simp only [smPut]
    split
    · simp [smFind]
    · split
      · simp [smFind]
      · next h => simp [smFind, h, ih]

theorem smFind_put_ne (v : α) (m : SMap α) {k i : Nat} (h : i ≠ k) : smFind (smPut k v m) i = smFind m i := by
  induction m with
  | nil => simp [smPut, smFind, Ne.symm h]
  | cons x m ih =>
    obtain ⟨j, u⟩ := x
    simp only [smPut]
    split
    · simp [smFind, Ne.symm h]
    · split
      · next e => subst e; simp [smFind, Ne.symm h]
      · simp [smFind, ih]

/-- A deleted key reads as the default. -/
@[simp] theorem smGet_del_self (d : α) (m : SMap α) (k : Nat) : smGet d (smDel k m) k = d := by
  induction m with
  | nil => rfl
  | cons x m ih =>
    obtain ⟨j, u⟩ := x
    by_cases h : j = k
    · simpa [smDel, h] using ih
    · simpa [smDel, smGet, h] using ih

theorem smGet_del_ne (d : α) (m : SMap α) {k i : Nat} (h : i ≠ k) : smGet d (smDel k m) i = smGet d m i := by
  induction m with
  | nil => rfl
  | cons x m ih =>
    obtain ⟨j, u⟩ := x
    by_cases e : j = k
    · subst e; simpa [smDel, smGet, Ne.symm h] using ih
    · by_cases e2 : j = i
      · subst e2; simp [smDel, smGet, e]
      · simpa [smDel, smGet, e, e2] using ih

@[simp] theorem smFind_del_self (m : SMap α) (k : Nat) : smFind (smDel k m) k = none := by
  induction m with
  | nil => rfl
  | cons x m ih =>
    obtain ⟨j, u⟩ := x
    by_cases h : j = k
    · simpa [smDel, h] using ih
    · simpa [smDel, smFind, h] using ih

theorem smFind_del_ne (m : SMap α) {k i : Nat} (h : i ≠ k) : smFind (smDel k m) i = smFind m i := by
  induction m with
  | nil => rfl
  | cons x m ih =>
    obtain ⟨j, u⟩ := x
    by_cases e : j = k
    · subst e; simpa [smDel, smFind, Ne.symm h] using ih
    · by_cases e2 : j = i
      · subst e2; simp [smDel, smFind, e]
      · simpa [smDel, smFind, e, e2] using ih

/-- A value that was written is read back. -/
@[simp] theorem smGet_set_self [DecidableEq α] (d v : α) (m : SMap α) (k : Nat) : smGet d (smSet d m k v) k = v := by
  unfold smSet
  split
  · next h => simp [h]
  · simp

/-- A write leaves every other key alone. -/
theorem smGet_set_ne [DecidableEq α] (d v : α) (m : SMap α) {k i : Nat} (h : i ≠ k) : smGet d (smSet d m k v) i = smGet d m i := by
  unfold smSet
  split
  · exact smGet_del_ne d m h
  · exact smGet_put_ne d v m h

theorem smGet_set [DecidableEq α] (d v : α) (m : SMap α) (k i : Nat) :
    smGet d (smSet d m k v) i = if i = k then v else smGet d m i := by
  split
  · next h => subst h; simp
  · next h => exact smGet_set_ne d v m h

/-! ## The canonical form -/

theorem smWfFrom_mono [DecidableEq α] {d : α} {lo lo' : Nat} (h : lo' ≤ lo) : ∀ {m : SMap α}, smWfFrom d lo m = true → smWfFrom d lo' m = true
  | [], _ => rfl
  | (j, v) :: m, w => by
    simp only [smWfFrom, Bool.and_eq_true, decide_eq_true_eq] at w ⊢
    exact ⟨⟨Nat.le_trans h w.1.1, w.1.2⟩, w.2⟩

theorem smWfFrom_put [DecidableEq α] {d v : α} (hv : v ≠ d) {k lo : Nat} (h : lo ≤ k) :
    ∀ {m : SMap α}, smWfFrom d lo m = true → smWfFrom d lo (smPut k v m) = true
  | [], _ => by simp [smPut, smWfFrom, h, hv]
  | (j, u) :: m, w => by
    simp only [smWfFrom, Bool.and_eq_true, decide_eq_true_eq] at w
    simp only [smPut]
    split
    · next e => simp [smWfFrom, h, hv, w.1.2, w.2, Nat.succ_le_of_lt e]
    · split
      · next e => subst e; simp [smWfFrom, h, hv, w.2]
      · next e1 e2 =>
        have hk : j + 1 ≤ k := by omega
        simp [smWfFrom, w.1.1, w.1.2, smWfFrom_put hv hk w.2]

theorem smWfFrom_filter [DecidableEq α] {d : α} (p : Nat × α → Bool) {lo : Nat} :
    ∀ {m : SMap α}, smWfFrom d lo m = true → smWfFrom d lo (m.filter p) = true
  | [], _ => rfl
  | (j, u) :: m, w => by
    simp only [smWfFrom, Bool.and_eq_true, decide_eq_true_eq] at w
    have ih := smWfFrom_filter p w.2
    by_cases e : p (j, u) = true
    · simp [List.filter, e, smWfFrom, w.1.1, w.1.2, ih]
    · simp only [List.filter, Bool.not_eq_true _ ▸ e]
      exact smWfFrom_mono (Nat.le_succ_of_le w.1.1) ih

/-- Every write keeps the canonical form. -/
theorem smWf_set [DecidableEq α] {d : α} {m : SMap α} (w : smWf d m = true) (k : Nat) (v : α) : smWf d (smSet d m k v) = true := by
  unfold smSet
  split
  · exact smWfFrom_filter _ w
  · next h => exact smWfFrom_put h (Nat.zero_le k) w

/-- Taking entries out keeps the canonical form. -/
theorem smWf_filter [DecidableEq α] {d : α} {m : SMap α} (w : smWf d m = true) (p : Nat × α → Bool) : smWf d (m.filter p) = true :=
  smWfFrom_filter p w

end Sys2Proof
end

