-- ==== Sys2Proof/Laws/State.lean ====
section
/-!
SUPPORT. What each update of the state leaves alone: one lemma for each field and update, so that no proof unfolds a record update.
-/

namespace Sys2Proof.Machine

/-! `setWave` -/

@[simp] theorem State.setWave_clk (s : State) (u : Nat) (w : Wave) : (s.setWave u w).clk = s.clk := rfl
@[simp] theorem State.setWave_waves (s : State) (u : Nat) (w : Wave) : (s.setWave u w).waves = smPut u w s.waves := rfl
@[simp] theorem State.setWave_nextWave (s : State) (u : Nat) (w : Wave) : (s.setWave u w).nextWave = s.nextWave := rfl
@[simp] theorem State.setWave_cores (s : State) (u : Nat) (w : Wave) : (s.setWave u w).cores = s.cores := rfl
@[simp] theorem State.setWave_engines (s : State) (u : Nat) (w : Wave) : (s.setWave u w).engines = s.engines := rfl
@[simp] theorem State.setWave_mem (s : State) (u : Nat) (w : Wave) : (s.setWave u w).mem = s.mem := rfl
@[simp] theorem State.setWave_graph (s : State) (u : Nat) (w : Wave) : (s.setWave u w).graph = s.graph := rfl
@[simp] theorem State.setWave_front (s : State) (u : Nat) (w : Wave) : (s.setWave u w).front = s.front := rfl
@[simp] theorem State.setWave_mod (s : State) (u : Nat) (w : Wave) : (s.setWave u w).mod = s.mod := rfl
@[simp] theorem State.setWave_events (s : State) (u : Nat) (w : Wave) : (s.setWave u w).events = s.events := rfl
@[simp] theorem State.setWave_sel (s : State) (u : Nat) (w : Wave) : (s.setWave u w).sel = s.sel := rfl
@[simp] theorem State.setWave_cur (s : State) (u : Nat) (w : Wave) : (s.setWave u w).cur = s.cur := rfl
@[simp] theorem State.setWave_agenda (s : State) (u : Nat) (w : Wave) : (s.setWave u w).agenda = s.agenda := rfl
@[simp] theorem State.setWave_turns (s : State) (u : Nat) (w : Wave) : (s.setWave u w).turns = s.turns := rfl
@[simp] theorem State.setWave_draws (s : State) (u : Nat) (w : Wave) : (s.setWave u w).draws = s.draws := rfl

/-! `setCore` -/

@[simp] theorem State.setCore_clk (s : State) (c : Nat) (x : Core) : (s.setCore c x).clk = s.clk := rfl
@[simp] theorem State.setCore_waves (s : State) (c : Nat) (x : Core) : (s.setCore c x).waves = s.waves := rfl
@[simp] theorem State.setCore_nextWave (s : State) (c : Nat) (x : Core) : (s.setCore c x).nextWave = s.nextWave := rfl
@[simp] theorem State.setCore_cores (s : State) (c : Nat) (x : Core) : (s.setCore c x).cores = smSet (Core.reset c) s.cores c x := rfl
@[simp] theorem State.setCore_engines (s : State) (c : Nat) (x : Core) : (s.setCore c x).engines = s.engines := rfl
@[simp] theorem State.setCore_mem (s : State) (c : Nat) (x : Core) : (s.setCore c x).mem = s.mem := rfl
@[simp] theorem State.setCore_graph (s : State) (c : Nat) (x : Core) : (s.setCore c x).graph = s.graph := rfl
@[simp] theorem State.setCore_front (s : State) (c : Nat) (x : Core) : (s.setCore c x).front = s.front := rfl
@[simp] theorem State.setCore_mod (s : State) (c : Nat) (x : Core) : (s.setCore c x).mod = s.mod := rfl
@[simp] theorem State.setCore_events (s : State) (c : Nat) (x : Core) : (s.setCore c x).events = s.events := rfl
@[simp] theorem State.setCore_sel (s : State) (c : Nat) (x : Core) : (s.setCore c x).sel = s.sel := rfl
@[simp] theorem State.setCore_cur (s : State) (c : Nat) (x : Core) : (s.setCore c x).cur = s.cur := rfl
@[simp] theorem State.setCore_agenda (s : State) (c : Nat) (x : Core) : (s.setCore c x).agenda = s.agenda := rfl
@[simp] theorem State.setCore_turns (s : State) (c : Nat) (x : Core) : (s.setCore c x).turns = s.turns := rfl
@[simp] theorem State.setCore_draws (s : State) (c : Nat) (x : Core) : (s.setCore c x).draws = s.draws := rfl

/-! `updCore` -/

@[simp] theorem State.updCore_clk (s : State) (c : Nat) (f : Core → Core) : (s.updCore c f).clk = s.clk := rfl
@[simp] theorem State.updCore_waves (s : State) (c : Nat) (f : Core → Core) : (s.updCore c f).waves = s.waves := rfl
@[simp] theorem State.updCore_nextWave (s : State) (c : Nat) (f : Core → Core) : (s.updCore c f).nextWave = s.nextWave := rfl
@[simp] theorem State.updCore_cores (s : State) (c : Nat) (f : Core → Core) : (s.updCore c f).cores = smSet (Core.reset c) s.cores c (f (s.core c)) := rfl
@[simp] theorem State.updCore_engines (s : State) (c : Nat) (f : Core → Core) : (s.updCore c f).engines = s.engines := rfl
@[simp] theorem State.updCore_mem (s : State) (c : Nat) (f : Core → Core) : (s.updCore c f).mem = s.mem := rfl
@[simp] theorem State.updCore_graph (s : State) (c : Nat) (f : Core → Core) : (s.updCore c f).graph = s.graph := rfl
@[simp] theorem State.updCore_front (s : State) (c : Nat) (f : Core → Core) : (s.updCore c f).front = s.front := rfl
@[simp] theorem State.updCore_mod (s : State) (c : Nat) (f : Core → Core) : (s.updCore c f).mod = s.mod := rfl
@[simp] theorem State.updCore_events (s : State) (c : Nat) (f : Core → Core) : (s.updCore c f).events = s.events := rfl
@[simp] theorem State.updCore_sel (s : State) (c : Nat) (f : Core → Core) : (s.updCore c f).sel = s.sel := rfl
@[simp] theorem State.updCore_cur (s : State) (c : Nat) (f : Core → Core) : (s.updCore c f).cur = s.cur := rfl
@[simp] theorem State.updCore_agenda (s : State) (c : Nat) (f : Core → Core) : (s.updCore c f).agenda = s.agenda := rfl
@[simp] theorem State.updCore_turns (s : State) (c : Nat) (f : Core → Core) : (s.updCore c f).turns = s.turns := rfl
@[simp] theorem State.updCore_draws (s : State) (c : Nat) (f : Core → Core) : (s.updCore c f).draws = s.draws := rfl

/-! `setEngine` -/

@[simp] theorem State.setEngine_clk (s : State) (c : Nat) (x : Engine) : (s.setEngine c x).clk = s.clk := rfl
@[simp] theorem State.setEngine_waves (s : State) (c : Nat) (x : Engine) : (s.setEngine c x).waves = s.waves := rfl
@[simp] theorem State.setEngine_nextWave (s : State) (c : Nat) (x : Engine) : (s.setEngine c x).nextWave = s.nextWave := rfl
@[simp] theorem State.setEngine_cores (s : State) (c : Nat) (x : Engine) : (s.setEngine c x).cores = s.cores := rfl
@[simp] theorem State.setEngine_engines (s : State) (c : Nat) (x : Engine) : (s.setEngine c x).engines = smSet {} s.engines c x := rfl
@[simp] theorem State.setEngine_mem (s : State) (c : Nat) (x : Engine) : (s.setEngine c x).mem = s.mem := rfl
@[simp] theorem State.setEngine_graph (s : State) (c : Nat) (x : Engine) : (s.setEngine c x).graph = s.graph := rfl
@[simp] theorem State.setEngine_front (s : State) (c : Nat) (x : Engine) : (s.setEngine c x).front = s.front := rfl
@[simp] theorem State.setEngine_mod (s : State) (c : Nat) (x : Engine) : (s.setEngine c x).mod = s.mod := rfl
@[simp] theorem State.setEngine_events (s : State) (c : Nat) (x : Engine) : (s.setEngine c x).events = s.events := rfl
@[simp] theorem State.setEngine_sel (s : State) (c : Nat) (x : Engine) : (s.setEngine c x).sel = s.sel := rfl
@[simp] theorem State.setEngine_cur (s : State) (c : Nat) (x : Engine) : (s.setEngine c x).cur = s.cur := rfl
@[simp] theorem State.setEngine_agenda (s : State) (c : Nat) (x : Engine) : (s.setEngine c x).agenda = s.agenda := rfl
@[simp] theorem State.setEngine_turns (s : State) (c : Nat) (x : Engine) : (s.setEngine c x).turns = s.turns := rfl
@[simp] theorem State.setEngine_draws (s : State) (c : Nat) (x : Engine) : (s.setEngine c x).draws = s.draws := rfl

/-! `updEngine` -/

@[simp] theorem State.updEngine_clk (s : State) (c : Nat) (f : Engine → Engine) : (s.updEngine c f).clk = s.clk := rfl
@[simp] theorem State.updEngine_waves (s : State) (c : Nat) (f : Engine → Engine) : (s.updEngine c f).waves = s.waves := rfl
@[simp] theorem State.updEngine_nextWave (s : State) (c : Nat) (f : Engine → Engine) : (s.updEngine c f).nextWave = s.nextWave := rfl
@[simp] theorem State.updEngine_cores (s : State) (c : Nat) (f : Engine → Engine) : (s.updEngine c f).cores = s.cores := rfl
@[simp] theorem State.updEngine_engines (s : State) (c : Nat) (f : Engine → Engine) : (s.updEngine c f).engines = smSet {} s.engines c (f (s.engine c)) := rfl
@[simp] theorem State.updEngine_mem (s : State) (c : Nat) (f : Engine → Engine) : (s.updEngine c f).mem = s.mem := rfl
@[simp] theorem State.updEngine_graph (s : State) (c : Nat) (f : Engine → Engine) : (s.updEngine c f).graph = s.graph := rfl
@[simp] theorem State.updEngine_front (s : State) (c : Nat) (f : Engine → Engine) : (s.updEngine c f).front = s.front := rfl
@[simp] theorem State.updEngine_mod (s : State) (c : Nat) (f : Engine → Engine) : (s.updEngine c f).mod = s.mod := rfl
@[simp] theorem State.updEngine_events (s : State) (c : Nat) (f : Engine → Engine) : (s.updEngine c f).events = s.events := rfl
@[simp] theorem State.updEngine_sel (s : State) (c : Nat) (f : Engine → Engine) : (s.updEngine c f).sel = s.sel := rfl
@[simp] theorem State.updEngine_cur (s : State) (c : Nat) (f : Engine → Engine) : (s.updEngine c f).cur = s.cur := rfl
@[simp] theorem State.updEngine_agenda (s : State) (c : Nat) (f : Engine → Engine) : (s.updEngine c f).agenda = s.agenda := rfl
@[simp] theorem State.updEngine_turns (s : State) (c : Nat) (f : Engine → Engine) : (s.updEngine c f).turns = s.turns := rfl
@[simp] theorem State.updEngine_draws (s : State) (c : Nat) (f : Engine → Engine) : (s.updEngine c f).draws = s.draws := rfl

/-! `updGraph` -/

@[simp] theorem State.updGraph_clk (s : State) (f : Graph → Graph) : (s.updGraph f).clk = s.clk := rfl
@[simp] theorem State.updGraph_waves (s : State) (f : Graph → Graph) : (s.updGraph f).waves = s.waves := rfl
@[simp] theorem State.updGraph_nextWave (s : State) (f : Graph → Graph) : (s.updGraph f).nextWave = s.nextWave := rfl
@[simp] theorem State.updGraph_cores (s : State) (f : Graph → Graph) : (s.updGraph f).cores = s.cores := rfl
@[simp] theorem State.updGraph_engines (s : State) (f : Graph → Graph) : (s.updGraph f).engines = s.engines := rfl
@[simp] theorem State.updGraph_mem (s : State) (f : Graph → Graph) : (s.updGraph f).mem = s.mem := rfl
@[simp] theorem State.updGraph_graph (s : State) (f : Graph → Graph) : (s.updGraph f).graph = f s.graph := rfl
@[simp] theorem State.updGraph_front (s : State) (f : Graph → Graph) : (s.updGraph f).front = s.front := rfl
@[simp] theorem State.updGraph_mod (s : State) (f : Graph → Graph) : (s.updGraph f).mod = s.mod := rfl
@[simp] theorem State.updGraph_events (s : State) (f : Graph → Graph) : (s.updGraph f).events = s.events := rfl
@[simp] theorem State.updGraph_sel (s : State) (f : Graph → Graph) : (s.updGraph f).sel = s.sel := rfl
@[simp] theorem State.updGraph_cur (s : State) (f : Graph → Graph) : (s.updGraph f).cur = s.cur := rfl
@[simp] theorem State.updGraph_agenda (s : State) (f : Graph → Graph) : (s.updGraph f).agenda = s.agenda := rfl
@[simp] theorem State.updGraph_turns (s : State) (f : Graph → Graph) : (s.updGraph f).turns = s.turns := rfl
@[simp] theorem State.updGraph_draws (s : State) (f : Graph → Graph) : (s.updGraph f).draws = s.draws := rfl

/-! `updMem` -/

@[simp] theorem State.updMem_clk (s : State) (f : Mem → Mem) : (s.updMem f).clk = s.clk := rfl
@[simp] theorem State.updMem_waves (s : State) (f : Mem → Mem) : (s.updMem f).waves = s.waves := rfl
@[simp] theorem State.updMem_nextWave (s : State) (f : Mem → Mem) : (s.updMem f).nextWave = s.nextWave := rfl
@[simp] theorem State.updMem_cores (s : State) (f : Mem → Mem) : (s.updMem f).cores = s.cores := rfl
@[simp] theorem State.updMem_engines (s : State) (f : Mem → Mem) : (s.updMem f).engines = s.engines := rfl
@[simp] theorem State.updMem_mem (s : State) (f : Mem → Mem) : (s.updMem f).mem = f s.mem := rfl
@[simp] theorem State.updMem_graph (s : State) (f : Mem → Mem) : (s.updMem f).graph = s.graph := rfl
@[simp] theorem State.updMem_front (s : State) (f : Mem → Mem) : (s.updMem f).front = s.front := rfl
@[simp] theorem State.updMem_mod (s : State) (f : Mem → Mem) : (s.updMem f).mod = s.mod := rfl
@[simp] theorem State.updMem_events (s : State) (f : Mem → Mem) : (s.updMem f).events = s.events := rfl
@[simp] theorem State.updMem_sel (s : State) (f : Mem → Mem) : (s.updMem f).sel = s.sel := rfl
@[simp] theorem State.updMem_cur (s : State) (f : Mem → Mem) : (s.updMem f).cur = s.cur := rfl
@[simp] theorem State.updMem_agenda (s : State) (f : Mem → Mem) : (s.updMem f).agenda = s.agenda := rfl
@[simp] theorem State.updMem_turns (s : State) (f : Mem → Mem) : (s.updMem f).turns = s.turns := rfl
@[simp] theorem State.updMem_draws (s : State) (f : Mem → Mem) : (s.updMem f).draws = s.draws := rfl

/-! `updFront` -/

@[simp] theorem State.updFront_clk (s : State) (f : Front → Front) : (s.updFront f).clk = s.clk := rfl
@[simp] theorem State.updFront_waves (s : State) (f : Front → Front) : (s.updFront f).waves = s.waves := rfl
@[simp] theorem State.updFront_nextWave (s : State) (f : Front → Front) : (s.updFront f).nextWave = s.nextWave := rfl
@[simp] theorem State.updFront_cores (s : State) (f : Front → Front) : (s.updFront f).cores = s.cores := rfl
@[simp] theorem State.updFront_engines (s : State) (f : Front → Front) : (s.updFront f).engines = s.engines := rfl
@[simp] theorem State.updFront_mem (s : State) (f : Front → Front) : (s.updFront f).mem = s.mem := rfl
@[simp] theorem State.updFront_graph (s : State) (f : Front → Front) : (s.updFront f).graph = s.graph := rfl
@[simp] theorem State.updFront_front (s : State) (f : Front → Front) : (s.updFront f).front = f s.front := rfl
@[simp] theorem State.updFront_mod (s : State) (f : Front → Front) : (s.updFront f).mod = s.mod := rfl
@[simp] theorem State.updFront_events (s : State) (f : Front → Front) : (s.updFront f).events = s.events := rfl
@[simp] theorem State.updFront_sel (s : State) (f : Front → Front) : (s.updFront f).sel = s.sel := rfl
@[simp] theorem State.updFront_cur (s : State) (f : Front → Front) : (s.updFront f).cur = s.cur := rfl
@[simp] theorem State.updFront_agenda (s : State) (f : Front → Front) : (s.updFront f).agenda = s.agenda := rfl
@[simp] theorem State.updFront_turns (s : State) (f : Front → Front) : (s.updFront f).turns = s.turns := rfl
@[simp] theorem State.updFront_draws (s : State) (f : Front → Front) : (s.updFront f).draws = s.draws := rfl

/-! `updMod` -/

@[simp] theorem State.updMod_clk (s : State) (f : ModRegs → ModRegs) : (s.updMod f).clk = s.clk := rfl
@[simp] theorem State.updMod_waves (s : State) (f : ModRegs → ModRegs) : (s.updMod f).waves = s.waves := rfl
@[simp] theorem State.updMod_nextWave (s : State) (f : ModRegs → ModRegs) : (s.updMod f).nextWave = s.nextWave := rfl
@[simp] theorem State.updMod_cores (s : State) (f : ModRegs → ModRegs) : (s.updMod f).cores = s.cores := rfl
@[simp] theorem State.updMod_engines (s : State) (f : ModRegs → ModRegs) : (s.updMod f).engines = s.engines := rfl
@[simp] theorem State.updMod_mem (s : State) (f : ModRegs → ModRegs) : (s.updMod f).mem = s.mem := rfl
@[simp] theorem State.updMod_graph (s : State) (f : ModRegs → ModRegs) : (s.updMod f).graph = s.graph := rfl
@[simp] theorem State.updMod_front (s : State) (f : ModRegs → ModRegs) : (s.updMod f).front = s.front := rfl
@[simp] theorem State.updMod_mod (s : State) (f : ModRegs → ModRegs) : (s.updMod f).mod = f s.mod := rfl
@[simp] theorem State.updMod_events (s : State) (f : ModRegs → ModRegs) : (s.updMod f).events = s.events := rfl
@[simp] theorem State.updMod_sel (s : State) (f : ModRegs → ModRegs) : (s.updMod f).sel = s.sel := rfl
@[simp] theorem State.updMod_cur (s : State) (f : ModRegs → ModRegs) : (s.updMod f).cur = s.cur := rfl
@[simp] theorem State.updMod_agenda (s : State) (f : ModRegs → ModRegs) : (s.updMod f).agenda = s.agenda := rfl
@[simp] theorem State.updMod_turns (s : State) (f : ModRegs → ModRegs) : (s.updMod f).turns = s.turns := rfl
@[simp] theorem State.updMod_draws (s : State) (f : ModRegs → ModRegs) : (s.updMod f).draws = s.draws := rfl

/-! `updAsid` -/

@[simp] theorem State.updAsid_clk (s : State) (a : Nat) (f : Asid → Asid) : (s.updAsid a f).clk = s.clk := rfl
@[simp] theorem State.updAsid_waves (s : State) (a : Nat) (f : Asid → Asid) : (s.updAsid a f).waves = s.waves := rfl
@[simp] theorem State.updAsid_nextWave (s : State) (a : Nat) (f : Asid → Asid) : (s.updAsid a f).nextWave = s.nextWave := rfl
@[simp] theorem State.updAsid_cores (s : State) (a : Nat) (f : Asid → Asid) : (s.updAsid a f).cores = s.cores := rfl
@[simp] theorem State.updAsid_engines (s : State) (a : Nat) (f : Asid → Asid) : (s.updAsid a f).engines = s.engines := rfl
@[simp] theorem State.updAsid_graph (s : State) (a : Nat) (f : Asid → Asid) : (s.updAsid a f).graph = s.graph := rfl
@[simp] theorem State.updAsid_front (s : State) (a : Nat) (f : Asid → Asid) : (s.updAsid a f).front = s.front := rfl
@[simp] theorem State.updAsid_mod (s : State) (a : Nat) (f : Asid → Asid) : (s.updAsid a f).mod = s.mod := rfl
@[simp] theorem State.updAsid_events (s : State) (a : Nat) (f : Asid → Asid) : (s.updAsid a f).events = s.events := rfl
@[simp] theorem State.updAsid_sel (s : State) (a : Nat) (f : Asid → Asid) : (s.updAsid a f).sel = s.sel := rfl
@[simp] theorem State.updAsid_cur (s : State) (a : Nat) (f : Asid → Asid) : (s.updAsid a f).cur = s.cur := rfl
@[simp] theorem State.updAsid_agenda (s : State) (a : Nat) (f : Asid → Asid) : (s.updAsid a f).agenda = s.agenda := rfl
@[simp] theorem State.updAsid_turns (s : State) (a : Nat) (f : Asid → Asid) : (s.updAsid a f).turns = s.turns := rfl
@[simp] theorem State.updAsid_draws (s : State) (a : Nat) (f : Asid → Asid) : (s.updAsid a f).draws = s.draws := rfl

/-! `irq` -/

@[simp] theorem State.irq_clk (s : State) (k a : Nat) : (s.irq k a).clk = s.clk := rfl
@[simp] theorem State.irq_waves (s : State) (k a : Nat) : (s.irq k a).waves = s.waves := rfl
@[simp] theorem State.irq_nextWave (s : State) (k a : Nat) : (s.irq k a).nextWave = s.nextWave := rfl
@[simp] theorem State.irq_cores (s : State) (k a : Nat) : (s.irq k a).cores = s.cores := rfl
@[simp] theorem State.irq_engines (s : State) (k a : Nat) : (s.irq k a).engines = s.engines := rfl
@[simp] theorem State.irq_mem (s : State) (k a : Nat) : (s.irq k a).mem = s.mem := rfl
@[simp] theorem State.irq_graph (s : State) (k a : Nat) : (s.irq k a).graph = s.graph := rfl
@[simp] theorem State.irq_front (s : State) (k a : Nat) : (s.irq k a).front = { s.front with irqs := (k, a) :: s.front.irqs } := rfl
@[simp] theorem State.irq_mod (s : State) (k a : Nat) : (s.irq k a).mod = s.mod := rfl
@[simp] theorem State.irq_events (s : State) (k a : Nat) : (s.irq k a).events = s.events := rfl
@[simp] theorem State.irq_sel (s : State) (k a : Nat) : (s.irq k a).sel = s.sel := rfl
@[simp] theorem State.irq_cur (s : State) (k a : Nat) : (s.irq k a).cur = s.cur := rfl
@[simp] theorem State.irq_agenda (s : State) (k a : Nat) : (s.irq k a).agenda = s.agenda := rfl
@[simp] theorem State.irq_turns (s : State) (k a : Nat) : (s.irq k a).turns = s.turns := rfl
@[simp] theorem State.irq_draws (s : State) (k a : Nat) : (s.irq k a).draws = s.draws := rfl

/-! `ringPush` -/

@[simp] theorem State.ringPush_clk (s : State) (a : Nat) (node : Bool) (bs : List Byte) : (s.ringPush a node bs).clk = s.clk := rfl
@[simp] theorem State.ringPush_waves (s : State) (a : Nat) (node : Bool) (bs : List Byte) : (s.ringPush a node bs).waves = s.waves := rfl
@[simp] theorem State.ringPush_nextWave (s : State) (a : Nat) (node : Bool) (bs : List Byte) : (s.ringPush a node bs).nextWave = s.nextWave := rfl
@[simp] theorem State.ringPush_cores (s : State) (a : Nat) (node : Bool) (bs : List Byte) : (s.ringPush a node bs).cores = s.cores := rfl
@[simp] theorem State.ringPush_engines (s : State) (a : Nat) (node : Bool) (bs : List Byte) : (s.ringPush a node bs).engines = s.engines := rfl
@[simp] theorem State.ringPush_mem (s : State) (a : Nat) (node : Bool) (bs : List Byte) : (s.ringPush a node bs).mem = s.mem := rfl
@[simp] theorem State.ringPush_graph (s : State) (a : Nat) (node : Bool) (bs : List Byte) : (s.ringPush a node bs).graph = s.graph := rfl
@[simp] theorem State.ringPush_mod (s : State) (a : Nat) (node : Bool) (bs : List Byte) : (s.ringPush a node bs).mod = s.mod := rfl
@[simp] theorem State.ringPush_events (s : State) (a : Nat) (node : Bool) (bs : List Byte) : (s.ringPush a node bs).events = s.events := rfl
@[simp] theorem State.ringPush_sel (s : State) (a : Nat) (node : Bool) (bs : List Byte) : (s.ringPush a node bs).sel = s.sel := rfl
@[simp] theorem State.ringPush_cur (s : State) (a : Nat) (node : Bool) (bs : List Byte) : (s.ringPush a node bs).cur = s.cur := rfl
@[simp] theorem State.ringPush_agenda (s : State) (a : Nat) (node : Bool) (bs : List Byte) : (s.ringPush a node bs).agenda = s.agenda := rfl
@[simp] theorem State.ringPush_turns (s : State) (a : Nat) (node : Bool) (bs : List Byte) : (s.ringPush a node bs).turns = s.turns := rfl
@[simp] theorem State.ringPush_draws (s : State) (a : Nat) (node : Bool) (bs : List Byte) : (s.ringPush a node bs).draws = s.draws := rfl

/-! `updWave` -/

@[simp] theorem State.updWave_clk (s : State) (u : Nat) (f : Wave → Wave) : (s.updWave u f).clk = s.clk := by
  unfold State.updWave; split <;> rfl
@[simp] theorem State.updWave_nextWave (s : State) (u : Nat) (f : Wave → Wave) : (s.updWave u f).nextWave = s.nextWave := by
  unfold State.updWave; split <;> rfl
@[simp] theorem State.updWave_cores (s : State) (u : Nat) (f : Wave → Wave) : (s.updWave u f).cores = s.cores := by
  unfold State.updWave; split <;> rfl
@[simp] theorem State.updWave_engines (s : State) (u : Nat) (f : Wave → Wave) : (s.updWave u f).engines = s.engines := by
  unfold State.updWave; split <;> rfl
@[simp] theorem State.updWave_mem (s : State) (u : Nat) (f : Wave → Wave) : (s.updWave u f).mem = s.mem := by
  unfold State.updWave; split <;> rfl
@[simp] theorem State.updWave_graph (s : State) (u : Nat) (f : Wave → Wave) : (s.updWave u f).graph = s.graph := by
  unfold State.updWave; split <;> rfl
@[simp] theorem State.updWave_front (s : State) (u : Nat) (f : Wave → Wave) : (s.updWave u f).front = s.front := by
  unfold State.updWave; split <;> rfl
@[simp] theorem State.updWave_mod (s : State) (u : Nat) (f : Wave → Wave) : (s.updWave u f).mod = s.mod := by
  unfold State.updWave; split <;> rfl
@[simp] theorem State.updWave_events (s : State) (u : Nat) (f : Wave → Wave) : (s.updWave u f).events = s.events := by
  unfold State.updWave; split <;> rfl
@[simp] theorem State.updWave_sel (s : State) (u : Nat) (f : Wave → Wave) : (s.updWave u f).sel = s.sel := by
  unfold State.updWave; split <;> rfl
@[simp] theorem State.updWave_cur (s : State) (u : Nat) (f : Wave → Wave) : (s.updWave u f).cur = s.cur := by
  unfold State.updWave; split <;> rfl
@[simp] theorem State.updWave_agenda (s : State) (u : Nat) (f : Wave → Wave) : (s.updWave u f).agenda = s.agenda := by
  unfold State.updWave; split <;> rfl
@[simp] theorem State.updWave_turns (s : State) (u : Nat) (f : Wave → Wave) : (s.updWave u f).turns = s.turns := by
  unfold State.updWave; split <;> rfl
@[simp] theorem State.updWave_draws (s : State) (u : Nat) (f : Wave → Wave) : (s.updWave u f).draws = s.draws := by
  unfold State.updWave; split <;> rfl

/-! `updSplit` -/

@[simp] theorem State.updSplit_clk (s : State) (u e : Nat) (f : Split → Split) : (s.updSplit u e f).clk = s.clk := by
  simp [State.updSplit]
@[simp] theorem State.updSplit_nextWave (s : State) (u e : Nat) (f : Split → Split) : (s.updSplit u e f).nextWave = s.nextWave := by
  simp [State.updSplit]
@[simp] theorem State.updSplit_cores (s : State) (u e : Nat) (f : Split → Split) : (s.updSplit u e f).cores = s.cores := by
  simp [State.updSplit]
@[simp] theorem State.updSplit_engines (s : State) (u e : Nat) (f : Split → Split) : (s.updSplit u e f).engines = s.engines := by
  simp [State.updSplit]
@[simp] theorem State.updSplit_mem (s : State) (u e : Nat) (f : Split → Split) : (s.updSplit u e f).mem = s.mem := by
  simp [State.updSplit]
@[simp] theorem State.updSplit_graph (s : State) (u e : Nat) (f : Split → Split) : (s.updSplit u e f).graph = s.graph := by
  simp [State.updSplit]
@[simp] theorem State.updSplit_front (s : State) (u e : Nat) (f : Split → Split) : (s.updSplit u e f).front = s.front := by
  simp [State.updSplit]
@[simp] theorem State.updSplit_mod (s : State) (u e : Nat) (f : Split → Split) : (s.updSplit u e f).mod = s.mod := by
  simp [State.updSplit]
@[simp] theorem State.updSplit_events (s : State) (u e : Nat) (f : Split → Split) : (s.updSplit u e f).events = s.events := by
  simp [State.updSplit]
@[simp] theorem State.updSplit_sel (s : State) (u e : Nat) (f : Split → Split) : (s.updSplit u e f).sel = s.sel := by
  simp [State.updSplit]
@[simp] theorem State.updSplit_cur (s : State) (u e : Nat) (f : Split → Split) : (s.updSplit u e f).cur = s.cur := by
  simp [State.updSplit]
@[simp] theorem State.updSplit_agenda (s : State) (u e : Nat) (f : Split → Split) : (s.updSplit u e f).agenda = s.agenda := by
  simp [State.updSplit]
@[simp] theorem State.updSplit_turns (s : State) (u e : Nat) (f : Split → Split) : (s.updSplit u e f).turns = s.turns := by
  simp [State.updSplit]
@[simp] theorem State.updSplit_draws (s : State) (u e : Nat) (f : Split → Split) : (s.updSplit u e f).draws = s.draws := by
  simp [State.updSplit]

/-! `updGang` -/

@[simp] theorem State.updGang_clk (s : State) (g : Nat) (f : Gang → Gang) : (s.updGang g f).clk = s.clk := by
  unfold State.updGang; split <;> rfl
@[simp] theorem State.updGang_waves (s : State) (g : Nat) (f : Gang → Gang) : (s.updGang g f).waves = s.waves := by
  unfold State.updGang; split <;> rfl
@[simp] theorem State.updGang_nextWave (s : State) (g : Nat) (f : Gang → Gang) : (s.updGang g f).nextWave = s.nextWave := by
  unfold State.updGang; split <;> rfl
@[simp] theorem State.updGang_cores (s : State) (g : Nat) (f : Gang → Gang) : (s.updGang g f).cores = s.cores := by
  unfold State.updGang; split <;> rfl
@[simp] theorem State.updGang_engines (s : State) (g : Nat) (f : Gang → Gang) : (s.updGang g f).engines = s.engines := by
  unfold State.updGang; split <;> rfl
@[simp] theorem State.updGang_mem (s : State) (g : Nat) (f : Gang → Gang) : (s.updGang g f).mem = s.mem := by
  unfold State.updGang; split <;> rfl
@[simp] theorem State.updGang_front (s : State) (g : Nat) (f : Gang → Gang) : (s.updGang g f).front = s.front := by
  unfold State.updGang; split <;> rfl
@[simp] theorem State.updGang_mod (s : State) (g : Nat) (f : Gang → Gang) : (s.updGang g f).mod = s.mod := by
  unfold State.updGang; split <;> rfl
@[simp] theorem State.updGang_events (s : State) (g : Nat) (f : Gang → Gang) : (s.updGang g f).events = s.events := by
  unfold State.updGang; split <;> rfl
@[simp] theorem State.updGang_sel (s : State) (g : Nat) (f : Gang → Gang) : (s.updGang g f).sel = s.sel := by
  unfold State.updGang; split <;> rfl
@[simp] theorem State.updGang_cur (s : State) (g : Nat) (f : Gang → Gang) : (s.updGang g f).cur = s.cur := by
  unfold State.updGang; split <;> rfl
@[simp] theorem State.updGang_agenda (s : State) (g : Nat) (f : Gang → Gang) : (s.updGang g f).agenda = s.agenda := by
  unfold State.updGang; split <;> rfl
@[simp] theorem State.updGang_turns (s : State) (g : Nat) (f : Gang → Gang) : (s.updGang g f).turns = s.turns := by
  unfold State.updGang; split <;> rfl
@[simp] theorem State.updGang_draws (s : State) (g : Nat) (f : Gang → Gang) : (s.updGang g f).draws = s.draws := by
  unfold State.updGang; split <;> rfl

/-! `updTeam` -/

@[simp] theorem State.updTeam_clk (s : State) (k : Nat) (f : Team → Team) : (s.updTeam k f).clk = s.clk := by
  unfold State.updTeam; split <;> rfl
@[simp] theorem State.updTeam_waves (s : State) (k : Nat) (f : Team → Team) : (s.updTeam k f).waves = s.waves := by
  unfold State.updTeam; split <;> rfl
@[simp] theorem State.updTeam_nextWave (s : State) (k : Nat) (f : Team → Team) : (s.updTeam k f).nextWave = s.nextWave := by
  unfold State.updTeam; split <;> rfl
@[simp] theorem State.updTeam_cores (s : State) (k : Nat) (f : Team → Team) : (s.updTeam k f).cores = s.cores := by
  unfold State.updTeam; split <;> rfl
@[simp] theorem State.updTeam_engines (s : State) (k : Nat) (f : Team → Team) : (s.updTeam k f).engines = s.engines := by
  unfold State.updTeam; split <;> rfl
@[simp] theorem State.updTeam_mem (s : State) (k : Nat) (f : Team → Team) : (s.updTeam k f).mem = s.mem := by
  unfold State.updTeam; split <;> rfl
@[simp] theorem State.updTeam_front (s : State) (k : Nat) (f : Team → Team) : (s.updTeam k f).front = s.front := by
  unfold State.updTeam; split <;> rfl
@[simp] theorem State.updTeam_mod (s : State) (k : Nat) (f : Team → Team) : (s.updTeam k f).mod = s.mod := by
  unfold State.updTeam; split <;> rfl
@[simp] theorem State.updTeam_events (s : State) (k : Nat) (f : Team → Team) : (s.updTeam k f).events = s.events := by
  unfold State.updTeam; split <;> rfl
@[simp] theorem State.updTeam_sel (s : State) (k : Nat) (f : Team → Team) : (s.updTeam k f).sel = s.sel := by
  unfold State.updTeam; split <;> rfl
@[simp] theorem State.updTeam_cur (s : State) (k : Nat) (f : Team → Team) : (s.updTeam k f).cur = s.cur := by
  unfold State.updTeam; split <;> rfl
@[simp] theorem State.updTeam_agenda (s : State) (k : Nat) (f : Team → Team) : (s.updTeam k f).agenda = s.agenda := by
  unfold State.updTeam; split <;> rfl
@[simp] theorem State.updTeam_turns (s : State) (k : Nat) (f : Team → Team) : (s.updTeam k f).turns = s.turns := by
  unfold State.updTeam; split <;> rfl
@[simp] theorem State.updTeam_draws (s : State) (k : Nat) (f : Team → Team) : (s.updTeam k f).draws = s.draws := by
  unfold State.updTeam; split <;> rfl

/-! `updKernel` -/

@[simp] theorem State.updKernel_clk (s : State) (k : Nat) (f : Kernel → Kernel) : (s.updKernel k f).clk = s.clk := by
  unfold State.updKernel; split <;> rfl
@[simp] theorem State.updKernel_waves (s : State) (k : Nat) (f : Kernel → Kernel) : (s.updKernel k f).waves = s.waves := by
  unfold State.updKernel; split <;> rfl
@[simp] theorem State.updKernel_nextWave (s : State) (k : Nat) (f : Kernel → Kernel) : (s.updKernel k f).nextWave = s.nextWave := by
  unfold State.updKernel; split <;> rfl
@[simp] theorem State.updKernel_cores (s : State) (k : Nat) (f : Kernel → Kernel) : (s.updKernel k f).cores = s.cores := by
  unfold State.updKernel; split <;> rfl
@[simp] theorem State.updKernel_engines (s : State) (k : Nat) (f : Kernel → Kernel) : (s.updKernel k f).engines = s.engines := by
  unfold State.updKernel; split <;> rfl
@[simp] theorem State.updKernel_mem (s : State) (k : Nat) (f : Kernel → Kernel) : (s.updKernel k f).mem = s.mem := by
  unfold State.updKernel; split <;> rfl
@[simp] theorem State.updKernel_front (s : State) (k : Nat) (f : Kernel → Kernel) : (s.updKernel k f).front = s.front := by
  unfold State.updKernel; split <;> rfl
@[simp] theorem State.updKernel_mod (s : State) (k : Nat) (f : Kernel → Kernel) : (s.updKernel k f).mod = s.mod := by
  unfold State.updKernel; split <;> rfl
@[simp] theorem State.updKernel_events (s : State) (k : Nat) (f : Kernel → Kernel) : (s.updKernel k f).events = s.events := by
  unfold State.updKernel; split <;> rfl
@[simp] theorem State.updKernel_sel (s : State) (k : Nat) (f : Kernel → Kernel) : (s.updKernel k f).sel = s.sel := by
  unfold State.updKernel; split <;> rfl
@[simp] theorem State.updKernel_cur (s : State) (k : Nat) (f : Kernel → Kernel) : (s.updKernel k f).cur = s.cur := by
  unfold State.updKernel; split <;> rfl
@[simp] theorem State.updKernel_agenda (s : State) (k : Nat) (f : Kernel → Kernel) : (s.updKernel k f).agenda = s.agenda := by
  unfold State.updKernel; split <;> rfl
@[simp] theorem State.updKernel_turns (s : State) (k : Nat) (f : Kernel → Kernel) : (s.updKernel k f).turns = s.turns := by
  unfold State.updKernel; split <;> rfl
@[simp] theorem State.updKernel_draws (s : State) (k : Nat) (f : Kernel → Kernel) : (s.updKernel k f).draws = s.draws := by
  unfold State.updKernel; split <;> rfl

/-! `updNode` -/

@[simp] theorem State.updNode_clk (s : State) (k : Nat) (f : Node → Node) : (s.updNode k f).clk = s.clk := by
  unfold State.updNode; split <;> rfl
@[simp] theorem State.updNode_waves (s : State) (k : Nat) (f : Node → Node) : (s.updNode k f).waves = s.waves := by
  unfold State.updNode; split <;> rfl
@[simp] theorem State.updNode_nextWave (s : State) (k : Nat) (f : Node → Node) : (s.updNode k f).nextWave = s.nextWave := by
  unfold State.updNode; split <;> rfl
@[simp] theorem State.updNode_cores (s : State) (k : Nat) (f : Node → Node) : (s.updNode k f).cores = s.cores := by
  unfold State.updNode; split <;> rfl
@[simp] theorem State.updNode_engines (s : State) (k : Nat) (f : Node → Node) : (s.updNode k f).engines = s.engines := by
  unfold State.updNode; split <;> rfl
@[simp] theorem State.updNode_mem (s : State) (k : Nat) (f : Node → Node) : (s.updNode k f).mem = s.mem := by
  unfold State.updNode; split <;> rfl
@[simp] theorem State.updNode_front (s : State) (k : Nat) (f : Node → Node) : (s.updNode k f).front = s.front := by
  unfold State.updNode; split <;> rfl
@[simp] theorem State.updNode_mod (s : State) (k : Nat) (f : Node → Node) : (s.updNode k f).mod = s.mod := by
  unfold State.updNode; split <;> rfl
@[simp] theorem State.updNode_events (s : State) (k : Nat) (f : Node → Node) : (s.updNode k f).events = s.events := by
  unfold State.updNode; split <;> rfl
@[simp] theorem State.updNode_sel (s : State) (k : Nat) (f : Node → Node) : (s.updNode k f).sel = s.sel := by
  unfold State.updNode; split <;> rfl
@[simp] theorem State.updNode_cur (s : State) (k : Nat) (f : Node → Node) : (s.updNode k f).cur = s.cur := by
  unfold State.updNode; split <;> rfl
@[simp] theorem State.updNode_agenda (s : State) (k : Nat) (f : Node → Node) : (s.updNode k f).agenda = s.agenda := by
  unfold State.updNode; split <;> rfl
@[simp] theorem State.updNode_turns (s : State) (k : Nat) (f : Node → Node) : (s.updNode k f).turns = s.turns := by
  unfold State.updNode; split <;> rfl
@[simp] theorem State.updNode_draws (s : State) (k : Nat) (f : Node → Node) : (s.updNode k f).draws = s.draws := by
  unfold State.updNode; split <;> rfl

/-! `updBank` -/

@[simp] theorem State.updBank_clk (s : State) (w : Wave) (f : Bank → Bank) : (s.updBank w f).clk = s.clk := by
  simp [State.updBank]
@[simp] theorem State.updBank_waves (s : State) (w : Wave) (f : Bank → Bank) : (s.updBank w f).waves = s.waves := by
  simp [State.updBank]
@[simp] theorem State.updBank_nextWave (s : State) (w : Wave) (f : Bank → Bank) : (s.updBank w f).nextWave = s.nextWave := by
  simp [State.updBank]
@[simp] theorem State.updBank_cores (s : State) (w : Wave) (f : Bank → Bank) : (s.updBank w f).cores = s.cores := by
  simp [State.updBank]
@[simp] theorem State.updBank_engines (s : State) (w : Wave) (f : Bank → Bank) : (s.updBank w f).engines = s.engines := by
  simp [State.updBank]
@[simp] theorem State.updBank_mem (s : State) (w : Wave) (f : Bank → Bank) : (s.updBank w f).mem = s.mem := by
  simp [State.updBank]
@[simp] theorem State.updBank_front (s : State) (w : Wave) (f : Bank → Bank) : (s.updBank w f).front = s.front := by
  simp [State.updBank]
@[simp] theorem State.updBank_mod (s : State) (w : Wave) (f : Bank → Bank) : (s.updBank w f).mod = s.mod := by
  simp [State.updBank]
@[simp] theorem State.updBank_events (s : State) (w : Wave) (f : Bank → Bank) : (s.updBank w f).events = s.events := by
  simp [State.updBank]
@[simp] theorem State.updBank_sel (s : State) (w : Wave) (f : Bank → Bank) : (s.updBank w f).sel = s.sel := by
  simp [State.updBank]
@[simp] theorem State.updBank_cur (s : State) (w : Wave) (f : Bank → Bank) : (s.updBank w f).cur = s.cur := by
  simp [State.updBank]
@[simp] theorem State.updBank_agenda (s : State) (w : Wave) (f : Bank → Bank) : (s.updBank w f).agenda = s.agenda := by
  simp [State.updBank]
@[simp] theorem State.updBank_turns (s : State) (w : Wave) (f : Bank → Bank) : (s.updBank w f).turns = s.turns := by
  simp [State.updBank]
@[simp] theorem State.updBank_draws (s : State) (w : Wave) (f : Bank → Bank) : (s.updBank w f).draws = s.draws := by
  simp [State.updBank]

/-! Finding what was put -/

@[simp] theorem State.wave?_setWave_self (s : State) (u : Nat) (w : Wave) : (s.setWave u w).wave? u = some w := by
  simp [State.wave?]

theorem State.wave?_setWave_ne (s : State) {u x : Nat} (w : Wave) (h : x ≠ u) : (s.setWave u w).wave? x = s.wave? x := by
  simp [State.wave?, smFind_put_ne _ _ h]

theorem State.updWave_of_find {s : State} {u : Nat} {w : Wave} (h : s.wave? u = some w) (f : Wave → Wave) :
    s.updWave u f = s.setWave u (f w) := by
  simp [State.updWave, h]

@[simp] theorem State.wave?_updWave_self (s : State) (u : Nat) (f : Wave → Wave) : (s.updWave u f).wave? u = (s.wave? u).map f := by
  unfold State.updWave
  split
  · next h => simp [h]
  · next h => simp [h]

theorem State.wave?_updWave_ne (s : State) {u x : Nat} (f : Wave → Wave) (h : x ≠ u) : (s.updWave u f).wave? x = s.wave? x := by
  unfold State.updWave
  split
  · exact s.wave?_setWave_ne _ h
  · rfl

theorem State.wave?_congr {s t : State} (h : t.waves = s.waves) (u : Nat) : t.wave? u = s.wave? u := by
  simp [State.wave?, h]

@[simp] theorem State.engine_setEngine_self (s : State) (c : Nat) (x : Engine) : (s.setEngine c x).engine c = x := by
  simp [State.engine]

theorem State.engine_setEngine_ne (s : State) {c i : Nat} (x : Engine) (h : i ≠ c) : (s.setEngine c x).engine i = s.engine i := by
  simp [State.engine, smGet_set_ne _ _ _ h]

@[simp] theorem State.engine_updEngine_self (s : State) (c : Nat) (f : Engine → Engine) :
    (s.updEngine c f).engine c = f (s.engine c) := by
  simp [State.updEngine]

@[simp] theorem State.asid_updAsid_self (s : State) (a : Nat) (f : Asid → Asid) : (s.updAsid a f).asid a = f (s.asid a) := by
  simp [State.asid, State.updAsid]

/-! Splits -/

@[simp] theorem Wave.setSplit_r (w : Wave) (e : Nat) (x : Option Split) : (w.setSplit e x).r = w.r := by
  unfold Wave.setSplit; split <;> rfl
@[simp] theorem Wave.updSplit_r (w : Wave) (e : Nat) (f : Split → Split) : (w.updSplit e f).r = w.r := by
  unfold Wave.updSplit; split <;> simp

/-- A split that was put in an entry in use stands there. -/
theorem Wave.split?_setSplit_self {w : Wave} {e : Nat} {x : Split} (h : w.split? e = some x) (y : Split) :
    (w.setSplit e (some y)).split? e = some y := by
  unfold Wave.split? Wave.setSplit at *
  split
  · next he => simp
  · next he =>
    simp only [he, if_false] at h
    have hl : e < w.live.length := Decidable.byContradiction fun hc => by
      simp [List.getElem?_eq_none (Nat.le_of_not_lt hc)] at h
    simp [hl]

theorem Wave.split?_updSplit_self {w : Wave} {e : Nat} {x : Split} (h : w.split? e = some x) (f : Split → Split) :
    (w.updSplit e f).split? e = some (f x) := by
  simp [Wave.updSplit, h, Wave.split?_setSplit_self h]

theorem Wave.split?_setSplit_ne (w : Wave) {e i : Nat} (x : Option Split) (h : i ≠ e) : (w.setSplit e x).split? i = w.split? i := by
  unfold Wave.split? Wave.setSplit
  split <;> split <;> simp_all [List.getElem?_set_ne, Ne.symm]

end Sys2Proof.Machine
end

