-- ==== Sys2Proof/Laws/Registers.lean ====
section
/-!
SUPPORT. Registers: what is read after a write of a vector or uniform register, and what the writing of a whole result does.
-/

namespace Sys2Proof.Machine

/-! ## Lanes -/

@[simp] theorem mem_lanesOf {m : Mask} {l : Nat} : l ∈ lanesOf m ↔ l < 32 ∧ hasLane m l = true := by
  simp [lanesOf, laneList]

theorem hasLane_lt {m : Mask} {l : Nat} (h : hasLane m l = true) : l < 32 := by
  unfold hasLane at h
  exact Decidable.byContradiction fun hc => by simp [BitVec.getLsbD_of_ge _ _ (Nat.le_of_not_lt hc)] at h

theorem vkey_inj {n l i j : Nat} (hl : l < 32) (hj : j < 32) : vkey n l = vkey i j ↔ n = i ∧ l = j := by
  unfold vkey; omega

/-! ## One register -/

@[simp] theorem Wave.getV_setV_self (w : Wave) (n l : Nat) (x : W32) (cc : Nat) : (w.setV n l x cc).getV n l = x := by
  simp [Wave.getV, Wave.setV]

theorem Wave.getV_setV (w : Wave) {n l i j : Nat} (x : W32) (cc : Nat) (hl : l < 32) (hj : j < 32) :
    (w.setV n l x cc).getV i j = if i = n ∧ j = l then x else w.getV i j := by
  simp only [Wave.getV, Wave.setV, smGet_set, vkey_inj hj hl]

@[simp] theorem Wave.getTag_setV_self (w : Wave) (n l : Nat) (x : W32) (cc : Nat) : (w.setV n l x cc).getTag n l = cc := by
  simp [Wave.getTag, Wave.setV]

@[simp] theorem Wave.getV_setTag (w : Wave) (n l t i j : Nat) : (w.setTag n l t).getV i j = w.getV i j := rfl
@[simp] theorem Wave.getK_setTag (w : Wave) (n l t : Nat) (y : Split) (i : Nat) : (w.setTag n l t).getK y i = w.getK y i := rfl
@[simp] theorem Wave.split?_setTag (w : Wave) (n l t e : Nat) : (w.setTag n l t).split? e = w.split? e := rfl
@[simp] theorem Wave.getK_setV (w : Wave) (n l : Nat) (x : W32) (cc : Nat) (y : Split) (i : Nat) : (w.setV n l x cc).getK y i = w.getK y i := rfl
@[simp] theorem Wave.split?_setV (w : Wave) (n l : Nat) (x : W32) (cc e : Nat) : (w.setV n l x cc).split? e = w.split? e := rfl

theorem join32_toNat (a b : W32) : (join32 a b).toNat = 2 ^ 32 * a.toNat + b.toNat := by
  show (a ++ b : BitVec (32 + 32)).toNat = _
  rw [BitVec.toNat_append, Nat.shiftLeft_eq, Nat.mul_comm, ← Nat.two_pow_add_eq_or_of_lt b.isLt]

@[simp] theorem lo32_join32 (a b : W32) : lo32 (join32 a b) = b := by
  apply BitVec.eq_of_toNat_eq
  have := join32_toNat a b
  simp [lo32]
  omega
@[simp] theorem hi32_join32 (a b : W32) : hi32 (join32 a b) = a := by
  apply BitVec.eq_of_toNat_eq
  have := join32_toNat a b
  have := a.isLt
  simp [hi32, Nat.shiftRight_eq_div_pow]
  omega

/-- A write of kn by split e: the split that then stands there reads it back, and every other k register reads as before. -/
theorem Wave.setK_spec {w : Wave} {e : Nat} {sp : Split} (h : w.split? e = some sp) (n : Nat) (x : W32) :
    ∃ y, (w.setK e n x).split? e = some y ∧ y.mask = sp.mask ∧ y.pc = sp.pc ∧ y.ver = sp.ver ∧
      ∀ i, (w.setK e n x).getK y i = if i = n then x else w.getK sp i := by
  unfold Wave.setK
  split
  · next h1 =>
    refine ⟨_, Wave.split?_updSplit_self h _, rfl, rfl, rfl, fun i => ?_⟩
    by_cases e1 : i = 62 <;> by_cases e2 : i = 63 <;> by_cases e3 : i = 58 <;> by_cases e4 : i = 59 <;>
      simp_all [Wave.getK, Wave.updSplit_r]
  · split
    · next h1 h2 =>
      refine ⟨_, Wave.split?_updSplit_self h _, rfl, rfl, rfl, fun i => ?_⟩
      by_cases e1 : i = 62 <;> by_cases e2 : i = 63 <;> by_cases e3 : i = 58 <;> by_cases e4 : i = 59 <;>
        simp_all [Wave.getK, Wave.updSplit_r]
    · split
      · next h1 h2 h3 =>
        refine ⟨_, Wave.split?_updSplit_self h _, rfl, rfl, rfl, fun i => ?_⟩
        by_cases e1 : i = 62 <;> by_cases e2 : i = 63 <;> by_cases e3 : i = 58 <;> by_cases e4 : i = 59 <;>
          simp_all [Wave.getK, Wave.updSplit_r]
      · split
        · next h1 h2 h3 h4 =>
          refine ⟨_, Wave.split?_updSplit_self h _, rfl, rfl, rfl, fun i => ?_⟩
          by_cases e1 : i = 62 <;> by_cases e2 : i = 63 <;> by_cases e3 : i = 58 <;> by_cases e4 : i = 59 <;>
            simp_all [Wave.getK, Wave.updSplit_r]
        · next h1 h2 h3 h4 =>
          refine ⟨sp, h, rfl, rfl, rfl, fun i => ?_⟩
          by_cases e1 : i = 62 <;> by_cases e2 : i = 63 <;> by_cases e3 : i = 58 <;> by_cases e4 : i = 59 <;>
            simp_all [Wave.getK, smGet_set, Ne.symm]

end Sys2Proof.Machine
end

