-- ==== Sys2Proof/Laws/Issue.lean ====
section
/-!
SUPPORT. The operations that every instruction word shares, each with what it can do said once: the counts of an issue, the reads of
registers, the counting of events, results, and the wrappers that run a word.
-/

namespace Sys2Proof.Machine

/-! ## What is left alone -/

theorem State.Local.refl (s : State) (u : Nat) : s.Local s u :=
  ⟨rfl, rfl, rfl, rfl, fun _ => rfl, fun _ => rfl, rfl, rfl, rfl, fun _ _ => rfl⟩

theorem State.Local.trans {a b c : State} {u : Nat} (h : a.Local b u) (k : b.Local c u) : a.Local c u :=
  ⟨k.clk.trans h.clk, k.mem.trans h.mem, k.engines.trans h.engines, k.mod.trans h.mod, fun x => (k.l1 x).trans (h.l1 x),
    fun x => (k.spad x).trans (h.spad x), k.gangs.trans h.gangs, k.kernels.trans h.kernels, k.nodes.trans h.nodes,
    fun x hx => (k.waves x hx).trans (h.waves x hx)⟩

theorem State.setWave_local (s : State) (u : Nat) (w : Wave) : s.Local (s.setWave u w) u :=
  ⟨rfl, rfl, rfl, rfl, fun _ => rfl, fun _ => rfl, rfl, rfl, rfl, fun _ h => s.wave?_setWave_ne w h⟩

theorem State.updWave_local (s : State) (u : Nat) (f : Wave → Wave) : s.Local (s.updWave u f) u := by
  unfold State.updWave
  split
  · exact s.setWave_local _ _
  · exact .refl _ _

theorem State.updSplit_local (s : State) (u e : Nat) (f : Split → Split) : s.Local (s.updSplit u e f) u := s.updWave_local _ _

theorem State.updFront_local (s : State) (u : Nat) (f : Front → Front) : s.Local (s.updFront f) u :=
  ⟨rfl, rfl, rfl, rfl, fun _ => rfl, fun _ => rfl, rfl, rfl, rfl, fun _ _ => rfl⟩

theorem State.draws_local (s : State) (u n : Nat) : s.Local { s with draws := n } u :=
  ⟨rfl, rfl, rfl, rfl, fun _ => rfl, fun _ => rfl, rfl, rfl, rfl, fun _ _ => rfl⟩

@[simp] theorem State.core_setCore_self (s : State) (c : Nat) (x : Core) : (s.setCore c x).core c = x := by
  have key : ∀ (m : SMap Core), (smFind (smSet (Core.reset c) m c x) c).getD (Core.reset c) = x := by
    intro m
    unfold smSet
    split
    · next h => simp [h]
    · simp
  simp [State.core, key]

theorem State.core_setCore_ne (s : State) {c i : Nat} (x : Core) (h : i ≠ c) : (s.setCore c x).core i = s.core i := by
  have key : ∀ (m : SMap Core), smFind (smSet (Core.reset c) m c x) i = smFind m i := by
    intro m
    unfold smSet
    split
    · exact smFind_del_ne _ h
    · exact smFind_put_ne _ _ h
  simp [State.core, key]

/-- A core update that keeps the L1 is local. -/
theorem State.updCore_local (s : State) (u c : Nat) (f : Core → Core) (h : (f (s.core c)).l1 = (s.core c).l1) :
    s.Local (s.updCore c f) u := by
  refine ⟨rfl, rfl, rfl, rfl, fun i => ?_, fun _ => rfl, rfl, rfl, rfl, fun _ _ => rfl⟩
  by_cases e : i = c
  · subst e; simpa [State.updCore] using h
  · simp [State.updCore, s.core_setCore_ne _ e]

theorem State.team?_updTeam (s : State) (k : Nat) (f : Team → Team) (i : Nat) :
    (s.updTeam k f).team? i = if i = k then (s.team? i).map f else s.team? i := by
  unfold State.updTeam
  split
  · next x h =>
    by_cases e : i = k
    · subst e; simp [State.team?] at *; simp [h]
    · simp [State.team?, smFind_put_ne _ _ e, e]
  · next h =>
    by_cases e : i = k
    · subst e; simp [h]
    · simp [e]

/-- A team update that keeps the scratchpad is local. -/
theorem State.updTeam_local (s : State) (u k : Nat) (f : Team → Team) (h : ∀ x, (f x).spad = x.spad ∧ (f x).fe = x.fe) :
    s.Local (s.updTeam k f) u := by
  refine ⟨by simp, by simp, by simp, by simp, fun c => ?_, fun i => ?_, ?_, ?_, ?_, fun x _ => ?_⟩
  · simp [State.core]
  · rw [s.team?_updTeam]
    split
    · cases s.team? i <;> simp [h]
    · rfl
  · unfold State.updTeam; split <;> rfl
  · unfold State.updTeam; split <;> rfl
  · unfold State.updTeam; split <;> rfl
  · simp [State.wave?]

theorem State.updBank_local (s : State) (u : Nat) (w : Wave) (f : Bank → Bank) : s.Local (s.updBank w f) u :=
  s.updTeam_local _ _ _ fun _ => ⟨rfl, rfl⟩

theorem State.ringPush_local (s : State) (u a : Nat) (n : Bool) (bs : List Byte) : s.Local (s.ringPush a n bs) u := s.updFront_local _ _

/-! ## What the rest of a wave keeps -/

theorem Wave.Rest.refl (w : Wave) (e : Nat) : w.Rest w e := ⟨rfl, rfl, fun _ _ => rfl, rfl, rfl, rfl, rfl, rfl, rfl, rfl, rfl, rfl⟩

theorem Wave.Rest.trans {a b c : Wave} {e : Nat} (h : a.Rest b e) (k : b.Rest c e) : a.Rest c e :=
  ⟨k.p.trans h.p, k.f.trans h.f, fun i hi => (k.splits i hi).trans (h.splits i hi), k.ovf.trans h.ovf, k.exited.trans h.exited,
    k.ops.trans h.ops, k.wk.trans h.wk, k.asid.trans h.asid, k.gang.trans h.gang, k.team.trans h.team, k.role.trans h.role,
    k.at_.trans h.at_⟩

/-- An update of the issuing split alone. -/
theorem Wave.setSplit_rest (w : Wave) (e : Nat) (x : Option Split) : w.Rest (w.setSplit e x) e := by
  have hs : ∀ i, i ≠ e → ((w.setSplit e x).split? i).map Split.place = (w.split? i).map Split.place :=
    fun i hi => by rw [w.split?_setSplit_ne x hi]
  unfold Wave.setSplit at *
  split
  · next h => refine ⟨rfl, rfl, ?_, rfl, rfl, rfl, rfl, rfl, rfl, rfl, rfl, rfl⟩; simpa [h] using hs
  · next h => refine ⟨rfl, rfl, ?_, rfl, rfl, rfl, rfl, rfl, rfl, rfl, rfl, rfl⟩; simpa [h] using hs

theorem Wave.updSplit_rest (w : Wave) (e : Nat) (f : Split → Split) : w.Rest (w.updSplit e f) e := by
  unfold Wave.updSplit
  split
  · exact w.setSplit_rest _ _
  · exact .refl _ _

theorem Wave.put_rest (w : Wave) (e : Nat) (d : Dst) (cc l : Nat) (x : W32) : w.Rest (w.put e d cc l x) e := by
  cases d with
  | v n => exact ⟨rfl, rfl, fun _ _ => rfl, rfl, rfl, rfl, rfl, rfl, rfl, rfl, rfl, rfl⟩
  | k n =>
    simp only [Wave.put, Wave.setK]
    split
    · exact w.updSplit_rest _ _
    · split
      · exact w.updSplit_rest _ _
      · split
        · exact w.updSplit_rest _ _
        · split
          · exact w.updSplit_rest _ _
          · exact ⟨rfl, rfl, fun _ _ => rfl, rfl, rfl, rfl, rfl, rfl, rfl, rfl, rfl, rfl⟩

theorem Wave.setTag_rest (w : Wave) (n l t e : Nat) : w.Rest (w.setTag n l t) e :=
  ⟨rfl, rfl, fun _ _ => rfl, rfl, rfl, rfl, rfl, rfl, rfl, rfl, rfl, rfl⟩

theorem Wave.Rest.foldl {α : Type} {e : Nat} {g : Wave → α → Wave} (h : ∀ (w : Wave) x, w.Rest (g w x) e) :
    ∀ (xs : List α) (w : Wave), w.Rest (xs.foldl g w) e
  | [], w => .refl w e
  | x :: xs, w => (h w x).trans (Wave.Rest.foldl h xs (g w x))

/-! ## What a word sees -/

/-- Two moments of a word in which it reads the same of every operand. -/
structure Env.Same (s : State) (v : Env) (t : State) (z : Env) : Prop where
  u : z.u = v.u
  e : z.e = v.e
  ctx : z.ctx = v.ctx
  draw : z.draw = v.draw
  rv : z.w.r.v = v.w.r.v
  tag : z.w.r.tag = v.w.r.tag
  rk : z.w.r.k = v.w.r.k
  rp : z.w.r.p = v.w.r.p
  badV : z.w.r.badV = v.w.r.badV
  badK : z.w.r.badK = v.w.r.badK
  gang : z.w.gang = v.w.gang
  team : z.w.team = v.w.team
  index : z.w.index = v.w.index
  asid : z.w.asid = v.w.asid
  role : z.w.role = v.w.role
  at_ : z.w.place = v.w.place
  wk : z.w.wk = v.w.wk
  exited : z.w.exited = v.w.exited
  sp : z.sp.place = v.sp.place
  gangs : t.graph.gangs = s.graph.gangs
  mod : t.mod = s.mod
  clk : t.clk = s.clk

theorem Env.Same.lr {s t : State} {v z : Env} (h : Env.Same s v t z) : z.sp.lr = v.sp.lr ∧ z.sp.tlr = v.sp.tlr ∧ z.sp.ver = v.sp.ver ∧
    z.sp.mask = v.sp.mask ∧ z.sp.pc = v.sp.pc := by
  have := h.sp; simp only [Split.place, Prod.mk.injEq] at this; simp [this]

theorem Env.Same.getV {s t : State} {v z : Env} (h : Env.Same s v t z) (n l : Nat) : z.w.getV n l = v.w.getV n l := by
  simp [Wave.getV, h.rv]

theorem Env.Same.dead {s t : State} {v z : Env} (h : Env.Same s v t z) (n l : Nat) : z.w.dead n l = v.w.dead n l := by
  unfold Wave.dead Wave.getTag; rw [h.tag]

theorem Env.Same.getK {s t : State} {v z : Env} (h : Env.Same s v t z) (n : Nat) : z.w.getK z.sp n = v.w.getK v.sp n := by
  simp [Wave.getK, h.lr, h.rk]

theorem Env.Same.getP {s t : State} {v z : Env} (h : Env.Same s v t z) (n : Nat) : z.w.getP n = v.w.getP n := by
  simp [Wave.getP, h.rp]

theorem Env.Same.active {s t : State} {v z : Env} (h : Env.Same s v t z) (g : Guard) : z.active g = v.active g := by
  simp [Env.active, h.getP, h.lr]

theorem Env.Same.readV {s t : State} {v z : Env} (h : Env.Same s v t z) (n l : Nat) : z.readV n l = v.readV n l := by
  simp [Env.readV, h.ctx, h.dead, h.getV, Env.free, h.draw]

theorem Env.Same.special {s t : State} {v z : Env} (h : Env.Same s v t z) (l : Nat) (x : Special) :
    t.special z l x = s.special v l x := by
  cases x <;> simp [State.special, h.index, h.e, h.team, h.gang, h.lr, h.mod, h.clk, Wave.core, h.at_, State.gang?, h.gangs, Wave.node,
    h.wk, h.role, h.exited]

/-- A word reads the same of every 32-bit source. -/
theorem Env.Same.rd {s t : State} {v z : Env} (h : Env.Same s v t z) (l : Nat) (x : Src) : t.rd z l x = s.rd v l x := by
  cases x <;> simp [State.rd, h.readV, h.getK, h.special]

/-- A word reads the same of every 64-bit source. -/
theorem Env.Same.rd64 {s t : State} {v z : Env} (h : Env.Same s v t z) (l : Nat) (x : Src) : t.rd64 z l x = s.rd64 v l x := by
  cases x <;> simp [State.rd64, State.rd, h.readV, h.getK, h.special]

theorem Env.Same.deadLanes {s t : State} {v z : Env} (h : Env.Same s v t z) (m : Mask) (n : Nat) :
    z.w.deadLanes m n = v.w.deadLanes m n := by
  have e : z.w.dead n = v.w.dead n := funext fun l => h.dead n l
  simp [Wave.deadLanes, e]

theorem Env.Same.badRead {s t : State} {v z : Env} (h : Env.Same s v t z) (m : Mask) (xs : List (Src × Nat)) :
    t.badRead z m xs = s.badRead v m xs := by
  simp [State.badRead, h.badV, h.badK]

theorem Env.Same.readable {s t : State} {v z : Env} (h : Env.Same s v t z) {m : Mask} {xs : List (Src × Nat)}
    (k : s.Readable v m xs) : t.Readable z m xs := by
  refine ⟨?_, by rw [h.badRead]; exact k.2⟩
  rcases k.1 with p | p
  · exact .inl (by rw [h.ctx]; exact p)
  · exact .inr fun n hn => by rw [h.deadLanes]; exact p n hn

/-! ## The counts of an issue -/

/-- From `w` to `x` only what an issue or an event counts has changed: every register and operation is the same, and the splits stand
where they stood. -/
structure Wave.Counts (w x : Wave) : Prop where
  r : x.r = w.r
  splits : ∀ i, (x.split? i).map Split.place = (w.split? i).map Split.place
  ovf : x.ovf = w.ovf
  exited : x.exited = w.exited
  ops : x.ops = w.ops
  wk : x.wk = w.wk
  asid : x.asid = w.asid
  gang : x.gang = w.gang
  team : x.team = w.team
  role : x.role = w.role
  index : x.index = w.index
  at_ : x.place = w.place
  fetch : x.fetchFaults = w.fetchFaults

theorem Wave.Counts.refl (w : Wave) : w.Counts w := ⟨rfl, fun _ => rfl, rfl, rfl, rfl, rfl, rfl, rfl, rfl, rfl, rfl, rfl, rfl⟩

theorem Wave.Counts.trans {a b c : Wave} (h : a.Counts b) (k : b.Counts c) : a.Counts c :=
  ⟨k.r.trans h.r, fun i => (k.splits i).trans (h.splits i), k.ovf.trans h.ovf, k.exited.trans h.exited, k.ops.trans h.ops,
    k.wk.trans h.wk, k.asid.trans h.asid, k.gang.trans h.gang, k.team.trans h.team, k.role.trans h.role, k.index.trans h.index,
    k.at_.trans h.at_, k.fetch.trans h.fetch⟩

theorem Wave.Counts.rest {w x : Wave} (h : w.Counts x) (e : Nat) : w.Rest x e :=
  ⟨by rw [h.r], by rw [h.r], fun i _ => h.splits i, h.ovf, h.exited, h.ops, h.wk, h.asid, h.gang, h.team, h.role, h.at_⟩

/-- A change of one split that leaves its place alone. -/
theorem Wave.setSplit_counts {w : Wave} {e : Nat} {x : Split} (h : w.split? e = some x) (y : Split) (hp : y.place = x.place) :
    w.Counts (w.setSplit e (some y)) := by
  have hs : ∀ i, ((w.setSplit e (some y)).split? i).map Split.place = (w.split? i).map Split.place := by
    intro i
    by_cases hi : i = e
    · subst hi; rw [Wave.split?_setSplit_self h]; simp [h, hp]
    · rw [w.split?_setSplit_ne _ hi]
  unfold Wave.setSplit at *
  split
  · next he => simp only [he] at hs; exact ⟨rfl, by simpa using hs, rfl, rfl, rfl, rfl, rfl, rfl, rfl, rfl, rfl, rfl, rfl⟩
  · next he => simp only [he] at hs; exact ⟨rfl, by simpa using hs, rfl, rfl, rfl, rfl, rfl, rfl, rfl, rfl, rfl, rfl, rfl⟩

theorem Wave.updSplit_counts (w : Wave) (e : Nat) (f : Split → Split) (hp : ∀ x, (f x).place = x.place) :
    w.Counts (w.updSplit e f) := by
  unfold Wave.updSplit
  split
  · next x h => exact Wave.setSplit_counts h _ (hp x)
  · exact .refl w

theorem Wave.mapLive_counts (w : Wave) (f : Split → Split) (hp : ∀ x, (f x).place = x.place) : w.Counts (w.mapLive f) := by
  refine ⟨rfl, fun i => ?_, rfl, rfl, rfl, rfl, rfl, rfl, rfl, rfl, rfl, rfl, rfl⟩
  unfold Wave.split? Wave.mapLive
  split
  · rfl
  · simp only [List.getElem?_map]
    cases h : w.live[i]? with
    | none => rfl
    | some x => cases x <;> simp [hp]

/-- From `s` to `t` only counts have changed, in the wave `u` too. -/
def State.Counted (s t : State) (u : Nat) : Prop :=
  s.Local t u ∧ ∀ w, s.wave? u = some w → ∃ x, t.wave? u = some x ∧ w.Counts x

theorem State.Counted.refl (s : State) (u : Nat) : s.Counted s u := ⟨.refl s u, fun w h => ⟨w, h, .refl w⟩⟩

theorem State.Counted.trans {a b c : State} {u : Nat} (h : a.Counted b u) (k : b.Counted c u) : a.Counted c u := by
  refine ⟨h.1.trans k.1, fun w hw => ?_⟩
  obtain ⟨x, hx, cx⟩ := h.2 w hw
  obtain ⟨y, hy, cy⟩ := k.2 x hx
  exact ⟨y, hy, cx.trans cy⟩

/-- An update of the wave that only counts. -/
theorem State.updWave_counted (s : State) (u : Nat) (f : Wave → Wave) (h : ∀ w : Wave, w.Counts (f w)) : s.Counted (s.updWave u f) u :=
  ⟨s.updWave_local u f, fun w hw => ⟨f w, by simp [hw], h w⟩⟩

/-- A change outside the waves that is local. -/
theorem State.Counted.of_waves {s t : State} {u : Nat} (h : s.Local t u) (hw : t.waves = s.waves) : s.Counted t u :=
  ⟨h, fun w e => ⟨w, by rw [State.wave?_congr hw]; exact e, .refl w⟩⟩

theorem State.updBank_counted (s : State) (u : Nat) (w : Wave) (f : Bank → Bank) : s.Counted (s.updBank w f) u :=
  .of_waves (s.updBank_local u w f) (by simp)

@[simp] theorem WTrap.push_handler (t : WTrap) (d : TDetail) : (t.push d).handler = t.handler := by
  unfold WTrap.push; split <;> rfl

theorem Split.stopFor_place (m : Mask) (x : Split) : (x.stopFor m).place = x.place := by
  unfold Split.stopFor; split <;> rfl

/-- A change of the trap state that keeps the handler split. -/
theorem Wave.trap_counts (w : Wave) (t : WTrap) (h : t.handler = w.t.handler) : w.Counts { w with t := t } :=
  ⟨rfl, fun i => by unfold Wave.split?; split <;> simp [h], rfl, rfl, rfl, rfl, rfl, rfl, rfl, rfl, rfl, rfl, rfl⟩

theorem Wave.pend_counts (w : Wave) (c : Cause) (m : Mask) (d : Option TDetail) : w.Counts (w.pend c m d) := by
  unfold Wave.pend
  refine (w.trap_counts _ ?_).trans (Wave.mapLive_counts _ _ (Split.stopFor_place m))
  cases d <;> simp

/-- What else a cause leaves is no register. -/
theorem Wave.notePend_counts (w : Wave) (clk : Nat) (c : Cause) (d : Option TDetail) : w.Counts (w.notePend clk c d) :=
  ⟨rfl, fun _ => rfl, rfl, rfl, rfl, rfl, rfl, rfl, rfl, rfl, rfl, rfl, rfl⟩

/-- A cause becomes pending: registers and memory stay as they are. -/
theorem State.pend_counted (s : State) (u : Nat) (c : Cause) (m : Mask) (h : Bool) (d : Option TDetail) : s.Counted (s.pend u c m h d) u := by
  refine State.updWave_counted _ _ _ fun w => ?_
  have k := (w.pend_counts c m d).trans (Wave.notePend_counts _ s.clk c d)
  cases h
  · exact k
  · exact k.trans (Wave.trap_counts _ _ rfl)

theorem State.trapAt_counted (s : State) (v : Env) (c : Cause) (code : Nat) (m : Mask) (info : List Byte) :
    s.Counted (s.trapAt v c code m info) v.u := s.pend_counted _ _ _ _ _

/-- The events of a word wait for the end of the clock: registers and memory stay as they are. -/
theorem State.count_counted (s : State) (x : EvSrc) (evs : EventList) : s.Counted (s.count x evs) x.u := by
  unfold State.count
  split
  · exact .refl s _
  · split
    · exact .refl s _
    · exact .of_waves ⟨rfl, rfl, rfl, rfl, fun _ => rfl, fun _ => rfl, rfl, rfl, rfl, fun _ _ => rfl⟩ rfl

/-- What a class that has passed its threshold brings leaves registers and memory as they are. -/
theorem State.nsAct_counted (s : State) (r : EvRec) (c : Nat) (b : Bank) (act : Nat) : s.Counted (s.nsAct r c b act) r.src.u := by
  have k2 : ∀ t : State, s.Counted t r.src.u → s.Counted (if act / 2 % 2 = 1 then t.ringPush r.asid false
      (cmdEntry 0 0 0x80 0 (r.core + c * 2 ^ 16)) else t) r.src.u := by
    intro t ht
    split
    · exact ht.trans (.of_waves (t.ringPush_local _ _ _ _) rfl)
    · exact ht
  unfold State.nsAct
  apply k2
  split
  · exact State.pend_counted _ _ _ _ _ _
  · exact .refl s _

theorem State.sampleIssue_counted (s : State) (u : Nat) (w : Wave) (e : Nat) (x : Split) (c : Ctx) (act : Mask) :
    s.Counted (s.sampleIssue u w e x c act) u := by
  unfold State.sampleIssue
  simp only
  split
  · exact .refl s u
  · split
    · exact .refl s u
    · exact (State.Counted.of_waves (s.updCore_local u _ _ rfl) rfl).trans
        (State.updWave_counted _ _ _ fun w => ⟨rfl, fun _ => rfl, rfl, rfl, rfl, rfl, rfl, rfl, rfl, rfl, rfl, rfl, rfl⟩)

/-- The counts of an issue: registers and memory stay as they are. -/
theorem State.issue_counted (s : State) (u e : Nat) (c : Ctx) (act : Mask) : s.Counted (s.issue u e c act) u := by
  unfold State.issue
  split
  · exact .refl s u
  · next w hw =>
    split
    · exact .refl s u
    · next x hx =>
      have h0 : s.Counted { s with draws := s.draws + 1 } u := ⟨s.draws_local u _, fun w e => ⟨w, e, .refl w⟩⟩
      have h1 : s.Counted (({ s with draws := s.draws + 1 } : State).setWave u (({ w with serial := w.serial + 1 } : Wave).setSplit e
          (some { x with w := 0, issued := s.clk + 1, block := .none, stall := 0, stallFetch := 0, stallWait := 0 }))) u := by
        refine ⟨h0.1.trans (State.setWave_local _ _ _), fun y hy => ?_⟩
        have : y = w := by simpa [hw] using hy.symm
        subst this
        refine ⟨_, State.wave?_setWave_self _ _ _, ?_⟩
        exact Wave.Counts.trans (b := { y with serial := y.serial + 1 })
          ⟨rfl, fun _ => rfl, rfl, rfl, rfl, rfl, rfl, rfl, rfl, rfl, rfl, rfl, rfl⟩ (Wave.setSplit_counts (w := { y with serial := y.serial + 1 }) (x := x) hx _ rfl)
      exact (h1.trans (State.updBank_counted _ _ _ _)).trans (State.sampleIssue_counted _ _ _ _ _ _ _)

theorem State.sampleIssue_serial (s : State) (u : Nat) (w : Wave) (e : Nat) (x : Split) (c : Ctx) (act : Mask) :
    ((s.sampleIssue u w e x c act).wave? u).map Wave.serial = (s.wave? u).map Wave.serial := by
  unfold State.sampleIssue
  simp only
  split
  · rfl
  · split
    · rfl
    · simp only [State.wave?_updWave_self, Option.map_map]
      rfl

theorem State.issue_serial {s : State} {u e : Nat} {w x : Wave} {sp : Split} (hw : s.wave? u = some w) (hs : w.split? e = some sp)
    (c : Ctx) (act : Mask) (hx : (s.issue u e c act).wave? u = some x) : x.serial = w.serial + 1 := by
  have hset : ∀ (y : Wave) (z : Option Split), (y.setSplit e z).serial = y.serial := fun y z => by
    unfold Wave.setSplit; split <;> rfl
  have h : ((s.issue u e c act).wave? u).map Wave.serial = some (w.serial + 1) := by
    simp only [State.issue, hw, hs, State.sampleIssue_serial]
    simp [State.wave?, hset]
  simpa [hx] using h

/-! ## Running a word -/

/-- A wave without an error in a predicate reads its predicates, and the word runs (R457). -/
theorem State.withPreds_good (s : State) (v : Env) (g : Guard) (k : State → Env → State) (h : ∀ p, smGet false v.w.r.badP p = false) :
    s.withPreds v g k = k s v := by
  have hn : (g.p :: v.ctx.preds).find? (fun p => smGet false v.w.r.badP p) = none := by simp [h]
  unfold State.withPreds
  rw [hn]

/-- A word that its role may issue, whose flag (if it selects one) is free, runs its meaning on the state after the issue's counts,
and sees there of its operands what it saw before. -/
theorem onWave_next {row : RoleRow} {fs : Option Bool} {g : Guard} {s : State} {k : State → Env → State} {v : Env} (hi : s.Issues v)
    (hr : v.mayIssue row) (hf : ∀ b, fs = some b → ∃ n, v.flagFree b n) :
    ∃ t z, onWave row fs g s k = .next (k t z) ∧ s.Counted t v.u ∧ Env.Same s v t z ∧ t.wave? v.u = some z.w ∧
      z.w.split? v.e = some z.sp ∧ v.w.Counts z.w ∧ z.serial = v.serial := by
  have hc := s.issue_counted v.u v.e v.ctx (v.w.activeOf v.sp g)
  obtain ⟨w1, h1, c1⟩ := hc.2 _ hi.wave
  have hser := State.issue_serial hi.wave hi.split v.ctx _ h1
  have hsp := c1.splits v.e
  rw [hi.split] at hsp
  obtain ⟨y, hy⟩ : ∃ y, w1.split? v.e = some y := by
    cases h : w1.split? v.e with
    | none => simp [h] at hsp
    | some y => exact ⟨y, rfl⟩
  have hpl : y.place = v.sp.place := by simpa [hy] using hsp
  refine ⟨s.issue v.u v.e v.ctx (v.w.activeOf v.sp g), ⟨v.u, v.e, w1, y, v.ctx, w1.serial, s.draws⟩, ?_, hc,
    ⟨rfl, rfl, rfl, hi.draw.symm, by rw [c1.r], by rw [c1.r], by rw [c1.r], by rw [c1.r], by rw [c1.r], by rw [c1.r], c1.gang, c1.team,
      c1.index, c1.asid, c1.role, c1.at_, c1.wk, c1.exited, hpl, hc.1.gangs, hc.1.mod, hc.1.clk⟩, h1, hy, c1, hser.trans hi.serial.symm⟩
  have hr' : row.allows v.w.role (v.e == 4) = true := hr
  have hp := State.withPreds_good (s.issue v.u v.e v.ctx (v.w.activeOf v.sp g)) ⟨v.u, v.e, w1, y, v.ctx, w1.serial, s.draws⟩ g k
    (by simpa [c1.r] using hi.preds)
  simp only [onWave, hi.cur, hi.who, hi.wave, hi.split, h1, hy, Option.getD_some, hr']
  cases fs with
  | none => simpa using hp
  | some b =>
    obtain ⟨n, hn, hlt⟩ := hf b rfl
    simpa [hn, Nat.not_le.mpr hlt] using hp

theorem State.goOn_congr (s : State) {v z : Env} (hu : z.u = v.u) (he : z.e = v.e) (hc : z.ctx = v.ctx) : s.goOn z = s.goOn v := by
  simp [State.goOn, hu, he, hc]

/-! ## Reads -/

theorem Wave.Counts.reads {w x : Wave} (h : w.Counts x) : w.Reads x :=
  ⟨by rw [h.r], by rw [h.r], by rw [h.r], by rw [h.r], h.splits, h.ovf, h.exited, h.ops, h.wk, h.asid, h.gang, h.team, h.role, h.at_⟩

theorem Wave.Reads.refl (w : Wave) : w.Reads w := (Wave.Counts.refl w).reads

theorem Wave.Reads.trans {a b c : Wave} (h : a.Reads b) (k : b.Reads c) : a.Reads c :=
  ⟨k.v.trans h.v, k.k.trans h.k, k.p.trans h.p, k.f.trans h.f, fun i => (k.splits i).trans (h.splits i), k.ovf.trans h.ovf,
    k.exited.trans h.exited, k.ops.trans h.ops, k.wk.trans h.wk, k.asid.trans h.asid, k.gang.trans h.gang, k.team.trans h.team,
    k.role.trans h.role, k.at_.trans h.at_⟩

theorem Wave.Reads.rest {w x : Wave} (h : w.Reads x) (e : Nat) : w.Rest x e :=
  ⟨h.p, h.f, fun i _ => h.splits i, h.ovf, h.exited, h.ops, h.wk, h.asid, h.gang, h.team, h.role, h.at_⟩

theorem Wave.consume_reads (w : Wave) (n l : Nat) : w.Reads (w.consume n l) := by
  unfold Wave.consume
  split <;> exact ⟨rfl, rfl, rfl, rfl, fun _ => rfl, rfl, rfl, rfl, rfl, rfl, rfl, rfl, rfl, rfl⟩

theorem Wave.Reads.foldl {α : Type} {g : Wave → α → Wave} (h : ∀ (w : Wave) x, w.Reads (g w x)) :
    ∀ (xs : List α) (w : Wave), w.Reads (xs.foldl g w)
  | [], w => .refl w
  | x :: xs, w => (h w x).trans (Wave.Reads.foldl h xs (g w x))

/-- A word whose registers may be read consumes them and changes nothing else of its wave. -/
theorem Env.consume_ok {s : State} {v : Env} {m : Mask} {xs : List (Src × Nat)} (h : s.Readable v m xs) :
    ∃ w, v.consume m xs = .ok w ∧ v.w.Reads w := by
  unfold Env.consume
  by_cases hp : v.ctx.patch = true
  · exact ⟨v.w, by simp [hp], .refl _⟩
  · have hd : ∀ n ∈ vRegs xs, v.w.deadLanes m n = 0 := h.1.resolve_left hp
    have : (vRegs xs).find? (fun n => decide (v.w.deadLanes m n ≠ 0)) = none := by
      rw [List.find?_eq_none]; intro n hn; simp [hd n hn]
    simp only [hp, this]
    exact ⟨_, rfl, Wave.Reads.foldl (fun w n => Wave.Reads.foldl (fun w l => w.consume_reads n l) _ w) _ _⟩

/-- Gathering the reads of a word only counts. -/
theorem State.gather_counted (s : State) (v : Env) (rs : List Nat) : s.Counted (s.gather v rs) v.u := by
  unfold State.gather
  simp only
  have h0 : s.Counted (s.updCore v.w.core fun k => { k with busy := smSet 0 k.busy (v.w.slot % 4) (s.clk + gatherClocks (s.grants v.w.core) rs) })
      v.u := .of_waves (s.updCore_local v.u _ _ rfl) rfl
  have h := h0.trans (State.updWave_counted _ v.u (fun w => w.noteGather v.serial (gatherClocks (s.grants v.w.core) rs)) fun w =>
    ⟨rfl, fun _ => rfl, rfl, rfl, rfl, rfl, rfl, rfl, rfl, rfl, rfl, rfl, rfl⟩)
  split
  · exact h.trans (State.updWave_counted _ _ _ fun w => w.updSplit_counts _ _ fun _ => rfl)
  · exact h

/-- The reads of a word that may read its registers: its meaning runs, with the consumer counts lowered and nothing else changed. -/
theorem State.reads_next {s : State} {v : Env} {m : Mask} {xs : List (Src × Nat)} {k : State → State}
    (h : s.Readable v m xs) :
    ∃ t x, s.reads v m xs k = k t ∧ s.Local t v.u ∧ t.wave? v.u = some x ∧ v.w.Reads x := by
  obtain ⟨w, hc, hr⟩ := Env.consume_ok h
  have hg := State.gather_counted (s.setWave v.u w) v (xs.flatMap fun x => srcBanks x.1 x.2)
  obtain ⟨x, hx, cx⟩ := hg.2 w (by simp)
  exact ⟨_, x, by simp [State.reads, hc, h.2], (s.setWave_local _ _).trans hg.1, hx, hr.trans cx.reads⟩

/-! ## Results -/

/-- Writing a vector result lane by lane. -/
theorem Wave.putV_fold (e n cc : Nat) (f : Nat → W32) : ∀ (ls : List Nat) (w : Wave), (∀ l ∈ ls, l < 32) →
    (∀ i j, j < 32 → (ls.foldl (fun w l => w.put e (.v n) cc l (f l)) w).getV i j = if i = n ∧ j ∈ ls then f j else w.getV i j) ∧
      (∀ i, (ls.foldl (fun w l => w.put e (.v n) cc l (f l)) w).split? i = w.split? i) ∧
      (ls.foldl (fun w l => w.put e (.v n) cc l (f l)) w).r.k = w.r.k
  | [], w, _ => by simp
  | l :: ls, w, h => by
    have ih := Wave.putV_fold e n cc f ls (w.put e (.v n) cc l (f l)) fun x hx => h x (List.mem_cons_of_mem _ hx)
    refine ⟨fun i j hj => ?_, fun i => ?_, ?_⟩
    · rw [List.foldl_cons, ih.1 i j hj]
      simp only [Wave.put, Wave.getV_setV w _ _ (h l (by simp)) hj, List.mem_cons]
      by_cases h1 : i = n <;> by_cases h2 : j = l <;> by_cases h3 : j ∈ ls <;> simp_all
    · rw [List.foldl_cons, ih.2.1 i]; rfl
    · rw [List.foldl_cons, ih.2.2]; rfl

theorem Wave.getK_congr {w x : Wave} {y z : Split} (hk : x.r.k = w.r.k) (hl : y.lr = z.lr) (ht : y.tlr = z.tlr) (i : Nat) :
    x.getK y i = w.getK z i := by
  simp [Wave.getK, hk, hl, ht]

/-- Writing a whole 32-bit result. -/
theorem Wave.putAll_wrote {w : Wave} {e : Nat} {sp : Split} (hs : w.split? e = some sp) (d : Dst) (cc : Nat) {m : Mask} (hm : m ≠ 0)
    (f : Nat → W32) : w.Wrote sp (w.putAll e d cc m f) e d m f := by
  unfold Wave.putAll
  cases d with
  | v n =>
    have h := Wave.putV_fold e n cc f (lanesOf m) w fun l hl => (mem_lanesOf.mp hl).1
    refine ⟨sp, by rw [dstLanes, h.2.1]; exact hs, rfl, rfl, fun i l hl => ?_, fun i => Wave.getK_congr h.2.2 rfl rfl i⟩
    rw [dstLanes, h.1 i l hl]
    simp [hl]
  | k n =>
    simp only [dstLanes, hm, if_false, List.foldl_cons, List.foldl_nil, Wave.put]
    obtain ⟨y, h1, h2, h3, _, h5⟩ := Wave.setK_spec hs n (f (lowLane m))
    refine ⟨y, h1, h2, h3, fun i l => ?_, h5⟩
    unfold Wave.setK
    repeat' split
    all_goals simp [Wave.getV]

/-- A result written after reads and counts is written onto the wave as it stood. -/
theorem Wave.Wrote.of_reads {w x y : Wave} {sp sx : Split} {e : Nat} {d : Dst} {m : Mask} {f : Nat → W32} (h : w.Reads x)
    (hs : w.split? e = some sp) (hx : x.split? e = some sx) (k : x.Wrote sx y e d m f) : w.Wrote sp y e d m f := by
  have hp : sx.place = sp.place := by have := h.splits e; simpa [hs, hx] using this
  simp only [Split.place, Prod.mk.injEq] at hp
  obtain ⟨z, h1, h2, h3, h4⟩ := k
  have hv : ∀ i l, x.getV i l = w.getV i l := fun i l => by simp [Wave.getV, h.v]
  have hk : ∀ i, x.getK sx i = w.getK sp i := fun i => Wave.getK_congr h.k hp.2.2.2.1 hp.2.2.2.2 i
  refine ⟨z, h1, h2.trans hp.2.1, h3.trans hp.1, ?_⟩
  cases d <;> simpa [hv, hk] using h4

/-- What is counted after a result leaves it as it was written. -/
theorem Wave.Wrote.counts {w x y : Wave} {sp : Split} {e : Nat} {d : Dst} {m : Mask} {f : Nat → W32} (k : w.Wrote sp x e d m f)
    (h : x.Counts y) : w.Wrote sp y e d m f := by
  obtain ⟨z, h1, h2, h3, h4⟩ := k
  have hp := h.splits e
  rw [h1] at hp
  obtain ⟨z', hz⟩ : ∃ z', y.split? e = some z' := by
    cases hy : y.split? e with
    | none => simp [hy] at hp
    | some z' => exact ⟨z', rfl⟩
  rw [hz] at hp
  have hpl : z'.place = z.place := by simpa using hp
  simp only [Split.place, Prod.mk.injEq] at hpl
  have hv : ∀ i l, y.getV i l = x.getV i l := fun i l => by simp [Wave.getV, h.r]
  have hk : ∀ i, y.getK z' i = x.getK z i := fun i => Wave.getK_congr (by rw [h.r]) hpl.2.2.2.1 hpl.2.2.2.2 i
  refine ⟨z', hz, hpl.2.1.trans h2, hpl.1.trans h3, ?_⟩
  cases d <;> simpa [hv, hk] using h4

theorem Wave.Reads.split {w x : Wave} {e : Nat} {sp : Split} (h : w.Reads x) (hs : w.split? e = some sp) :
    ∃ y, x.split? e = some y ∧ y.place = sp.place := by
  have := h.splits e
  rw [hs] at this
  cases hx : x.split? e with
  | none => simp [hx] at this
  | some y => exact ⟨y, rfl, by simpa [hx] using this⟩

/-- A word of the usual shape, whose lanes are not all off and whose sources may be read, runs its meaning `k` where it sees of its
operands what it saw before. -/
theorem readWord_next {row : RoleRow} {fs : Option Bool} {g : Guard} {s : State} {v : Env} {xs : List (Src × Nat)}
    {k : State → Env → Mask → State} (hi : s.Issues v) (hrole : v.mayIssue row) (hflag : ∀ b, fs = some b → ∃ n, v.flagFree b n)
    (ha : v.active g ≠ 0) (hr : s.Readable v (v.active g) xs) :
    ∃ t z x, onWave row fs g s (fun s v => if v.active g = 0 then s.goOn v else s.reads v (v.active g) xs fun s => k s v (v.active g)) =
        .next (k t z (v.active g)) ∧
      s.Local t v.u ∧ t.wave? v.u = some x ∧ v.w.Reads x ∧ Env.Same s v t z := by
  obtain ⟨t, z, h1, ct, hz, _, _, cz, _⟩ := onWave_next (k := fun s v => if v.active g = 0 then s.goOn v
    else s.reads v (v.active g) xs fun s => k s v (v.active g)) (g := g) hi hrole hflag
  have hm : z.active g = v.active g := hz.active g
  obtain ⟨t2, x2, h2, l2, hw2, r2⟩ := State.reads_next (k := fun s => k s z (z.active g)) (s := t) (v := z) (m := z.active g)
    (xs := xs) (by rw [hm]; exact hz.readable hr)
  rw [hz.u] at l2 hw2
  refine ⟨t2, z, x2, ?_, ct.1.trans l2, hw2, cz.reads.trans r2,
    { hz with gangs := l2.gangs.trans hz.gangs, mod := l2.mod.trans hz.mod, clk := l2.clk.trans hz.clk }⟩
  rw [h1, if_neg (by rw [hm]; exact ha), h2, hm]

/-- A word with a 32-bit result in each lane, whose lanes are not all off and whose sources may be read: it writes its result and goes
on, and leaves everything else alone. -/
theorem aluOp_next {s : State} {v : Env} {g : Guard} {d : Dst} {cc : Nat} {xs : List (Src × Nat)} {f : State → Env → Nat → W32 × Events}
    {r : Nat → W32} (hi : s.Issues v) (ha : v.active g ≠ 0) (hr : s.Readable v (v.active g) xs)
    (hf : ∀ t z l, Env.Same s v t z → (f t z l).1 = r l) :
    ∃ t x, aluOp s g d cc xs f = .next (t.goOn v) ∧ s.Local t v.u ∧ t.wave? v.u = some x ∧ v.w.Rest x v.e ∧
      v.w.Wrote v.sp x v.e d (v.active g) r := by
  obtain ⟨t, z, x, h1, l1, hw, r1, hz⟩ := readWord_next (row := .any) (fs := none) (k := fun s v m =>
      let rs := (dstLanes d m).map fun l => (l, f s v l)
      let s := s.updWave v.u fun w => rs.foldl (fun w r => w.put v.e d cc r.1 r.2.1) w
      (s.count (v.evSrc m) (rs.flatMap fun r => evAt (evLane d r.1) r.2.2)).goOn v) hi rfl (by simp) ha hr
  obtain ⟨sx, hsx, _⟩ := r1.split hi.split
  let t3 := t.updWave v.u fun w => w.putAll v.e d cc (v.active g) r
  have hput : (t.updWave z.u fun w => ((dstLanes d (v.active g)).map fun l => (l, f t z l)).foldl
      (fun w r => w.put z.e d cc r.1 r.2.1) w) = t3 := by
    simp only [t3, List.foldl_map, hf _ _ _ hz, hz.u, hz.e, Wave.putAll]
  have hw3 : t3.wave? v.u = some (x.putAll v.e d cc (v.active g) r) := by simp [t3, hw]
  have hc := t3.count_counted (z.evSrc (v.active g)) (((dstLanes d (v.active g)).map fun l => (l, f t z l)).flatMap
    fun r => evAt (evLane d r.1) r.2.2)
  rw [show (z.evSrc (v.active g)).u = v.u from hz.u] at hc
  obtain ⟨x4, hx4, c4⟩ := hc.2 _ hw3
  refine ⟨t3.count (z.evSrc (v.active g)) _, x4, ?_, (l1.trans (t.updWave_local _ _)).trans hc.1, hx4, ?_, ?_⟩
  · rw [aluOp, h1]
    simp only [hput]
    rw [State.goOn_congr _ hz.u hz.e hz.ctx]
  · exact (r1.rest v.e).trans ((Wave.Rest.foldl (fun w l => w.put_rest v.e d cc l _) _ _).trans (c4.rest v.e))
  · exact (Wave.Wrote.of_reads r1 hi.split hsx (Wave.putAll_wrote hsx d cc ha r)).counts c4

/-! ## Pairs and predicates -/

/-- Writing one half after the other. -/
theorem Wave.put64_eq (w : Wave) (e : Nat) (d : Dst) (cc l : Nat) (x : W64) :
    w.put64 e d cc l x = match d with
      | .v n => (w.put e (.v n) cc l (lo32 x)).put e (.v (n + 1)) cc l (hi32 x)
      | .k n => (w.put e (.k n) cc l (lo32 x)).put e (.k (n + 1)) cc l (hi32 x) := by
  cases d <;> rfl

theorem Wave.put64_rest (w : Wave) (e : Nat) (d : Dst) (cc l : Nat) (x : W64) : w.Rest (w.put64 e d cc l x) e := by
  rw [Wave.put64_eq]
  cases d <;> exact (w.put_rest _ _ _ _ _).trans (Wave.put_rest _ _ _ _ _ _)

/-- Writing a pair of vector registers lane by lane. -/
theorem Wave.put64V_fold (e n cc : Nat) (f : Nat → W64) : ∀ (ls : List Nat) (w : Wave), (∀ l ∈ ls, l < 32) →
    (∀ i j, j < 32 → (ls.foldl (fun w l => w.put64 e (.v n) cc l (f l)) w).getV i j =
        if j ∈ ls then (if i = n then lo32 (f j) else if i = n + 1 then hi32 (f j) else w.getV i j) else w.getV i j) ∧
      (∀ i, (ls.foldl (fun w l => w.put64 e (.v n) cc l (f l)) w).split? i = w.split? i) ∧
      (ls.foldl (fun w l => w.put64 e (.v n) cc l (f l)) w).r.k = w.r.k
  | [], w, _ => by simp
  | l :: ls, w, h => by
    have ih := Wave.put64V_fold e n cc f ls (w.put64 e (.v n) cc l (f l)) fun x hx => h x (List.mem_cons_of_mem _ hx)
    have hl := h l (by simp)
    refine ⟨fun i j hj => ?_, fun i => ?_, ?_⟩
    · rw [List.foldl_cons, ih.1 i j hj]
      simp only [Wave.put64, Wave.getV_setV _ _ _ hl hj, List.mem_cons]
      by_cases h1 : i = n <;> by_cases h2 : j = l <;> by_cases h3 : j ∈ ls <;> by_cases h4 : i = n + 1 <;> simp_all
    · rw [List.foldl_cons, ih.2.1 i]; rfl
    · rw [List.foldl_cons, ih.2.2]; rfl

/-- Writing a whole 64-bit result. -/
theorem Wave.putAll64_wrote {w : Wave} {e : Nat} {sp : Split} (hs : w.split? e = some sp) (d : Dst) (cc : Nat) {m : Mask} (hm : m ≠ 0)
    (f : Nat → W64) : w.WrotePair sp (w.putAll64 e d cc m f) e d m f := by
  unfold Wave.putAll64
  cases d with
  | v n =>
    have h := Wave.put64V_fold e n cc f (lanesOf m) w fun l hl => (mem_lanesOf.mp hl).1
    refine ⟨sp, by rw [dstLanes, h.2.1]; exact hs, rfl, rfl, fun i l hl => ?_, fun i => Wave.getK_congr h.2.2 rfl rfl i⟩
    rw [dstLanes, h.1 i l hl]
    simp [hl]
  | k n =>
    simp only [dstLanes, hm, if_false, List.foldl_cons, List.foldl_nil, Wave.put64]
    obtain ⟨y, h1, h2, h3, _, h5⟩ := Wave.setK_spec hs n (lo32 (f (lowLane m)))
    obtain ⟨y2, k1, k2, k3, _, k5⟩ := Wave.setK_spec h1 (n + 1) (hi32 (f (lowLane m)))
    refine ⟨y2, k1, k2.trans h2, k3.trans h3, fun i l => ?_, fun i => ?_⟩
    · have : ∀ (w : Wave) n x i l, (w.setK e n x).getV i l = w.getV i l := by
        intro w n x i l
        unfold Wave.setK
        repeat' split
        all_goals simp [Wave.getV]
      rw [this, this]
    · rw [k5, h5]
      by_cases h1 : i = n + 1 <;> by_cases h2 : i = n <;> simp_all

theorem Wave.WrotePair.of_reads {w x y : Wave} {sp sx : Split} {e : Nat} {d : Dst} {m : Mask} {f : Nat → W64} (h : w.Reads x)
    (hs : w.split? e = some sp) (hx : x.split? e = some sx) (k : x.WrotePair sx y e d m f) : w.WrotePair sp y e d m f := by
  have hp : sx.place = sp.place := by have := h.splits e; simpa [hs, hx] using this
  simp only [Split.place, Prod.mk.injEq] at hp
  obtain ⟨z, h1, h2, h3, h4⟩ := k
  have hv : ∀ i l, x.getV i l = w.getV i l := fun i l => by simp [Wave.getV, h.v]
  have hk : ∀ i, x.getK sx i = w.getK sp i := fun i => Wave.getK_congr h.k hp.2.2.2.1 hp.2.2.2.2 i
  refine ⟨z, h1, h2.trans hp.2.1, h3.trans hp.1, ?_⟩
  cases d <;> simpa [hv, hk] using h4

/-- A word with a 64-bit result in each lane. -/
theorem aluOp64_next {s : State} {v : Env} {g : Guard} {d : Dst} {cc : Nat} {xs : List (Src × Nat)} {f : State → Env → Nat → W64}
    {r : Nat → W64} (hi : s.Issues v) (ha : v.active g ≠ 0) (hr : s.Readable v (v.active g) xs)
    (hf : ∀ t z l, Env.Same s v t z → f t z l = r l) :
    ∃ t x, aluOp64 s g d cc xs f = .next (t.goOn v) ∧ s.Local t v.u ∧ t.wave? v.u = some x ∧ v.w.Rest x v.e ∧
      v.w.WrotePair v.sp x v.e d (v.active g) r := by
  obtain ⟨t, z, x, h1, l1, hw, r1, hz⟩ := readWord_next (row := .any) (fs := none) (k := fun s v m =>
      (s.updWave v.u fun w => w.putAll64 v.e d cc m (f s v)).goOn v) hi rfl (by simp) ha hr
  obtain ⟨sx, hsx, _⟩ := r1.split hi.split
  have hf' : f t z = r := funext fun l => hf t z l hz
  refine ⟨t.updWave v.u fun w => w.putAll64 v.e d cc (v.active g) r, x.putAll64 v.e d cc (v.active g) r, ?_,
    l1.trans (t.updWave_local _ _), by simp [hw], ?_, Wave.WrotePair.of_reads r1 hi.split hsx (Wave.putAll64_wrote hsx d cc ha r)⟩
  · rw [aluOp64, h1, hf', hz.u, hz.e, State.goOn_congr _ hz.u hz.e hz.ctx]
  · exact (r1.rest v.e).trans (Wave.Rest.foldl (fun w l => w.put64_rest v.e d cc l _) _ _)

theorem Wave.comb_p (w : Wave) (c : Comb) (pd : Nat) (m r : Mask) :
    (w.comb c pd m r).r.v = w.r.v ∧ (w.comb c pd m r).r.k = w.r.k ∧ (w.comb c pd m r).r.f = w.r.f ∧
      ∀ e, (w.comb c pd m r).split? e = w.split? e := by
  cases c <;> (simp only [Wave.comb, Wave.setP]; split <;> exact ⟨rfl, rfl, rfl, fun _ => rfl⟩)

theorem Wave.comb_moved (w : Wave) (c : Comb) (pd : Nat) (m r : Mask) :
    (w.comb c pd m r).ovf = w.ovf ∧ (w.comb c pd m r).exited = w.exited ∧ (w.comb c pd m r).ops = w.ops ∧ (w.comb c pd m r).wk = w.wk ∧
      (w.comb c pd m r).asid = w.asid ∧ (w.comb c pd m r).gang = w.gang ∧ (w.comb c pd m r).team = w.team ∧
      (w.comb c pd m r).role = w.role ∧ (w.comb c pd m r).place = w.place := by
  cases c <;> (simp only [Wave.comb, Wave.setP]; split <;> exact ⟨rfl, rfl, rfl, rfl, rfl, rfl, rfl, rfl, rfl⟩)

@[simp] theorem hasLane_and (a b : Mask) (l : Nat) : hasLane (a &&& b) l = (hasLane a l && hasLane b l) := by simp [hasLane]
@[simp] theorem hasLane_or (a b : Mask) (l : Nat) : hasLane (a ||| b) l = (hasLane a l || hasLane b l) := by simp [hasLane]
theorem hasLane_not (a : Mask) {l : Nat} (h : l < 32) : hasLane (~~~a) l = !hasLane a l := by simp [hasLane, h]

theorem hasLane_laneBit {i l : Nat} (h : l < 32) : hasLane (laneBit i) l = decide (l = i) := by
  unfold hasLane laneBit
  simp only [BitVec.getLsbD_shiftLeft, h, decide_true, Bool.true_and]
  by_cases e : l = i
  · subst e; simp
  · by_cases e2 : l < i
    · simp [e, e2]
    · have : l - i ≠ 0 := by omega
      simp [e, e2, this, BitVec.getLsbD_one]

/-- The set of a list of lanes. -/
theorem hasLane_maskOf (ls : List Nat) {l : Nat} (h : l < 32) : hasLane (maskOf ls) l = decide (l ∈ ls) := by
  have key : ∀ (ls : List Nat) (m : Mask), hasLane (ls.foldl (fun m l => m ||| laneBit l) m) l = (hasLane m l || decide (l ∈ ls)) := by
    intro ls
    induction ls with
    | nil => simp
    | cons x xs ih =>
      intro m
      rw [List.foldl_cons, ih, hasLane_or, hasLane_laneBit h]
      by_cases e : l = x <;> by_cases e2 : l ∈ xs <;> simp [e, e2]
  rw [maskOf, key]
  simp [hasLane]

/-- What COMB leaves in each lane of the predicate (R144). -/
theorem Wave.getP_comb (w : Wave) (c : Comb) {pd : Nat} (m r : Mask) (i : Nat) {l : Nat} (hl : l < 32) :
    hasLane ((w.comb c pd m r).getP i) l = if i = pd ∧ pd ≠ 7 ∧ hasLane m l then (match c with
      | .set => hasLane r l
      | .and => hasLane (w.getP pd) l && hasLane r l
      | .or => hasLane (w.getP pd) l || hasLane r l) else hasLane (w.getP i) l := by
  by_cases h7 : pd = 7
  · cases c <;> simp [Wave.comb, Wave.setP, h7]
  · by_cases hi : i = pd
    · subst hi
      cases c <;> simp [Wave.comb, Wave.setP, h7, Wave.getP, hasLane_not _ hl] <;> cases hasLane m l <;> simp
    · cases c <;> simp [Wave.comb, Wave.setP, h7, Wave.getP, smGet_set_ne _ _ _ hi, hi]

/-- A word that tests each active lane into a predicate. -/
theorem predOp_next {s : State} {v : Env} {g : Guard} {pd : Nat} {comb : Comb} {xs : List (Src × Nat)} {f : State → Env → Nat → Bool × Events}
    {r : Nat → Bool} (hi : s.Issues v) (ha : v.active g ≠ 0) (hr : s.Readable v (v.active g) xs)
    (hf : ∀ t z l, Env.Same s v t z → (f t z l).1 = r l) :
    ∃ t x, predOp s g pd comb xs f = .next (t.goOn v) ∧ s.Local t v.u ∧ t.wave? v.u = some x ∧
      v.w.Tested x pd comb (v.active g) r := by
  obtain ⟨t, z, x, h1, l1, hw, r1, hz⟩ := readWord_next (row := .any) (fs := none) (k := fun s v m =>
      let rs := (lanesOf m).map fun l => (l, f s v l)
      let bits := maskOf ((rs.filter fun r => r.2.1).map Prod.fst)
      let s := s.updWave v.u fun w => w.comb comb pd m bits
      (s.count (v.evSrc m) (rs.flatMap fun r => evAt r.1 r.2.2)).goOn v) hi rfl (by simp) ha hr
  let bits := maskOf ((lanesOf (v.active g)).filter r)
  have hbits : maskOf ((((lanesOf (v.active g)).map fun l => (l, f t z l)).filter fun r => r.2.1).map Prod.fst) = bits := by
    simp only [bits, List.filter_map, List.map_map]
    congr 1
    have : ((fun r : Nat × Bool × Events => r.2.1) ∘ fun l => (l, f t z l)) = r := funext fun l => hf t z l hz
    rw [this]
    exact List.map_id _
  let t3 := t.updWave v.u fun w => w.comb comb pd (v.active g) bits
  have hw3 : t3.wave? v.u = some (x.comb comb pd (v.active g) bits) := by simp [t3, hw]
  have hc := t3.count_counted (z.evSrc (v.active g)) (((lanesOf (v.active g)).map fun l => (l, f t z l)).flatMap fun r => evAt r.1 r.2.2)
  rw [show (z.evSrc (v.active g)).u = v.u from hz.u] at hc
  obtain ⟨x4, hx4, c4⟩ := hc.2 _ hw3
  have hp := x.comb_p comb pd (v.active g) bits
  have hq := x.comb_moved comb pd (v.active g) bits
  refine ⟨t3.count (z.evSrc (v.active g)) _, x4, ?_, (l1.trans (t.updWave_local _ _)).trans hc.1, hx4, ⟨?_, ?_, ?_, fun i => ?_, ?_, ?_, ?_,
    fun i l hl => ?_⟩⟩
  · rw [predOp, h1]
    simp only [hbits, hz.u]
    rw [State.goOn_congr _ hz.u hz.e hz.ctx]
  · rw [c4.r, hp.1, r1.v]
  · rw [c4.r, hp.2.1, r1.k]
  · rw [c4.r, hp.2.2.1, r1.f]
  · rw [c4.splits, hp.2.2.2, r1.splits]
  · rw [c4.ops, hq.2.2.1, r1.ops]
  · rw [c4.wk, hq.2.2.2.1, r1.wk]
  · rw [c4.exited, hq.2.1, r1.exited]
  · have e1 : x4.getP i = (x.comb comb pd (v.active g) bits).getP i := by simp [Wave.getP, c4.r]
    have e2 : ∀ j, x.getP j = v.w.getP j := fun j => by simp [Wave.getP, r1.p]
    rw [e1, x.getP_comb comb _ _ i hl, e2, e2]
    by_cases hcond : i = pd ∧ pd ≠ 7 ∧ hasLane (v.active g) l = true
    · simp only [if_pos hcond]
      have hb : hasLane bits l = r l := by
        simp only [bits, hasLane_maskOf _ hl, List.mem_filter, mem_lanesOf, hl, hcond.2.2]
        cases r l <;> simp
      exact hb ▸ (by cases comb <;> rfl)
    · simp only [if_neg hcond]

end Sys2Proof.Machine
end

