-- ==== Sys2Proof/Laws/Memory.lean ====
section
/-!
SUPPORT. The memories: a read after a write, the canonical form that every operation on bytes keeps, and the bytes of a line.
-/

namespace Sys2Proof.Machine

/-! ## Bytes -/

theorem Memory.get_put (m : List Host.Cell) (a : Nat) (b : Byte) (i : Nat) :
    Memory.get (Memory.put m a b) i = if i = a then b else Memory.get m i := smGet_set 0 b m a i

theorem Memory.put_wf {m : List Host.Cell} (h : Memory.wf m = true) (a : Nat) (b : Byte) : Memory.wf (Memory.put m a b) = true :=
  smWf_set h a b

theorem Memory.write_wf : ∀ (bs : List Byte) {m : List Host.Cell} (a : Nat), Memory.wf m = true → Memory.wf (Memory.write m a bs) = true
  | [], _, _, h => h
  | b :: bs, _, a, h => Memory.write_wf bs (a + 1) (Memory.put_wf h a b)

/-- What a write leaves: the bytes written at their places, every other byte as before. -/
theorem Memory.get_write : ∀ (bs : List Byte) (m : List Host.Cell) (a i : Nat),
    Memory.get (Memory.write m a bs) i = if a ≤ i ∧ i < a + bs.length then bs.getD (i - a) 0 else Memory.get m i
  | [], m, a, i => by
    have h : ¬ (a ≤ i ∧ i < a + ([] : List Byte).length) := by simp
    simp only [Memory.write, h, if_false]
  | b :: bs, m, a, i => by
    rw [Memory.write, Memory.get_write bs, Memory.get_put]
    by_cases e : i = a
    · subst e
      have h1 : ¬ (i + 1 ≤ i ∧ i < i + 1 + bs.length) := by omega
      have h2 : i ≤ i ∧ i < i + (b :: bs).length := by simp
      rw [if_neg h1, if_pos rfl, if_pos h2, Nat.sub_self]; rfl
    · by_cases h : a + 1 ≤ i ∧ i < a + 1 + bs.length
      · have h2 : a ≤ i ∧ i < a + (b :: bs).length := by simp only [List.length_cons]; omega
        have h3 : i - a = (i - (a + 1)) + 1 := by omega
        rw [if_pos h, if_pos h2, h3, List.getD_cons_succ]
      · have h2 : ¬ (a ≤ i ∧ i < a + (b :: bs).length) := by simp only [List.length_cons]; omega
        rw [if_neg h, if_neg e, if_neg h2]

/-- A read of what has just been written. -/
theorem Memory.read_write (m : List Host.Cell) (a : Nat) (bs : List Byte) : Memory.read (Memory.write m a bs) a bs.length = bs := by
  apply List.ext_getElem
  · simp [Memory.read]
  · intro i h1 h2
    have h : a ≤ a + i ∧ a + i < a + bs.length := by omega
    simp only [Memory.read, List.getElem_map, List.getElem_range, Memory.get_write, if_pos h, Nat.add_sub_cancel_left]
    rw [List.getD_eq_getElem?_getD, List.getElem?_eq_getElem h2]; rfl

/-- A write elsewhere is not seen by a read. -/
theorem Memory.read_write_off (m : List Host.Cell) (a c n : Nat) (bs : List Byte) (h : c + n ≤ a ∨ a + bs.length ≤ c) :
    Memory.read (Memory.write m a bs) c n = Memory.read m c n := by
  apply List.map_congr_left
  intro i hi
  have hi := List.mem_range.mp hi
  rw [Memory.get_write, if_neg (by omega)]

/-! ## LPDDR-6 and host memory -/

/-- The three memories are in their canonical form. -/
def Mem.bytesWf (m : Mem) : Prop := Memory.wf m.phys = true ∧ Memory.wf m.host = true ∧ Memory.wf m.vault = true

theorem Mem.store_wf {m : Mem} (h : m.bytesWf) (b : Bool) : Memory.wf (m.store b) = true := by
  cases b
  · exact h.1
  · exact h.2.1

theorem Mem.setStore_wf {m : Mem} (h : m.bytesWf) (b : Bool) {x : List Host.Cell} (hx : Memory.wf x = true) : (m.setStore b x).bytesWf := by
  cases b
  · exact ⟨hx, h.2⟩
  · exact ⟨h.1, hx, h.2.2⟩

theorem Mem.writeAt_wf {m : Mem} (h : m.bytesWf) (b : Bool) (a : Nat) (bs : List Byte) : (m.writeAt b a bs).bytesWf :=
  Mem.setStore_wf h b (Memory.write_wf bs a (Mem.store_wf h b))

/-- What a write to one of the two leaves in it. -/
theorem Mem.get_writeAt (m : Mem) (b : Bool) (a : Nat) (bs : List Byte) (i : Nat) :
    Memory.get ((m.writeAt b a bs).store b) i = if a ≤ i ∧ i < a + bs.length then bs.getD (i - a) 0 else Memory.get (m.store b) i := by
  cases b <;> exact Memory.get_write bs _ a i

/-- The other of the two is as before. -/
theorem Mem.store_writeAt_other (m : Mem) (b : Bool) (a : Nat) (bs : List Byte) : (m.writeAt b a bs).store (!b) = m.store (!b) := by
  cases b <;> rfl

@[simp] theorem Mem.vault_writeAt (m : Mem) (b : Bool) (a : Nat) (bs : List Byte) : (m.writeAt b a bs).vault = m.vault := by
  cases b <;> rfl
@[simp] theorem Mem.tags_writeAt (m : Mem) (b : Bool) (a : Nat) (bs : List Byte) : (m.writeAt b a bs).tags = m.tags := by
  cases b <;> rfl
@[simp] theorem Mem.entries_writeAt (m : Mem) (b : Bool) (a : Nat) (bs : List Byte) : (m.writeAt b a bs).entries = m.entries := by
  cases b <;> rfl
@[simp] theorem Mem.tlb_writeAt (m : Mem) (b : Bool) (a : Nat) (bs : List Byte) : (m.writeAt b a bs).tlb = m.tlb := by
  cases b <;> rfl

/-- The image of a context in its frames keeps the form. -/
theorem Mem.writePieces_wf (frame : Nat → Option Nat) (ps : Pieces) {m : Mem} (h : m.bytesWf) : (m.writePieces frame ps).bytesWf := by
  have one : ∀ (bs : List (Byte × Nat)) (p : Nat × List Byte) (m : Mem), m.bytesWf →
      (bs.foldl (fun (m : Mem) b =>
        let o := p.1 + b.2
        match frame (o / 65536) with
        | some f => { m with phys := Memory.put m.phys (f + o % 65536) b.1 }
        | none => m) m).bytesWf := by
    intro bs p
    induction bs with
    | nil => exact fun m h => h
    | cons b bs ih =>
      refine fun m h => ih _ ?_
      dsimp only
      split
      · exact ⟨Memory.put_wf h.1 _ _, h.2⟩
      · exact h
  induction ps generalizing m with
  | nil => exact h
  | cons p ps ih => exact ih (one p.2.zipIdx p m h)

/-- Memory right after reset lists nothing. -/
theorem State.reset_bytesWf : State.reset.mem.bytesWf := ⟨rfl, rfl, rfl⟩

/-! ## Lines -/

theorem natOfBytes_lt : ∀ bs : List Byte, natOfBytes bs < 256 ^ bs.length
  | [] => by decide
  | b :: bs => by
    have h := natOfBytes_lt bs
    have hb := b.isLt
    simp only [natOfBytes, List.foldr_cons, List.length_cons, Nat.pow_succ] at h ⊢
    omega

/-- Byte i of the number that bytes stand for. -/
theorem natOfBytes_div : ∀ (bs : List Byte) (i : Nat), natOfBytes bs / 256 ^ i % 256 = (bs.getD i 0).toNat
  | [], i => by simp [natOfBytes]
  | b :: bs, 0 => by
    have hb := b.isLt
    simp only [natOfBytes, List.foldr_cons, Nat.pow_zero, Nat.div_one, List.getD_cons_zero]
    omega
  | b :: bs, i + 1 => by
    have hb := b.isLt
    have h := natOfBytes_div bs i
    have e : natOfBytes (b :: bs) / 256 ^ (i + 1) = natOfBytes bs / 256 ^ i := by
      rw [Nat.pow_succ, Nat.mul_comm, ← Nat.div_div_eq_div_mul]
      congr 1
      simp only [natOfBytes, List.foldr_cons]
      omega
    rw [e, h, List.getD_cons_succ]

/-- Byte i of a line made of bytes. -/
theorem lineByte_lineOf (bs : List Byte) {i : Nat} (h : i < 128) : lineByte (lineOf bs) i = bs.getD i 0 := by
  apply BitVec.eq_of_toNat_eq
  rw [← natOfBytes_div bs i]
  simp only [lineByte, lineOf, BitVec.extractLsb'_toNat, BitVec.toNat_ofNat, Nat.shiftRight_eq_div_pow]
  have e : (256 : Nat) ^ i = 2 ^ (8 * i) := by rw [Nat.pow_mul]
  rw [e, show (256 : Nat) = 2 ^ 8 from rfl, ← Nat.shiftRight_eq_div_pow, ← Nat.shiftRight_eq_div_pow]
  apply Nat.eq_of_testBit_eq
  intro j
  simp only [Nat.testBit_mod_two_pow, Nat.testBit_shiftRight]
  by_cases hj : j < 8
  · have : 8 * i + j < 1024 := by omega
    simp [this]
  · simp [hj]

/-- A line after some of its bytes were replaced. -/
theorem lineByte_merge (old new : LineData) (m : ByteMask) {i : Nat} (h : i < 128) :
    lineByte (mergeLine old new m) i = if m.getLsbD i then lineByte new i else lineByte old i := by
  rw [mergeLine, lineByte_lineOf _ h, List.getD_eq_getElem?_getD, List.getElem?_eq_getElem (by simpa using h)]
  simp

/-- A line after bytes were put at an offset. -/
theorem lineByte_set (d : LineData) (off : Nat) (bs : List Byte) {i : Nat} (h : i < 128) :
    lineByte (lineSet d off bs) i = if off ≤ i ∧ i < off + bs.length then bs.getD (i - off) 0 else lineByte d i := by
  rw [lineSet, lineByte_lineOf _ h, List.getD_eq_getElem?_getD, List.getElem?_eq_getElem (by simpa using h)]
  simp

end Sys2Proof.Machine
end

