-- ==== Sys2Proof/Laws/Move.lean ====
section
/-!
SUPPORT. A split that moves: going on, arriving at a header, merging and trapping there change no register, no memory and no other wave.
-/

namespace Sys2Proof.Machine

/-- From `w` to `x` splits may have moved, merged or stopped, and a cause may have become pending; nothing else of the wave changed. -/
structure Wave.Moved (w x : Wave) : Prop where
  r : x.r = w.r
  exited : x.exited = w.exited
  ovf : x.ovf = w.ovf
  ops : x.ops = w.ops
  wk : x.wk = w.wk
  asid : x.asid = w.asid
  gang : x.gang = w.gang
  team : x.team = w.team
  role : x.role = w.role
  at_ : x.place = w.place

theorem Wave.Moved.refl (w : Wave) : w.Moved w := ⟨rfl, rfl, rfl, rfl, rfl, rfl, rfl, rfl, rfl, rfl⟩

theorem Wave.Moved.trans {a b c : Wave} (h : a.Moved b) (k : b.Moved c) : a.Moved c :=
  ⟨k.r.trans h.r, k.exited.trans h.exited, k.ovf.trans h.ovf, k.ops.trans h.ops, k.wk.trans h.wk, k.asid.trans h.asid,
    k.gang.trans h.gang, k.team.trans h.team, k.role.trans h.role, k.at_.trans h.at_⟩

theorem Wave.Counts.moved {w x : Wave} (h : w.Counts x) : w.Moved x :=
  ⟨h.r, h.exited, h.ovf, h.ops, h.wk, h.asid, h.gang, h.team, h.role, h.at_⟩

theorem Wave.setSplit_moved (w : Wave) (e : Nat) (x : Option Split) : w.Moved (w.setSplit e x) := by
  unfold Wave.setSplit; split <;> exact ⟨rfl, rfl, rfl, rfl, rfl, rfl, rfl, rfl, rfl, rfl⟩

theorem Wave.updSplit_moved (w : Wave) (e : Nat) (f : Split → Split) : w.Moved (w.updSplit e f) := by
  unfold Wave.updSplit
  split
  · exact w.setSplit_moved _ _
  · exact .refl w

theorem Wave.mergeSplits_moved (w : Wave) (e q : Nat) (x y : Split) : w.Moved (w.mergeSplits e q x y) :=
  (w.setSplit_moved _ _).trans (Wave.setSplit_moved _ _ _)

/-- From `s` to `t` only splits of the wave `u` have moved. -/
def State.Moved (s t : State) (u : Nat) : Prop :=
  s.Local t u ∧ ∀ w, s.wave? u = some w → ∃ x, t.wave? u = some x ∧ w.Moved x

theorem State.Moved.refl (s : State) (u : Nat) : s.Moved s u := ⟨.refl s u, fun w h => ⟨w, h, .refl w⟩⟩

theorem State.Moved.trans {a b c : State} {u : Nat} (h : a.Moved b u) (k : b.Moved c u) : a.Moved c u := by
  refine ⟨h.1.trans k.1, fun w hw => ?_⟩
  obtain ⟨x, hx, cx⟩ := h.2 w hw
  obtain ⟨y, hy, cy⟩ := k.2 x hx
  exact ⟨y, hy, cx.trans cy⟩

theorem State.Counted.moved {s t : State} {u : Nat} (h : s.Counted t u) : s.Moved t u :=
  ⟨h.1, fun w hw => let ⟨x, hx, c⟩ := h.2 w hw; ⟨x, hx, c.moved⟩⟩

theorem State.updWave_moved (s : State) (u : Nat) (f : Wave → Wave) (h : ∀ w : Wave, w.Moved (f w)) : s.Moved (s.updWave u f) u :=
  ⟨s.updWave_local u f, fun w hw => ⟨f w, by simp [hw], h w⟩⟩

theorem State.setWave_moved {s : State} {u : Nat} {w : Wave} (hw : s.wave? u = some w) {x : Wave} (h : w.Moved x) :
    s.Moved (s.setWave u x) u :=
  ⟨s.setWave_local u x, fun y hy => ⟨x, by simp, by have : y = w := by simpa [hw] using hy.symm
                                                    subst this; exact h⟩⟩

theorem State.updSplit_moved (s : State) (u e : Nat) (f : Split → Split) : s.Moved (s.updSplit u e f) u :=
  s.updWave_moved u _ fun w => w.updSplit_moved e f

theorem State.trapHere_moved (s : State) (u e : Nat) (c : Cause) (code : Nat) (info : List Byte) : s.Moved (s.trapHere u e c code info) u := by
  unfold State.trapHere
  split
  · exact .refl s u
  · split
    · exact .refl s u
    · exact (s.pend_counted _ _ _ _ _).moved

theorem State.illegalHere_moved (s : State) (u e : Nat) (d : Detail) (x : Line) (pc : W64) : s.Moved (s.illegalHere u e d x pc) u :=
  s.trapHere_moved _ _ _ _ _

theorem State.arriveAt_moved (s : State) (u e : Nat) (c : Clause) : s.Moved (s.arriveAt u e c) u := by
  unfold State.arriveAt
  split
  · exact .refl s u
  · next w hw =>
    split
    · exact .refl s u
    · next x hx =>
      simp only
      split
      · apply State.setWave_moved hw
        split
        · exact (w.mergeSplits_moved _ _ _ _).trans (Wave.updSplit_moved _ _ _)
        · exact w.mergeSplits_moved _ _ _ _
      · exact State.setWave_moved hw (w.setSplit_moved _ _)

theorem State.arrive_moved (s : State) (u e : Nat) : s.Moved (s.arrive u e) u := by
  unfold State.arrive
  split
  · exact .refl s u
  · next w hw =>
    split
    · exact .refl s u
    · split
      · exact .refl s u
      · simp only
        split
        · exact .refl s u
        · split
          · split
            · exact s.illegalHere_moved _ _ _ _ _
            · split
              · exact State.setWave_moved hw (w.setSplit_moved _ _)
              · exact s.arriveAt_moved _ _ _
          · split
            · exact .refl s u
            · exact s.illegalHere_moved _ _ _ _ _

/-- A split moves to a PC: no register, no memory and no other wave changes. -/
theorem State.moveTo_moved (s : State) (u e : Nat) (pc : W64) (d : Due) : s.Moved (s.moveTo u e pc d) u :=
  (s.updSplit_moved u e _).trans (State.arrive_moved _ u e)

/-- The issuing split goes on: no register, no memory and no other wave changes. -/
theorem State.goOn_moved (s : State) (v : Env) : s.Moved (s.goOn v) v.u := by
  unfold State.goOn
  split
  · exact s.moveTo_moved _ _ _ _
  · exact s.updSplit_moved _ _ _

/-- Inside a clause the issuing split stands at its next word with the same lanes and links. -/
theorem State.goOn_inside {s : State} {v : Env} {w : Wave} {sp : Split} (hw : s.wave? v.u = some w) (hs : w.split? v.e = some sp)
    (h : v.ctx.hdr = false) :
    ∃ x y, (s.goOn v).wave? v.u = some x ∧ x.split? v.e = some y ∧ y.pc = v.ctx.next ∧ y.mask = sp.mask ∧ y.ver = sp.ver ∧
      y.lr = sp.lr ∧ y.tlr = sp.tlr ∧ y.buf = sp.buf := by
  simp only [State.goOn, h, State.updSplit, Bool.false_eq_true, if_false, State.wave?_updWave_self, hw, Option.map_some]
  exact ⟨_, _, rfl, Wave.split?_updSplit_self hs _, rfl, rfl, rfl, rfl, rfl, rfl⟩

end Sys2Proof.Machine
end

