-- ==== Sys2Proof/Laws/PerInstr.lean ====
section
/-!
SUPPORT. One lemma per constructor of `Instr` for the family `Words`: a well-formed instruction word has a first word, and a step that
has no word of its own is no well-formed word.
-/

namespace Sys2Proof.Laws.Words

open Sys2Proof

/-- What the family says of an instruction. -/
def Statement (i : Instr) : Prop := i.wf = true → encode i ≠ []

theorem nop : ∀ g, Statement (.nop g) := by
  intro g _ h; cases h
theorem yield : ∀ g, Statement (.yield g) := by
  intro g _ h; cases h
theorem sleep : ∀ g b, Statement (.sleep g b) := by
  intro g b _ h; cases h
theorem sleepEnd : ∀ w e, Statement (.sleepEnd w e) := fun _ _ h => nomatch h
theorem bra : ∀ g t, Statement (.bra g t) := by
  intro g t _ h; cases h
theorem braInd : ∀ g a, Statement (.braInd g a) := by
  intro g a _ h; cases h
theorem call : ∀ g t, Statement (.call g t) := by
  intro g t _ h; cases h
theorem callInd : ∀ g a, Statement (.callInd g a) := by
  intro g a _ h; cases h
theorem ret : ∀ g, Statement (.ret g) := by
  intro g _ h; cases h
theorem brx : ∀ g t x n, Statement (.brx g t x n) := by
  intro g t x n _ h; cases h
theorem exit : ∀ g, Statement (.exit g) := by
  intro g _ h; cases h
theorem overflowPop : ∀ w e, Statement (.overflowPop w e) := fun _ _ h => nomatch h
theorem mergeHoldExpiry : ∀ w e, Statement (.mergeHoldExpiry w e) := fun _ _ h => nomatch h
theorem waveEnd : ∀ w, Statement (.waveEnd w) := fun _ h => nomatch h
theorem trj : ∀ long tgt, Statement (.trj long tgt) := by
  intro long tgt _ h; cases long <;> cases h
theorem trc : ∀ long tgt, Statement (.trc long tgt) := by
  intro long tgt _ h; cases long <;> cases h
theorem fetchLine : ∀ w e, Statement (.fetchLine w e) := fun _ _ h => nomatch h
theorem issueSelect : ∀ core part, Statement (.issueSelect core part) := fun _ _ h => nomatch h
theorem pairWord : ∀ x y, Statement (.pairWord x y) := by
  intro x y _ h; cases h
theorem mov : ∀ g d a cc, Statement (.mov g d a cc) := by
  intro g d a cc _ h; cases h
theorem movi : ∀ g d b cc, Statement (.movi g d b cc) := by
  intro g d b cc _ h; cases h
theorem movx : ∀ g d b cc, Statement (.movx g d b cc) := by
  intro g d b cc _ h; cases h
theorem movk : ∀ g d a, Statement (.movk g d a) := by
  intro g d a _ h; cases h
theorem vtok : ∀ g d a b, Statement (.vtok g d a b) := by
  intro g d a b _ h; cases h
theorem ktov : ∀ g d a b cc, Statement (.ktov g d a b cc) := by
  intro g d a b cc _ h; cases h
theorem sel : ∀ g w64 pn ps d a b cc, Statement (.sel g w64 pn ps d a b cc) := by
  intro g w64 pn ps d a b cc _ h; cases h
theorem psetNe : ∀ g pd a, Statement (.psetNe g pd a) := by
  intro g pd a _ h; cases h
theorem psetMask : ∀ g pd a, Statement (.psetMask g pd a) := by
  intro g pd a _ h; cases h
theorem pand : ∀ g pd pa pb, Statement (.pand g pd pa pb) := by
  intro g pd pa pb _ h; cases h
theorem por : ∀ g pd pa pb, Statement (.por g pd pa pb) := by
  intro g pd pa pb _ h; cases h
theorem pxor : ∀ g pd pa pb, Statement (.pxor g pd pa pb) := by
  intro g pd pa pb _ h; cases h
theorem pnot : ∀ g pd pa, Statement (.pnot g pd pa) := by
  intro g pd pa _ h; cases h
theorem pmov : ∀ g pd pa, Statement (.pmov g pd pa) := by
  intro g pd pa _ h; cases h
theorem rel : ∀ g d n, Statement (.rel g d n) := by
  intro g d n _ h; cases h
theorem tcfg : ∀ g n b, Statement (.tcfg g n b) := by
  intro g n b _ h; cases h
theorem omcfg : ∀ g n b, Statement (.omcfg g n b) := by
  intro g n b _ h; cases h
theorem iadd : ∀ g d a b cc, Statement (.iadd g d a b cc) := by
  intro g d a b cc _ h; cases h
theorem isub : ∀ g d a b cc, Statement (.isub g d a b cc) := by
  intro g d a b cc _ h; cases h
theorem iaddc : ∀ g sub pc d a b cc, Statement (.iaddc g sub pc d a b cc) := by
  intro g sub pc d a b cc _ h; cases h
theorem imul : ∀ g d a b cc, Statement (.imul g d a b cc) := by
  intro g d a b cc _ h; cases h
theorem imulh : ∀ g d a b cc, Statement (.imulh g d a b cc) := by
  intro g d a b cc _ h; cases h
theorem imulhU : ∀ g d a b cc, Statement (.imulhU g d a b cc) := by
  intro g d a b cc _ h; cases h
theorem imad : ∀ g d a b c cc, Statement (.imad g d a b c cc) := by
  intro g d a b c cc _ h; cases h
theorem imadWide : ∀ g d a b c cc, Statement (.imadWide g d a b c cc) := by
  intro g d a b c cc _ h; cases h
theorem imadWideU : ∀ g d a b c cc, Statement (.imadWideU g d a b c cc) := by
  intro g d a b c cc _ h; cases h
theorem ishl : ∀ g d a b cc, Statement (.ishl g d a b cc) := by
  intro g d a b cc _ h; cases h
theorem ishr : ∀ g d a b cc, Statement (.ishr g d a b cc) := by
  intro g d a b cc _ h; cases h
theorem isar : ∀ g d a b cc, Statement (.isar g d a b cc) := by
  intro g d a b cc _ h; cases h
theorem ishl64 : ∀ g d a b cc, Statement (.ishl64 g d a b cc) := by
  intro g d a b cc _ h; cases h
theorem ishr64 : ∀ g d a b cc, Statement (.ishr64 g d a b cc) := by
  intro g d a b cc _ h; cases h
theorem isar64 : ∀ g d a b cc, Statement (.isar64 g d a b cc) := by
  intro g d a b cc _ h; cases h
theorem iand : ∀ g d a b cc, Statement (.iand g d a b cc) := by
  intro g d a b cc _ h; cases h
theorem ior : ∀ g d a b cc, Statement (.ior g d a b cc) := by
  intro g d a b cc _ h; cases h
theorem ixor : ∀ g d a b cc, Statement (.ixor g d a b cc) := by
  intro g d a b cc _ h; cases h
theorem inot : ∀ g d a cc, Statement (.inot g d a cc) := by
  intro g d a cc _ h; cases h
theorem ibfe : ∀ g d a f cc, Statement (.ibfe g d a f cc) := by
  intro g d a f cc _ h; cases f <;> cases h
theorem ibfeU : ∀ g d a f cc, Statement (.ibfeU g d a f cc) := by
  intro g d a f cc _ h; cases f <;> cases h
theorem ibfi : ∀ g d a f cc, Statement (.ibfi g d a f cc) := by
  intro g d a f cc _ h; cases f <;> cases h
theorem ipopc : ∀ g d a cc, Statement (.ipopc g d a cc) := by
  intro g d a cc _ h; cases h
theorem iclz : ∀ g d a cc, Statement (.iclz g d a cc) := by
  intro g d a cc _ h; cases h
theorem ibrev : ∀ g d a cc, Statement (.ibrev g d a cc) := by
  intro g d a cc _ h; cases h
theorem imin : ∀ g d a b cc, Statement (.imin g d a b cc) := by
  intro g d a b cc _ h; cases h
theorem imax : ∀ g d a b cc, Statement (.imax g d a b cc) := by
  intro g d a b cc _ h; cases h
theorem iminU : ∀ g d a b cc, Statement (.iminU g d a b cc) := by
  intro g d a b cc _ h; cases h
theorem imaxU : ∀ g d a b cc, Statement (.imaxU g d a b cc) := by
  intro g d a b cc _ h; cases h
theorem iabs : ∀ g d a cc, Statement (.iabs g d a cc) := by
  intro g d a cc _ h; cases h
theorem icmp : ∀ g w64 u cond pd comb a b, Statement (.icmp g w64 u cond pd comb a b) := by
  intro g w64 u cond pd comb a b _ h; cases h
theorem iadd64 : ∀ g d a b cc, Statement (.iadd64 g d a b cc) := by
  intro g d a b cc _ h; cases h
theorem lea : ∀ g u shift d a b cc, Statement (.lea g u shift d a b cc) := by
  intro g u shift d a b cc _ h; cases h
theorem leaAr : ∀ g d a b cc, Statement (.leaAr g d a b cc) := by
  intro g d a b cc _ h; cases h
theorem leaArAdd : ∀ g d a b cc, Statement (.leaArAdd g d a b cc) := by
  intro g d a b cc _ h; cases h
theorem i2i : ∀ g op d a cc, Statement (.i2i g op d a cc) := by
  intro g op d a cc _ h; cases h
theorem fadd : ∀ g m d a b cc, Statement (.fadd g m d a b cc) := by
  intro g m d a b cc _ h; cases h
theorem fsub : ∀ g m d a b cc, Statement (.fsub g m d a b cc) := by
  intro g m d a b cc _ h; cases h
theorem fmul : ∀ g m d a b cc, Statement (.fmul g m d a b cc) := by
  intro g m d a b cc _ h; cases h
theorem ffma : ∀ g m d a b c cc, Statement (.ffma g m d a b c cc) := by
  intro g m d a b c cc _ h; cases h
theorem fmin : ∀ g d a b cc, Statement (.fmin g d a b cc) := by
  intro g d a b cc _ h; cases h
theorem fmax : ∀ g d a b cc, Statement (.fmax g d a b cc) := by
  intro g d a b cc _ h; cases h
theorem fcmp : ∀ g cond pd comb a b, Statement (.fcmp g cond pd comb a b) := by
  intro g cond pd comb a b _ h; cases h
theorem fclass : ∀ g d a cc, Statement (.fclass g d a cc) := by
  intro g d a cc _ h; cases h
theorem frndi : ∀ g m d a cc, Statement (.frndi g m d a cc) := by
  intro g m d a cc _ h; cases h
theorem fexp : ∀ g d a cc, Statement (.fexp g d a cc) := by
  intro g d a cc _ h; cases h
theorem fldx : ∀ g d a b cc, Statement (.fldx g d a b cc) := by
  intro g d a b cc _ h; cases h
theorem fgetx : ∀ g d a cc, Statement (.fgetx g d a cc) := by
  intro g d a cc _ h; cases h
theorem frcp : ∀ g m d a cc, Statement (.frcp g m d a cc) := by
  intro g m d a cc _ h; cases h
theorem frsq : ∀ g m d a cc, Statement (.frsq g m d a cc) := by
  intro g m d a cc _ h; cases h
theorem fsqrt : ∀ g m d a cc, Statement (.fsqrt g m d a cc) := by
  intro g m d a cc _ h; cases h
theorem flg2 : ∀ g d a cc, Statement (.flg2 g d a cc) := by
  intro g d a cc _ h; cases h
theorem fex2 : ∀ g d a cc, Statement (.fex2 g d a cc) := by
  intro g d a cc _ h; cases h
theorem fdot2 : ∀ g m d a b c cc, Statement (.fdot2 g m d a b c cc) := by
  intro g m d a b c cc _ h; cases h
theorem faddBf16x2 : ∀ g m d a b cc, Statement (.faddBf16x2 g m d a b cc) := by
  intro g m d a b cc _ h; cases h
theorem fmulBf16x2 : ∀ g m d a b cc, Statement (.fmulBf16x2 g m d a b cc) := by
  intro g m d a b cc _ h; cases h
theorem ffmaBf16x2 : ∀ g m d a b c cc, Statement (.ffmaBf16x2 g m d a b c cc) := by
  intro g m d a b c cc _ h; cases h
theorem cvt : ∀ g op m d a b cc, Statement (.cvt g op m d a b cc) := by
  intro g op m d a b cc _ h; cases b <;> cases h
theorem numstatWindowStart : ∀ team, Statement (.numstatWindowStart team) := fun _ h => nomatch h
theorem shflIdx : ∀ g seg pd d a b cc, Statement (.shflIdx g seg pd d a b cc) := by
  intro g seg pd d a b cc _ h; cases h
theorem shflUp : ∀ g seg pd d a b cc, Statement (.shflUp g seg pd d a b cc) := by
  intro g seg pd d a b cc _ h; cases h
theorem shflDn : ∀ g seg pd d a b cc, Statement (.shflDn g seg pd d a b cc) := by
  intro g seg pd d a b cc _ h; cases h
theorem shflXor : ∀ g seg pd d a b cc, Statement (.shflXor g seg pd d a b cc) := by
  intro g seg pd d a b cc _ h; cases h
theorem vote : ∀ g op pn ps d cc, Statement (.vote g op pn ps d cc) := by
  intro g op pn ps d cc _ h; cases h
theorem red : ∀ g op d a cc, Statement (.red g op d a cc) := by
  intro g op d a cc _ h; cases h
theorem scan : ∀ g exc op d a cc, Statement (.scan g exc op d a cc) := by
  intro g exc op d a cc _ h; cases h
theorem prmt : ∀ g d a b c cc, Statement (.prmt g d a b c cc) := by
  intro g d a b c cc _ h; cases h
theorem matchAny : ∀ g w64 d a cc, Statement (.matchAny g w64 d a cc) := by
  intro g w64 d a cc _ h; cases h
theorem matchAll : ∀ g w64 d a cc, Statement (.matchAll g w64 d a cc) := by
  intro g w64 d a cc _ h; cases h
theorem ld : ∀ g w fs d a b cc, Statement (.ld g w fs d a b cc) := by
  intro g w fs d a b cc _ h; cases h
theorem ldk : ∀ g w fs d a b, Statement (.ldk g w fs d a b) := by
  intro g w fs d a b _ h; cases h
theorem st : ∀ g w fs a b c, Statement (.st g w fs a b c) := by
  intro g w fs a b c _ h; cases h
theorem stk : ∀ g w fs a b c, Statement (.stk g w fs a b c) := by
  intro g w fs a b c _ h; cases h
theorem ldCv : ∀ g x2 fs d a b cc, Statement (.ldCv g x2 fs d a b cc) := by
  intro g x2 fs d a b cc _ h; cases h
theorem stCv : ∀ g m fs a b c, Statement (.stCv g m fs a b c) := by
  intro g m fs a b c _ h; cases h
theorem ldFe : ∀ g w take d a b cc, Statement (.ldFe g w take d a b cc) := by
  intro g w take d a b cc _ h; cases h
theorem ldFeGrant : ∀ w e lane, Statement (.ldFeGrant w e lane) := fun _ _ _ h => nomatch h
theorem fetimeExpiry : ∀ w e, Statement (.fetimeExpiry w e) := fun _ _ h => nomatch h
theorem stFeFill : ∀ g w fs a b c, Statement (.stFeFill g w fs a b c) := by
  intro g w fs a b c _ h; cases h
theorem feSet : ∀ g full fs a b, Statement (.feSet g full fs a b) := by
  intro g full fs a b _ h; cases h
theorem fePeek : ∀ g fs d a b cc, Statement (.fePeek g fs d a b cc) := by
  intro g fs d a b cc _ h; cases h
theorem pref : ∀ g hm a b, Statement (.pref g hm a b) := by
  intro g hm a b _ h; cases h
theorem memAccessComplete : ∀ w op lanes, Statement (.memAccessComplete w op lanes) := fun _ _ _ h => nomatch h
theorem storePermProbe : ∀ w op lanes, Statement (.storePermProbe w op lanes) := fun _ _ _ h => nomatch h
theorem l1Writeback : ∀ core asid addr, Statement (.l1Writeback core asid addr) := fun _ _ _ h => nomatch h
theorem hmWriteArrive : ∀ id, Statement (.hmWriteArrive id) := fun _ h => nomatch h
theorem heldWritebackPerform : ∀ id, Statement (.heldWritebackPerform id) := fun _ h => nomatch h
theorem pin : ∀ g fs d a cc, Statement (.pin g fs d a cc) := by
  intro g fs d a cc _ h; cases h
theorem unpin : ∀ g fs d a cc, Statement (.unpin g fs d a cc) := by
  intro g fs d a cc _ h; cases h
theorem flushL1 : ∀ g fs a, Statement (.flushL1 g fs a) := by
  intro g fs a _ h; cases h
theorem flushHm : ∀ g fs a, Statement (.flushHm g fs a) := by
  intro g fs a _ h; cases h
theorem invalL1 : ∀ g fs a, Statement (.invalL1 g fs a) := by
  intro g fs a _ h; cases h
theorem invalHm : ∀ g fs a, Statement (.invalHm g fs a) := by
  intro g fs a _ h; cases h
theorem hmzero : ∀ g fs a b, Statement (.hmzero g fs a b) := by
  intro g fs a b _ h; cases h
theorem hmstat : ∀ g sel fs d, Statement (.hmstat g sel fs d) := by
  intro g sel fs d _ h; cases h
theorem atom : ∀ g o sc op w64 fs d a b cc, Statement (.atom g o sc op w64 fs d a b cc) := by
  intro g o sc op w64 fs d a b cc _ h; cases h
theorem atomCas : ∀ g o sc w64 fs d a b c cc, Statement (.atomCas g o sc w64 fs d a b c cc) := by
  intro g o sc w64 fs d a b c cc _ h; cases h
theorem ldAcq : ∀ g sc w fs d a b cc, Statement (.ldAcq g sc w fs d a b cc) := by
  intro g sc w fs d a b cc _ h; cases h
theorem stRel : ∀ g sc w fs a b c, Statement (.stRel g sc w fs a b c) := by
  intro g sc w fs a b c _ h; cases h
theorem fence : ∀ g sc, Statement (.fence g sc) := by
  intro g sc _ h; cases h
theorem bar : ∀ lv, Statement (.bar lv) := by
  intro lv _ h; cases h
theorem barInstanceComplete : ∀ lv key, Statement (.barInstanceComplete lv key) := fun _ _ h => nomatch h
theorem barc : ∀ pd a, Statement (.barc pd a) := by
  intro pd a _ h; cases h
theorem barcResize : ∀ team, Statement (.barcResize team) := fun _ h => nomatch h
theorem mbsend : ∀ g fs d a kb, Statement (.mbsend g fs d a kb) := by
  intro g fs d a kb _ h; cases h
theorem mbrecv : ∀ g pd try_ fs kb, Statement (.mbrecv g pd try_ fs kb) := by
  intro g pd try_ fs kb _ h; cases h
theorem tkres : ∀ g fs d a b, Statement (.tkres g fs d a b) := by
  intro g fs d a b _ h; cases h
theorem tkcom : ∀ g fs d a b, Statement (.tkcom g fs d a b) := by
  intro g fs d a b _ h; cases h
theorem queueConsume : ∀ q, Statement (.queueConsume q) := fun _ h => nomatch h
theorem cpy : ∀ g o tag cv m fs a b c, Statement (.cpy g o tag cv m fs a b c) := by
  intro g o tag cv m fs a b c _ h; cases h
theorem cpyG : ∀ g o tag size i64 fs a b kq, Statement (.cpyG g o tag size i64 fs a b kq) := by
  intro g o tag size i64 fs a b kq _ h; cases h
theorem cpyS : ∀ g o tag size i64 fs a b kq, Statement (.cpyS g o tag size i64 fs a b kq) := by
  intro g o tag size i64 fs a b kq _ h; cases h
theorem coll : ∀ g o tag op ty fs a b kq, Statement (.coll g o tag op ty fs a b kq) := by
  intro g o tag op ty fs a b kq _ h; cases h
theorem cstat : ∀ g d b, Statement (.cstat g d b) := by
  intro g d b _ h; cases h
theorem engineCmdComplete : ∀ w num, Statement (.engineCmdComplete w num) := fun _ _ h => nomatch h
theorem engineFaultPost : ∀ w num, Statement (.engineFaultPost w num) := fun _ _ h => nomatch h
theorem collInstanceComplete : ∀ asid group inst others, Statement (.collInstanceComplete asid group inst others) := fun _ _ _ _ h => nomatch h
theorem collTimeout : ∀ asid group inst, Statement (.collTimeout asid group inst) := fun _ _ _ h => nomatch h
theorem mstart : ∀ g t parm fs, Statement (.mstart g t parm fs) := by
  intro g t parm fs _ h; cases parm <;> cases h
theorem mstop : ∀ g, Statement (.mstop g) := by
  intro g _ h; cases h
theorem engineStop : ∀ core, Statement (.engineStop core) := fun _ h => nomatch h
theorem engineFetch : ∀ core, Statement (.engineFetch core) := fun _ h => nomatch h
theorem engineProgramFault : ∀ core, Statement (.engineProgramFault core) := fun _ h => nomatch h
theorem tld : ∀ g td map slot b fs, Statement (.tld g td map slot b fs) := by
  intro g td map slot b fs _ h; cases h
theorem tldDone : ∀ core, Statement (.tldDone core) := fun _ h => nomatch h
theorem mma : ∀ g f acc ta tb fs, Statement (.mma g f acc ta tb fs) := by
  intro g f acc ta tb fs _ h; cases h
theorem mmaPair : ∀ g f acc ta tb fs, Statement (.mmaPair g f acc ta tb fs) := by
  intro g f acc ta tb fs _ h; cases h
theorem mmaDone : ∀ core, Statement (.mmaDone core) := fun _ h => nomatch h
theorem accz : ∀ g acc, Statement (.accz g acc) := by
  intro g acc _ h; cases h
theorem acrel : ∀ g acc, Statement (.acrel g acc) := by
  intro g acc _ h; cases h
theorem ringWait : ∀ g ring core self a, Statement (.ringWait g ring core self a) := by
  intro g ring core self a _ h; cases a <;> cases h
theorem ringArv : ∀ g ring core self a, Statement (.ringArv g ring core self a) := by
  intro g ring core self a _ h; cases a <;> cases h
theorem mloop : ∀ g t x, Statement (.mloop g t x) := by
  intro g t x _ h; cases h
theorem acqA : ∀ g acc, Statement (.acqA g acc) := by
  intro g acc _ h; cases h
theorem accret : ∀ g acc, Statement (.accret g acc) := by
  intro g acc _ h; cases h
theorem accrd : ∀ g bf16 fs d b acc cc, Statement (.accrd g bf16 fs d b acc cc) := by
  intro g bf16 fs d b acc cc _ h; cases h
theorem mint : ∀ g fs kb, Statement (.mint g fs kb) := by
  intro g fs kb _ h; cases h
theorem mintServe : ∀ w op, Statement (.mintServe w op) := fun _ _ h => nomatch h
theorem mintDone : ∀ g fs d kb, Statement (.mintDone g fs d kb) := by
  intro g fs d kb _ h; cases h
theorem tqAdd : ∀ g fs d a b c cc, Statement (.tqAdd g fs d a b c cc) := by
  intro g fs d a b c cc _ h; cases h
theorem nodeSpawn : ∀ g fs kq a, Statement (.nodeSpawn g fs kq a) := by
  intro g fs kq a _ h; cases h
theorem arChk : ∀ g r a, Statement (.arChk g r a) := by
  intro g r a _ h; cases r <;> cases h
theorem recast : ∀ g fs d b, Statement (.recast g fs d b) := by
  intro g fs d b _ h; cases h
theorem safePointTransfer : ∀ w e, Statement (.safePointTransfer w e) := fun _ _ h => nomatch h
theorem kverApply : ∀ core kernel, Statement (.kverApply core kernel) := fun _ _ h => nomatch h
theorem csrrd : ∀ g d csr, Statement (.csrrd g d csr) := by
  intro g d csr _ h; cases h
theorem csrwr : ∀ g csr a, Statement (.csrwr g csr a) := by
  intro g csr a _ h; cases h
theorem wtimerloWrite : ∀ g a, Statement (.wtimerloWrite g a) := by
  intro g a _ h; cases h
theorem wtimerhiWrite : ∀ g a, Statement (.wtimerhiWrite g a) := by
  intro g a _ h; cases h
theorem nswinWrite : ∀ g a, Statement (.nswinWrite g a) := by
  intro g a _ h; cases h
theorem mectlWrite : ∀ g a, Statement (.mectlWrite g a) := by
  intro g a _ h; cases h
theorem ringdWrite : ∀ g n a, Statement (.ringdWrite g n a) := by
  intro g n a _ h; cases h
theorem splitCsrWrite : ∀ g csr a, Statement (.splitCsrWrite g csr a) := by
  intro g csr a _ h; cases h
theorem trap : ∀ g b, Statement (.trap g b) := by
  intro g b _ h; cases h
theorem tclr : ∀ g b, Statement (.tclr g b) := by
  intro g b _ h; cases h
theorem trace : ∀ g a, Statement (.trace g a) := by
  intro g a _ h; cases h
theorem smark : ∀ g a, Statement (.smark g a) := by
  intro g a _ h; cases h
theorem pwrReq : ∀ g fs d b, Statement (.pwrReq g fs d b) := by
  intro g fs d b _ h; cases h
theorem mon : ∀ g fs kb, Statement (.mon g fs kb) := by
  intro g fs kb _ h; cases h
theorem handlerEntry : ∀ w, Statement (.handlerEntry w) := fun _ h => nomatch h
theorem waveHalt : ∀ w, Statement (.waveHalt w) := fun _ h => nomatch h
theorem wtimerExpiry : ∀ w, Statement (.wtimerExpiry w) := fun _ h => nomatch h
theorem gangSave : ∀ gang, Statement (.gangSave gang) := fun _ h => nomatch h
theorem gangResume : ∀ gang, Statement (.gangResume gang) := fun _ h => nomatch h
theorem contextSpill : ∀ gang, Statement (.contextSpill gang) := fun _ h => nomatch h
theorem sampleRecord : ∀ w, Statement (.sampleRecord w) := fun _ h => nomatch h
theorem sampleInterval : ∀ core part, Statement (.sampleInterval core part) := fun _ _ h => nomatch h
theorem traceRecord : ∀ w, Statement (.traceRecord w) := fun _ h => nomatch h
theorem launchConsume : ∀ id, Statement (.launchConsume id) := fun _ h => nomatch h
theorem gangPlace : ∀ die, Statement (.gangPlace die) := fun _ h => nomatch h
theorem spruePour : ∀ die, Statement (.spruePour die) := fun _ h => nomatch h
theorem sprueWaitExpiry : ∀ core, Statement (.sprueWaitExpiry core) := fun _ h => nomatch h
theorem stealRequest : ∀ core, Statement (.stealRequest core) := fun _ h => nomatch h
theorem stealAnswer : ∀ core, Statement (.stealAnswer core) := fun _ h => nomatch h
theorem arenaBirth : ∀ node, Statement (.arenaBirth node) := fun _ h => nomatch h
theorem arenaEntryApply : ∀ core key, Statement (.arenaEntryApply core key) := fun _ _ h => nomatch h
theorem nodeDeath : ∀ node, Statement (.nodeDeath node) := fun _ h => nomatch h
theorem kernelRetire : ∀ kernel, Statement (.kernelRetire kernel) := fun _ h => nomatch h
theorem slotNop : ∀ id, Statement (.slotNop id) := fun _ h => nomatch h
theorem slotLaunch : ∀ id, Statement (.slotLaunch id) := fun _ h => nomatch h
theorem slotGrow : ∀ id, Statement (.slotGrow id) := fun _ h => nomatch h
theorem slotMail : ∀ id, Statement (.slotMail id) := fun _ h => nomatch h
theorem slotAsid : ∀ id, Statement (.slotAsid id) := fun _ h => nomatch h
theorem invalidateRange : ∀ id, Statement (.invalidateRange id) := fun _ h => nomatch h
theorem invalidateGrants : ∀ id, Statement (.invalidateGrants id) := fun _ h => nomatch h
theorem invalidateAsid : ∀ id, Statement (.invalidateAsid id) := fun _ h => nomatch h
theorem teardown : ∀ id, Statement (.teardown id) := fun _ h => nomatch h
theorem slotAnswer : ∀ id, Statement (.slotAnswer id) := fun _ h => nomatch h
theorem poolArena : ∀ id, Statement (.poolArena id) := fun _ h => nomatch h
theorem poolSave : ∀ id, Statement (.poolSave id) := fun _ h => nomatch h
theorem vacate : ∀ id, Statement (.vacate id) := fun _ h => nomatch h
theorem transferRequest : ∀ id, Statement (.transferRequest id) := fun _ h => nomatch h
theorem cancel : ∀ id, Statement (.cancel id) := fun _ h => nomatch h
theorem configCodebook : ∀ id, Statement (.configCodebook id) := fun _ h => nomatch h
theorem configDeepFmtw : ∀ id, Statement (.configDeepFmtw id) := fun _ h => nomatch h
theorem configVaultFmtw : ∀ id, Statement (.configVaultFmtw id) := fun _ h => nomatch h
theorem configGrantbase : ∀ id, Statement (.configGrantbase id) := fun _ h => nomatch h
theorem configPlacectl : ∀ id, Statement (.configPlacectl id) := fun _ h => nomatch h
theorem configSpruectl : ∀ id, Statement (.configSpruectl id) := fun _ h => nomatch h
theorem configStealseed : ∀ id, Statement (.configStealseed id) := fun _ h => nomatch h
theorem debugOpen : ∀ id, Statement (.debugOpen id) := fun _ h => nomatch h
theorem debugClose : ∀ id, Statement (.debugClose id) := fun _ h => nomatch h
theorem hostBreak : ∀ gang, Statement (.hostBreak gang) := fun _ h => nomatch h
theorem service : ∀ id, Statement (.service id) := fun _ h => nomatch h
theorem ringEntryWrite : ∀ asid node, Statement (.ringEntryWrite asid node) := fun _ _ h => nomatch h
theorem irqHoldExpiry : ∀ asid node, Statement (.irqHoldExpiry asid node) := fun _ _ h => nomatch h
theorem quadGate : ∀ quad, Statement (.quadGate quad) := fun _ h => nomatch h
theorem quadUngate : ∀ quad, Statement (.quadUngate quad) := fun _ h => nomatch h
theorem patchStore : ∀ asid addr x, Statement (.patchStore asid addr x) := fun _ _ _ h => nomatch h
theorem hmFill : ∀ asid addr, Statement (.hmFill asid addr) := fun _ _ h => nomatch h
theorem pageWalk : ∀ asid addr, Statement (.pageWalk asid addr) := fun _ _ h => nomatch h
theorem softError : ∀ loc, Statement (.softError loc) := fun _ h => nomatch h
theorem doorbellReserve : ∀ q, Statement (.doorbellReserve q) := fun _ h => nomatch h
theorem doorbellCommit : ∀ q ticket, Statement (.doorbellCommit q ticket) := fun _ _ h => nomatch h
theorem configCollGroup : ∀ id members limit, Statement (.configCollGroup id members limit) := fun _ _ _ h => nomatch h
theorem mctpLimit : ∀ host watts, Statement (.mctpLimit host watts) := fun _ _ h => nomatch h
theorem attest : ∀ nonce, Statement (.attest nonce) := fun _ h => nomatch h
theorem stage : ∀ host place image, Statement (.stage host place image) := fun _ _ _ h => nomatch h
theorem dramtempCrossing : ∀ die pkg temp, Statement (.dramtempCrossing die pkg temp) := fun _ _ _ h => nomatch h
theorem configurationWindowWrite : ∀ q vals, Statement (.configurationWindowWrite q vals) := fun _ _ h => nomatch h
theorem ringAcknowledge : ∀ asid node count, Statement (.ringAcknowledge asid node count) := fun _ _ _ h => nomatch h
theorem debugReply : ∀ w op words, Statement (.debugReply w op words) := fun _ _ _ h => nomatch h
theorem powerLimitControl : ∀ gang grants, Statement (.powerLimitControl gang grants) := fun _ _ h => nomatch h
theorem unitRetire : ∀ kind unit, Statement (.unitRetire kind unit) := fun _ _ h => nomatch h
theorem podBringUp : ∀ pkg, Statement (.podBringUp pkg) := fun _ h => nomatch h
theorem tallowRecompute : ∀ vals, Statement (.tallowRecompute vals) := fun _ h => nomatch h
theorem trr : Statement (.trr) := by
  intro _ h; cases h
theorem trn : Statement (.trn) := by
  intro _ h; cases h
theorem bkpt : Statement (.bkpt) := by
  intro _ h; cases h
theorem trapret : Statement (.trapret) := by
  intro _ h; cases h
theorem nodeRelease : Statement (.nodeRelease) := fun h => nomatch h
theorem mctpHealth : Statement (.mctpHealth) := fun h => nomatch h
theorem mctpSensors : Statement (.mctpSensors) := fun h => nomatch h
theorem moduleReset : Statement (.moduleReset) := fun h => nomatch h
theorem boot : Statement (.boot) := fun h => nomatch h

end Sys2Proof.Laws.Words
end

