-- ==== Sys2Proof/Laws/Trap.lean ====
section
/-!
SUPPORT. A cause that becomes pending: what the wave holds after it, said once for every precise trap (R219, R442, R443).
-/

namespace Sys2Proof.Machine

@[simp] theorem WTrap.push_cause (t : WTrap) (d : TDetail) : (t.push d).cause = t.cause := by unfold WTrap.push; split <;> rfl
@[simp] theorem WTrap.push_planes (t : WTrap) (d : TDetail) : (t.push d).planes = t.planes := by unfold WTrap.push; split <;> rfl

theorem mem_insertDetail (d : TDetail) : ∀ xs : List TDetail, d ∈ insertDetail d xs
  | [] => by simp [insertDetail]
  | x :: xs => by
    unfold insertDetail
    split
    · simp
    · exact List.mem_cons_of_mem _ (mem_insertDetail d xs)

/-- A queue with room keeps the detail that is pushed (R443). -/
theorem WTrap.mem_push {t : WTrap} (h : t.dq.length < 4) (d : TDetail) : d ∈ (t.push d).dq := by
  unfold WTrap.push; rw [if_pos h]; exact mem_insertDetail d t.dq

/-- A full queue keeps what it holds (R443). -/
theorem WTrap.push_full {t : WTrap} (h : ¬ t.dq.length < 4) (d : TDetail) : (t.push d).dq = t.dq := by
  unfold WTrap.push; rw [if_neg h]

@[simp] theorem Wave.mapLive_t (w : Wave) (f : Split → Split) : (w.mapLive f).t = w.t := rfl

theorem Wave.pend_cause (w : Wave) (c : Cause) (m : Mask) (d : Option TDetail) :
    (w.pend c m d).t.cause = w.t.cause ||| ((1 : W32) <<< c.num) := by
  cases d <;> simp [Wave.pend]

theorem Wave.pend_planes (w : Wave) (c : Cause) (m : Mask) (d : Option TDetail) : (w.pend c m d).t.planes = w.t.planes ||| m := by
  cases d <;> simp [Wave.pend]

theorem Wave.mem_pend_dq {w : Wave} (h : w.t.dq.length < 4) (c : Cause) (m : Mask) (d : TDetail) : d ∈ (w.pend c m (some d)).t.dq :=
  WTrap.mem_push (t := { w.t with cause := w.t.cause ||| ((1 : W32) <<< c.num), planes := w.t.planes ||| m }) h d

/-- What a pending cause leaves in its wave: the bit, the lanes, the detail where there is room; registers, memory and every other wave
are as before. -/
theorem State.pend_wave {s : State} {u : Nat} {w : Wave} (hw : s.wave? u = some w) (c : Cause) (m : Mask) (h : Bool) (d : Option TDetail) :
    ∃ x, (s.pend u c m h d).wave? u = some x ∧ w.Counts x ∧ x.t.cause = w.t.cause ||| ((1 : W32) <<< c.num) ∧
      x.t.planes = w.t.planes ||| m ∧ x.t.dq = (w.pend c m d).t.dq ∧ x.live = (w.pend c m d).live := by
  have hy : w.Counts ((w.pend c m d).notePend s.clk c d) := (w.pend_counts c m d).trans (Wave.notePend_counts _ _ _ _)
  unfold State.pend
  cases h
  · exact ⟨_, by simp [hw], hy, w.pend_cause c m d, w.pend_planes c m d, rfl, rfl⟩
  · exact ⟨((w.pend c m d).notePend s.clk c d).toHalt c m d, by simp [hw], hy.trans (Wave.trap_counts _ _ rfl), w.pend_cause c m d, w.pend_planes c m d, rfl, rfl⟩

/-- What a precise trap leaves (R219, R442): nothing but the pending cause. -/
theorem State.trapAt_wave {s : State} {v : Env} (hw : s.wave? v.u = some v.w) (c : Cause) (code : Nat) (m : Mask) (info : List Byte) :
    ∃ x, (s.trapAt v c code m info).wave? v.u = some x ∧ s.Local (s.trapAt v c code m info) v.u ∧ v.w.Counts x ∧
      x.t.cause = v.w.t.cause ||| ((1 : W32) <<< c.num) ∧ x.t.planes = v.w.t.planes ||| m ∧
      (v.w.t.dq.length < 4 → v.detail c code m info ∈ x.t.dq) := by
  obtain ⟨x, hx, hc, h1, h2, h3, -⟩ := State.pend_wave hw c m v.isHandler (some (v.detail c code m info))
  exact ⟨x, hx, (s.trapAt_counted v c code m info).1, hc, h1, h2, fun h => h3 ▸ Wave.mem_pend_dq h c m _⟩

end Sys2Proof.Machine
end

