-- ==== Sys2Proof/Tests/Slice0.lean ====
section
/-!
SUPPORT. Tests: terms that are no words, words written out from the encoding tables of the spec, and for each statement a state and
operands that meet its hypotheses.
-/

set_option Elab.async false

namespace Sys2Proof.Tests

open Sys2Proof Sys2Proof.Machine

/-! ## Terms that are no words -/

/-- p7, not negated: always. -/
def g7 : Guard := ⟨false, 7⟩

/-- A predicate, a register, an alignment, a count, a code or an operand kind that its field does not hold: one term for each check. -/
theorem test_wf_refuses_operands : ([
  .nop ⟨false, 8⟩,
  .mov g7 (.v 256) (.v 0) 0, .mov g7 (.k 64) (.k 0) 0, .mov g7 (.v 0) (.v 256) 0, .mov g7 (.v 0) (.k 64) 0, .mov g7 (.v 0) (.int 16) 0,
  .mov g7 (.v 0) (.flt 16) 0, .mov g7 (.v 0) (.v 1) 4, .mov g7 (.k 1) (.k 0) 1, .mov g7 (.k 1) (.v 0) 0, .mov g7 (.k 1) (.sp .lane) 0,
  .mov g7 (.v 0) (.imm true 1) 0, .mov g7 (.v 0) (.lit 1) 0,
  .movi g7 (.v 0) (.lit 1) 0, .movi g7 (.v 0) (.imm false 1) 0, .movx g7 (.v 1) (.v 2) 0, .movx g7 (.v 0) (.v 3) 0, .movx g7 (.v 0) (.flt 1) 0,
  .movx g7 (.v 0) (.sp .clk) 0, .movk g7 64 (.v 0), .vtok g7 0 (.v 0) (.v 1), .ktov g7 256 (.k 0) (.k 1) 0, .ktov g7 0 (.v 0) (.k 1) 0,
  .sel g7 false false 0 (.k 0) (.k 1) (.k 2) 0, .sel g7 false false 8 (.v 0) (.v 1) (.v 2) 0, .pand g7 0 8 0, .psetNe g7 8 (.v 0),
  .rel g7 0 17, .rel g7 0 0, .rel g7 250 7, .tcfg g7 8 (.k 0), .tcfg g7 0 (.v 0), .omcfg g7 0 (.imm true 1),
  .iadd g7 (.v 0) (.v 1) (.lit (2 ^ 32)) 0, .iadd g7 (.k 0) (.k 1) (.v 2) 0, .imad g7 (.v 0) (.v 1) (.imm true 1) (.v 2) 0,
  .imadWide g7 (.v 0) (.v 1) (.v 2) (.v 3) 0, .iaddc g7 false 8 (.v 0) (.v 1) (.v 2) 0, .ibfe g7 (.v 0) (.v 1) (.packed 32 1) 0,
  .ibfe g7 (.v 0) (.v 1) (.packed 0 64) 0, .lea g7 false 16 (.v 0) (.v 2) (.v 4) 0, .i2i g7 .s64 (.v 1) (.v 0) 0,
  .fadd g7 .rn (.v 0) (.v 1) (.imm true 1) 0, .cvt g7 .toBf16x2 .rn (.v 0) (.v 1) none 0, .cvt g7 .toI32 .rn (.v 0) (.v 1) (some (.v 2)) 0,
  .cvt g7 .bf16Lo .rz (.v 0) (.v 1) none 0, .shflIdx g7 0 7 0 (.v 0) (.v 1) 0, .shflIdx g7 6 7 0 (.v 0) (.v 1) 0,
  .matchAny g7 true 0 (.v 1) 0] : List Instr).all (fun i => !i.wf) = true := by decide +kernel

theorem test_wf_refuses_commands : ([
  .brx g7 ⟨0, 1⟩ (.k 0) 0, .brx g7 ⟨0, 1⟩ (.k 0) 4097, .braInd g7 (.v 1), .sleep g7 (.v 0),
  .ld g7 .b64 false 1 (.v 2) (.int 0) 0, .ld g7 .b32 false 2 (.v 2) (.int 0) 0, .ld g7 .b32 false 0 (.v 3) (.int 0) 0, .ldk g7 .b32 false 0 (.v 2) (.int 0),
  .st g7 .s8 false (.v 0) (.int 0) (.v 2), .st g7 .b128 false (.v 0) (.int 0) (.v 2), .ldFe g7 .b8 false 4 (.v 0) (.int 0) 0,
  .stk g7 .b32 false (.k 0) (.v 2) (.k 2), .atom g7 .none .quad .add true false (.v 1) (.v 2) (.v 4) 0, .barc 8 (.k 0),
  .barc 0 (.v 0), .mbsend g7 false 0 (.k 0) 4, .mbsend g7 false 0 (.k 0) 56, .mbrecv g7 1 false false 0,
  .cpy g7 ⟨true, false, .wave⟩ none .raw .rn false (.k 0) (.k 2) (.k 4), .cpy g7 ⟨false, false, .quad⟩ none .raw .rn false (.k 0) (.k 2) (.k 4),
  .cpy g7 ⟨false, false, .wave⟩ (some 64) .raw .rn false (.k 0) (.k 2) (.k 4), .cpy g7 ⟨false, false, .wave⟩ none .raw .rz false (.k 0) (.k 2) (.k 4),
  .cpyG g7 ⟨false, false, .wave⟩ none 8 false false (.k 0) (.k 2) 4, .cpyG g7 ⟨false, false, .wave⟩ none 0 false false (.k 0) (.k 2) 6,
  .coll g7 ⟨false, false, .wave⟩ none .bcast .iadd false (.k 0) (.k 2) 4, .coll g7 ⟨false, false, .wave⟩ none .allreduce .none false (.k 0) (.k 2) 4,
  .mma g7 .i8 16 0 0 false, .mma g7 .i8 0 8 0 false, .tld g7 0 8 none (.k 0) false, .ringWait g7 16 0 false (.k 0), .ringWait g7 0 1 true (.k 0),
  .ringArv g7 0 0 false (.v 0), .accrd g7 false false 0 (.k 0) 16 0, .nodeSpawn g7 false 56 (.k 0), .arChk g7 (.pred 8) (.v 0),
  .tqAdd g7 false (.v 0) (.k 0) 4 (.k 2) 0, .csrwr g7 (.imm false 4096) (.k 0), .csrwr g7 (.imm false 0x064) (.k 0), .csrrd g7 0 (.imm true 1),
  .ringdWrite g7 16 (.k 0), .splitCsrWrite g7 0x02E (.k 0), .pwrReq g7 false 0 (.lit 1), .mon g7 false 52,
  .pairWord ⟨.iadd, 7, 4, .v 1, 0⟩ ⟨.iadd, 7, 8, .v 2, 0⟩, .pairWord ⟨.iadd, 7, 4, .k 1, 0⟩ ⟨.iadd, 7, 5, .k 2, 0⟩,
  .pairWord ⟨.iadd, 7, 4, .flt 1, 0⟩ ⟨.iadd, 7, 5, .v 2, 0⟩, .pairWord ⟨.mov, 7, 4, .v 8, 0⟩ ⟨.mov, 7, 5, .v 12, 0⟩,
  .waveEnd 0, .issueSelect 0 0, .boot] : List Instr).all (fun i => !i.wf) = true := by decide +kernel

/-! ## Words written out from the encoding tables -/

/-- A full-form word of a major with GP = 7 (R65): the other fields at their bit positions; a field from bit 64 on lies in the extension
word. -/
def word (major : Nat) (fs : List (Nat × Nat)) : Nat := fieldsAt ((56, major) :: (52, 7) :: fs)

/-- Each word decodes to its instruction. -/
def decodes (xs : List (Nat × Nat × Instr)) : Bool := xs.all fun x => decodeTableWord x.1 x.2.1 == some x.2.2

/-- R78, R99. -/
theorem test_decode_control : decodes [
  (64, word 0x00 [], .nop g7), (64, word 0x00 [(2, 1)], .yield g7), (64, word 0x00 [(16, 100), (15, 1), (2, 2)], .sleep g7 (.imm false 100)),
  (64, fieldsAt [(56, 0x01), (55, 1), (52, 3), (30, 2 ^ 22 - 2), (26, 4)], .bra ⟨true, 3⟩ ⟨-2, 4⟩), (64, word 0x02 [(34, 8)], .braInd g7 (.v 8)),
  (64, word 0x03 [(30, 5), (26, 1)], .call g7 ⟨5, 1⟩), (64, word 0x04 [(34, 0x104)], .callInd g7 (.k 4)), (64, word 0x05 [], .ret g7),
  (64, word 0x06 [(30, 1), (26, 2), (17, 0x120), (2, 7)], .brx g7 ⟨1, 2⟩ (.k 32) 8), (64, word 0x07 [], .exit g7),
  (128, fieldsAt [(56, 0x0C), (55, 1), (67, 77)], .trj true 77), (64, fieldsAt [(56, 0x0C), (6, 3), (2, 5)], .trj false 53),
  (64, fieldsAt [(56, 0x0D), (6, 3), (2, 1)], .trc false 49), (64, fieldsAt [(56, 0x0E)], .trr), (64, fieldsAt [(56, 0x0F)], .trn)] = true := by
  decide +kernel

/-- R73, R76. -/
theorem test_decode_pair : decodes [
  (64, fieldsAt [(63, 1), (55, 0x0D), (52, 7), (44, 5), (35, 6), (33, 2), (24, 0x20), (21, 1), (13, 8), (4, 0x103)],
    .pairWord ⟨.imaxu, 7, 5, .v 6, 2⟩ ⟨.mov, 1, 8, .k 3, 0⟩)] = true := by
  decide +kernel

/-- R123. -/
theorem test_decode_moves : decodes [
  (64, word 0x10 [(43, 3), (34, 0x140), (0, 1)], .mov g7 (.v 3) (.sp .lane) 1), (64, word 0x10 [(43, 0x103), (16, 2 ^ 18 - 1), (15, 1), (2, 1)], .movi g7 (.k 3) (.imm true (-1)) 0),
  (128, word 0x10 [(43, 4), (14, 1), (2, 2), (64, 2 ^ 63 + 5)], .movx g7 (.v 4) (.lit (2 ^ 63 + 5)) 0), (64, word 0x11 [(43, 0x107), (34, 9)], .movk g7 7 (.v 9)),
  (64, word 0x11 [(43, 0x107), (34, 9), (25, 0x165), (2, 1)], .vtok g7 7 (.v 9) (.int 5)), (64, word 0x11 [(43, 7), (34, 0x109), (16, 31), (15, 1), (2, 2)], .ktov g7 7 (.k 9) (.imm false 31) 0),
  (64, word 0x12 [(43, 4), (34, 6), (25, 8), (6, 1), (5, 1), (2, 3)], .sel g7 true true 3 (.v 4) (.v 6) (.v 8) 0), (64, word 0x13 [(34, 5), (8, 2)], .psetNe g7 2 (.v 5)),
  (64, word 0x13 [(34, 0x108), (11, 1), (8, 3)], .psetMask g7 3 (.k 8)), (64, word 0x13 [(11, 2), (8, 1), (5, 2), (2, 3)], .pand g7 1 2 3),
  (64, word 0x13 [(11, 3), (8, 1), (5, 2), (2, 3)], .por g7 1 2 3), (64, word 0x13 [(11, 4), (8, 1), (5, 2), (2, 3)], .pxor g7 1 2 3),
  (64, word 0x13 [(11, 5), (8, 1), (5, 2)], .pnot g7 1 2), (64, word 0x13 [(11, 6), (8, 1), (5, 2)], .pmov g7 1 2), (64, word 0x14 [(43, 10), (2, 15)], .rel g7 10 16),
  (128, 0x1570000000004000 + 2 ^ 64 * 0x7F3F3, .tcfg g7 0 (.lit 0x7F3F3)), (64, word 0x15 [(25, 0x104), (2, 15)], .omcfg g7 7 (.k 4))] = true := by
  decide +kernel

/-- R134. -/
theorem test_decode_integer : decodes [
  (64, word 0x18 [(43, 3), (34, 1), (25, 2), (0, 3)], .iadd g7 (.v 3) (.v 1) (.v 2) 3), (64, word 0x19 [(43, 3), (34, 1), (16, 2 ^ 18 - 5), (15, 1)], .isub g7 (.v 3) (.v 1) (.imm true (-5)) 0),
  (64, word 0x1A [(43, 3), (34, 1), (25, 2), (5, 1), (2, 4)], .iaddc g7 true 4 (.v 3) (.v 1) (.v 2) 0), (64, word 0x1B [(43, 3), (34, 1), (25, 2)], .imul g7 (.v 3) (.v 1) (.v 2) 0),
  (64, word 0x1B [(43, 3), (34, 1), (25, 2), (2, 1)], .imulh g7 (.v 3) (.v 1) (.v 2) 0), (64, word 0x1B [(43, 3), (34, 1), (25, 2), (2, 3)], .imulhU g7 (.v 3) (.v 1) (.v 2) 0),
  (64, word 0x1C [(43, 3), (34, 1), (25, 2), (16, 5)], .imad g7 (.v 3) (.v 1) (.v 2) (.v 5) 0), (64, word 0x1C [(43, 4), (34, 1), (25, 2), (16, 6), (2, 1)], .imadWide g7 (.v 4) (.v 1) (.v 2) (.v 6) 0),
  (64, word 0x1C [(43, 4), (34, 1), (25, 2), (16, 6), (2, 3)], .imadWideU g7 (.v 4) (.v 1) (.v 2) (.v 6) 0), (64, word 0x1D [(43, 3), (34, 1), (16, 7), (15, 1)], .ishl g7 (.v 3) (.v 1) (.imm false 7) 0),
  (64, word 0x1D [(43, 3), (34, 1), (25, 2), (2, 1)], .ishr g7 (.v 3) (.v 1) (.v 2) 0), (64, word 0x1D [(43, 3), (34, 1), (25, 2), (2, 2)], .isar g7 (.v 3) (.v 1) (.v 2) 0),
  (64, word 0x1D [(43, 4), (34, 6), (25, 2), (2, 4)], .ishl64 g7 (.v 4) (.v 6) (.v 2) 0), (64, word 0x1D [(43, 4), (34, 6), (25, 2), (2, 5)], .ishr64 g7 (.v 4) (.v 6) (.v 2) 0),
  (64, word 0x1D [(43, 4), (34, 6), (25, 2), (2, 6)], .isar64 g7 (.v 4) (.v 6) (.v 2) 0), (64, word 0x1E [(43, 3), (34, 1), (25, 2)], .iand g7 (.v 3) (.v 1) (.v 2) 0),
  (64, word 0x1E [(43, 3), (34, 1), (25, 2), (2, 1)], .ior g7 (.v 3) (.v 1) (.v 2) 0), (64, word 0x1E [(43, 3), (34, 1), (25, 2), (2, 2)], .ixor g7 (.v 3) (.v 1) (.v 2) 0),
  (64, word 0x1E [(43, 3), (34, 1), (2, 3)], .inot g7 (.v 3) (.v 1) 0), (64, word 0x1F [(43, 3), (34, 1), (25, 0x164), (16, 0x168)], .ibfe g7 (.v 3) (.v 1) (.src (.int 4) (.int 8)) 0),
  (64, word 0x1F [(43, 3), (34, 1), (16, 4 + 32 * 8), (15, 1), (2, 1)], .ibfeU g7 (.v 3) (.v 1) (.packed 4 8) 0), (64, word 0x1F [(43, 3), (34, 1), (25, 5), (16, 6), (2, 2)], .ibfi g7 (.v 3) (.v 1) (.src (.v 5) (.v 6)) 0),
  (64, word 0x20 [(43, 3), (34, 1)], .ipopc g7 (.v 3) (.v 1) 0), (64, word 0x20 [(43, 3), (34, 1), (2, 1)], .iclz g7 (.v 3) (.v 1) 0), (64, word 0x20 [(43, 3), (34, 1), (2, 2)], .ibrev g7 (.v 3) (.v 1) 0),
  (64, word 0x21 [(43, 3), (34, 1), (25, 2)], .imin g7 (.v 3) (.v 1) (.v 2) 0), (64, word 0x21 [(43, 3), (34, 1), (25, 2), (2, 1)], .imax g7 (.v 3) (.v 1) (.v 2) 0),
  (64, word 0x21 [(43, 3), (34, 1), (25, 2), (2, 2)], .iminU g7 (.v 3) (.v 1) (.v 2) 0), (64, word 0x21 [(43, 3), (34, 1), (25, 2), (2, 3)], .imaxU g7 (.v 3) (.v 1) (.v 2) 0),
  (64, word 0x21 [(43, 3), (34, 1), (2, 4)], .iabs g7 (.v 3) (.v 1) 0), (64, word 0x22 [(34, 2), (25, 4), (11, 1), (10, 1), (7, 3), (4, 5), (2, 2)], .icmp g7 true true .le 5 .or (.v 2) (.v 4)),
  (64, word 0x23 [(43, 4), (34, 6), (25, 8)], .iadd64 g7 (.v 4) (.v 6) (.v 8) 0), (64, word 0x24 [(43, 4), (34, 6), (25, 8), (6, 1), (2, 15)], .lea g7 true 15 (.v 4) (.v 6) (.v 8) 0),
  (64, word 0x25 [(43, 4), (34, 7), (25, 8)], .leaAr g7 (.v 4) (.v 7) (.v 8) 0), (64, word 0x25 [(43, 4), (34, 6), (25, 8), (2, 1)], .leaArAdd g7 (.v 4) (.v 6) (.v 8) 0),
  (64, word 0x26 [(43, 4), (34, 7), (2, 4)], .i2i g7 .s64 (.v 4) (.v 7) 0)] = true := by
  decide +kernel

/-- R50, R169, R178. -/
theorem test_decode_float : decodes [
  (64, word 0x2C [(43, 3), (34, 1), (25, 2), (2, 1)], .fadd g7 .rz (.v 3) (.v 1) (.v 2) 0), (64, word 0x2C [(43, 3), (34, 1), (25, 2), (4, 1), (2, 2)], .fsub g7 .ru (.v 3) (.v 1) (.v 2) 0),
  (64, word 0x2D [(43, 3), (34, 1), (25, 2), (2, 3)], .fmul g7 .rd (.v 3) (.v 1) (.v 2) 0), (64, word 0x2E [(43, 3), (34, 1), (25, 2), (16, 4)], .ffma g7 .rn (.v 3) (.v 1) (.v 2) (.v 4) 0),
  (64, word 0x2F [(43, 3), (34, 1), (25, 2)], .fmin g7 (.v 3) (.v 1) (.v 2) 0), (64, word 0x2F [(43, 3), (34, 1), (25, 2), (2, 1)], .fmax g7 (.v 3) (.v 1) (.v 2) 0),
  (64, word 0x30 [(34, 1), (25, 2), (7, 7), (4, 5), (2, 1)], .fcmp g7 .un 5 .and (.v 1) (.v 2)), (64, word 0x31 [(43, 3), (34, 1)], .fclass g7 (.v 3) (.v 1) 0),
  (64, word 0x32 [(43, 3), (34, 1), (2, 1)], .frndi g7 .rz (.v 3) (.v 1) 0), (64, word 0x33 [(43, 3), (34, 1)], .fexp g7 (.v 3) (.v 1) 0),
  (64, word 0x34 [(43, 3), (34, 1), (16, 9), (15, 1)], .fldx g7 (.v 3) (.v 1) (.imm true 9) 0), (64, word 0x34 [(43, 3), (34, 1), (2, 1)], .fgetx g7 (.v 3) (.v 1) 0),
  (64, word 0x35 [(43, 3), (34, 1), (2, 1)], .frcp g7 .rz (.v 3) (.v 1) 0), (64, word 0x35 [(43, 3), (34, 1), (4, 1), (2, 2)], .frsq g7 .ru (.v 3) (.v 1) 0),
  (64, word 0x35 [(43, 3), (34, 1), (4, 2)], .fsqrt g7 .rn (.v 3) (.v 1) 0), (64, word 0x36 [(43, 3), (34, 1)], .flg2 g7 (.v 3) (.v 1) 0), (64, word 0x37 [(43, 3), (34, 1)], .fex2 g7 (.v 3) (.v 1) 0),
  (64, word 0x38 [(43, 3), (34, 1), (25, 2), (16, 4), (2, 1)], .fdot2 g7 .rz (.v 3) (.v 1) (.v 2) (.v 4) 0), (64, word 0x39 [(43, 3), (34, 1), (25, 2)], .faddBf16x2 g7 .rn (.v 3) (.v 1) (.v 2) 0),
  (64, word 0x3A [(43, 3), (34, 1), (25, 2)], .fmulBf16x2 g7 .rn (.v 3) (.v 1) (.v 2) 0), (64, word 0x3B [(43, 3), (34, 1), (25, 2), (16, 4)], .ffmaBf16x2 g7 .rn (.v 3) (.v 1) (.v 2) (.v 4) 0),
  (64, word 0x3C [(43, 3), (34, 1), (25, 2), (4, 2), (2, 3)], .cvt g7 .toBf16x2 .rd (.v 3) (.v 1) (some (.v 2)) 0),
  (64, word 0x3C [(43, 3), (34, 1), (4, 5), (2, 1)], .cvt g7 .toI32 .rz (.v 3) (.v 1) none 0)] = true := by
  decide +kernel

/-- R195. -/
theorem test_decode_lane : decodes [
  (64, word 0x48 [(43, 3), (34, 1), (25, 2), (6, 5), (3, 7)], .shflIdx g7 5 7 3 (.v 1) (.v 2) 0), (64, word 0x48 [(43, 3), (34, 1), (25, 2), (9, 1), (6, 5), (3, 2)], .shflUp g7 5 2 3 (.v 1) (.v 2) 0),
  (64, word 0x48 [(43, 3), (34, 1), (16, 1), (15, 1), (9, 2), (6, 4), (3, 2)], .shflDn g7 4 2 3 (.v 1) (.imm false 1) 0), (64, word 0x48 [(43, 3), (34, 1), (25, 2), (9, 3), (6, 1), (3, 2)], .shflXor g7 1 2 3 (.v 1) (.v 2) 0),
  (64, word 0x49 [(43, 0x103), (6, 3), (5, 1), (2, 4)], .vote g7 .ballot true 4 (.k 3) 0), (64, word 0x4A [(43, 0x103), (34, 1), (2, 8)], .red g7 .fadd (.k 3) (.v 1) 0),
  (64, word 0x4B [(43, 3), (34, 1), (6, 1), (2, 2)], .scan g7 true .imax 3 (.v 1) 0), (64, word 0x4C [(43, 3), (34, 1), (25, 2), (16, 4)], .prmt g7 (.v 3) (.v 1) (.v 2) (.v 4) 0),
  (64, word 0x4D [(43, 3), (34, 2), (3, 1)], .matchAny g7 true 3 (.v 2) 0), (64, word 0x4D [(43, 0x103), (34, 1), (2, 1)], .matchAll g7 false (.k 3) (.v 1) 0)] = true := by
  decide +kernel

/-- R226, R257. -/
theorem test_decode_memory : decodes [
  (64, word 0x50 [(43, 4), (34, 8), (16, 2 ^ 18 - 16), (15, 1), (5, 4), (2, 1)], .ld g7 .b128 true 4 (.v 8) (.imm true (-16)) 0), (64, word 0x51 [(34, 8), (25, 0x160), (16, 5), (5, 1)], .st g7 .b16 false (.v 8) (.int 0) (.v 5)),
  (64, word 0x52 [(43, 0x104), (34, 0x108), (25, 0x160), (5, 6)], .ldk g7 .s16 false 4 (.k 8) (.int 0)), (64, word 0x53 [(34, 0x108), (25, 0x160), (16, 0x104), (5, 2), (2, 1)], .stk g7 .b32 true (.k 8) (.int 0) (.k 4)),
  (64, word 0x54 [(43, 4), (34, 8), (25, 6), (5, 1), (2, 1)], .ldCv g7 true true 4 (.v 8) (.v 6) 0), (64, word 0x55 [(34, 8), (25, 6), (16, 5), (3, 2)], .stCv g7 .ru false (.v 8) (.v 6) (.v 5)),
  (64, word 0x56 [(43, 4), (34, 8), (25, 0x160), (5, 3), (4, 1)], .ldFe g7 .b64 true 4 (.v 8) (.int 0) 0), (64, word 0x57 [(34, 8), (25, 0x160), (16, 5), (5, 2), (2, 1)], .stFeFill g7 .b32 true (.v 8) (.int 0) (.v 5)),
  (64, word 0x58 [(34, 8), (25, 0x160), (3, 1), (2, 1)], .feSet g7 true true (.v 8) (.int 0)), (64, word 0x58 [(43, 4), (34, 8), (25, 0x160), (4, 1)], .fePeek g7 false 4 (.v 8) (.int 0) 0),
  (64, word 0x59 [(34, 8), (25, 0x160), (3, 1)], .pref g7 true (.v 8) (.int 0)), (64, word 0x5C [(43, 4), (34, 8), (2, 1)], .pin g7 true (.v 4) (.v 8) 0), (64, word 0x5C [(43, 4), (34, 8), (3, 1)], .unpin g7 false (.v 4) (.v 8) 0),
  (64, word 0x5D [(34, 8)], .flushL1 g7 false (.v 8)), (64, word 0x5D [(34, 8), (3, 1)], .flushHm g7 false (.v 8)), (64, word 0x5D [(34, 8), (4, 1), (2, 1)], .invalL1 g7 true (.v 8)),
  (64, word 0x5D [(34, 8), (4, 1), (3, 1)], .invalHm g7 false (.v 8)), (64, word 0x5E [(34, 0x108), (16, 300), (15, 1), (2, 1)], .hmzero g7 true (.k 8) (.imm false 300)),
  (64, word 0x5F [(43, 0x106), (3, 7), (2, 1)], .hmstat g7 .capacity true 6)] = true := by
  decide +kernel

/-- R301, R330. -/
theorem test_decode_sync : decodes [
  (64, word 0x60 [(43, 1), (34, 2), (25, 4), (12, 1), (9, 2), (5, 10), (2, 1)], .atom g7 .acq .quad .fadd false true (.v 1) (.v 2) (.v 4) 0),
  (64, word 0x61 [(43, 0x102), (34, 0x104), (25, 0x106), (16, 0x108), (12, 2), (9, 5), (4, 1)], .atomCas g7 .rel .pod true false (.k 2) (.k 4) (.k 6) (.k 8) 0),
  (64, word 0x62 [(43, 1), (34, 2), (25, 0x160), (9, 3), (5, 2)], .ldAcq g7 .die .b32 false (.v 1) (.v 2) (.int 0) 0), (64, word 0x63 [(34, 2), (25, 0x160), (16, 4), (9, 4), (5, 3), (2, 1)], .stRel g7 .pkg .b64 true (.v 2) (.int 0) (.v 4)),
  (64, word 0x64 [(2, 4)], .fence g7 .pkg), (64, word 0x65 [(2, 6)], .bar .pod), (64, word 0x65 [(34, 0x104), (6, 3), (5, 1), (2, 1)], .barc 3 (.k 4)),
  (64, word 0x66 [(43, 0x103), (34, 0x104), (25, 0x108), (2, 1)], .mbsend g7 true 3 (.k 4) 8), (64, word 0x66 [(43, 0x110), (6, 5), (4, 1), (3, 1), (2, 1)], .mbrecv g7 5 true true 16),
  (64, word 0x67 [(43, 0x103), (34, 0x104), (16, 2), (15, 1)], .tkres g7 false 3 (.k 4) (.imm false 2)), (64, word 0x67 [(43, 0x103), (34, 0x104), (25, 0x105), (3, 1), (2, 1)], .tkcom g7 true 3 (.k 4) (.k 5)),
  (64, word 0x68 [(43, 0x110), (34, 2), (25, 4), (16, 0x106), (13, 1), (9, 5), (8, 1), (5, 3), (3, 2)], .cpy g7 ⟨true, false, .pod⟩ (some 16) .enc .ru false (.v 2) (.v 4) (.k 6)),
  (64, word 0x69 [(34, 0x102), (25, 0x104), (16, 0x108), (12, 1), (9, 1), (4, 7), (3, 1), (2, 1)], .cpyG g7 ⟨false, true, .core⟩ none 7 true true (.k 2) (.k 4) 8),
  (64, word 0x69 [(34, 0x102), (25, 0x104), (16, 0x108), (7, 1), (4, 2)], .cpyS g7 ⟨false, false, .wave⟩ none 2 false false (.k 2) (.k 4) 8),
  (64, word 0x6A [(34, 0x102), (25, 0x104), (16, 0x108), (6, 2), (3, 5), (2, 1)], .coll g7 ⟨false, false, .wave⟩ none .redscat .fadd true (.k 2) (.k 4) 8),
  (64, word 0x6B [(43, 0x106), (16, 7), (15, 1)], .cstat g7 6 (.imm false 7))] = true := by
  decide +kernel

/-- R357. -/
theorem test_decode_matrix : decodes [
  (64, word 0x6C [(30, 2), (26, 1), (17, 0x108), (16, 1), (2, 1)], .mstart g7 ⟨2, 1⟩ (some 8) true), (64, word 0x6C [(3, 1)], .mstop g7),
  (64, word 0x6D [(43, 5), (34, 0x104), (25, 0x105), (4, 3), (3, 1), (2, 1)], .tld g7 5 3 (some (.k 4)) (.k 5) true), (64, word 0x6E [(43, 11), (34, 5), (25, 6), (3, 3), (2, 1)], .mma g7 .fe4m3 11 5 6 true),
  (64, word 0x6F [(43, 15), (34, 7), (25, 0), (3, 6)], .mmaPair g7 .bf16 15 7 0 false), (64, word 0x70 [(43, 9)], .accz g7 9), (64, word 0x70 [(43, 9), (2, 1)], .acrel g7 9),
  (64, word 0x71 [(16, 0x105), (15, 1), (10, 12), (8, 2)], .ringWait g7 12 2 false (.imm false 0x105)), (64, word 0x71 [(34, 0x104), (10, 3), (7, 1), (6, 1)], .ringArv g7 3 0 true (.k 4)),
  (64, word 0x72 [(30, 2 ^ 22 - 1), (26, 3), (17, 0x105)], .mloop g7 ⟨-1, 3⟩ 5), (64, word 0x73 [(16, 6)], .acqA g7 6), (64, word 0x73 [(16, 6), (4, 1)], .accret g7 6),
  (64, word 0x73 [(43, 20), (25, 0x163), (16, 6), (4, 3), (2, 1)], .accrd g7 true true 20 (.int 3) 6 0)] = true := by
  decide +kernel

/-- R409, R440, R464. -/
theorem test_decode_system : decodes [
  (64, word 0x74 [(43, 0x110), (2, 1)], .mint g7 true 16), (64, word 0x74 [(43, 0x103), (34, 0x128), (3, 1)], .mintDone g7 false 3 40),
  (64, word 0x75 [(43, 5), (34, 0x104), (25, 16), (16, 0x106)], .tqAdd g7 false (.v 5) (.k 4) 16 (.k 6) 0), (64, word 0x76 [(43, 0x104), (34, 0x108), (2, 1)], .nodeSpawn g7 true 4 (.k 8)),
  (64, word 0x77 [(34, 8), (4, 3)], .arChk g7 (.pred 3) (.v 8)), (64, word 0x77 [(43, 5), (34, 8), (3, 1)], .arChk g7 (.st (.v 5) 0) (.v 8)),
  (64, 0x7878A002C2000000, .recast g7 false 20 (.int 1)), (64, word 0x7A [(43, 0x103), (16, 0x060), (15, 1)], .csrrd g7 3 (.imm false 0x060)),
  (64, word 0x7A [(34, 0x105), (16, 0x0C3), (15, 1), (2, 1)], .csrwr g7 (.imm false 0x0C3) (.k 5)), (64, word 0x7A [(34, 0x105), (16, 0x064), (15, 1), (2, 1)], .wtimerloWrite g7 (.k 5)),
  (64, word 0x7A [(34, 0x105), (16, 0x065), (15, 1), (2, 1)], .wtimerhiWrite g7 (.k 5)), (64, word 0x7A [(34, 0x105), (16, 0x071), (15, 1), (2, 1)], .nswinWrite g7 (.k 5)),
  (64, word 0x7A [(34, 0x105), (16, 0x090), (15, 1), (2, 1)], .mectlWrite g7 (.k 5)), (64, word 0x7A [(34, 0x105), (16, 0x0AF), (15, 1), (2, 1)], .ringdWrite g7 15 (.k 5)),
  (64, word 0x7A [(34, 0x105), (16, 0x02D), (15, 1), (2, 1)], .splitCsrWrite g7 0x02D (.k 5)), (64, word 0x7B [(16, 9), (15, 1)], .trap g7 (.imm false 9)), (64, word 0x7B [(2, 1)], .trapret),
  (64, word 0x7B [(25, 0x104), (2, 2)], .tclr g7 (.k 4)), (64, word 0x7B [(2, 3)], .bkpt), (64, word 0x7C [(34, 0x105)], .trace g7 (.k 5)), (64, word 0x7C [(34, 0x105), (2, 1)], .smark g7 (.k 5)),
  (64, word 0x7D [(43, 0x103), (16, 2), (15, 1), (2, 1)], .pwrReq g7 true 3 (.imm false 2)), (64, word 0x7D [(43, 0x110), (3, 1)], .mon g7 false 16)] = true := by
  decide +kernel

/-- What R66, R67, R72 and R82 refuse. -/
theorem test_decode_refuses : ([
  word 0x08 [], word 0x18 [(43, 0x160)], word 0x18 [(34, 0x14C)], word 0x18 [(43, 0x103), (34, 1)], word 0x18 [(16, 1)], word 0x18 [(2, 1)], word 0x18 [(15, 1), (14, 1)],
  word 0x10 [(43, 1), (2, 2)], word 0x50 [(34, 1), (5, 2)], word 0x50 [(5, 7)], word 0x65 [(2, 7)], word 0x68 [(43, 0x104)], word 0x7A [(16, 4096), (15, 1)],
  fieldsAt [(56, 0x0E), (3, 1)], fieldsAt [(63, 1), (62, 1)]].map (decodeTableWord 64)).all (· == none) = true := by
  decide +kernel

/-! ## States that meet the hypotheses of the statements

Each `test_meets_<X>` applies the statement X to concrete states and operands, one for each of its clauses, so that every
hypothesis of X is met there together; the checks it needs are evaluated. It says that X is not empty; that X holds is
not used for anything else and is left to its proof. -/

/-- A split of the lanes 0 to 3 at word 2 of line 1. -/
def spl : Split := { pc := pcAt 1 2, mask := 0xF, ver := 0 }

/-- A vector wave of gang 1, on core 0, with one split. -/
def wav : Wave :=
  { gang := 1, team := 0, index := 0, role := .vector, kernel := 0, asid := 0, regs := 64, place := some (0, 0), live := [some spl, none, none, none] }

/-- The word that its split of entry `e` issues; flag A is f0, flag B is f1. -/
def ctx (e : Nat) : Ctx := { who := .split 7 e, pc := pcAt 1 2, next := pcAt 1 3, fa := some 0, fb := some 1 }

/-- Wave 7 is `w`, and its split of entry `e` issues, at clock 100. -/
def st (w : Wave) (e : Nat := 0) : State :=
  { State.reset.withTeam 0 1 with clk := 100, waves := [(7, w)], nextWave := 8, cur := some (ctx e) }

/-- What that word sees. -/
def env (w : Wave) (e : Nat := 0) : Env := ⟨7, e, w, spl, ctx e, w.serial + 1, 0⟩

/-- The wave in its handler split. -/
def hwav : Wave := { wav with live := [some { spl with stop := true }, none, none, none], t := { wav.t with handler := some spl } }

/-- A wave of another role. -/
def rwav (r : Role) : Wave := { wav with role := r }

theorem issues (w : Wave) (e : Nat) (h : w.split? e = some spl) (p : w.r.badP = [] := by rfl) : (st w e).Issues (env w e) :=
  ⟨rfl, rfl, rfl, h, rfl, rfl, fun _ => by rw [show (env w e).w.r.badP = [] from p]; rfl⟩

/-- The bytes of a line of words. -/
def dataOf (ws : List Nat) : LineData := BitVec.ofNat 1024 (fieldsAt (ws.zipIdx.map fun x => (64 * x.2, x.1)))

/-- A line at its home, with the permissions R, W and X. -/
def memLine (line : Nat) (d : LineData) : Mem :=
  { tags := [(lineKey 0 (128 * line), { r := true, w := true, x := true, zero := false, frame := some (false, 65536) })]
    entries := [(entryKey (homeSlice (128 * line)) 0, { content := d, count := 1 })] }

/-- A code line whose one clause, at word 1, holds one word; KIND as given, word 1 a target. -/
def codeLine (kind : Nat) (w : Nat) : List Nat := [fieldsAt [(0, 3), (16, 1), (32, 1), (48, kind)], fieldsAt [(22, 1)], w]

/-- That line as a fetch gives it. -/
def fetched (line kind w : Nat) : Line := Line.ofData line (dataOf (codeLine kind w))

/-- The step answers a next state. -/
def Goes (i : Instr) (s : State) : Prop := ∃ t, exec i s = .next t

theorem test_meets_IntegerWords (h : Obligations.IntegerWordsWriteTheirResult) : Goes (.iadd g7 (.v 3) (.v 63) (.int 15) 3) (st wav) := by
  obtain ⟨t, x, e, -⟩ := h (.iadd g7 (.v 3) (.v 63) (.int 15) 3) _ (st wav) (env wav) rfl (issues wav 0 rfl) (by decide) ⟨.inr (by decide), rfl⟩
  exact ⟨_, e⟩

theorem test_meets_FloatWords (h : Obligations.FloatWordsWriteTheirResult) :
    Goes (.ffma g7 .rz (.k 3) (.k 1) (.flt 2) (.k 2) 0) (st wav) ∧
      ∃ z, ((st wav).addClass ⟨4, 0, 0, 0, (env wav).evSrc 1, [(6, 0)]⟩ (NsClass.inx).code).team? 4 = some z := by
  obtain ⟨t, x, e, -⟩ := h.1 (.ffma g7 .rz (.k 3) (.k 1) (.flt 2) (.k 2) 0) _ (st wav) (env wav) rfl (issues wav 0 rfl) (by decide)
    ⟨.inr (by decide), rfl⟩
  obtain ⟨z, hz, -⟩ := h.2 (st wav) ⟨4, 0, 0, 0, (env wav).evSrc 1, [(6, 0)]⟩ .inx _ rfl
  exact ⟨⟨_, e⟩, z, hz⟩

theorem test_meets_Tests (h : Obligations.TestsWriteTheirPredicate) : Goes (.icmp g7 true true .ge 7 .or (.v 2) (.v 4)) (st wav) := by
  obtain ⟨t, x, e, -⟩ := h (.icmp g7 true true .ge 7 .or (.v 2) (.v 4)) _ (st wav) (env wav) rfl (issues wav 0 rfl) (by decide) ⟨.inr (by decide), rfl⟩
  exact ⟨_, e⟩

theorem test_meets_WideWords (h : Obligations.WideWordsWriteTheirPair) :
    Goes (.lea g7 true 15 (.v 62) (.v 2) (.v 4) 0) (st wav) ∧ Goes (.iaddc g7 true 7 (.k 1) (.k 2) (.int 0) 0) (st wav) := by
  obtain ⟨t, x, e, -⟩ := h.1 (.lea g7 true 15 (.v 62) (.v 2) (.v 4) 0) _ (st wav) (env wav) rfl (issues wav 0 rfl) (by decide) ⟨.inr (by decide), rfl⟩
  obtain ⟨t', x', e', -⟩ := h.2 g7 true 7 (.k 1) (.k 2) (.int 0) 0 (st wav) (env wav) (issues wav 0 rfl) (by decide) ⟨.inr (by decide), rfl⟩
  exact ⟨⟨_, e⟩, _, e'⟩

theorem test_meets_LaneWords (h : Obligations.LaneWordsMoveBetweenLanes) :
    Goes (.movk g7 0 (.v 1)) (st wav) ∧ Goes (.vtok g7 0 (.v 1) (.int 3)) (st wav) ∧ Goes (.ktov g7 0 (.k 1) (.int 15) 0) (st wav) ∧
      Goes (.shflUp g7 5 7 3 (.v 1) (.int 0) 0) (st wav) ∧ Goes (.red g7 .fadd (.k 3) (.v 1) 0) (st wav) ∧
      Goes (.scan g7 true .imin 3 (.v 1) 0) (st wav) := by
  obtain ⟨_, _, e1, -⟩ := h.1.1 g7 0 (.v 1) (st wav) (env wav) (issues wav 0 rfl) (by decide) ⟨.inr (by decide), rfl⟩
  obtain ⟨_, _, e2, -⟩ := h.1.2.1 g7 0 (.v 1) (.int 3) (st wav) (env wav) (issues wav 0 rfl) (by decide) (by decide) ⟨.inr (by decide), rfl⟩
  obtain ⟨_, _, e3, -⟩ := h.1.2.2 g7 0 (.k 1) (.int 15) 0 (st wav) (env wav) (issues wav 0 rfl) (by decide) ⟨.inr (by decide), rfl⟩
  obtain ⟨_, _, e4, -⟩ := h.2.1 (.shflUp g7 5 7 3 (.v 1) (.int 0) 0) _ _ _ _ _ _ _ _ (st wav) (env wav) rfl (issues wav 0 rfl) (by decide) ⟨.inr (by decide), rfl⟩
  obtain ⟨_, _, e5, -⟩ := h.2.2.1 g7 .fadd (.k 3) (.v 1) 0 (st wav) (env wav) (issues wav 0 rfl) (by decide) ⟨.inr (by decide), rfl⟩
  obtain ⟨_, _, e6, -⟩ := h.2.2.2 g7 true .imin 3 (.v 1) 0 (st wav) (env wav) (issues wav 0 rfl) (by decide) ⟨.inr (by decide), rfl⟩
  exact ⟨⟨_, e1⟩, ⟨_, e2⟩, ⟨_, e3⟩, ⟨_, e4⟩, ⟨_, e5⟩, _, e6⟩

theorem test_meets_PairWord (h : Obligations.PairWordReadsBeforeItWrites) :
    Goes (.pairWord ⟨.iadd, 7, 4, .v 5, 0⟩ ⟨.mov, 7, 5, .v 4, 0⟩) (st wav) := by
  obtain ⟨_, _, e, -⟩ := h ⟨.iadd, 7, 4, .v 5, 0⟩ ⟨.mov, 7, 5, .v 4, 0⟩ (st wav) (env wav) (issues wav 0 rfl) (.inr (by decide)) rfl rfl
  exact ⟨_, e⟩

/-- A wave whose v1 has been released in lane 2. -/
def dwav : Wave := { wav with r := { wav.r with tag := [(vkey 1 2, 4)] } }

theorem test_meets_ReleasedSlots (h : Obligations.ReleasedSlotsTrapWhereTheyAreRead) :
    Goes (.rel g7 63 1) (st wav) ∧ Goes (.iadd g7 (.v 3) (.v 0) (.v 1) 0) (st dwav) := by
  obtain ⟨_, _, e1, -⟩ := h.1 g7 63 1 (st wav) (env wav) (issues wav 0 rfl)
  obtain ⟨_, _, _, e2, -⟩ := h.2 (.iadd g7 (.v 3) (.v 0) (.v 1) 0) g7 _ (st dwav) (env dwav) 1 rfl (issues dwav 0 rfl) rfl (by decide) (by decide)
  exact ⟨⟨_, e1⟩, _, e2⟩

/-- Engine 0, owned by the wave's team. -/
def eng (e : Engine) (s : State) : State := s.setEngine 0 { e with owner := some 4 }

/-- The engine program of core 0 issues. -/
def ectx : Ctx := { ctx 0 with who := .engine 0 }

/-- The state in which the engine program issues. -/
def est (e : Engine) : State := { eng e (st wav) with cur := some ectx }

theorem test_meets_ShapeWords (h : Obligations.ShapeWordsWriteTheEngine) :
    Goes (.tcfg g7 7 (.k 0)) (st wav) ∧ Goes (.omcfg g7 0 (.k 0)) (eng {} (st wav)) ∧ Goes (.tcfg .always 7 (.k 15)) (est {}) ∧
      Goes (.omcfg g7 7 (.k 0)) ((st wav).setEngine 0 { owner := some 9 }) := by
  obtain ⟨⟨_, e1, -⟩, -⟩ := h.1 g7 7 (.k 0) (st wav) (env wav) (issues wav 0 rfl) (by decide) ⟨.inr (by decide), rfl⟩ (.inl (by decide))
  obtain ⟨-, _, e2, -⟩ := h.1 g7 0 (.k 0) (eng {} (st wav)) (env wav) ⟨rfl, rfl, rfl, rfl, rfl, rfl, fun _ => rfl⟩ (by decide) ⟨.inr (by decide), rfl⟩
    (.inr ⟨by decide, by decide⟩)
  obtain ⟨_, _, _, e3, -⟩ := h.2.1 (.omcfg g7 7 (.k 0)) g7 7 (.k 0) ((st wav).setEngine 0 { owner := some 9 }) (env wav) (.inr rfl) ⟨rfl, rfl, rfl, rfl, rfl, rfl, fun _ => rfl⟩ (by decide)
    ⟨.inr (by decide), rfl⟩ (by decide)
  exact ⟨⟨_, e1⟩, ⟨_, e2⟩, ⟨_, (h.2.2 7 (.k 15) (est {}) ectx 0 0 rfl rfl (by decide)).1⟩, _, e3⟩

theorem test_meets_GoingOn (h : Obligations.GoingOnMovesOnlySplits) :
    ((st wav).goOn (env wav)).wave? 7 ≠ none ∧ ((st wav).moveTo 7 0 (pcAt 5 1) .none).wave? 7 ≠ none ∧
      ∃ x y, ((st wav).goOn (env wav)).wave? 7 = some x ∧ x.split? 0 = some y ∧ y.pc = pcAt 1 3 := by
  obtain ⟨_, e1, -⟩ := h.1 (st wav) (env wav) wav rfl
  obtain ⟨_, e2, -⟩ := h.2.1 (st wav) 7 0 (pcAt 5 1) .none wav rfl
  obtain ⟨x, y, e3, e4, e5, -⟩ := h.2.2 (st wav) (env wav) wav spl rfl rfl rfl
  exact ⟨by rw [show (7 : Nat) = (env wav).u from rfl, e1]; simp, by rw [e2]; simp, x, y, e3, e4, congrArg Prod.fst e5⟩

theorem test_meets_WaitingWords (h : Obligations.WaitingWordsGoOn) :
    Goes .trn (st wav) ∧ Goes (.yield g7) (st wav) ∧ Goes (.sleep g7 (.int 1)) (st wav) ∧ Goes (.nop .always) (est {}) := by
  obtain ⟨_, _, e1, -⟩ := h.1 .trn (st wav) (env wav) (.inl rfl) (issues wav 0 rfl)
  obtain ⟨_, _, _, e2, -⟩ := h.2.1 g7 (st wav) (env wav) (issues wav 0 rfl) (by decide)
  obtain ⟨_, _, _, e3, -⟩ := h.2.2.1 g7 (.int 1) (st wav) (env wav) (issues wav 0 rfl) (by decide) ⟨.inr (by decide), rfl⟩ (by decide)
  exact ⟨⟨_, e1⟩, ⟨_, e2⟩, ⟨_, e3⟩, _, h.2.2.2 0 ectx (est {}) rfl rfl⟩

/-- A wave with a function line at line 5. -/
def jst (w : Wave) : State := { st w with mem := memLine 5 (dataOf (codeLine 2 0)) }

/-- A wave whose split came by `trc` from the header of line 5. -/
def twav : Wave := { wav with live := [some { spl with tlr := pcAt 5 1 }, none, none, none] }

theorem hasLine (s : State) (h : s.mem = memLine 5 (dataOf (codeLine 2 0))) : s.HasLine 0 5 (fetched 5 2 0) :=
  ⟨_, by rw [h]; rfl, rfl, by rw [h]; rfl, by rw [h]; decide +kernel⟩

theorem targetOk (t : State) : t.targetOk 0 (.call none) (fetched 5 2 0) 1 = true := by
  have a : (fetched 5 2 0).isTarget 1 = true := by decide +kernel
  have b : (fetched 5 2 0).kind = 2 := by decide +kernel
  simp [State.targetOk, a, b]

/-- A wave whose p0 is true in the lanes 2 and 3, with entries and overflow entries of this split. -/
def fwav (live : List (Option Split)) (ovf : List Split) : Wave := { wav with r := { wav.r with p := [(0, 0xC)] }, live := live, ovf := ovf }

/-- A call in those lanes to line 5. -/
def callForm : Jump := ⟨⟨false, 0⟩, [], fun v => .call v.ctx.patchSrc, fun _ v _ => targetAt v.ctx.pc ⟨4, 1⟩ 0, true, false⟩

theorem callDest (w : Wave) (e : Nat) (s : State) (l : Nat) : callForm.dest s (env w e) l = some (pcAt 5 1) := by
  have h : targetAt (pcAt 1 2) ⟨4, 1⟩ 0 = some (pcAt 5 1) := by decide +kernel
  simpa [callForm, env, ctx] using h

/-- The others go on at word 3. -/
theorem callDivides (w : Wave) (e : Nat) (s : State) (a : (env w e).active ⟨false, 0⟩ = 0xC) :
    Divides 0xF (callForm.goesTo s (env w e)) (fun l => true && hasLane ((env w e).active ⟨false, 0⟩) l)
      [⟨pcAt 1 3, false, 3⟩, ⟨pcAt 5 1, true, 0xC⟩] := by
  have out : ∀ (m : Mask) (l : Nat), ¬ l < 32 → hasLane m l = false := fun m l h => BitVec.getLsbD_of_ge m l (by omega)
  have dest : ∀ l, callForm.goesTo s (env w e) l = if hasLane 0xC l then pcAt 5 1 else pcAt 1 3 := fun l => by
    simp only [Jump.goesTo, callDest, Option.getD_some, show callForm.g = ⟨false, 0⟩ from rfl, a]
    rfl
  simp only [a]
  refine ⟨fun g hg => ?_, fun l hl => ?_, by decide⟩
  · simp only [List.mem_cons, List.not_mem_nil, or_false] at hg
    rcases hg with rfl | rfl
    · refine ⟨by decide, fun l => ?_⟩
      rw [dest]
      by_cases h : l < 32
      · exact (by decide +kernel : ∀ l : Fin 32, hasLane 3 l.val = true ↔ (hasLane 0xF l.val = true ∧
          (if hasLane 0xC l.val then pcAt 5 1 else pcAt 1 3) = pcAt 1 3 ∧ (true && hasLane 0xC l.val) = false)) ⟨l, h⟩
      · simp [out _ _ h]
    · refine ⟨by decide, fun l => ?_⟩
      rw [dest]
      by_cases h : l < 32
      · exact (by decide +kernel : ∀ l : Fin 32, hasLane 0xC l.val = true ↔ (hasLane 0xF l.val = true ∧
          (if hasLane 0xC l.val then pcAt 5 1 else pcAt 1 3) = pcAt 5 1 ∧ (true && hasLane 0xC l.val) = true)) ⟨l, h⟩
      · simp [out _ _ h]
  · by_cases h : l < 32
    · exact (by decide +kernel : ∀ l : Fin 32, hasLane 0xF l.val = true →
        ∃ g ∈ [(⟨pcAt 1 3, false, 3⟩ : Group), ⟨pcAt 5 1, true, 0xC⟩], hasLane g.mask l.val = true) ⟨l, h⟩ hl
    · rw [out _ _ h] at hl
      exact nomatch hl

/-- Room for the set that leaves, a full stack, and a handler split. -/
def fwav1 : Wave := fwav [some spl, none, none, none] []
/-- A full table. -/
def fwav2 : Wave := fwav [some spl, some spl, some spl, some spl] (List.replicate 12 spl)
/-- The handler split of a wave with that predicate. -/
def fhwav : Wave := { hwav with r := { wav.r with p := [(0, 0xC)] } }

theorem callReaches (w : Wave) (e : Nat) (s : State) (hs : s.mem = memLine 5 (dataOf (codeLine 2 0))) (ha : w.asid = 0) :
    Reaches s (env w e) callForm (pcAt 5 1) :=
  ⟨(by decide +kernel : targetShape (.call none) (pcAt 5 1) = true), fetched 5 2 0, by rw [show (env w e).w.asid = 0 from ha]; exact hasLine _ hs,
    fun t _ => by rw [show (env w e).w.asid = 0 from ha]; exact targetOk t⟩

theorem test_meets_Divergence (h : Obligations.JumpsReachTheirTarget) : Goes (.call ⟨false, 0⟩ ⟨4, 1⟩) (jst fwav1) ∧
    Goes (.call ⟨false, 0⟩ ⟨4, 1⟩) (jst fwav2) ∧ Goes (.call ⟨false, 0⟩ ⟨4, 1⟩) { jst fhwav with cur := some (ctx 4) } := by
  have hyp := fun (w : Wave) (e : Nat) (s : State) (hs : s.mem = memLine 5 (dataOf (codeLine 2 0))) (ha : w.asid = 0)
      (hl : w.live.length = 4) (act : (env w e).active ⟨false, 0⟩ = 0xC) (hi : s.Issues (env w e)) (hr : s.Readable (env w e) 0xC []) =>
    h.2.1 (.call ⟨false, 0⟩ ⟨4, 1⟩) callForm s (env w e) ⟨pcAt 1 3, false, 3⟩ [⟨pcAt 5 1, true, 0xC⟩] rfl hi (act ▸ hr) hl
      (fun l _ pc hp => .inl (by rw [← Option.some.inj ((callDest w e s l).symm.trans hp)]; exact callReaches w e s hs ha))
      (fun l _ hp => nomatch (callDest w e s l).symm.trans hp) (callDivides w e s act) (List.cons_ne_nil _ _)
  obtain ⟨_, _, _, e1, -⟩ := (hyp fwav1 0 (jst fwav1) rfl rfl rfl (by decide) ⟨rfl, rfl, rfl, rfl, rfl, rfl, fun _ => rfl⟩ ⟨.inr (by decide), rfl⟩).1
    (by decide) (by decide)
  obtain ⟨_, _, e2, -⟩ := (hyp fwav2 0 (jst fwav2) rfl rfl rfl (by decide) ⟨rfl, rfl, rfl, rfl, rfl, rfl, fun _ => rfl⟩ ⟨.inr (by decide), rfl⟩).2.1
    (by decide) (by decide)
  obtain ⟨_, _, e3, -⟩ := (hyp fhwav 4 { jst fhwav with cur := some (ctx 4) } rfl rfl rfl (by decide) ⟨rfl, rfl, rfl, rfl, rfl, rfl, fun _ => rfl⟩
    ⟨.inr (by decide), rfl⟩).2.2 rfl
  exact ⟨⟨_, e1⟩, ⟨_, e2⟩, _, e3⟩

theorem test_meets_Jumps (h : Obligations.JumpsReachTheirTarget) : Goes (.call g7 ⟨4, 1⟩) (jst wav) ∧ Goes .trr (jst twav) ∧
    Goes (.brx g7 ⟨4, 1⟩ (.int 8) 8) (st wav) := by
  obtain ⟨_, _, _, e1, -⟩ := h.1 (.call g7 ⟨4, 1⟩) _ (jst wav) (env wav) (pcAt 5 1) (fetched 5 2 0) rfl ⟨rfl, rfl, rfl, rfl, rfl, rfl, fun _ => rfl⟩ (by decide) (by decide)
      ⟨.inr (by decide), rfl⟩ (by decide) (by decide) (by decide) (fun _ _ _ _ h => nomatch h) (hasLine _ rfl) (fun t _ => targetOk t)
  obtain ⟨_, _, e3, -⟩ := h.2.2.1 g7 ⟨4, 1⟩ (.int 8) 8 (st wav) (env wav) (issues wav 0 rfl) (by decide) ⟨.inr (by decide), rfl⟩
    (fun l _ h => absurd h (Nat.lt_irrefl _))
  obtain ⟨_, _, e2, -⟩ := h.2.2.2 (jst twav) { env twav with sp := { spl with tlr := pcAt 5 1 } } (fetched 5 2 0) ⟨rfl, rfl, rfl, rfl, rfl, rfl, fun _ => rfl⟩ (by decide)
      (by decide) (hasLine _ rfl) (.inr (.inl (by decide +kernel)))
  exact ⟨⟨_, e1⟩, ⟨_, e2⟩, _, e3⟩

theorem test_meets_WordsInNoLane (h : Obligations.WordsInNoLaneDoNothing) :
    Goes (.iadd ⟨true, 7⟩ (.v 3) (.v 0) (.v 1) 0) (st wav) ∧ Goes (.bra ⟨true, 7⟩ ⟨0, 1⟩) (st wav) ∧ Goes (.exit ⟨true, 7⟩) (st wav) := by
  obtain ⟨_, _, e1, -⟩ := h.1 (.iadd ⟨true, 7⟩ (.v 3) (.v 0) (.v 1) 0) _ _ (st wav) (env wav) rfl (issues wav 0 rfl) (by decide)
  obtain ⟨_, _, e2, -⟩ := h.2 (.bra ⟨true, 7⟩ ⟨0, 1⟩) _ (st wav) (env wav) (.inl ⟨_, rfl, rfl, rfl, fun _ _ h => Instr.noConfusion h⟩) (issues wav 0 rfl) (by decide)
  obtain ⟨_, _, e3, -⟩ := h.2 (.exit ⟨true, 7⟩) _ (st wav) (env wav) (.inr (.inl rfl)) (issues wav 0 rfl) (by decide)
  exact ⟨⟨_, e1⟩, ⟨_, e2⟩, _, e3⟩

theorem test_meets_ExitedLanes (h : Obligations.ExitedLanesLeaveEverySplit) :
    Goes (.exit g7) (st wav) ∧ Goes (.exit g7) (st hwav 4) ∧ Goes (.exit .always) (est {}) := by
  obtain ⟨_, _, _, -, -, -, e1, -⟩ := h.1 g7 (st wav) (env wav) (issues wav 0 rfl) (by decide) (by decide)
  obtain ⟨_, _, _, -, -, -, e2, -⟩ := h.1 g7 (st hwav 4) (env hwav 4) (issues hwav 4 rfl) (by decide) (by decide)
  obtain ⟨_, e3, -⟩ := h.2 0 ectx (est {}) rfl rfl
  exact ⟨⟨_, e1⟩, ⟨_, e2⟩, _, e3⟩

/-- The wave's split with the word in its fetch buffer: partition 0 has one candidate. -/
def cwav : Wave := { wav with live := [some { spl with buf := some (fetched 1 1 0) }, none, none, none] }

theorem test_meets_TheBest (h : Obligations.TheBestEligibleSplitIssues) :
    Goes (.issueSelect 0 0) { st cwav with cur := none } ∧ Goes (.issueSelect 0 4) { est { run := true, buf := some (fetched 1 1 0), arrived := true, mepc := pcAt 1 2 } with cur := none } := by
  obtain ⟨_, _, e1, -⟩ := h.1 0 0 { st cwav with cur := none } (by decide) (by decide +kernel) (by decide)
  exact ⟨⟨_, e1⟩, _, h.2 0 _ (by decide +kernel)⟩

/-- A wave whose split is as given. -/
def swav (x : Split) : Wave := { wav with live := [some x, none, none, none] }

theorem test_meets_SplitsWake (h : Obligations.SplitsWakeAndWavesEnd) :
    Goes (.sleepEnd 7 0) (st (swav { spl with sleepTo := some 0 })) ∧ Goes (.overflowPop 7 3) (st { wav with ovf := [spl], pops := [3] }) ∧
      Goes (.mergeHoldExpiry 7 0) (st (swav { spl with mergeTo := some 100 })) ∧
      Goes (.fetchLine 7 0) (jst (swav { spl with pc := pcAt 5 1 })) ∧ Goes (.waveEnd 7) (st { wav with exited := 0xFFFFFFFF, live := [none, none, none, none] }) := by
  obtain ⟨_, _, _, e1, -⟩ := h.1.1 7 0 (st (swav { spl with sleepTo := some 0 })) _ _ 0 rfl rfl rfl (by decide)
  obtain ⟨_, _, _, e2, -⟩ := h.1.2.1 7 3 (st { wav with ovf := [spl], pops := [3] }) _ _ _ rfl rfl (by decide) rfl rfl (by decide) rfl
  obtain ⟨_, _, _, e3, -⟩ := h.1.2.2.1 7 0 (st (swav { spl with mergeTo := some 100 })) _ _ 100 rfl rfl rfl (by decide)
  obtain ⟨_, _, _, e4, -⟩ := h.1.2.2.2 7 0 (jst (swav { spl with pc := pcAt 5 1 })) _ _ (fetched 5 2 0) rfl rfl (by decide +kernel) (by decide) rfl
    (hasLine _ rfl) (by decide +kernel)
  obtain ⟨_, e5, -⟩ := h.2 7 (st { wav with exited := 0xFFFFFFFF, live := [none, none, none, none] }) _ rfl (by decide +kernel)
  exact ⟨⟨_, e1⟩, ⟨_, e2⟩, ⟨_, e3⟩, ⟨_, e4⟩, _, e5⟩

/-- A load at 0 of each lane, with the given displacement. -/
def load (d : Nat) : Instr := .ld g7 .b32 false 4 (.v 0) (.int d) 0

theorem test_meets_AccessWords (h : Obligations.AccessWordsBecomeOutstanding) :
    Goes (load 0) (st wav) ∧ Goes (.stRel g7 .die .b64 true (.k 0) (.int 8) (.v 2)) (st wav) := by
  obtain ⟨_, _, e1, -⟩ := h (load 0) _ (st wav) (env wav) 0 rfl (issues wav 0 rfl) rfl ⟨rfl, by decide⟩ (by decide) (fun _ h => nomatch h)
    ⟨.inr (by decide), rfl⟩ (by decide +kernel) (by decide +kernel) (by decide +kernel)
  obtain ⟨_, _, e2, -⟩ := h (.stRel g7 .die .b64 true (.k 0) (.int 8) (.v 2)) _ (st wav) (env wav) 1 rfl (issues wav 0 rfl) rfl ⟨rfl, by decide⟩
    (by decide) (fun sc _ => .inr ⟨by decide, fun _ => ⟨by decide, by decide⟩⟩) ⟨.inr (by decide), rfl⟩ (by decide +kernel) (by decide +kernel) (by decide +kernel)
  exact ⟨⟨_, e1⟩, _, e2⟩

theorem test_meets_Refused (h : Obligations.RefusedAddressTrapsPrecisely) : Goes (load 1) (st wav) := by
  obtain ⟨_, _, e, -⟩ := h (load 1) _ (st wav) (env wav) 0 3 (.addr, 0) rfl (issues wav 0 rfl) rfl ⟨rfl, by decide⟩ (by decide) (fun _ h => nomatch h)
    (by decide +kernel) (by decide +kernel) (by decide +kernel)
  exact ⟨_, e⟩

theorem test_meets_RoleViolation (h : Obligations.RoleViolationIsIllegal) : Goes (.st g7 .b32 false (.v 0) (.int 0) (.v 2)) (st (rwav .loader)) := by
  obtain ⟨_, _, e, -⟩ := h (.st g7 .b32 false (.v 0) (.int 0) (.v 2)) _ (st (rwav .loader)) (env (rwav .loader)) 0 rfl (issues _ 0 rfl)
    (fun h => nomatch h) rfl
  exact ⟨_, e⟩

/-- Core 0's L1 holds one line of deep memory, with the given valid and dirty bytes. -/
def l1st (s : State) (line : Nat) (v d : ByteMask) (w : Bool) : State :=
  { s with cores := [(0, { Core.reset 0 with l1 := [(lineKey 0 (128 * line), { valid := v, dirty := d, r := true, w := w })] })] }

theorem test_meets_Release (h : Obligations.ReleaseWritesBackDirtyLines) : Goes (.fence g7 .quad) (l1st (st wav) 3 1 1 true) := by
  obtain ⟨_, _, _, _, e, -⟩ := h g7 .quad (l1st (st wav) 3 1 1 true) (env wav) ⟨rfl, rfl, rfl, rfl, rfl, rfl, fun _ => rfl⟩ (by decide) rfl rfl (by decide) (by decide +kernel)
    ⟨_, List.mem_singleton.mpr rfl, by decide⟩
  exact ⟨_, e⟩

/-- The outstanding operation of a word, whose lane 3 accesses this address. -/
def opOf (i : Instr) (addr : Nat) (data : List W32 := []) : Op :=
  { serial := 5, ins := i, pc := pcAt 1 1, entry := 0, ver := 0, flag := some 0, issued := 8, args := [⟨3, BitVec.ofNat 64 addr, data⟩], todo := 8 }

/-- The wave with that operation outstanding. -/
def owav (o : Op) : Wave := { wav with ops := [o], serial := 6, r := { wav.r with f := [(0, 1)] } }

/-- Byte 0 of the team's scratchpad, on core 0. -/
def spad0 : Nat := 3 * 2 ^ 56

theorem lower_self (o : Op) (m : Mask) (x : LaneArg) (h : o.args = [x]) : o.lower m x = false := by simp [Op.lower, h]

theorem performs (i : Instr) (a : Nat) (d : List W32) (s : State) (h : s.wave? 7 = some (owav (opOf i a d))) (hm : (opOf i a d).movedAt ≠ s.clk + 1) :
    Performs s 7 5 3 (owav (opOf i a d)) (opOf i a d) ⟨3, BitVec.ofNat 64 a, d⟩ :=
  ⟨h, rfl, rfl, by decide, (by show hasLane 8 3 = true; decide), ⟨by simp [Op.atRest, opOf, hasLane], by simp [opOf, hasLane]⟩,
    ⟨by simp [Wave.lineBusy, Op.precedes, owav, opOf], by unfold Op.lowerFirst; split <;> exact lower_self _ _ _ rfl⟩, by
      have e : (owav (opOf i a d)).lineParked (opOf i a d) (lineKey wav.asid (BitVec.ofNat 64 a).toNat) = false := by
        simp [Wave.lineParked, Op.precedes, owav, opOf]
      unfold Wave.parksBehind
      rw [show (owav (opOf i a d)).asid = wav.asid from rfl, e, Bool.false_or]
      split <;> rfl, hm⟩

theorem noFrames (s : State) (k : Nat) (h : s.graph = (st wav).graph) : ∀ z, s.team? k = some z → z.frames = [] := by
  intro z
  rw [State.team?, h]
  show smFind [(4, _)] k = some z → _
  simp only [smFind]
  split
  · rintro ⟨⟩; rfl
  · exact fun h => nomatch h

theorem noBad (s : State) (k i : Nat) (h : s.graph = (st wav).graph) : (s.team? k).elim true (fun y => !smGet false y.bad i) = true := by
  rw [State.team?, h]
  show ((smFind [(4, _)] k).elim true _) = true
  simp only [smFind]
  split <;> rfl

/-- The tag of a line that may be read, and written as given. -/
def tag (w : Bool := true) : Tag := { r := true, w := w, x := true, zero := false, frame := some (false, 65536) }

/-- The home of line 3 of deep memory holds it in an entry of its own, with the given bytes. -/
def home (s : State) (d : LineData) (w : Bool := true) : State :=
  { s with mem := { tags := [(384, tag w)], entries := [(entryKey 3 0, { content := d, count := 1 })] } }

theorem ownLine (s : State) (d : LineData) (h : s.mem.tags = [(384, tag)]) (h' : s.mem.entries = [(entryKey 3 0, { content := d, count := 1 })]) :
    OwnLine s 384 tag { content := d, count := 1 } :=
  ⟨by rw [h]; rfl, rfl, rfl, rfl, by rw [h']; rfl, rfl, by decide⟩

theorem beyond (s : State) (d : LineData) (h : s.mem.tags = [(384, tag)]) (h' : s.mem.entries = [(entryKey 3 0, { content := d, count := 1 })])
    (f : s.backFmt 384 = 0) : Beyond s (lineKey 0 (BitVec.ofNat 64 384).toNat) d := by
  rw [show lineKey 0 (BitVec.ofNat 64 384).toNat = 384 by decide +kernel]
  exact ⟨by rw [f]; decide, fun _ => ⟨_, _, ownLine s d h h', rfl, rfl, rfl⟩, fun w => absurd w (by decide +kernel)⟩

/-- The wave with a word outstanding whose lane 3 accesses line 3, which is at its home. -/
def atHomeSt (i : Instr) (data : List W32 := []) : State := home (st (owav (opOf i 384 data))) 0

theorem test_meets_Loads (h : Obligations.LoadsTakeTheBytesAtHand) :
    Goes (.memAccessComplete 7 5 (laneBit 3)) (st (owav (opOf (load 0) spad0))) ∧
      Goes (.memAccessComplete 7 5 (laneBit 3)) (l1st (st (owav (opOf (load 0) 384))) 3 0xF 0 false) ∧
      Goes (.memAccessComplete 7 5 (laneBit 3)) (atHomeSt (.ldAcq g7 .die .b32 false (.v 4) (.v 0) (.int 0) 0)) ∧
      Goes (.memAccessComplete 7 5 (laneBit 3)) (atHomeSt (.ldCv g7 false false 4 (.v 0) (.v 2) 0) [1]) ∧
      Goes (.memAccessComplete 7 5 (laneBit 3)) (st (owav (opOf (.fePeek g7 false 4 (.v 0) (.int 0) 0) spad0))) := by
  obtain ⟨_, _, e1, -⟩ := h.1 (st (owav (opOf (load 0) spad0))) 7 5 3 _ _ _ [0, 0, 0, 0] _ _ _ (performs _ _ _ _ rfl (by decide)) rfl rfl (fun _ h => nomatch h)
    (by decide +kernel) rfl (by decide +kernel) (fun k _ _ _ _ => noBad _ k _ rfl) (fun z hz => nomatch (show none = some z from hz))
  obtain ⟨_, _, e2, -⟩ := h.1 (l1st (st (owav (opOf (load 0) 384))) 3 0xF 0 false) 7 5 3 _ _ _ [0, 0, 0, 0] _ _ _ (performs _ _ _ _ rfl (by decide)) rfl rfl
    (fun _ h => nomatch h) (by decide +kernel) rfl (by decide +kernel) (fun k _ _ _ _ => noBad _ k _ rfl)
    (fun z hz => by
      rw [show (l1st (st (owav (opOf (load 0) 384))) 3 0xF 0 false).l1 (owav (opOf (load 0) 384)).core (lineKey (owav (opOf (load 0) 384)).asid
        (BitVec.ofNat 64 384).toNat) = some (L1Line.mk 0 0xF 0 0 true false) by decide +kernel] at hz
      cases hz; exact BitVec.zero_and)
  obtain ⟨_, _, e3, -⟩ := h.2.1 (atHomeSt (.ldAcq g7 .die .b32 false (.v 4) (.v 0) (.int 0) 0)) 7 5 3 _ _ _ 0 _ _ _ _ _ _ _ _
    (performs _ _ _ _ rfl (by decide)) rfl rfl rfl (by decide +kernel) (by decide +kernel) (beyond _ _ rfl rfl (by decide +kernel)) ⟨by decide +kernel, by decide +kernel⟩
  obtain ⟨_, _, e4, -⟩ := h.2.2.1 (atHomeSt (.ldCv g7 false false 4 (.v 0) (.v 2) 0) [1]) 7 5 3 _ _ _ 0 _ _ _ _ _ _ _
    (performs _ _ _ _ rfl (by decide)) rfl rfl (by decide +kernel) (beyond _ _ rfl rfl (by decide +kernel)) ⟨by decide +kernel, by decide +kernel⟩
  obtain ⟨_, _, e5, -⟩ := h.2.2.2 (st (owav (opOf (.fePeek g7 false 4 (.v 0) (.int 0) 0) spad0))) 7 5 3 _ _ _ _ _ _ _ _ _ 4 0
    (performs _ _ _ _ rfl (by decide)) rfl rfl (by decide +kernel)
  exact ⟨⟨_, e1⟩, ⟨_, e2⟩, ⟨_, e3⟩, ⟨_, e4⟩, _, e5⟩

theorem atTeam (s : State) (w : Wave) (a : Nat) (h : s.graph = (st wav).graph) (ha : (s.spadAt w a).map Prod.fst = some 4) {k off : Nat}
    (e : s.spadAt w a = some (k, off)) : (s.team? k).isSome = true := by
  rw [e] at ha; cases ha
  rw [State.team?, h]; rfl

theorem test_meets_Stores (h : Obligations.StoresWriteTheirBytesOnly) :
    Goes (.memAccessComplete 7 5 (laneBit 3)) (st (owav (opOf (.st g7 .b32 false (.v 0) (.int 0) (.v 2)) spad0 [1]))) ∧
      Goes (.memAccessComplete 7 5 (laneBit 3)) (st (owav (opOf (.st g7 .b128 false (.v 0) (.int 0) (.v 2)) 384 [1, 2, 3, 4]))) ∧
      Goes (.memAccessComplete 7 5 (laneBit 3)) (atHomeSt (.stRel g7 .die .b32 false (.v 0) (.int 0) (.v 2)) [1]) ∧
      Goes (.memAccessComplete 7 5 (laneBit 3)) (atHomeSt (.stCv g7 .rn false (.v 0) (.v 2) (.v 3)) [1, 0x3F800000]) ∧
      Goes (.memAccessComplete 7 5 (laneBit 3)) (st (owav (opOf (.stFeFill g7 .b32 false (.v 0) (.int 0) (.v 2)) spad0 [1]))) ∧
      Goes (.memAccessComplete 7 5 (laneBit 3)) (st (owav (opOf (.feSet g7 true false (.v 0) (.int 0)) spad0))) := by
  obtain ⟨_, _, e1, -⟩ := h.1 (st (owav (opOf (.st g7 .b32 false (.v 0) (.int 0) (.v 2)) spad0 [1]))) 7 5 3 _ _ _ _ _ (performs _ _ _ _ rfl (by decide)) rfl
    (by decide +kernel) (fun _ h => nomatch h) rfl (fun _ _ e => atTeam _ _ _ rfl (by decide +kernel) e) (by decide +kernel)
  obtain ⟨_, _, e2, -⟩ := h.1 (st (owav (opOf (.st g7 .b128 false (.v 0) (.int 0) (.v 2)) 384 [1, 2, 3, 4]))) 7 5 3 _ _ _ _ _ (performs _ _ _ _ rfl (by decide)) rfl
    (by decide +kernel) (fun _ h => nomatch h) rfl (fun _ _ e => atTeam _ _ _ rfl (by decide +kernel) e) (by decide +kernel)
  obtain ⟨_, _, e3, -⟩ := h.2.1 (atHomeSt (.stRel g7 .die .b32 false (.v 0) (.int 0) (.v 2)) [1]) 7 5 3 _ _ _ 0 _ _ _ _ _ _ _ (performs _ _ _ _ rfl (by decide)) rfl
    rfl (by decide +kernel) (by decide +kernel) rfl (beyond _ _ rfl rfl (by decide +kernel)) ⟨by decide +kernel, by decide +kernel⟩
  obtain ⟨_, _, e4, -⟩ := h.2.2.1 (atHomeSt (.stCv g7 .rn false (.v 0) (.v 2) (.v 3)) [1, 0x3F800000]) 7 5 3 _ _ _ 0 _ _ _ _ _ _ (performs _ _ _ _ rfl (by decide)) rfl
    (by decide +kernel) (beyond _ _ rfl rfl (by decide +kernel)) ⟨by decide +kernel, by decide +kernel⟩
  obtain ⟨_, _, e5, -⟩ := h.2.2.2.1 (st (owav (opOf (.stFeFill g7 .b32 false (.v 0) (.int 0) (.v 2)) spad0 [1]))) 7 5 3 _ _ _ _ _ _ _ _ _ 4 0 _
    (performs _ _ _ _ rfl (by decide)) rfl rfl (by decide +kernel) rfl
  obtain ⟨_, _, e6, -⟩ := h.2.2.2.2 (st (owav (opOf (.feSet g7 true false (.v 0) (.int 0)) spad0))) 7 5 3 _ _ _ _ _ _ _ _ 4 0 _
    (performs _ _ _ _ rfl (by decide)) rfl (by decide +kernel) rfl
  exact ⟨⟨_, e1⟩, ⟨_, e2⟩, ⟨_, e3⟩, ⟨_, e4⟩, ⟨_, e5⟩, _, e6⟩

/-- An addition of lane 3 at a scope. -/
def addAt (sc : Scope) : Instr := .atom g7 .rel sc .add false false (.v 5) (.v 0) (.v 2) 0

theorem test_meets_Atomics (h : Obligations.AtomicsReadModifyWrite) :
    Goes (.memAccessComplete 7 5 (laneBit 3)) (st (owav (opOf (addAt .core) spad0 [1]))) ∧
      Goes (.memAccessComplete 7 5 (laneBit 3)) (atHomeSt (addAt .die) [1]) ∧
      Goes (.memAccessComplete 7 5 (laneBit 3)) (home (l1st (st (owav (opOf (addAt .core) 384 [1]))) 3 0xF 0 false) 0) := by
  obtain ⟨_, _, e1, -⟩ := (h (st (owav (opOf (addAt .core) spad0 [1]))) 7 5 3 _ _ _ _ _ _ _ _ (performs _ _ _ _ rfl (by decide)) rfl rfl (by decide +kernel)).1 4 0 _
    (by decide +kernel) (by decide +kernel) rfl (fun _ => rfl)
  obtain ⟨_, _, e2, -⟩ := (h (atHomeSt (addAt .die) [1]) 7 5 3 _ _ _ _ _ _ _ _ (performs _ _ _ _ rfl (by decide)) rfl rfl (by decide +kernel)).2.1 0
    (by decide +kernel) rfl (beyond _ _ rfl rfl (by decide +kernel)) ⟨by decide +kernel, by decide +kernel⟩
  obtain ⟨_, _, e3, -⟩ := (h (home (l1st (st (owav (opOf (addAt .core) 384 [1]))) 3 0xF 0 false) 0) 7 5 3 _ _ _ _ _ _ _ _ (performs _ _ _ _ rfl (by decide)) rfl rfl
    (by decide +kernel)).2.2 0 (L1Line.mk 0 0xF 0 0 true false) [0, 0, 0, 0]
    (by decide +kernel) rfl (beyond _ _ rfl rfl (by decide +kernel)) (by decide +kernel) (by decide +kernel) rfl (by decide +kernel)
  exact ⟨⟨_, e1⟩, ⟨_, e2⟩, _, e3⟩

/-- A store of lane 3 whose bytes are in the L1 and whose permission is not known. -/
def probing : Op := { opOf (.st g7 .b32 false (.v 0) (.int 0) (.v 2)) 384 [1] with probe := 8 }

theorem test_meets_StoreProbe (h : Obligations.StoreProbeConfirmsOrDiscards) :
    Goes (.storePermProbe 7 5 (laneBit 3)) (home (l1st (st (owav probing)) 3 0xF 0xF false) 0) ∧
      Goes (.storePermProbe 7 5 (laneBit 3)) (home (l1st (st (owav probing)) 3 0xF 0xF false) 0 false) := by
  obtain ⟨_, _, e1, -⟩ := h (home (l1st (st (owav probing)) 3 0xF 0xF false) 0) 7 5 3 (owav probing) probing ⟨3, 384, [1]⟩ tag rfl rfl rfl (by decide) (by decide) (by decide) rfl
    (by decide +kernel) (by decide +kernel) (by decide +kernel)
  obtain ⟨_, _, e2, -⟩ := h (home (l1st (st (owav probing)) 3 0xF 0xF false) 0 false) 7 5 3 (owav probing) probing ⟨3, 384, [1]⟩ (tag false) rfl rfl rfl (by decide) (by decide) (by decide) rfl
    (by decide +kernel) (by decide +kernel) (by decide +kernel)
  exact ⟨⟨_, e1⟩, _, e2⟩

/-- A write-back of core 0 on its way. -/
def wbst (s : State) (key : Nat) (held : Bool) : State :=
  { s with mem := { s.mem with wbs := [⟨0, 0, key, 1, 1, held, false⟩], nextWb := 1, grants := [(0, 2 ^ 100 - 1)] } }

/-- Two write-backs of one line of core 0 are on their way. -/
def twoWbs : State := { st wav with mem := { (st wav).mem with wbs := [⟨0, 0, 384, 1, 1, false, false⟩, ⟨1, 0, 384, 2, 1, false, false⟩], nextWb := 2 } }

/-- Line 3 shares its entry with another tag. -/
def sharedHome : State := { st wav with mem := { tags := [(384, tag)], entries := [(entryKey 3 0, { count := 2 })] } }

/-- A write-back with an error. -/
def badWb : State := { st wav with mem := { (st wav).mem with wbs := [⟨0, 0, 384, 1, 1, false, true⟩], nextWb := 1 } }

theorem test_meets_WriteBacks (h : Obligations.WriteBacksLandWhereTheirLineLives) :
    Goes (.l1Writeback 0 0 384) (l1st (st wav) 3 1 1 true) ∧ Goes (.hmWriteArrive 0) (wbst (home (st wav) 0) 384 false) ∧
      Goes (.heldWritebackPerform 0) (wbst (st wav) (2 ^ 56) true) ∧ Goes (.hmWriteArrive 0) (wbst sharedHome 384 false) ∧
      Goes (.hmWriteArrive 0) badWb ∧ Goes (.hmWriteArrive 1) twoWbs := by
  obtain ⟨_, e1, -⟩ := h.1 (l1st (st wav) 3 1 1 true) 0 0 384 _ rfl
  obtain ⟨a, -⟩ := h.2.2 (wbst (home (st wav) 0) 384 false) (.hmWriteArrive 0) 0 _ (.inl ⟨rfl, rfl⟩) rfl (by decide +kernel) (by decide +kernel)
  obtain ⟨_, _, e2, -⟩ := a rfl _ _ (by decide +kernel) (ownLine _ 0 rfl rfl)
  obtain ⟨-, c, -⟩ := h.2.2 (wbst sharedHome 384 false) (.hmWriteArrive 0) 0 _ (.inl ⟨rfl, rfl⟩) rfl (by decide +kernel) (by decide +kernel)
  obtain ⟨_, _, e4, -⟩ := c rfl tag { count := 2 } (by decide +kernel) (by decide +kernel) rfl rfl rfl (by decide +kernel) (by decide) rfl (by decide)
    (by decide +kernel) (by decide +kernel)
  obtain ⟨-, -, d, -⟩ := h.2.2 badWb (.hmWriteArrive 0) 0 _ (.inl ⟨rfl, rfl⟩) rfl (by decide +kernel) (by decide +kernel)
  obtain ⟨_, e5, -⟩ := d rfl
  obtain ⟨-, -, -, b⟩ := h.2.2 (wbst (st wav) (2 ^ 56) true) (.heldWritebackPerform 0) 0 _ (.inr ⟨rfl, rfl⟩) rfl (by decide +kernel) (by decide +kernel)
  obtain ⟨_, e3, -⟩ := b rfl _ (by decide +kernel) (by decide +kernel) (by decide +kernel) rfl (by decide +kernel)
  exact ⟨⟨_, e1⟩, ⟨_, e2⟩, ⟨_, e3⟩, ⟨_, e4⟩, ⟨_, e5⟩, _, h.2.1 twoWbs (.hmWriteArrive 1) 1 _ (.inl rfl) rfl (by decide +kernel)⟩

/-- Page 0 of deep memory of address space 0 is frame 65536, readable, writable and executable, with the translation cached as given. -/
def paged (s : State) (cached : Bool) : State :=
  { s with mem := { s.mem with
    phys := [(0, 1), (2, 2), (0x20000, 1), (0x20002, 4), (0x40000, 0x3B), (0x40002, 1)]
    asids := [(0, { valid := true })]
    tlb := if cached then [⟨0, 0, false, 0, 0x1003B, false⟩] else [] } }

theorem fills (w : Wave) : Fills (paged (st w) true) 384 ⟨0, 0, false, 0, 0x1003B, false⟩ :=
  have h : Fills (paged (st wav) true) 384 ⟨0, 0, false, 0, 0x1003B, false⟩ := ⟨by decide, rfl, by decide +kernel, by decide, by decide, by decide⟩
  ⟨h.1, h.2, h.3, h.4, h.5, h.6⟩

/-- A line whose word 2 is a patch site that holds NOP. -/
def patchLine : LineData := dataOf [fieldsAt [(0, 3), (16, 1), (32, 1), (48, 1)], fieldsAt [(22, 1), (41, 1)], fieldsAt [(56, 0x0F)]]

/-- A wave whose split has one lane. -/
def spl1 : Split := { spl with mask := 1 }

/-- What its word sees. -/
def env1 : Env := { env (swav spl1) with sp := spl1 }

theorem test_meets_LinesAre (h : Obligations.LinesAreFilledFetchedAndPatched) :
    Goes (.hmFill 0 384) (paged (st wav) true) ∧ Goes (.pageWalk 0 384) (paged (st wav) false) ∧
      Goes (.patchStore 0 400 (BitVec.ofNat 64 (fieldsAt [(56, 0x0C), (0, 5)]))) (home (st wav) patchLine) ∧
      Goes (.pref g7 false (.v 0) (.int 384)) (home (st (swav spl1)) 0) ∧ Goes (.pref g7 true (.v 0) (.int 384)) (paged (st (swav spl1)) true) := by
  obtain ⟨_, _, e1, -⟩ := h.1.1 (paged (st wav) true) 0 384 _ (.inl (by decide)) (fills wav)
  obtain ⟨_, e2, -⟩ := h.1.2 (paged (st wav) false) 0 384 0x1003B false (by decide) (by decide +kernel) (by decide +kernel)
  obtain ⟨_, _, e3, -⟩ := h.2.1 (home (st wav) patchLine) 0 400 (BitVec.ofNat 64 (fieldsAt [(56, 0x0C), (0, 5)])) tag { content := patchLine, count := 1 } 1
    (by decide) (by decide) (by decide +kernel) (ownLine _ _ rfl rfl) rfl (by decide +kernel) (by decide +kernel) (by decide) (by decide +kernel)
  have one : lanesOf (env1.active g7) = [0] := by decide
  obtain ⟨_, _, e4, -⟩ := (h.2.2.1 g7 false (.v 0) (.int 384) (home (st (swav spl1)) 0) env1 ⟨rfl, rfl, rfl, rfl, rfl, rfl, fun _ => rfl⟩ rfl (by decide) ⟨.inr (by decide), rfl⟩
    (by decide +kernel)).1 rfl (fun l hl => by
      rw [one, List.mem_singleton] at hl
      subst hl
      exact ⟨.inl (by decide +kernel), by decide +kernel, by decide +kernel, by decide +kernel, tag, by decide +kernel, rfl⟩)
  obtain ⟨_, _, e5, -⟩ := (h.2.2.1 g7 true (.v 0) (.int 384) (paged (st (swav spl1)) true) env1 ⟨rfl, rfl, rfl, rfl, rfl, rfl, fun _ => rfl⟩ rfl (by decide) ⟨.inr (by decide), rfl⟩
    (by decide +kernel)).2 ⟨0, 0, false, 0, 0x1003B, false⟩ 0 rfl one (fills (swav spl1)) (by decide)
  exact ⟨⟨_, e1⟩, ⟨_, e2⟩, ⟨_, e3⟩, ⟨_, e4⟩, _, e5⟩

/-- A run of one line to be zeroed. -/
def zeroing : Op := { opOf (.hmzero g7 false (.k 0) (.int 1)) 0 with args := [⟨0, 384, [1]⟩], todo := 1 }

/-- The home with a dirty line 3. -/
def dirtyHome (s : State) : State := { home s 5 with mem := { (home s 5).mem with tags := [(384, { tag with dirty := true })] } }

theorem test_meets_Residency (h : ResidencyWordsActOnTheirLines) :
    Goes (.memAccessComplete 7 5 (laneBit 3)) (st (owav (opOf (.pin g7 false (.v 4) (.v 0) 0) spad0))) ∧
      Goes (.memAccessComplete 7 5 (laneBit 3)) (atHomeSt (.pin g7 false (.v 4) (.v 0) 0)) ∧
      Goes (.memAccessComplete 7 5 (laneBit 3)) (atHomeSt (.unpin g7 false (.v 4) (.v 0) 0)) := by
  obtain ⟨_, _, e1, -⟩ := (h.1 (st (owav (opOf (.pin g7 false (.v 4) (.v 0) 0) spad0))) 7 5 3 _ _ _ _ _ _ _ _ (performs _ _ _ _ rfl (by decide)) rfl rfl).1
    (by decide +kernel) (by decide +kernel)
  obtain ⟨_, _, e2, -⟩ := (h.1 (atHomeSt (.pin g7 false (.v 4) (.v 0) 0)) 7 5 3 _ _ _ _ _ _ _ _ (performs _ _ _ _ rfl (by decide)) rfl rfl).2 tag
    (.inl (by decide +kernel)) (by decide +kernel)
  obtain ⟨_, _, e3, -⟩ := h.2.1 (atHomeSt (.unpin g7 false (.v 4) (.v 0) 0)) 7 5 3 _ _ _ _ _ _ _ _ (performs _ _ _ _ rfl (by decide)) rfl rfl
  exact ⟨⟨_, e1⟩, ⟨_, e2⟩, _, e3⟩

theorem test_meets_Flushes (h : ResidencyWordsActOnTheirLines) :
    Goes (.memAccessComplete 7 5 (laneBit 3)) (l1st (atHomeSt (.flushL1 g7 false (.v 0))) 3 1 1 true) ∧
      Goes (.memAccessComplete 7 5 (laneBit 3)) (atHomeSt (.flushL1 g7 false (.v 0))) ∧
      Goes (.memAccessComplete 7 5 (laneBit 3)) (dirtyHome (st (owav (opOf (.flushHm g7 false (.v 0)) 384)))) ∧
      Goes (.memAccessComplete 7 5 (laneBit 3)) (atHomeSt (.invalHm g7 false (.v 0))) ∧
      Goes (.memAccessComplete 7 5 (laneBit 0)) (home (st (owav zeroing)) 5) := by
  obtain ⟨_, _, _, e1, -⟩ := (h.2.2.1 (l1st (atHomeSt (.flushL1 g7 false (.v 0))) 3 1 1 true) 7 5 3 _ _ _ _ _ _ (performs _ _ _ _ rfl (by decide)) (.inl rfl)).1
    { valid := 1, dirty := 1, r := true, w := true } (by decide +kernel) (by decide +kernel) (by decide) rfl
  obtain ⟨_, _, e2, -⟩ := (h.2.2.1 (atHomeSt (.flushL1 g7 false (.v 0))) 7 5 3 _ _ _ _ _ _ (performs _ _ _ _ rfl (by decide)) (.inl rfl)).2.1 rfl
    (.inr ⟨by decide +kernel, by decide +kernel⟩) rfl
  obtain ⟨_, _, e3, -⟩ := (h.2.2.1 (dirtyHome (st (owav (opOf (.flushHm g7 false (.v 0)) 384)))) 7 5 3 _ _ _ _ _ _ (performs _ _ _ _ rfl (by decide)) (.inr rfl)).2.2
    { tag with dirty := true } { content := 5, count := 1 } false 65536 rfl ⟨by decide +kernel, by decide +kernel⟩ rfl (.inl (by decide +kernel))
    ⟨by decide +kernel, rfl, rfl, rfl, by decide +kernel, rfl, by decide⟩ rfl rfl rfl
  obtain ⟨_, _, e4, -⟩ := h.2.2.2.1 (atHomeSt (.invalHm g7 false (.v 0))) 7 5 3 _ _ _ _ _ _ (performs _ _ _ _ rfl (by decide)) (.inr rfl) (by decide +kernel)
    (fun z _ _ hz => by
      rw [show smFind (atHomeSt (.invalHm g7 false (.v 0))).mem.tags (lineKey (owav (opOf (.invalHm g7 false (.v 0)) 384)).asid (BitVec.ofNat 64 384).toNat) = some tag
        by decide +kernel] at hz
      cases hz; rfl) (by decide +kernel)
  obtain ⟨_, _, e5, -⟩ := h.2.2.2.2 (home (st (owav zeroing)) 5) 7 5 (owav zeroing) zeroing _ _ _ _ _ rfl rfl rfl rfl (by decide) (by decide) (by decide) (by decide +kernel)
    (fun j hj => by
      have hj : j = 0 := by simpa using hj
      subst hj
      exact ⟨by decide +kernel, by decide +kernel, tag, by decide +kernel, rfl⟩)
  exact ⟨⟨_, e1⟩, ⟨_, e2⟩, ⟨_, e3⟩, ⟨_, e4⟩, _, e5⟩

/-- `ld.fe.take` of each lane. -/
def feLoad : Instr := .ldFe g7 .b32 true 4 (.v 0) (.int 0) 0

/-- A wave whose k1, k0 hold the address of byte 0 of the scratchpad. -/
def kwav : Wave := { wav with r := { wav.r with k := [(1, 0x3000000)] } }

/-- A wave whose split is held by it, its lane 3 at byte 0 of the scratchpad. -/
def fewav : Wave := swav { spl with block := .fe (opOf feLoad spad0) 0 }

/-- The granule 0 of the scratchpad is full. -/
def full (s : State) : State := { s with graph := { s.graph with teams := [(4, { core := some 0, regG := 4, spadG := 1, l1G := 1, slots := [0], fe := [(0, true)] })] } }

theorem test_meets_FullEmpty (h : Obligations.FullEmptyLoadsWaitTakeOrTimeOut) :
    Goes (.ldFe g7 .b32 true 4 (.k 0) (.int 0) 0) (st kwav) ∧ Goes (.ldFeGrant 7 0 3) (full (st fewav)) ∧
      Goes (.fetimeExpiry 7 0) { st fewav with graph := { (st fewav).graph with gangs := [(1, { kernel := 0, num := 0, state := .placed, cores := [0], ctxclk := 0x100000 })] } } := by
  obtain ⟨_, _, _, e1, -⟩ := h.1 g7 .b32 true 4 (.k 0) (.int 0) 0 (st kwav) (env kwav) (issues kwav 0 rfl) rfl (by decide) rfl ⟨.inr (by decide), rfl⟩
    (by decide) (by decide +kernel) (by decide +kernel)
  obtain ⟨_, _, e2, -⟩ := h.2.1 (full (st fewav)) 7 0 3 fewav _ (opOf feLoad spad0) 0 _ _ _ _ _ _ _ _ 4 0 _ rfl rfl rfl rfl rfl (by decide) (by decide) (by decide)
    (by decide +kernel) rfl rfl (fun _ => rfl) (by decide +kernel) (by decide +kernel)
  obtain ⟨_, _, _, e3, -⟩ := h.2.2 { st fewav with graph := { (st fewav).graph with gangs := [(1, { kernel := 0, num := 0, state := .placed, cores := [0], ctxclk := 0x100000 })] } }
    7 0 fewav _ (opOf feLoad spad0) 0 rfl rfl rfl (by decide +kernel) (by decide +kernel)
  exact ⟨⟨_, e1⟩, ⟨_, e2⟩, _, e3⟩

theorem test_meets_Once (h : Obligations.OnceWordsAwaitTheirAnswer) :
    Goes (.mbsend g7 false 7 (.k 0) 8) (st wav) ∧ Goes (.mint g7 true 4) (st wav) ∧ Goes (.mon g7 false 8) (st hwav 4) ∧
      Goes (.hmzero g7 false (.k 0) (.int 1)) (st wav) ∧ Goes (.hmstat g7 .tags false 5) (st wav) := by
  obtain ⟨_, _, e1, -⟩ := h.1 (.mbsend g7 false 7 (.k 0) 8) _ (st wav) (env wav) 0 rfl (issues wav 0 rfl) ⟨rfl, by decide⟩ (by decide)
    (fun _ _ => .inr ⟨by decide, fun _ => ⟨by decide, by decide⟩⟩) ⟨.inr (by decide), rfl⟩ (fun _ _ _ _ h => nomatch h)
  obtain ⟨_, _, e2, -⟩ := h.1 (.mint g7 true 4) _ (st wav) (env wav) 1 rfl (issues wav 0 rfl) ⟨rfl, by decide⟩ (by decide)
    (fun _ h => nomatch h) ⟨.inr (by decide), rfl⟩ (fun _ _ _ _ h => nomatch h)
  obtain ⟨_, _, e5, -⟩ := h.1 (.hmstat g7 .tags false 5) _ (st wav) (env wav) 0 rfl (issues wav 0 rfl) ⟨rfl, by decide⟩ (by decide)
    (fun _ h => nomatch h) ⟨.inr (by decide), rfl⟩ (fun _ _ _ _ _ => by decide)
  obtain ⟨_, _, e3, -⟩ := h.2.1 g7 false 8 (st hwav 4) (env hwav 4) 0 (issues hwav 4 rfl) rfl ⟨rfl, by decide⟩ (by decide) ⟨.inr (by decide), rfl⟩
  obtain ⟨_, _, e4, -⟩ := h.2.2 g7 false (.k 0) (.int 1) (st wav) (env wav) 0 (issues wav 0 rfl) ⟨rfl, by decide⟩ (by decide) ⟨.inr (by decide), rfl⟩ (by decide +kernel) (by decide +kernel)
  exact ⟨⟨_, e1⟩, ⟨_, e2⟩, ⟨_, e3⟩, ⟨_, e4⟩, _, e5⟩

theorem released (w : Wave) (e : Nat) (sc : Scope) (h : w.accessOut spl.mask = false) : Released (st w e) (env w e) (some sc) :=
  fun _ _ => .inr ⟨h, fun _ => ⟨fun _ h => (nomatch h), fun _ h => (nomatch h)⟩⟩

theorem test_meets_Fences (h : Obligations.FencesAcquireAndBarriersHold) :
    Goes (.fence g7 .pod) (st wav) ∧ Goes (.bar .pod) (st hwav 4) ∧ Goes (.bar .team) (st wav) ∧ Goes (.barc 3 (.k 0)) (st wav) ∧ Goes (.bar .wave) (st wav) := by
  obtain ⟨_, _, e1, -⟩ := h.1 g7 .pod (st wav) (env wav) (issues wav 0 rfl) (by decide) (released _ _ _ rfl)
  obtain ⟨_, _, e2, -⟩ := (h.2.1 (.bar .pod) .pod 0 (.k 0) (st hwav 4) (env hwav 4) (.inl rfl) (issues hwav 4 rfl) (released _ _ _ rfl) (fun h => nomatch h)).1 (.inl rfl)
  obtain ⟨_, _, _, e3, -⟩ := (h.2.1 (.bar .team) .team 0 (.k 0) (st wav) (env wav) (.inl rfl) (issues wav 0 rfl) (released _ _ _ rfl) (fun h => nomatch h)).2 (by decide) (by decide) rfl
  obtain ⟨_, _, _, e4, -⟩ := (h.2.1 (.barc 3 (.k 0)) .team 3 (.k 0) (st wav) (env wav) (.inr ⟨rfl, rfl⟩) (issues wav 0 rfl) (released _ _ _ rfl) (fun _ => ⟨.inr (by decide), rfl⟩)).2 (by decide) (by decide) rfl
  obtain ⟨_, _, _, _, e5, -⟩ := h.2.2 (st wav) (env wav) (issues wav 0 rfl) (released _ _ _ rfl) (by decide) rfl
  exact ⟨⟨_, e1⟩, ⟨_, e2⟩, ⟨_, e3⟩, ⟨_, e4⟩, _, e5⟩

/-- A wave whose only split is held at a team barrier, at `barc` with the request for two scratchpad granules and one of L1. -/
def barwav (req : Option (Nat × W32)) : Wave := { swav { spl with block := .barrier .team 5 req, next := pcAt 1 3 } with exited := 0xFFFFFFF0 }

theorem test_meets_BarrierInstances (h : Obligations.BarrierInstancesComplete) :
    Goes (.barInstanceComplete .team 4) (st (barwav none)) ∧
      Goes (.barcResize 4) { st (barwav (some (3, 0x102))) with graph := { (st wav).graph with teams := [(4, { core := some 0, regG := 4, spadG := 1, l1G := 1, slots := [0], barc := true })] } } := by
  obtain ⟨_, e1, -⟩ := h.1 .team 4 (st (barwav none)) (by decide +kernel) (by decide +kernel)
  obtain ⟨_, _, e2, -⟩ := h.2 4 { st (barwav (some (3, 0x102))) with graph := { (st wav).graph with teams := [(4, { core := some 0, regG := 4, spadG := 1, l1G := 1, slots := [0], barc := true })] } }
    _ 0 7 (barwav (some (3, 0x102))) 3 0x102 _ rfl rfl (by decide +kernel) rfl (by decide +kernel) (by decide +kernel) rfl rfl
    (by decide +kernel) rfl (by decide +kernel)
  exact ⟨⟨_, e1⟩, _, e2⟩

/-- No acquire and no release. -/
def plain : EngOrd := ⟨false, false, .wave⟩

/-- k4 holds 1, so k4 to k7 ask for one element of group 0. -/
def collwav : Wave := { wav with r := { wav.r with k := [(4, 1)] } }

/-- Address space 0 has a group 0 whose only member is die 0 of this package. -/
def grouped (s : State) : State := { s with graph := { s.graph with groups := [(0, ⟨[⟨0, 0⟩], 1⟩)] } }

theorem test_meets_EngineCommands (h : Obligations.EngineCommandsAreAccepted) :
    Goes (.cpy g7 plain none .raw .rn false (.v 0) (.v 0) (.int 8)) (st wav) ∧ Goes (.cpyG g7 plain (some 9) 0 false true (.k 0) (.k 0) 0) (st wav) ∧
      Goes (.coll g7 plain none .allreduce .iadd false (.k 0) (.k 0) 4) (st collwav) ∧
      Goes (.coll g7 plain none .allreduce .iadd false (.k 0) (.k 0) 4) (grouped (st collwav)) ∧ Goes (.cstat g7 8 (.int 15)) (st wav) := by
  obtain ⟨_, e1, -⟩ := h.1.1 g7 plain none .raw .rn false (.v 0) (.v 0) (.int 8) (st wav) (env wav) 0 (issues wav 0 rfl) rfl ⟨rfl, by decide⟩ (by decide) rfl
    (by decide) ⟨.inr (by decide), rfl⟩ (by decide) (by decide +kernel) (by decide +kernel) (by decide +kernel)
  obtain ⟨_, e2, -⟩ := h.1.2.1 (.cpyG g7 plain (some 9) 0 false true (.k 0) (.k 0) 0) g7 plain (some 9) 0 false true (.k 0) (.k 0) 0 (st wav) (env wav) 1 (.inl rfl)
    (issues wav 0 rfl) rfl ⟨rfl, by decide⟩ (by decide) rfl (by decide) ⟨.inr (by decide), rfl⟩ (by decide +kernel) (by decide +kernel)
  obtain ⟨_, e3, -⟩ := (h.1.2.2 g7 plain none .allreduce .iadd false (.k 0) (.k 0) 4 (st collwav) (env collwav) 0 (issues collwav 0 rfl) rfl ⟨rfl, by decide⟩ (by decide)
    rfl (by decide) ⟨.inr (by decide), rfl⟩ (by decide) (by decide +kernel)).1 (by decide +kernel)
  obtain ⟨_, e4, -⟩ := (h.1.2.2 g7 plain none .allreduce .iadd false (.k 0) (.k 0) 4 (grouped (st collwav)) (env collwav) 0 ⟨rfl, rfl, rfl, rfl, rfl, rfl, fun _ => rfl⟩ rfl ⟨rfl, by decide⟩
    (by decide) rfl (by decide) ⟨.inr (by decide), rfl⟩ (by decide) (by decide +kernel)).2 ⟨[⟨0, 0⟩], 1⟩ 0 0 (by decide +kernel) (fun _ h => nomatch h)
  obtain ⟨_, _, e5, -⟩ := h.2 g7 8 (.int 15) (st wav) (env wav) (issues wav 0 rfl) (by decide) ⟨.inr (by decide), rfl⟩
  exact ⟨⟨_, e1⟩, ⟨_, e2⟩, ⟨_, e3⟩, ⟨_, e4⟩, _, e5⟩

/-- The outstanding operation of an engine command with this number and segment. -/
def cmdOf (i : Instr) (num : Nat) (g : Seg) (par : List W32) : Op :=
  { opOf i 0 with serial := 5 + num, args := [], todo := 1, waiting := true, cmd := some { num := num, ord := plain, segs := [g], par := par } }

/-- A copy of 8 bytes within the scratchpad. -/
def copy (g : Seg) : Op := cmdOf (.cpy g7 plain none .raw .rn false (.k 0) (.k 0) (.int 8)) 0 g [8]

/-- Its segment. -/
def seg : Seg := { lane := none, dst := BitVec.ofNat 64 (spad0 + 128), src := BitVec.ofNat 64 spad0 }

/-- The copy stands behind a store of its split. -/
def behindStore : Wave := { owav (copy seg) with ops := [{ opOf (.st g7 .b32 false (.v 0) (.int 0) (.v 2)) 384 [1] with serial := 4 }, copy seg] }

theorem test_meets_EngineMoves (h : Obligations.EngineCommandsMoveBytesAndEnd) :
    Goes (.engineCmdComplete 7 0) (st (owav (copy seg))) ∧ Goes (.engineCmdComplete 7 0) (st (owav (copy { seg with code := 3 }))) ∧
      Goes (.engineFaultPost 7 0) (st (owav (copy { seg with fault := some (1, true, 0) }))) ∧ Goes (.engineCmdComplete 7 0) (st behindStore) := by
  obtain ⟨_, e1, -⟩ := h.1 (st (owav (copy seg))) 7 0 5 _ _ _ seg _ _ _ _ _ _ _ _ 4 0 _ 4 128 rfl rfl rfl rfl rfl rfl rfl rfl (by decide +kernel) (by decide +kernel)
    (by decide +kernel) rfl (by decide +kernel) rfl (fun _ => rfl) rfl rfl (by decide) (by decide) (noFrames _ _ rfl)
  have e4 := h.2.1 (st behindStore) 7 0 5 _ _ _ rfl rfl rfl rfl ⟨_, List.mem_singleton.mpr rfl, rfl⟩ ⟨_, List.mem_cons_self, rfl⟩ (noFrames _ _ rfl)
  obtain ⟨_, _, e2, -⟩ := h.2.2.1 (st (owav (copy { seg with code := 3 }))) 7 0 5 _ _ _ rfl rfl rfl rfl (by decide) rfl (by decide) (noFrames _ _ rfl) (by decide)
    (fun h => nomatch h)
  obtain ⟨_, _, _, _, _, e3, -⟩ := h.2.2.2 (st (owav (copy { seg with fault := some (1, true, 0) }))) 7 0 5 _ _ _ _ 0 1 true 0 rfl rfl rfl rfl rfl rfl
  exact ⟨⟨_, e1⟩, ⟨_, e2⟩, ⟨_, e3⟩, _, e4⟩

/-- A command of a collective. -/
def collOp (op : CollOp) (num : Nat) : Op :=
  { cmdOf (.coll g7 plain none op .iadd false (.k 0) (.k 0) 4) num { lane := none, dst := 384, src := 384 } [1, 0, 0, 0] with serial := 5 + num }

/-- Instance 0 of group 0 of address space 0, with these members and parts. -/
def collst (w : Wave) (ms : List Member) (ps : List CollIn) : State :=
  { paged (st w) true with graph := { (st w).graph with groups := [(0, ⟨ms, 0⟩)], insts := [⟨0, 0, 0, 0, ps, false⟩] } }

theorem test_meets_Collectives (h : Obligations.CollectivesFoldOverRanks) :
    Goes (.collInstanceComplete 0 0 0 []) (collst { wav with ops := [collOp .allreduce 0, collOp .allgather 1] } [⟨0, 0⟩, ⟨0, 1⟩] [⟨0, 7, 0⟩, ⟨1, 7, 1⟩]) ∧
      Goes (.collInstanceComplete 0 0 0 []) (collst { wav with ops := [collOp .allreduce 0] } [⟨0, 0⟩] [⟨0, 7, 0⟩]) ∧
      Goes (.collTimeout 0 0 0) (collst wav [⟨0, 0⟩] []) := by
  obtain ⟨_, e1, -⟩ := (h.1 (collst { wav with ops := [collOp .allreduce 0, collOp .allgather 1] } [⟨0, 0⟩, ⟨0, 1⟩] [⟨0, 7, 0⟩, ⟨1, 7, 1⟩])
    ⟨0, 0, 0, 0, [⟨0, 7, 0⟩, ⟨1, 7, 1⟩], false⟩ _ (.allreduce, .iadd, 1, 0) [(.allgather, .iadd, 1, 0)] rfl rfl rfl (by decide +kernel) (by decide +kernel) (by decide +kernel)
    (by decide +kernel)).1 ⟨_, List.mem_singleton.mpr rfl, by decide⟩
  have a := h.1 (collst { wav with ops := [collOp .allreduce 0] } [⟨0, 0⟩] [⟨0, 7, 0⟩])
    ⟨0, 0, 0, 0, [⟨0, 7, 0⟩], false⟩ _ (.allreduce, .iadd, 1, 0) [] rfl rfl rfl (by decide +kernel) (by decide +kernel) (by decide +kernel) (by decide +kernel)
  obtain ⟨⟨got, r⟩, hr⟩ : ∃ p, (collst { wav with ops := [collOp .allreduce 0] } [⟨0, 0⟩] [⟨0, 7, 0⟩]).collReads 1 0
      ((collst { wav with ops := [collOp .allreduce 0] } [⟨0, 0⟩] [⟨0, 7, 0⟩]).collAsks ⟨0, 0, 0, 0, [⟨0, 7, 0⟩], false⟩) [] = .ok p := by
    have : ((collst { wav with ops := [collOp .allreduce 0] } [⟨0, 0⟩] [⟨0, 7, 0⟩]).collReads 1 0
      ((collst { wav with ops := [collOp .allreduce 0] } [⟨0, 0⟩] [⟨0, 7, 0⟩]).collAsks ⟨0, 0, 0, 0, [⟨0, 7, 0⟩], false⟩) []).toBool = true := by decide +kernel
    match h : (collst { wav with ops := [collOp .allreduce 0] } [⟨0, 0⟩] [⟨0, 7, 0⟩]).collReads 1 0
      ((collst { wav with ops := [collOp .allreduce 0] } [⟨0, 0⟩] [⟨0, 7, 0⟩]).collAsks ⟨0, 0, 0, 0, [⟨0, 7, 0⟩], false⟩) [] with
    | .ok p => exact ⟨p, rfl⟩
    | .error _ => rw [h] at this; cases this
  obtain ⟨_, e2, -⟩ := a.2 got r (fun _ h => nomatch h) hr (by decide +kernel)
  obtain ⟨_, e3, -⟩ := h.2 (collst wav [⟨0, 0⟩] []) ⟨0, 0, 0, 0, [], false⟩ _ rfl rfl rfl (by decide)
  exact ⟨⟨_, e1⟩, ⟨_, e2⟩, _, e3⟩

/-- The wave has started the engine of its core with the operation of this serial. -/
def started : Engine := { run := true, starter := some (7, 5) }

/-- A wave with that operation. -/
def mwav : Wave := owav { opOf (.mstart g7 ⟨4, 1⟩ none false) 0 with args := [], todo := 1, waiting := true }

theorem test_meets_EnginePrograms (h : Obligations.EngineProgramsStartAndStop) :
    Goes (.mstart g7 ⟨4, 1⟩ (some 0) false) (jst (rwav .loader)) ∧ Goes (.mstop g7) (eng {} (st (rwav .loader))) ∧
      Goes (.engineStop 0) (eng { started with stopping := some 0 } (st mwav)) ∧
      Goes (.engineFetch 0) (eng { run := true, mepc := pcAt 5 1 } (jst wav)) ∧ Goes (.engineProgramFault 0) (eng { started with fault := some (8, 0, 0) } (st mwav)) := by
  obtain ⟨_, _, e1, -⟩ := h.1 g7 ⟨4, 1⟩ (some 0) false (jst (rwav .loader)) (env (rwav .loader)) 0 (pcAt 5 1) (fetched 5 2 0) ⟨rfl, rfl, rfl, rfl, rfl, rfl, fun _ => rfl⟩ rfl ⟨rfl, by decide⟩ (by decide)
    (fun p e => by cases e; exact ⟨.inr (by decide), rfl⟩) (.inl (by decide)) (by decide) (by decide) (hasLine _ rfl) (by decide +kernel) (by decide)
  obtain ⟨_, _, e2, -⟩ := h.2.1 g7 (eng {} (st (rwav .loader))) (env (rwav .loader)) ⟨rfl, rfl, rfl, rfl, rfl, rfl, fun _ => rfl⟩ rfl (by decide) (by decide)
  obtain ⟨_, e3, -⟩ := h.2.2.1 0 0 (eng { started with stopping := some 0 } (st mwav)) rfl rfl rfl (fun _ h => nomatch h) (.inl (by decide)) (fun u n w o h1 h2 h3 => by cases h1; cases h2; cases h3; decide)
  have e4 := h.2.2.2.1 0 (fetched 5 2 0) (eng { run := true, mepc := pcAt 5 1 } (jst wav)) (by decide +kernel) rfl rfl rfl
    (hasLine (eng { run := true, mepc := pcAt 5 1 } (jst wav)) rfl) (by decide +kernel) (by decide +kernel) (by decide +kernel)
  obtain ⟨_, _, e5, -⟩ := h.2.2.2.2 0 8 0 0 7 5 _ (eng { started with fault := some (8, 0, 0) } (st mwav)) rfl rfl rfl (by decide) (by decide)
  exact ⟨⟨_, e1⟩, ⟨_, e2⟩, ⟨_, e3⟩, ⟨_, e4⟩, _, e5⟩

/-- An engine whose tiles hold int8 and whose ring 0 has one slot. -/
def tiled : Engine := { run := true, tshape := [(0, 5), (1, 5)], omap := [(0, 5)], ringd := [(0, 0x80000000)] }

/-- Its program issues; the engine of core 1 belongs to a second team of the gang, and its tiles are alike. -/
def tst (e : Engine) : State :=
  { est e with
    engines := [(0, { e with owner := some 4 }), (1, { tiled with owner := some 5 })]
    graph := { (st wav).graph with teams := (st wav).graph.teams ++ [(5, { core := some 1, regG := 4, spadG := 1, l1G := 1, slots := [1] })] } }

/-- A load of tile 0, one byte of one row, waits for phase `ph mod 2`; its slot ends at `top`. -/
def loading (top ph : Nat) : State :=
  est { jobs := [⟨.tld .always 0 0 none (.int 0) false, some 0, some ⟨0, ⟨5, 0, 0, 0⟩, 0, 0, ph % 4 == 2, 0, 16, top, pcAt 1 2⟩⟩], f := [(0, 1)] }

/-- The follower's array is busy. -/
def pairHeld : State :=
  let s := tst tiled
  s.setEngine 1 { s.engine 1 with jobs := [⟨.mma .always .i8 0 0 1 false, none, none⟩] }

theorem test_meets_ArrayWords (h : Obligations.ArrayWordsComputeTheTile) :
    Goes (.mma .always .i8 15 0 1 false) (tst tiled) ∧ Goes (.mmaPair .always .i8 0 0 1 false) (tst tiled) ∧ Goes (.accz .always 0) (est {}) ∧
      Goes (.acrel .always 0) (est {}) ∧ Goes (.tld .always 0 0 none (.int 0) false) (tst tiled) ∧
      Goes (.tldDone 0) (loading 0x80 2) ∧ Goes (.tldDone 0) (loading 0 0) ∧ Goes (.tldDone 0) (loading 0x80 0) ∧
      Goes (.mmaPair .always .i8 0 0 1 false) (tst { tiled with pairing := true }) ∧ Goes (.mmaPair .always .i8 0 0 1 false) pairHeld ∧
      Goes (.mmaDone 0) (est { jobs := [⟨.mma .always .i8 0 0 1 false, some 0, none⟩], f := [(0, 1)] }) := by
  obtain ⟨_, e1, -⟩ := h.1.1 .i8 15 0 1 false (tst tiled) 0 ectx ⟨rfl, rfl, by decide, rfl⟩ (by decide) (by decide) (by decide) (by decide) (by decide) (by decide)
  obtain ⟨_, e2, -⟩ := (h.1.2.1 .i8 0 0 1 false (tst tiled) 0 ectx ⟨rfl, rfl, by decide, rfl⟩).1 (.inr
    ⟨rfl, by decide, rfl, by decide, by decide, fun e he => by cases he <;> subst e <;> decide, by decide⟩) (by decide)
  obtain ⟨_, e8, -⟩ := (h.1.2.1 .i8 0 0 1 false (tst { tiled with pairing := true }) 0 ectx ⟨rfl, rfl, by decide, rfl⟩).1 (.inl rfl) (by decide)
  obtain ⟨_, e9, -⟩ := (h.1.2.1 .i8 0 0 1 false pairHeld 0 ectx ⟨rfl, rfl, by decide, rfl⟩).2 rfl
    ⟨rfl, by decide, rfl, by decide, by decide, fun e he => by cases he <;> subst e <;> decide, by decide⟩ (by decide)
  have a := h.1.2.2.1 0 (est {}) 0 ectx rfl rfl rfl (by decide) (by decide) (by decide) (by decide)
  obtain ⟨_, e3, -⟩ := a.1
  obtain ⟨_, e4, -⟩ := a.2 (.inl rfl)
  obtain ⟨_, e5, -⟩ := h.1.2.2.2 0 0 none (.int 0) false (tst tiled) 0 ectx 0 0 false ⟨rfl, rfl, by decide, rfl⟩ rfl (.inl ⟨rfl, by decide, by decide⟩) (by decide) (by decide)
    (by decide)
  have e6 := (h.2.1 0 (loading 0x80 2) _ _ { regG := 4, spadG := 1, l1G := 1 } rfl rfl).1 (by decide)
  obtain ⟨_, e10, -⟩ := ((h.2.1 0 (loading 0 0) _ _ _ rfl rfl).2 (by decide) rfl).1 ⟨0, by decide, by decide⟩
  obtain ⟨_, e11, -⟩ := ((h.2.1 0 (loading 0x80 0) _ _ _ rfl rfl).2 (by decide) rfl).2 (by decide) (fun _ => rfl) (by decide) (by decide)
  obtain ⟨_, e7, -⟩ := h.2.2 0 (est { jobs := [⟨.mma .always .i8 0 0 1 false, some 0, none⟩], f := [(0, 1)] }) 0 _ rfl rfl
  exact ⟨⟨_, e1⟩, ⟨_, e2⟩, ⟨_, e3⟩, ⟨_, e4⟩, ⟨_, e5⟩, ⟨_, e6⟩, ⟨_, e10⟩, ⟨_, e11⟩, ⟨_, e8⟩, ⟨_, e9⟩, _, e7⟩

theorem test_meets_Rings (h : Obligations.RingsSynchroniseTheEngine) :
    Goes (.ringWait g7 0 0 true (.k 0)) (eng tiled (st (rwav .loader))) ∧ Goes (.ringArv g7 0 0 true (.k 0)) (eng tiled (st (rwav .loader))) ∧
      Goes (.ringWait .always 0 0 true (.k 0)) (est tiled) ∧ Goes (.ringArv .always 0 0 true (.k 0)) (est tiled) ∧
      Goes (.mloop .always ⟨4, 1⟩ 3) (est { tiled with k := [(3, 1)] }) ∧
      Goes (.mloop .always ⟨4, 1⟩ 3) { est tiled with mem := memLine 5 (dataOf (codeLine 2 0)) } ∧ Goes (.mloop .always ⟨4, 0⟩ 3) (est tiled) := by
  have a := h.1 g7 0 0 true (.k 0) (eng tiled (st (rwav .loader))) (env (rwav .loader)) 4 ⟨rfl, rfl, rfl, rfl, rfl, rfl, fun _ => rfl⟩ rfl (by decide) ⟨.inr (by decide), rfl⟩ (by decide) (by decide) (by decide)
  obtain ⟨_, _, e1, -⟩ := a.1 (by decide)
  obtain ⟨_, _, e2, -⟩ := a.2 (fun _ _ => .inr ⟨rfl, fun _ => ⟨fun _ h => (nomatch h), fun _ h => (nomatch h)⟩⟩)
  have b := h.2.1 0 0 (.k 0) (est tiled) 0 ectx 0 rfl rfl rfl (by decide)
  obtain ⟨_, e3, -⟩ := b.1 (by decide)
  obtain ⟨_, e4, -⟩ := b.2 rfl (fun _ h => nomatch h) (fun _ h => nomatch h)
  obtain ⟨_, e5, -⟩ := (h.2.2 ⟨4, 1⟩ 3 (est { tiled with k := [(3, 1)] }) 0 ectx rfl rfl).1 rfl
  obtain ⟨_, e6, -⟩ := (h.2.2 ⟨4, 1⟩ 3 { est tiled with mem := memLine 5 (dataOf (codeLine 2 0)) } 0 ectx rfl rfl).2.2 (pcAt 5 1) (fetched 5 2 0) (by decide) (by decide) (by decide)
    (hasLine { est tiled with mem := memLine 5 (dataOf (codeLine 2 0)) } rfl) (fun r _ => by
      have a : (fetched 5 2 0).isTarget 1 = true := by decide +kernel
      have b : (fetched 5 2 0).kind = 2 := by decide +kernel
      have c : wordIdx (pcAt 5 1) = 1 := by decide
      simp [State.targetOk, c, a, b])
  exact ⟨⟨_, e1⟩, ⟨_, e2⟩, ⟨_, e3⟩, ⟨_, e4⟩, ⟨_, e5⟩, ⟨_, e6⟩, _, (h.2.2 ⟨4, 0⟩ 3 (est tiled) 0 ectx rfl rfl).2.1 (by decide) (by decide)⟩

theorem test_meets_Tokens (h : Obligations.TokensPassBetweenEngineAndWaves) :
    Goes (.acqA g7 15) (eng { tok := [(15, 1)] } (st (rwav .storer))) ∧ Goes (.acqA g7 15) (eng {} (st (rwav .storer))) ∧
      Goes (.accret g7 15) (eng { tok := [(15, 2)], holder := [(15, 7)] } (st (rwav .storer))) ∧
      Goes (.accrd g7 true false 4 (.v 1) 15 0) (eng { tok := [(15, 2)], holder := [(15, 7)] } (st (rwav .storer))) ∧ Goes (.acqA g7 0) (st (rwav .storer)) ∧
      Goes (.accret g7 15) (eng {} (st (rwav .storer))) ∧ Goes (.accrd g7 true false 4 (.v 1) 0 0) (st (rwav .storer)) ∧
      Goes (.accrd g7 true false 4 (.v 1) 15 0) (eng {} (st (rwav .storer))) := by
  obtain ⟨_, _, e1, -⟩ := ((h g7 15 (eng { tok := [(15, 1)] } (st (rwav .storer))) (env (rwav .storer)) ⟨rfl, rfl, rfl, rfl, rfl, rfl, fun _ => rfl⟩ rfl (by decide)).1 (by decide) rfl).1 (by decide) (by decide +kernel)
  have a := h g7 15 (eng {} (st (rwav .storer))) (env (rwav .storer)) ⟨rfl, rfl, rfl, rfl, rfl, rfl, fun _ => rfl⟩ rfl (by decide)
  obtain ⟨_, _, _, e2, -⟩ := (a.1 (by decide) rfl).2.1 (.inl (by decide))
  have b := (h g7 15 (eng { tok := [(15, 2)], holder := [(15, 7)] } (st (rwav .storer))) (env (rwav .storer)) ⟨rfl, rfl, rfl, rfl, rfl, rfl, fun _ => rfl⟩ rfl (by decide)).1 (by decide) rfl
  obtain ⟨_, _, e3, -⟩ := b.2.2.1 (by decide) (fun _ h => by cases h; exact .inr ⟨rfl, fun h => absurd h (by decide)⟩)
  obtain ⟨_, _, e4, -⟩ := b.2.2.2 true false 4 (.v 1) 0 0 ⟨rfl, by decide⟩ ⟨.inr (by decide), rfl⟩ (by decide)
  have c := h g7 0 (st (rwav .storer)) (env (rwav .storer)) (issues (rwav .storer) 0 rfl) rfl (by decide)
  obtain ⟨_, _, e5, -⟩ := c.2.2.1 (by decide) _ (.inl rfl)
  obtain ⟨_, _, e6, -⟩ := a.2.2.2 (by decide) rfl (by decide)
  obtain ⟨_, _, e7, -⟩ := (c.2.1 true false 4 (.v 1) 0 0 ⟨rfl, by decide⟩ ⟨.inr (by decide), rfl⟩).1 (by decide)
  obtain ⟨_, _, e8, -⟩ := (a.2.1 true false 4 (.v 1) 0 0 ⟨rfl, by decide⟩ ⟨.inr (by decide), rfl⟩).2 (by decide) (by decide)
  exact ⟨⟨_, e1⟩, ⟨_, e2⟩, ⟨_, e3⟩, ⟨_, e4⟩, ⟨_, e5⟩, ⟨_, e6⟩, ⟨_, e7⟩, _, e8⟩

theorem test_meets_WorkWords (h : Obligations.WorkWordsQueueAndCheck) :
    Goes (.tqAdd g7 false (.v 3) (.v 0) 8 (.int 1) 0) (st wav) ∧ Goes (.arChk g7 (.st (.v 3) 0) (.v 0)) (st wav) ∧ Goes (.arChk g7 (.pred 6) (.k 0)) (st wav) := by
  obtain ⟨_, _, e1, -⟩ := h.1 g7 false (.v 3) (.v 0) 8 (.int 1) 0 (st wav) (env wav) 0 (issues wav 0 rfl) ⟨rfl, by decide⟩ (by decide) (released _ _ _ rfl) ⟨.inr (by decide), rfl⟩
  obtain ⟨_, _, e2, -⟩ := h.2.1 g7 (.v 3) 0 (.v 0) (st wav) (env wav) (issues wav 0 rfl) (by decide) ⟨.inr (by decide), rfl⟩
  obtain ⟨_, _, e3, -⟩ := h.2.2 g7 6 (.k 0) (st wav) (env wav) (issues wav 0 rfl) (by decide) ⟨.inr (by decide), rfl⟩
  exact ⟨⟨_, e1⟩, ⟨_, e2⟩, _, e3⟩

/-- A `mint` that waits for its answer; `n` is 1 where the wave has four coordinates already. -/
def mintOp (n : W32) : Op := { opOf (.mint g7 false 50) 0 with args := [⟨0, 0, [n]⟩], todo := 1, waiting := true }

/-- A released node of kernel 0 with two coordinates. -/
def node0 : Node := { asid := 0, num := 0, kernel := 0, prio := 0, work := 0, deps := 0, arena := 0, ext := [2, 1, 1], succ := [], state := .released }

/-- The kernel of `wav` has it; the requests are as given. -/
def minting (n : W32) (rs : List MintReq) : State :=
  { st (owav (mintOp n)) with graph := { (st wav).graph with mintReqs := rs, nodes := [(0, node0)] } }

theorem test_meets_TheMint (h : Obligations.TheMintGivesEachCoordinateOnce) :
    Goes (.mintServe 7 5) (minting 0 []) ∧ Goes (.mintServe 7 5) (minting 0 [⟨7, 5, 0, 0, 99⟩]) ∧ Goes (.mintServe 7 5) (minting 1 []) := by
  obtain ⟨_, e1, -⟩ := h.1 (minting 0 []) 7 5 _ _ _ _ _ rfl rfl rfl rfl (by decide) rfl (fun _ h => nomatch h)
  obtain ⟨_, _, e2, -⟩ := h.2.1 (minting 0 [⟨7, 5, 0, 0, 99⟩]) 7 5 _ _ _ _ _ _ 0 node0 rfl rfl rfl rfl (by decide) rfl rfl (by decide) (fun q hq y hy _ => by
      cases List.mem_singleton.mp hq; decide) (by decide +kernel) rfl (by decide +kernel) (by decide)
  obtain ⟨_, _, e3, -⟩ := h.2.2 (minting 1 []) 7 5 _ _ _ _ _ rfl rfl rfl rfl rfl (by decide) (by decide)
  exact ⟨⟨_, e1⟩, ⟨_, e2⟩, _, e3⟩

/-- A line of version `v` whose clause at word 1 is the safe point 0. -/
def safeLine (v : Nat) : LineData :=
  dataOf [fieldsAt [(0, 3), (16, 1), (32, 1), (48, 1), (56, v)], fieldsAt [(22, 1), (26, 1)]]

/-- A directory: the map record of safe point 0 lies at 8000H, its PC one word above the code base. -/
def dirLine : LineData := dataOf [fieldsAt [(0, 0x8000), (32, 1)]]

/-- A split held at the safe point of line 5. -/
def xsp : Split := { spl with pc := pcAt 5 1, xfer := true, buf := some (Line.ofData 5 (safeLine 0)) }

/-- Its wave. -/
def xwav : Wave := swav xsp

/-- Two versions of kernel 0: code at lines 5 and 6, maps at lines 3 and 4; KVER is 1. -/
def xst : State :=
  { st xwav with
    mem := { tags := [(384, tag), (512, tag), (640, tag), (768, tag), (33152, { tag with zero := true }), (33280, { tag with zero := true })]
             entries := [(entryKey 3 0, { content := dirLine, count := 1 }), (entryKey 4 0, { content := dirLine, count := 1 }),
                         (entryKey 5 0, { content := safeLine 0, count := 1 }), (entryKey 6 0, { content := safeLine 1, count := 1 })] }
    graph := { (st wav).graph with kernels := (st wav).graph.kernels.map fun k => (k.1, { k.2 with vers := [(640, 384, 0, 0), (768, 512, 0, 0)], kver := 1 }) } }

/-- The same with KVER 0. -/
def xst0 : State := { xst with graph := { xst.graph with kernels := xst.graph.kernels.map fun k => (k.1, { k.2 with kver := 0 }) } }

/-- Every check of the transfer passes. -/
def planned : Bool :=
  match xst.kernel? xwav.kernel with
  | none => false
  | some k =>
    match xst.planXfer xwav xsp k ((Line.ofData 5 (safeLine 0)).clause (wordIdx xsp.pc)).safen (xst.kverAt xwav) with
    | .error _ => false
    | .ok p => decide (p.1.line.check (xst.kverAt xwav) = none) && decide (p.1.line.clauseCheck (wordIdx p.1.pc) = none)

theorem planned_true : planned = true := by decide +kernel

theorem test_meets_SplitsTransfer (h : Obligations.SplitsTransferAtSafePoints) :
    Goes (.kverApply 0 0) xst ∧ Goes (.safePointTransfer 7 0) xst0 ∧ Goes (.safePointTransfer 7 0) xst := by
  obtain ⟨_, e1, -⟩ := h.1 0 0 xst _ rfl
  obtain ⟨_, _, _, e2, -⟩ := (h.2 7 0 xst0 _ _ _ _ rfl rfl rfl rfl rfl rfl rfl (by decide) (by decide +kernel)).1 (by decide)
  have hp := planned_true
  unfold planned at hp
  split at hp
  · cases hp
  · split at hp
    · cases hp
    · rename_i k hk _ p ha
      simp only [Bool.and_eq_true, decide_eq_true_eq] at hp
      obtain ⟨_, _, _, e3, -⟩ := (h.2 7 0 xst xwav xsp k _ rfl rfl hk rfl rfl rfl rfl (by decide) (by decide +kernel)).2 p.1 p.2 (by decide) ha hp.1 hp.2
      exact ⟨⟨_, e1⟩, ⟨_, e2⟩, _, e3⟩

theorem test_meets_ControlRegisters (h : Obligations.ControlRegistersReadAndWrite) :
    Goes (.csrrd g7 3 (.int 0)) (st wav) ∧ Goes (.csrrd g7 3 (.int 15)) (st wav) ∧ Goes (.nswinWrite g7 (.k 0)) (st wav) ∧
      Goes (.csrwr g7 (.int 1) (.k 0)) (st wav) ∧ Goes (.csrwr g7 (.int 15) (.k 0)) (st wav) ∧ Goes (.splitCsrWrite g7 0x030 (.k 0)) (st hwav 4) ∧
      Goes (.ringdWrite g7 15 (.k 0)) (st wav) ∧ Goes (.mectlWrite g7 (.k 0)) (eng { run := true } (st wav)) := by
  have r := h.1 g7 3
  obtain ⟨_, _, e1, -⟩ := (r (.int 0) (st wav) (env wav) (issues wav 0 rfl) (by decide) ⟨.inr (by decide), rfl⟩).1 _ _ rfl rfl
  obtain ⟨_, _, e2, -⟩ := (r (.int 15) (st wav) (env wav) (issues wav 0 rfl) (by decide) ⟨.inr (by decide), rfl⟩).2 (.inl rfl)
  obtain ⟨_, _, e3, -⟩ := ((h.2 (.nswinWrite g7 (.k 0)) _ (st wav) (env wav) rfl (issues wav 0 rfl) (by decide) ⟨.inr (by decide), rfl⟩ rfl rfl).2 _ _ rfl).2 rfl |>.1
    (by decide)
  obtain ⟨_, _, e4, -⟩ := ((h.2 (.csrwr g7 (.int 1) (.k 0)) _ (st wav) (env wav) rfl (issues wav 0 rfl) (by decide) ⟨.inr (by decide), rfl⟩ rfl rfl).2 _ _ rfl).1 rfl
  obtain ⟨_, _, e5, -⟩ := (h.2 (.csrwr g7 (.int 15) (.k 0)) _ (st wav) (env wav) rfl (issues wav 0 rfl) (by decide) ⟨.inr (by decide), rfl⟩ rfl rfl).1 rfl
  obtain ⟨_, _, e6, -⟩ := ((h.2 (.splitCsrWrite g7 0x030 (.k 0)) _ (st hwav 4) (env hwav 4) rfl (issues hwav 4 rfl) (by decide) ⟨.inr (by decide), rfl⟩ rfl rfl).2 _ _ rfl).2 rfl
    |>.2.1 (by decide)
  obtain ⟨_, _, e7, -⟩ := ((h.2 (.ringdWrite g7 15 (.k 0)) _ (st wav) (env wav) rfl (issues wav 0 rfl) (by decide) ⟨.inr (by decide), rfl⟩ rfl rfl).2 _ _ rfl).2 rfl
    |>.2.2 (by decide) |>.1 (.inl (by decide))
  obtain ⟨_, _, e8, -⟩ := ((h.2 (.mectlWrite g7 (.k 0)) _ (eng { run := true } (st wav)) (env wav) rfl ⟨rfl, rfl, rfl, rfl, rfl, rfl, fun _ => rfl⟩ (by decide) ⟨.inr (by decide), rfl⟩ rfl
    rfl).2 _ _ rfl).2 rfl |>.2.2 (by decide) |>.2 (.inl (by decide))
  exact ⟨⟨_, e1⟩, ⟨_, e2⟩, ⟨_, e3⟩, ⟨_, e4⟩, ⟨_, e5⟩, ⟨_, e6⟩, ⟨_, e7⟩, _, e8⟩

theorem test_meets_SystemWords (h : Obligations.SystemWordsMarkAndTrap) : Goes (.trap g7 (.int 15)) (st wav) ∧ Goes .bkpt (st hwav 4) := by
  obtain ⟨-, -, -, _, _, e1, -⟩ := h.1 g7 (.int 15) (st wav) (env wav) (issues wav 0 rfl) (by decide) ⟨.inr (by decide), rfl⟩
  obtain ⟨_, _, e2, -⟩ := h.2 (st hwav 4) (env hwav 4) (issues hwav 4 rfl) (by decide)
  exact ⟨⟨_, e1⟩, _, e2⟩

/-- A wave with a pending cause. -/
def causing (c : W32) : Wave := { wav with exited := 0xFFFFFFF0, t := { wav.t with cause := c } }

/-- The team's bank is as given. -/
def banked (s : State) (b : Bank) : State :=
  { s with graph := { s.graph with teams := [(4, { core := some 0, regG := 4, spadG := 1, l1G := 1, slots := [0], bank := b })] } }

theorem test_meets_Exceptions (h : Obligations.ExceptionsEnterTheHandler) :
    Goes (.handlerEntry 7) (banked (st (causing 0x800)) { trapvec := 640 }) ∧ Goes (.handlerEntry 7) (st (causing 1)) ∧
      Goes (.waveHalt 7) (st { wav with t := { wav.t with halting := some (0xF, pcAt 1 2, 4) } }) ∧
      Goes (.wtimerExpiry 7) (st { wav with t := { wav.t with armed := true } }) := by
  obtain ⟨_, _, _, e1, -⟩ := (h.1 7 (banked (st (causing 0x800)) { trapvec := 640 }) _ rfl (by decide) rfl rfl rfl rfl rfl).1 (by decide)
  obtain ⟨_, _, _, e2, -⟩ := (h.1 7 (st (causing 1)) _ rfl (by decide) rfl rfl rfl rfl rfl).2 (by decide)
  obtain ⟨_, _, _, e3, -⟩ := h.2.1 7 (st { wav with t := { wav.t with halting := some (0xF, pcAt 1 2, 4) } }) _ _ _ _ rfl rfl
  obtain ⟨_, _, e4, -⟩ := h.2.2 7 (st { wav with t := { wav.t with armed := true } }) _ rfl rfl (by decide)
  exact ⟨⟨_, e1⟩, ⟨_, e2⟩, ⟨_, e3⟩, _, e4⟩

/-- A wave that returns from its handler: the table as it was found, or with an entry of no lane. -/
def retwav (ok : Bool) : Wave :=
  { hwav with exited := 0xFFFFFFF0, live := [some { spl with mask := if ok then 0xF else 0, stop := true }, none, none, none]
              t := { hwav.t with entryPcs := [some spl.pc, none, none, none] } }

theorem test_meets_HandlersReturn (h : Obligations.HandlersReturnToTheSplits) : Goes .trapret (st (retwav true) 4) ∧ Goes .trapret (st (retwav false) 4) := by
  obtain ⟨_, _, e1, -⟩ := (h (st (retwav true) 4) (env (retwav true) 4) (issues _ 4 rfl) rfl rfl).1 (by decide) (by decide) rfl
  obtain ⟨_, _, e2, -⟩ := (h (st (retwav false) 4) (env (retwav false) 4) (issues _ 4 rfl) rfl rfl).2 (by decide)
  exact ⟨⟨_, e1⟩, _, e2⟩

/-- Gang 1 is in the given state. -/
def ganged (x : GangState) (cs : List Nat) (d : Option (List Nat)) (t : Team) : State :=
  { st wav with graph := { (st wav).graph with gangs := [(1, { kernel := 0, num := 0, state := x, cores := cs, drain := d })], teams := [(4, t)] } }

/-- Its team, placed. -/
def team : Team := { core := some 0, regG := 4, spadG := 1, l1G := 1, slots := [0] }

/-- The engine of a saved team still stands in core 0, where another team claims it. -/
def heldEngine : State :=
  { ganged .saved [] none { team with core := none, heldOn := some 0 } with
    engines := [(0, { owner := some 4, wanted := true })], mem := { savePool := (List.range 6).map fun i => 65536 * (i + 1) } }

/-- A saved team of which this part still lies in core 0. -/
def claimed (p : Part) : Team :=
  { team with core := none, heldOn := some 0, heldG := if p = .granule 0 then [0] else [], heldBank := p == .bank }

/-- The quad of that core is retired, so the part is claimed. -/
def retired (p : Part) : State :=
  { ganged .saved [] none (claimed p) with mod := { (st wav).mod with retiredQuads := [0] }, mem := { savePool := (List.range 6).map fun i => 65536 * (i + 1) } }

theorem test_meets_Gangs (h : Obligations.GangsAreSavedAndResumed) :
    Goes (.gangSave 1) (ganged .saving [0] none team) ∧ Goes (.gangSave 1) (ganged .saving [0] (some [3]) team) ∧
      Goes (.contextSpill 1) (retired (.granule 0)) ∧ Goes (.contextSpill 1) (retired .bank) ∧
      Goes (.gangResume 1) (ganged .resuming [0] none { team with frames := [(0, 65536)] }) ∧ Goes (.contextSpill 1) heldEngine := by
  obtain ⟨_, _, e1, -⟩ := h.1 1 (ganged .saving [0] none team) _ rfl rfl (by decide +kernel) rfl (by decide +kernel)
  obtain ⟨_, e2, -⟩ := h.2.1 1 (ganged .saving [0] (some [3]) team) _ [3] rfl rfl (by decide +kernel) rfl (fun _ h => nomatch h)
  obtain ⟨_, _, e3, -⟩ := h.2.2.1 1 (retired (.granule 0)) 4 (claimed (.granule 0)) (.granule 0) (by decide +kernel) rfl (by decide +kernel) (by decide +kernel)
  obtain ⟨_, _, e6, -⟩ := h.2.2.1 1 (retired .bank) 4 (claimed .bank) .bank (by decide +kernel) rfl (by decide +kernel) (by decide +kernel)
  obtain ⟨_, e4, -⟩ := h.2.2.2.2 1 (ganged .resuming [0] none { team with frames := [(0, 65536)] }) _ rfl rfl (by decide +kernel) (by decide +kernel)
  obtain ⟨_, e5, -⟩ := h.2.2.2.1 1 heldEngine 0 4 (by decide +kernel) (by decide +kernel) rfl rfl rfl (by decide)
  exact ⟨⟨_, e1⟩, ⟨_, e2⟩, ⟨_, e3⟩, ⟨_, e6⟩, ⟨_, e4⟩, _, e5⟩

/-- The wave with outstanding traces, samples or a `mon`. -/
def monOp : Op := { opOf (.mon g7 false 50) 0 with args := [⟨0, 0, []⟩], todo := 1, waiting := true }

/-- Page 0 is cached, and the trace and sample rings have 4096 bytes from address 0. -/
def ringed (w : Wave) : State := { banked (st w) { tracesize := 4096, sampsize := 4096 } with mem := (paged (st w) true).mem }

/-- A record that was written. -/
def isDone : RingRes → Bool
  | .done _ => true
  | _ => false

theorem done_of (r : RingRes) (h : isDone r = true) : ∃ p, r = .done p := by
  cases r with
  | done p => exact ⟨p, rfl⟩
  | off => cases h
  | drop _ => cases h
  | wait => cases h

/-- A wave whose v1 holds an error in lane 2. -/
def badwav : Wave := { wav with r := { wav.r with badV := [(vkey 1 2, true)] } }

theorem test_meets_Observers (h : Obligations.ObserversRecordAndReply) :
    Goes (.numstatWindowStart 4) { st wav with graph := { (st wav).graph with gangs := [(1, { kernel := 0, num := 0, state := .placed, cores := [0], ctxclk := 0x100000 })] } } ∧
      Goes (.sampleInterval 0 3) { banked (st wav) { sampctl := 0x1001 } with clk := 65536 } ∧
      Goes (.traceRecord 7) (st { wav with traces := [[1]] }) ∧ Goes (.traceRecord 7) (ringed { wav with traces := [List.replicate 16 1] }) ∧
      Goes (.sampleRecord 7) (st { wav with samples := [(5, [])] }) ∧ Goes (.sampleRecord 7) (ringed { wav with samples := [(5, List.replicate 48 1)] }) ∧
      Goes (.debugReply 7 5 [1]) { st (owav monOp) with front := { channels := [(0, ⟨0, 0, [(7, 5, [])]⟩)] } } ∧
      Goes (.iadd g7 (.v 3) (.v 0) (.v 1) 0) (st badwav) ∧ Goes (.iadd g7 (.v 1) (.v 0) (.v 0) 0) (st badwav) ∧
      Goes (.softError (.slot 7 57)) (st wav) ∧ Goes (.softError (.pred 7 6)) (st wav) ∧ Goes (.softError (.vault 0)) (st wav) ∧
      Goes (.softError (.reg 7 3 31)) (st wav) ∧ Goes (.softError (.line 0 384)) (home (st wav) 0) ∧ Goes (.softError (.spad 4 16383)) (st wav) ∧
      Goes (.softError (.l1 0 0 384)) (l1st (st wav) 3 1 1 true) ∧ Goes (.softError (.engine 511)) (st wav) ∧
      Goes (.softError (.corrected 3)) (st wav) := by
  obtain ⟨_, e1, -⟩ := h.1 4 { st wav with graph := { (st wav).graph with gangs := [(1, { kernel := 0, num := 0, state := .placed, cores := [0], ctxclk := 0x100000 })] } }
    _ 0x100000 rfl (by decide) (by decide)
  obtain ⟨_, e2, -⟩ := h.2.1 0 3 { banked (st wav) { sampctl := 0x1001 } with clk := 65536 } _ rfl (by decide) (fun _ h => nomatch h)
  obtain ⟨_, _, e3, -⟩ := (h.2.2.1 7 (st { wav with traces := [[1]] }) _ _ _ rfl rfl rfl (.inl rfl)).1 (by decide)
  obtain ⟨p, hp⟩ := done_of ((ringed { wav with traces := [List.replicate 16 1] }).ringRecord { wav with traces := [List.replicate 16 1] } 0 4096 (List.replicate 16 1))
    (by decide +kernel)
  obtain ⟨_, e4, -⟩ := (h.2.2.1 7 (ringed { wav with traces := [List.replicate 16 1] }) _ _ _ rfl rfl rfl (.inl rfl)).2 p hp
  obtain ⟨_, _, e5, -⟩ := (h.2.2.2.1 7 (st { wav with samples := [(5, [])] }) _ _ _ rfl rfl rfl).1 (by decide)
  obtain ⟨p, hp⟩ := done_of ((ringed { wav with samples := [(5, List.replicate 48 1)] }).ringRecord { wav with samples := [(5, List.replicate 48 1)] } 0 4096
    (sampleTail (List.replicate 48 1) 0)) (by decide +kernel)
  obtain ⟨_, e6, -⟩ := (h.2.2.2.1 7 (ringed { wav with samples := [(5, List.replicate 48 1)] }) _ _ _ rfl rfl rfl).2 p hp
  obtain ⟨_, _, e7, -⟩ := h.2.2.2.2.1 7 5 [1] { st (owav monOp) with front := { channels := [(0, ⟨0, 0, [(7, 5, [])]⟩)] } } _ _ _ _ _ _ rfl rfl rfl rfl (by decide) (by decide)
  obtain ⟨_, _, _, e14, -⟩ := h.2.2.2.2.2.1 (.iadd g7 (.v 3) (.v 0) (.v 1) 0) g7 _ (st badwav) (env badwav) _ rfl (issues badwav 0 rfl) (by decide)
    (.inr (by decide +kernel)) (show _ = some 1 by decide +kernel)
  obtain ⟨_, _, e15, -⟩ := h.2.2.2.2.2.2.1 (.iadd g7 (.v 1) (.v 0) (.v 0) 0) _ (st badwav) (env badwav) 1 rfl rfl (issues badwav 0 rfl) (by decide) ⟨.inr (by decide), rfl⟩
  have f := h.2.2.2.2.2.2.2
  obtain ⟨_, _, e8, -⟩ := (f (st wav)).1 7 3 31 _ rfl
  obtain ⟨_, e9, -⟩ := (f (home (st wav) 0)).2.2.2.1 0 384 _ _ rfl rfl rfl
  obtain ⟨_, e10, -⟩ := (f (st wav)).2.2.2.2.2.2.2.2 4 16383 _ rfl
  obtain ⟨_, e11, -⟩ := (f (l1st (st wav) 3 1 1 true)).2.2.2.2.2.1 0 0 384 _ rfl (by decide)
  obtain ⟨_, e12, -⟩ := (f (st wav)).2.2.2.2.2.2.1 511
  obtain ⟨_, e13, -⟩ := (f (st wav)).2.2.2.2.2.2.2.1 3
  obtain ⟨_, _, e16, -⟩ := (f (st wav)).2.1 7 57 _ rfl
  obtain ⟨_, _, e17, -⟩ := (f (st wav)).2.2.1 7 6 _ rfl (by decide)
  obtain ⟨_, e18, -⟩ := (f (st wav)).2.2.2.2.1 0
  exact ⟨⟨_, e1⟩, ⟨_, e2⟩, ⟨_, e3⟩, ⟨_, e4⟩, ⟨_, e5⟩, ⟨_, e6⟩, ⟨_, e7⟩, ⟨_, e14⟩, ⟨_, e15⟩, ⟨_, e16⟩, ⟨_, e17⟩, ⟨_, e18⟩, ⟨_, e8⟩, ⟨_, e9⟩, ⟨_, e10⟩, ⟨_, e11⟩, ⟨_, e12⟩, _, e13⟩

/-- The graph unit has one node, beside the kernel and gang of `wav`; address space 0 is valid. -/
def noded (n : Node) : State := { paged (st wav) true with graph := { (st wav).graph with nodes := [(0, n)] } }

/-- A write-back with an uncorrectable error, of a line of the node's arena slot. -/
def lostWb : State :=
  let s := noded { node0 with slot := some (0, 1) }
  { s with mem := { s.mem with wbs := [⟨0, 0, 2 ^ 57, 1, 1, false, true⟩], arenas := [(0, { state := 1 })] } }

theorem test_meets_WriteBacks_lost (h : Obligations.WriteBacksLandWhereTheirLineLives) :
    ∃ r : State, exec (.hmWriteArrive 0) lostWb = .next r ∧ (r.node? 0).map Node.failed = some 1 := by
  obtain ⟨-, -, a, -⟩ := h.2.2 lostWb (.hmWriteArrive 0) 0 _ (.inl ⟨rfl, rfl⟩) rfl (by decide +kernel) (by decide +kernel)
  obtain ⟨r, e, -, -, -, -, -, -, -, f⟩ := a rfl
  exact ⟨r, e, f 0 _ (by decide +kernel) rfl rfl (by decide +kernel) (by decide) rfl⟩

theorem test_meets_NodesAreReleased (h : Obligations.NodesAreReleasedAndBorn) :
    Goes .nodeRelease (noded { node0 with state := .ready }) ∧ Goes (.arenaBirth 0) (noded { node0 with state := .ready, arena := 16 }) ∧
      Goes (.arenaEntryApply 511 0) (noded node0) ∧ Goes (.arenaEntryApply 0 0) { noded node0 with waves := [(7, swav { spl with issued := 101 })] } := by
  obtain ⟨_, _, e1, -⟩ := h.1 (noded { node0 with state := .ready }) 0 { node0 with state := .ready } (by decide) (List.mem_singleton.mpr rfl) rfl rfl (.inl rfl) rfl
    (fun x hx hn => absurd (List.mem_singleton.mp hx) hn) (fun _ h => nomatch h)
  obtain ⟨_, e2, -⟩ := h.2.2.1 0 (noded { node0 with state := .ready, arena := 16 }) _ 0 rfl rfl (by decide) rfl ⟨by decide, by decide⟩
    (fun x hx _ _ => by cases List.mem_singleton.mp hx; decide)
    (.inl ⟨rfl, fun j _ _ => Nat.zero_le j⟩)
  obtain ⟨_, e3, -⟩ := (h.2.2.2 511 0 (noded node0)).2 (by decide)
  have e4 := (h.2.2.2 0 0 { noded node0 with waves := [(7, swav { spl with issued := 101 })] }).1 (by decide)
  exact ⟨⟨_, e1⟩, ⟨_, e2⟩, ⟨_, e3⟩, _, e4⟩

/-- All its coordinates are done. -/
def spent : Node := { node0 with given := 2, done := 2 }

theorem noneFailed (n : Node) : NoneFailed (noded n) 0 := by
  intro x hx y hy
  cases hx
  cases hy

/-- A dead node whose slot core 3 does not know to be free. -/
def unheard : State :=
  let s := noded { spent with slot := some (4095, 1), state := .recording, step := 6 }
  { s with mem := { s.mem with lags := [⟨4095, {}, [3]⟩] } }

theorem test_meets_NodesDie (h : Obligations.NodesDieStepByStep) :
    Goes (.nodeDeath 0) (noded spent) ∧ Goes (.nodeDeath 0) (noded { spent with slot := some (4095, 1) }) ∧
      Goes (.nodeDeath 0) (noded { spent with slot := some (4095, 1), state := .dying, step := 3 }) ∧
      Goes (.nodeDeath 0) (noded { spent with slot := some (4095, 1), state := .dying, step := 5 }) ∧
      Goes (.nodeDeath 0) (noded { spent with state := .recording, step := 6 }) ∧ Goes (.nodeDeath 0) (noded { spent with state := .recording, step := 7 }) ∧
      Goes (.nodeDeath 0) { noded { spent with state := .recording, step := 7 } with front := { rings := [(1, { queue := [[]] })] } } ∧
      Goes (.nodeDeath 0) unheard := by
  obtain ⟨_, e1, -⟩ := (h 0 (noded spent) _ rfl (noneFailed _)).1 rfl (by decide) rfl
  obtain ⟨_, e2, -⟩ := (h 0 (noded { spent with slot := some (4095, 1) }) _ rfl (noneFailed _)).2.1 _ _ rfl (by decide) rfl
  obtain ⟨_, e3, -⟩ := (h 0 (noded { spent with slot := some (4095, 1), state := .dying, step := 3 }) _ rfl (noneFailed _)).2.2.1 _ _ rfl rfl rfl (by decide) (by decide)
  obtain ⟨_, e4, -⟩ := (h 0 (noded { spent with slot := some (4095, 1), state := .dying, step := 5 }) _ rfl (noneFailed _)).2.2.2.1 _ _ rfl rfl rfl
  obtain ⟨_, e5, -⟩ := (h 0 (noded { spent with state := .recording, step := 6 }) _ rfl (noneFailed _)).2.2.2.2.2.1 rfl rfl (fun _ _ h => nomatch h)
  obtain ⟨_, e6, -⟩ := (h 0 (noded { spent with state := .recording, step := 7 }) _ rfl (noneFailed _)).2.2.2.2.2.2.1 rfl rfl (by decide)
  obtain ⟨_, e7, -⟩ := (h 0 { noded { spent with state := .recording, step := 7 } with front := { rings := [(1, { queue := [[]] })] } } _ rfl (noneFailed _)).2.2.2.2.2.2.2
    rfl rfl (by decide)
  obtain ⟨_, e8, -⟩ := (h 0 unheard _ rfl (fun x hx y hy => by cases hx; cases hy)).2.2.2.2.1 rfl rfl ⟨4095, 1, rfl, by decide⟩
  exact ⟨⟨_, e1⟩, ⟨_, e2⟩, ⟨_, e3⟩, ⟨_, e4⟩, ⟨_, e5⟩, ⟨_, e6⟩, ⟨_, e7⟩, _, e8⟩

/-- A command of a kind with the given payload fields in ascending order, in a privileged queue of address space 0. -/
def command (kind : Nat) (fs : List (Nat × Nat)) : Slotrec := {
  queue := 0, kind := kind, tag := 9, bytes := (List.range 64).map fun i =>
  (fs.reverse.find? fun x => decide (x.1 ≤ i)).elim 0 fun x => BitVec.ofNat 8 (x.2 / 256 ^ (i - x.1)) }

/-- It is command 5; address space 0 is valid. -/
def commanded (s : State) (c : Slotrec) : State :=
  { s with
    front := { s.front with queues := [(0, { priv := true, valid := true, isOpen := true })], cmds := [(5, c)], nextCmd := 6 }
    mem := { s.mem with asids := [(0, { valid := true })] } }

/-- The kernel of `wav`. -/
def kern : Kernel := ((st wav).graph.kernels.head (by decide)).2

/-- A launch of no node, as it was read. -/
def launchPlan : Launch :=
  let n := fieldsAt [(0, 512), (64, 1), (8 * 0x18, 256), (8 * 0x20, 1)]
  ⟨(List.range 128).map fun i => BitVec.ofNat 8 (n / 256 ^ i), [], [], []⟩

/-- A launch that passed its checks, or was refused with a status, beside the kernel of `wav` under the given numbers. -/
def launching (l : Option Launch) (status : Nat) (nums : List Nat) : State :=
  commanded { st wav with graph := { (st wav).graph with kernels := nums.map fun i => (i, { kern with num := i }) } }
    { command 1 [(8, 384)] with begun := true, launch := l.map Launch.rec0, plan := l, refused := status }

theorem noNumber (l : Option Launch) (n : Nat) (nums : List Nat) (h : ∀ n, n < 65535 → n ∈ nums) : (launching l n nums).kernelNumber 0 = none := by
  have e : (nums.map fun i => (i, ({ kern with num := i } : Kernel))).filter (fun k => k.2.asid == 0) = nums.map fun i => (i, ({ kern with num := i } : Kernel)) :=
    List.filter_eq_self.mpr fun a ha => by obtain ⟨i, -, rfl⟩ := List.mem_map.mp ha; rfl
  simp only [State.kernelNumber, launching, commanded]
  rw [e, List.map_map, List.find?_eq_none]
  intro n hn
  have m := h n (by have := List.mem_range.mp hn; omega)
  simpa [Function.comp_def] using m

/-- The gang waits, and no team stands. -/
def waiting (x : GangState) : State := { st wav with waves := [], graph := { (st wav).graph with gangs := [(1, { kernel := 0, num := 0, state := x })], teams := [] } }

theorem test_meets_Kernels (h : Obligations.KernelsComeAndGo) :
    Goes (.launchConsume 5) (launching (some launchPlan) 0 [0]) ∧ Goes (.launchConsume 5) (launching none 3 [0]) ∧
      Goes (.launchConsume 5) (launching none 2 [0]) ∧ Goes (.launchConsume 5) (launching (some launchPlan) 0 (List.range 65535)) ∧ Goes (.gangPlace 0) (waiting .waiting) ∧ Goes (.gangPlace 0) (waiting .saved) ∧
      Goes (.kernelRetire 0) { waiting .waiting with graph := { (waiting .waiting).graph with kernels := (waiting .waiting).graph.kernels.map fun k => (k.1, { k.2 with gone := 1 }), gangs := [] } } := by
  obtain ⟨_, _, e1, -⟩ := h.2.1 5 (launching (some launchPlan) 0 [0]) _ _ 1 rfl rfl rfl rfl (by decide +kernel)
  obtain ⟨_, e2, -⟩ := h.2.2.1 5 (launching none 3 [0]) _ rfl rfl rfl rfl
  obtain ⟨_, e5, -⟩ := h.2.2.1 5 (launching none 2 [0]) _ rfl rfl rfl rfl
  have e6 := h.1 5 (launching (some launchPlan) 0 (List.range 65535)) _ _ rfl rfl rfl rfl (noNumber _ _ _ fun _ h => List.mem_range.mpr h)
  obtain ⟨_, e3, -⟩ := h.2.2.2.1 0 (waiting .waiting) 1 { kernel := 0, num := 0 } _ [0] [] [] (by decide) (by decide +kernel) (fun _ h => nomatch h) rfl rfl (by decide +kernel)
  obtain ⟨_, e7, -⟩ := h.2.2.2.1 0 (waiting .saved) 1 { kernel := 0, num := 0, state := .saved } _ [0] [] [] (by decide) (by decide +kernel) (fun _ h => nomatch h) rfl rfl
    (by decide +kernel)
  obtain ⟨_, e4, -⟩ := (h.2.2.2.2 0 { waiting .waiting with graph := { (waiting .waiting).graph with kernels := (waiting .waiting).graph.kernels.map fun k => (k.1, { k.2 with gone := 1 }), gangs := [] } }
    _ rfl).1 (by decide) (fun _ h => nomatch h)
  exact ⟨⟨_, e1⟩, ⟨_, e2⟩, ⟨_, e5⟩, ⟨_, e6⟩, ⟨_, e3⟩, ⟨_, e7⟩, _, e4⟩

/-- Kernel 0 has one task reservation for each team; cores 0 and 1 have these tasks, and core 0 this steal on its way. -/
def tasked (n m : Nat) (steal : Option (Nat × Nat)) : State :=
  { st wav with
    clk := 1000
    cores := [(0, { Core.reset 0 with tq := List.replicate n ⟨0, 0, 640, [], false⟩, eligible := [(0, 0)], steal := steal }), (1, { Core.reset 1 with tq := List.replicate m ⟨0, 0, 640, [], false⟩ })]
    graph := { (st wav).graph with kernels := (st wav).graph.kernels.map fun k => (k.1, { k.2 with tasks := 1 }), teams := [(4, { team with slots := [0, 1] })] } }

theorem test_meets_Tasks (h : Obligations.TasksArePouredAndStolen) :
    Goes (.spruePour 0) (tasked 32 0 none) ∧ Goes (.sprueWaitExpiry 0) (tasked 1 0 none) ∧ Goes (.stealRequest 0) (tasked 0 0 none) ∧
      Goes (.stealAnswer 0) (tasked 0 0 (some (0, 1))) ∧ Goes (.stealAnswer 0) (tasked 0 3 (some (0, 1))) := by
  obtain ⟨_, _, e1, -⟩ := h.1 (.spruePour 0) (tasked 32 0 none) 0 0 _ (List.replicate 32 ⟨0, 0, 640, [], true⟩) 4 0 _ (.inl ⟨rfl, rfl⟩) (by decide +kernel) (by decide +kernel)
    (by decide +kernel) rfl rfl (by decide)
  obtain ⟨_, _, e2, -⟩ := h.1 (.sprueWaitExpiry 0) (tasked 1 0 none) 0 0 _ [⟨0, 0, 640, [], true⟩] 4 0 _ (.inr rfl) (by decide +kernel) (by decide +kernel)
    (by decide +kernel) rfl rfl (by decide)
  obtain ⟨_, e3, -⟩ := h.2.1 0 (tasked 0 0 none) 0 (by decide +kernel) rfl (by decide)
  obtain ⟨_, e4, -⟩ := (h.2.2 0 1 (tasked 0 0 (some (0, 1))) 0 rfl (by decide)).1 (by decide)
  obtain ⟨_, _, _, e5, -⟩ := (h.2.2 0 1 (tasked 0 3 (some (0, 1))) 0 rfl (by decide)).2 (by decide) (fun x hx => by cases List.mem_singleton.mp hx; rfl)
  exact ⟨⟨_, e1⟩, ⟨_, e2⟩, ⟨_, e3⟩, ⟨_, e4⟩, _, e5⟩

/-- A load of address space 0 beyond its tables, and its operation. -/
def stuckOp : Op := { opOf (load 0) 384 with parked := true, stuck := 8, record := some 0 }

/-- Its wave, parked. -/
def pwav : Wave := { owav stuckOp with parked := true }

/-- A fault record. -/
def faultRec (kind serial : Nat) : FaultRec := { serial := serial, bytes := List.replicate 32 0, wave := 7, op := if kind = 0 then some 5 else none, kind := kind }

/-- The driver answers the record 0. -/
def answering (w : Wave) (rs : List FaultRec) (a : Nat) : State :=
  commanded { st w with front := { faults := rs, nextFault := 2 } } (command 19 [(0x0C, a)])

theorem starts (s : State) (kind : Nat) (l fs : List (Nat × Nat)) (hc : (command kind l).clean fs = true) : Starts (commanded s (command kind l)) 5 (command kind l) fs :=
  ⟨rfl, rfl, (by show (0 : Nat) ≠ 65536; decide), rfl, .inr rfl, hc⟩

theorem lane3 (l : Nat) (h : hasLane 8 l = true) : l = 3 := by
  have a : l < 32 := BitVec.lt_of_getLsbD h
  have b : ∀ l, l < 32 → hasLane 8 l = true → l = 3 := by decide
  exact b l a h

theorem page_of {α : Type} (x : MR α) (h : (match x with | .page .. => true | _ => false) = true) : ∃ r z, x = .page r z := by
  cases x with
  | page r z => exact ⟨r, z, rfl⟩
  | ok _ _ => cases h
  | perm _ => cases h
  | data => cases h
  | gated => cases h

/-- A halted wave. -/
def haltedWav : Wave := { wav with t := { wav.t with halted := true, haltRecord := some 0 } }

theorem test_meets_PageFaults (h : Obligations.PageFaultsWaitForTheDriver) :
    Goes (.memAccessComplete 7 5 (laneBit 3)) (st (owav (opOf (load 0) 384))) ∧ Goes (.fetchLine 7 0) (st wav) ∧
      Goes (.slotAnswer 5) (answering pwav [faultRec 0 0, faultRec 1 1] 0) ∧ Goes (.slotAnswer 5) (answering pwav [faultRec 0 0] 0) ∧
      Goes (.slotAnswer 5) (answering pwav [faultRec 0 0] 1) ∧ Goes (.slotAnswer 5) (answering haltedWav [faultRec 3 0] 0) ∧
      Goes (.slotAnswer 5) (answering haltedWav [faultRec 3 0] 1) := by
  obtain ⟨_, _, _, _, e1, -⟩ := h.1 (st (owav (opOf (load 0) 384))) 7 5 3 _ _ _ _ _ _ _ _ _ _ 1 (performs _ _ _ _ rfl (by decide)) rfl rfl (by decide) rfl (by decide) rfl rfl rfl rfl (by decide +kernel)
  obtain ⟨r, z, hr⟩ := page_of ((st wav).codeLine 0 1) (by decide +kernel)
  obtain ⟨_, _, _, e2, -⟩ := h.2.1 7 0 (st wav) _ _ r z rfl rfl (by decide) (by decide) hr
  obtain ⟨_, _, _, e3, -⟩ := ((h.2.2 5 (answering pwav [faultRec 0 0, faultRec 1 1] 0) _ _ _ (starts _ _ _ _ (by decide +kernel)) rfl rfl rfl rfl rfl).1 5 _ rfl rfl rfl rfl rfl (by decide)).1
    ⟨faultRec 1 1, by decide, by decide, rfl, by decide, rfl⟩
  obtain ⟨_, _, _, e4, -⟩ := ((h.2.2 5 (answering pwav [faultRec 0 0] 0) _ _ _ (starts _ _ _ _ (by decide +kernel)) rfl rfl rfl rfl rfl).1 5 _ rfl rfl rfl rfl rfl (by decide)).2
    (by decide) (by decide) (by decide) (by decide) (by decide) (fun l hl => by cases lane3 l hl; decide +kernel) (by decide +kernel)
  obtain ⟨_, _, e5, -⟩ := (h.2.2 5 (answering pwav [faultRec 0 0] 1) _ _ _ (starts _ _ _ _ (by decide +kernel)) rfl rfl rfl rfl rfl).2.1 5 _ _ _ _ _ _ _ _ rfl rfl rfl rfl rfl rfl
    (by decide) (fun l hl => by cases lane3 l hl; exact ⟨_, rfl, by decide +kernel⟩) (by decide) (by decide)
  obtain ⟨_, _, e6, -⟩ := ((h.2.2 5 (answering haltedWav [faultRec 3 0] 0) _ _ _ (starts _ _ _ _ (by decide +kernel)) rfl rfl rfl rfl rfl).2.2 rfl rfl).1 (by decide)
  obtain ⟨_, _, e7, -⟩ := ((h.2.2 5 (answering haltedWav [faultRec 3 0] 1) _ _ _ (starts _ _ _ _ (by decide +kernel)) rfl rfl rfl rfl rfl).2.2 rfl rfl).2 (by decide)
  exact ⟨⟨_, e1⟩, ⟨_, e2⟩, ⟨_, e3⟩, ⟨_, e4⟩, ⟨_, e5⟩, ⟨_, e6⟩, _, e7⟩

/-- A command beside the wave, its kernel and its gang. -/
def cmdst (kind : Nat) (l : List (Nat × Nat)) : State := commanded (st wav) (command kind l)

/-- One that has begun. -/
def begun (kind : Nat) (l : List (Nat × Nat)) : State := commanded (st wav) { command kind l with begun := true }

/-- Kernel 0 has a copy of KVER that a core has not applied. -/
def lagging (s : State) : State := { s with graph := { s.graph with kernels := s.graph.kernels.map fun k => (k.1, { k.2 with lag := [(0, 1)] }) } }

theorem ok_of (x : MR (List Nat)) (h : (match x with | .ok v _ => decide (∀ f ∈ v, f % 65536 = 0 ∧ f < 2 ^ 48) | _ => false) = true) :
    ∃ v s, x = .ok v s ∧ ∀ f ∈ v, f % 65536 = 0 ∧ f < 2 ^ 48 := by
  cases x with
  | ok v s => exact ⟨v, s, rfl, of_decide_eq_true h⟩
  | page _ _ => cases h
  | perm _ => cases h
  | data => cases h
  | gated => cases h

/-- A vacate that waits for gang 1. -/
def vacating : State :=
  { commanded (st wav) { command 21 [] with begun := true, gangs := [1] } with
    graph := { (st wav).graph with gangs := [(1, { kernel := 0, num := 0, state := .saving, cores := [0] })] } }

/-- A pool command whose list of frames lies in line 3: one frame, at 0. -/
def pooling (k : Nat) : State :=
  let s := cmdst 20 [(0x0A, k), (0x10, 384), (0x18, 1)]
  { s with mem := { s.mem with tags := [(384, { tag with zero := true })] } }

theorem test_meets_SlotCommands (h : Obligations.SlotCommandsActAndAnswer) :
    Goes (.slotNop 5) (cmdst 99 []) ∧ Goes (.teardown 5) (cmdst 18 [(0x3F, 1)]) ∧ Goes (.slotNop 5) (cmdst 0 []) ∧ Goes (.slotLaunch 5) (cmdst 1 [(8, 384)]) ∧
      Goes (.slotGrow 5) (cmdst 2 [(0x0C, 65535)]) ∧ Goes (.slotGrow 5) (cmdst 2 [(0x0C, 65536)]) ∧ Goes (.slotMail 5) (cmdst 3 []) ∧
      Goes (.slotAsid 5) (cmdst 16 [(8, 65535), (0x10, 1)]) ∧ Goes (.poolArena 5) (pooling 0) ∧ Goes (.poolSave 5) (pooling 1) ∧
      Goes (.vacate (.cmd 5)) (cmdst 21 [(0x0C, 1)]) ∧ Goes (.vacate (.cmd 5)) (begun 21 []) ∧ Goes (.vacate (.cmd 5)) vacating ∧ Goes (.transferRequest (.cmd 5)) (cmdst 22 [(0x0C, 0)]) ∧
      Goes (.transferRequest (.cmd 5)) (cmdst 22 [(0x0C, 7)]) ∧ Goes (.transferRequest (.cmd 5)) (begun 22 []) ∧ Goes (.transferRequest (.cmd 5)) (lagging (begun 22 [])) ∧
      Goes (.cancel 5) { cmdst 23 [] with graph := { (st wav).graph with nodes := [(0, node0)] } } ∧ Goes (.debugOpen 5) (cmdst 25 [(0x10, 128)]) ∧ Goes (.debugOpen 5) (cmdst 25 [(0x10, 2 ^ 56 - 128)]) ∧
      Goes (.debugClose 5) (cmdst 25 [(0x0A, 1)]) ∧ Goes (.hostBreak 1) (cmdst 25 [(0x0A, 2)]) ∧
      Goes (.service 5) (cmdst 26 [(0x10, 4096), (0x18, 8193), (0x20, 4096), (0x24, 4096)]) ∧
      Goes (.vacate (.anvil { asid := 0, kernel := 0, arg := 4 })) (st wav) ∧ Goes (.transferRequest (.anvil { asid := 0, kernel := 0, arg := 1, lock := 2 })) (st wav) ∧
      Goes (.transferRequest (.cmd 5)) (cmdst 22 [(0x0A, 1)]) ∧
      Goes (.transferRequest (.cmd 5)) (commanded (st wav) { command 22 [] with begun := true, queue := anvilQueue }) := by
  obtain ⟨_, e1, -⟩ := h.1 5 (cmdst 99 []) _ rfl rfl (by decide) (by decide) (by decide)
  obtain ⟨_, e2, -⟩ := h.2.1 (.teardown 5) 5 18 [(8, 2)] _ (cmdst 18 [(0x3F, 1)]) _ rfl rfl rfl (by decide) (.inr (by decide)) rfl rfl (by decide +kernel) (by decide) (fun h => absurd h (by decide))
  obtain ⟨_, e3, -⟩ := h.2.2.1 5 (cmdst 0 []) _ (starts _ _ _ _ (by decide +kernel)) rfl
  obtain ⟨_, e4, -⟩ := h.2.2.2.1 5 (cmdst 1 [(8, 384)]) _ (starts _ _ _ _ (by decide +kernel)) rfl rfl (by decide) (by decide)
  obtain ⟨_, e5, -⟩ := (h.2.2.2.2.1 5 (cmdst 2 [(0x0C, 65535)]) _ 0 _ (starts _ _ _ _ (by decide +kernel)) rfl rfl rfl rfl).1 (by decide)
  obtain ⟨_, e6, -⟩ := (h.2.2.2.2.1 5 (cmdst 2 [(0x0C, 65536)]) _ 0 _ (starts _ _ _ _ (by decide +kernel)) rfl rfl rfl rfl).2 (by decide)
  obtain ⟨_, e7, -⟩ := h.2.2.2.2.2.1 5 (cmdst 3 []) _ (starts _ _ _ _ (by decide +kernel)) rfl rfl
  obtain ⟨_, e8, -⟩ := h.2.2.2.2.2.2.1 5 (cmdst 16 [(8, 65535), (0x10, 1)]) _ (starts _ _ _ _ (by decide +kernel)) rfl (by decide) (by decide)
  have p := h.2.2.2.2.2.2.2.1 5
  obtain ⟨fs, r, hr, hf⟩ := ok_of ((pooling 0).frameList (command 20 [(0x0A, 0), (0x10, 384), (0x18, 1)])) (by decide +kernel)
  obtain ⟨_, e9, -⟩ := (p (pooling 0) _ fs r ⟨rfl, rfl, by decide, rfl, .inr rfl, by decide +kernel⟩ rfl rfl (by decide) (by decide) (by decide) (by decide) hr hf).1 (by decide)
  obtain ⟨fs, r, hr, hf⟩ := ok_of ((pooling 1).frameList (command 20 [(0x0A, 1), (0x10, 384), (0x18, 1)])) (by decide +kernel)
  obtain ⟨_, e10, -⟩ := (p (pooling 1) _ fs r ⟨rfl, rfl, by decide, rfl, .inr rfl, by decide +kernel⟩ rfl rfl (by decide) (by decide) (by decide) (by decide) hr hf).2 (by decide)
  have v := h.2.2.2.2.2.2.2.2.1 5
  obtain ⟨_, _, _, e11, -⟩ := (v (cmdst 21 [(0x0C, 1)]) _ 0 _ rfl rfl).1 (starts _ _ _ _ (by decide +kernel)) rfl rfl (by decide) (by decide)
  obtain ⟨_, e12, -⟩ := (v (begun 21 []) _ 0 kern rfl rfl).2.1 rfl (by decide) (fun _ h => nomatch h)
  obtain ⟨_, e22, -⟩ := (v vacating _ 0 kern rfl rfl).2.2 rfl ⟨1, by decide, by decide⟩
  obtain ⟨_, _, e23, -⟩ := h.2.2.2.2.2.2.2.2.2.1 { asid := 0, kernel := 0, arg := 4 } (st wav)
  obtain ⟨_, _, e24, -⟩ := h.2.2.2.2.2.2.2.2.2.2.1 { asid := 0, kernel := 0, arg := 1, lock := 2 } (st wav)
  have t := h.2.2.2.2.2.2.2.2.2.2.2.1 5
  obtain ⟨_, _, e13, -⟩ := (t (cmdst 22 [(0x0C, 0)]) _ 0 _ (starts _ _ _ _ (by decide +kernel)) rfl rfl (by decide) rfl rfl (by decide) (by decide)).1 (by decide) rfl
  obtain ⟨_, e14, -⟩ := (t (cmdst 22 [(0x0C, 7)]) _ 0 _ (starts _ _ _ _ (by decide +kernel)) rfl rfl (by decide) rfl rfl (by decide) (by decide)).2 (by decide)
  obtain ⟨_, e25, -⟩ := h.2.2.2.2.2.2.2.2.2.2.2.2.1 5 (cmdst 22 [(0x0A, 1)]) _ (starts _ _ _ _ (by decide +kernel)) rfl (by decide) (by decide) (.inr (by decide))
  have t := h.2.2.2.2.2.2.2.2.2.2.2.2.2.1 5
  obtain ⟨_, e15, -⟩ := (t (begun 22 []) _ 0 _ rfl rfl rfl rfl rfl).1 rfl (by decide)
  have e16 := (t (lagging (begun 22 [])) _ 0 _ rfl rfl rfl rfl rfl).2.2 (by decide)
  obtain ⟨_, e26, -⟩ := (t (commanded (st wav) { command 22 [] with begun := true, queue := anvilQueue }) _ 0 _ rfl rfl rfl rfl rfl).2.1 rfl rfl
  obtain ⟨_, _, e17, -⟩ := h.2.2.2.2.2.2.2.2.2.2.2.2.2.2.1 5 { cmdst 23 [] with graph := { (st wav).graph with nodes := [(0, node0)] } } _ node0
    ⟨rfl, rfl, by decide, by decide, .inr rfl, by decide +kernel⟩ rfl rfl (by decide)
  have d := h.2.2.2.2.2.2.2.2.2.2.2.2.2.2.2.1 5
  obtain ⟨_, e18, -⟩ := ((d (cmdst 25 [(0x10, 128)]) _ rfl rfl).1 (starts _ _ _ _ (by decide +kernel)) (by decide) (by decide +kernel) (by decide +kernel)).1 (by decide +kernel)
  obtain ⟨_, e27, -⟩ := ((d (cmdst 25 [(0x10, 2 ^ 56 - 128)]) _ rfl rfl).1 (starts _ _ _ _ (by decide +kernel)) (by decide +kernel) (by decide +kernel) (by decide +kernel)).2 (by decide +kernel)
  obtain ⟨_, e19, -⟩ := (d (cmdst 25 [(0x0A, 1)]) _ rfl rfl).2.1 (starts _ _ _ _ (by decide +kernel)) (by decide)
  obtain ⟨_, e20, -⟩ := (d (cmdst 25 [(0x0A, 2)]) _ rfl rfl).2.2 1 (starts _ _ _ _ (by decide +kernel)) (by decide) (by decide) (by decide)
  obtain ⟨_, e21, -⟩ := h.2.2.2.2.2.2.2.2.2.2.2.2.2.2.2.2 5 (cmdst 26 [(0x10, 4096), (0x18, 8193), (0x20, 4096), (0x24, 4096)]) _ (starts _ _ _ _ (by decide +kernel)) rfl rfl
    (by decide) (by decide) (by decide) (by decide) (by decide +kernel) (by decide +kernel)
  exact ⟨⟨_, e1⟩, ⟨_, e2⟩, ⟨_, e3⟩, ⟨_, e4⟩, ⟨_, e5⟩, ⟨_, e6⟩, ⟨_, e7⟩, ⟨_, e8⟩, ⟨_, e9⟩, ⟨_, e10⟩, ⟨_, e11⟩, ⟨_, e12⟩, ⟨_, e22⟩, ⟨_, e13⟩, ⟨_, e14⟩, ⟨_, e15⟩, ⟨_, e16⟩,
    ⟨_, e17⟩, ⟨_, e18⟩, ⟨_, e27⟩, ⟨_, e19⟩, ⟨_, e20⟩, ⟨_, e21⟩, ⟨_, e23⟩, ⟨_, e24⟩, ⟨_, e25⟩, _, e26⟩

/-- An invalidate of a kind of address space 0: one page from 0, every vault, or all. -/
def inval (kind : Nat) : Slotrec := command 17 (if kind = 0 then [(8, 0), (0x18, 1), (0x20, 2)] else if kind = 1 then [(8, 1), (0x0C, 0xFFFF)] else [(8, 2)])

/-- The gang is saved. -/
def resting (c : Slotrec) : State :=
  { commanded (st wav) c with graph := { (st wav).graph with gangs := [(1, { kernel := 0, num := 0, state := .saved })] } }

theorem test_meets_Invalidates (h : Obligations.InvalidatesAndTeardownDropWhatTheyName) :
    Goes (.invalidateRange 5) (commanded (st wav) (inval 0)) ∧ Goes (.invalidateGrants 5) (commanded (st wav) (inval 1)) ∧
      Goes (.invalidateAsid 5) (commanded (st wav) (inval 2)) ∧ Goes (.invalidateAsid 5) (commanded (st wav) { inval 2 with begun := true }) ∧
      Goes (.invalidateAsid 5) (commanded (l1st (st wav) 3 1 1 true) { inval 2 with begun := true }) ∧
      Goes (.teardown 5) (cmdst 18 []) ∧ Goes (.teardown 5) { begun 18 [] with waves := [(7, owav (opOf (load 0) 384))] } ∧
      Goes (.teardown 5) (resting { command 18 [] with begun := true }) := by
  obtain ⟨_, e0, -⟩ := (h.1 0 5 (commanded (st wav) (inval 0)) (inval 0) (by decide) rfl (by decide +kernel)).1 ⟨rfl, rfl, by decide, rfl, .inr rfl, by decide +kernel⟩ rfl
    ⟨by decide +kernel, by decide +kernel, by decide +kernel, .inr (.inl (by decide +kernel)), by decide +kernel⟩
  obtain ⟨_, e1, -⟩ := (h.1 1 5 (commanded (st wav) (inval 1)) (inval 1) (by decide) rfl (by decide +kernel)).1 ⟨rfl, rfl, by decide, rfl, .inr rfl, by decide +kernel⟩ rfl
    (.inr (by decide +kernel))
  obtain ⟨_, e2, -⟩ := (h.1 2 5 (commanded (st wav) (inval 2)) (inval 2) (by decide) rfl (by decide +kernel)).1 ⟨rfl, rfl, by decide, rfl, .inr rfl, by decide +kernel⟩ rfl trivial
  obtain ⟨_, e3, -⟩ := (h.1 2 5 (commanded (st wav) { inval 2 with begun := true }) _ (by decide) rfl (by decide +kernel)).2.1 rfl rfl (by decide +kernel) (by decide)
  obtain ⟨_, e4, -⟩ := (h.1 2 5 (commanded (l1st (st wav) 3 1 1 true) { inval 2 with begun := true }) _ (by decide) rfl (by decide +kernel)).2.2 rfl rfl (by decide +kernel)
  obtain ⟨_, e5, -⟩ := (h.2 5 (cmdst 18 []) _ rfl).1 (starts _ _ _ _ (by decide +kernel)) rfl
  have e6 := (h.2 5 { begun 18 [] with waves := [(7, owav (opOf (load 0) 384))] } _ rfl).2.1 rfl rfl (by decide +kernel)
  obtain ⟨_, e7, -⟩ := (h.2 5 (resting { command 18 [] with begun := true }) _ rfl).2.2 rfl rfl (by decide +kernel) (by decide +kernel) (by decide)
  exact ⟨⟨_, e0⟩, ⟨_, e1⟩, ⟨_, e2⟩, ⟨_, e3⟩, ⟨_, e4⟩, ⟨_, e5⟩, ⟨_, e6⟩, _, e7⟩

/-- A command that names a group of one member, whose list lies in line 3. -/
def groupCmd : Slotrec := { command 24 [(8, 4), (0x0C, 0), (0x0E, 255), (0x10, 65535), (0x14, 1), (0x18, 384)] with begun := true }

/-- The list's line is zero, so the member is die 0 of package 0. -/
def grouping : State :=
  let s := commanded (st wav) groupCmd
  { s with mem := { s.mem with tags := [(384, { tag with zero := true })] } }

theorem members_of (x : MR (List Member)) (h : (match x with | .ok v _ => decide (v = [⟨0, 0⟩]) | _ => false) = true) : ∃ v s, x = .ok v s ∧ v = [⟨0, 0⟩] := by
  cases x with
  | ok v s => exact ⟨v, s, rfl, of_decide_eq_true h⟩
  | page _ _ => cases h
  | perm _ => cases h
  | data => cases h
  | gated => cases h

theorem test_meets_ConfigCommands (h : Obligations.ConfigCommandsWriteTheirTarget) :
    Goes (.configCodebook 5) (cmdst 24 [(0x0C, 255), (0x0E, 0)]) ∧ Goes (.configDeepFmtw 5) (cmdst 24 [(8, 1), (0x0C, 63), (0x0E, 0)]) ∧
      Goes (.configVaultFmtw 5) (cmdst 24 [(8, 2), (0x0C, 127), (0x0E, 63), (0x10, 0)]) ∧ Goes (.configGrantbase 5) (cmdst 24 [(8, 3), (0x0C, 3), (0x0E, 0)]) ∧
      Goes (.configGrantbase 5) (cmdst 24 [(8, 3), (0x0C, 3), (0x0E, 0), (0x10, 2 ^ 48), (0x18, 0)]) ∧
      Goes (.slotNop 5) (cmdst 24 [(8, 4)]) ∧ Goes (.configCollGroup 5 [⟨0, 0⟩] 65535) grouping ∧ Goes (.configCollGroup 5 [] 65535) grouping ∧ Goes (.configPlacectl 5) (cmdst 24 [(8, 5), (0x10, 0xFFFF)]) ∧
      Goes (.configSpruectl 5) (cmdst 24 [(8, 5), (0x0C, 1), (0x0E, 3), (0x10, 0x3FF03FF)]) ∧
      Goes (.configStealseed 5) (cmdst 24 [(8, 5), (0x0C, 2), (0x0E, 511), (0x10, 0)]) := by
  obtain ⟨_, e1, -⟩ := (h.2.2 5 (cmdst 24 [(0x0C, 255), (0x0E, 0)]) _ rfl (starts _ _ _ _ (by decide +kernel))).1 (by decide +kernel) (by decide +kernel) (by decide +kernel)
  obtain ⟨_, e2, -⟩ := (h.2.2 5 (cmdst 24 [(8, 1), (0x0C, 63), (0x0E, 0)]) _ rfl (starts _ _ _ _ (by decide +kernel))).2.1 (by decide +kernel) (by decide +kernel)
    (by decide +kernel) (by decide +kernel) (by decide +kernel)
  obtain ⟨_, e3, -⟩ := (h.2.2 5 (cmdst 24 [(8, 2), (0x0C, 127), (0x0E, 63), (0x10, 0)]) _ rfl (starts _ _ _ _ (by decide +kernel))).2.2.1 (by decide +kernel) (by decide +kernel)
    (by decide +kernel) (by decide +kernel) (by decide +kernel)
  obtain ⟨_, e4, -⟩ := (h.2.2 5 (cmdst 24 [(8, 3), (0x0C, 3), (0x0E, 0)]) _ rfl (starts _ _ _ _ (by decide +kernel))).2.2.2.2.1 (by decide +kernel) (by decide +kernel)
    (by decide +kernel) (by decide +kernel) (by decide +kernel)
  obtain ⟨_, e9, -⟩ := (h.2.2 5 (cmdst 24 [(8, 3), (0x0C, 3), (0x0E, 0), (0x10, 2 ^ 48), (0x18, 0)]) _ rfl (starts _ _ _ _ (by decide +kernel))).2.2.2.1 (by decide +kernel)
    (by decide +kernel) (by decide +kernel) (by decide +kernel) (by decide +kernel)
  obtain ⟨_, e10, -⟩ := h.1 5 (cmdst 24 [(8, 4)]) _ rfl rfl (by decide +kernel) rfl (by decide +kernel) (by decide +kernel)
  obtain ⟨ms, r, hr, hm⟩ := members_of (grouping.memberList groupCmd) (by decide +kernel)
  have a := h.2.1 5 grouping groupCmd ms r rfl rfl (by decide +kernel) rfl (by decide) (by decide +kernel) rfl (by decide +kernel) (by decide +kernel) (by decide +kernel)
    (by decide +kernel) (by decide +kernel) (by decide +kernel) (by decide +kernel) (by decide +kernel) hr (by rw [hm]; decide)
  rw [hm, (by decide +kernel : groupCmd.get 0x10 4 = 65535)] at a
  obtain ⟨⟨_, e5, -⟩, a⟩ := a
  obtain ⟨_, e6, -⟩ := (h.2.2 5 (cmdst 24 [(8, 5), (0x10, 0xFFFF)]) _ rfl (starts _ _ _ _ (by decide +kernel))).2.2.2.2.2.1 (by decide +kernel) (by decide +kernel)
    (by decide +kernel) (by decide +kernel)
  obtain ⟨_, e7, -⟩ := (h.2.2 5 (cmdst 24 [(8, 5), (0x0C, 1), (0x0E, 3), (0x10, 0x3FF03FF)]) _ rfl (starts _ _ _ _ (by decide +kernel))).2.2.2.2.2.2.1 (by decide +kernel)
    (by decide +kernel) (by decide +kernel) (by decide +kernel) (by decide +kernel)
  obtain ⟨_, e8, -⟩ := (h.2.2 5 (cmdst 24 [(8, 5), (0x0C, 2), (0x0E, 511), (0x10, 0)]) _ rfl (starts _ _ _ _ (by decide +kernel))).2.2.2.2.2.2.2 (by decide +kernel)
    (by decide +kernel) (by decide +kernel) (by decide +kernel)
  exact ⟨⟨_, e1⟩, ⟨_, e2⟩, ⟨_, e3⟩, ⟨_, e4⟩, ⟨_, e9⟩, ⟨_, e10⟩, ⟨_, e5⟩, ⟨_, a [] 65535 (by decide)⟩, ⟨_, e6⟩, ⟨_, e7⟩, _, e8⟩

/-- Queue 65535 holds ticket 0, committed or not; its slots lie in line 3. -/
def queued (c : Bool) : State :=
  let s := home (st wav) (BitVec.ofNat 1024 1)
  { s with front := { queues := [(65535, { base := 384, log2n := 4, isOpen := true, valid := true, next := 1, commit := if c then [(0, true)] else [] })] }
           mem := { s.mem with asids := [(0, { valid := true })] } }

/-- The node ring of address space 0 has an entry to write and interrupts waiting. -/
def rung (count : Nat) : State :=
  { st wav with front := { rings := [(1, { base := 65536, size := 4096, count := count, queue := [List.replicate 128 1], co := { pending := 1 } })] }, clk := 300000 }

theorem test_meets_Queues (h : Obligations.QueuesAndRingsCarryRecords) :
    Goes (.doorbellReserve 65536) (st wav) ∧ Goes (.doorbellReserve 65535) (queued false) ∧ Goes (.doorbellCommit 65535 0) (queued false) ∧
      Goes (.queueConsume 65535) (queued true) ∧ Goes (.queueConsume 65535) (queued false) ∧ Goes (.configurationWindowWrite 65535 [0, 0, 0x80000104, 0]) (st wav) ∧
      Goes (.configurationWindowWrite 65536 [0]) (st wav) ∧ Goes (.ringEntryWrite 0 true) (rung 30) ∧ Goes (.ringEntryWrite 0 true) (rung 31) ∧
      Goes (.irqHoldExpiry 0 true) (rung 0) ∧ Goes (.ringAcknowledge 0 true 31) (rung 31) := by
  have e1 := (h.1 65536 (st wav) (.inl (by decide))).1
  obtain ⟨_, e2, -⟩ := h.2.1 65535 (queued false) (by decide) rfl
  obtain ⟨_, e3, -⟩ := h.2.2.1 65535 0 (queued false) (by decide) rfl
  obtain ⟨bs, r, hr, ht⟩ : ∃ bs r, (queued true).slotBytes ((queued true).queue 65535) 0 = .ok bs r ∧
      (r.takeSlot 65535 ((queued true).queue 65535) bs).1.nodes = 0 := by
    have : (match (queued true).slotBytes ((queued true).queue 65535) 0 with
      | .ok bs r => decide ((r.takeSlot 65535 ((queued true).queue 65535) bs).1.nodes = 0)
      | _ => false) = true := by decide +kernel
    split at this
    · exact ⟨_, _, by assumption, by simpa using this⟩
    · cases this
  obtain ⟨_, e4, -⟩ := (h.2.2.2.1 65535 (queued true) bs r rfl rfl (by decide) rfl hr).2.1 (.inl ht)
  have e5 := h.2.2.2.2.1 65535 (queued false) rfl rfl
  obtain ⟨_, e6, -⟩ := h.2.2.2.2.2.1 65535 (st wav) 0 0 0x80000104 0 (by decide)
  obtain ⟨_, e7, -⟩ := h.2.2.2.2.2.2.1 0 (st wav)
  have w := h.2.2.2.2.2.2.2.1 0 true
  obtain ⟨_, e8, -⟩ := (w (rung 30) _ _ rfl (by decide)).1 (by decide)
  have e9 := (w (rung 31) _ _ rfl (by decide)).2 (by decide)
  obtain ⟨_, e10, -⟩ := h.2.2.2.2.2.2.2.2.1 0 true (rung 0) (by decide) (by decide) (by decide)
  obtain ⟨_, e11, -⟩ := h.2.2.2.2.2.2.2.2.2 0 true 31 (rung 31) (by decide)
  exact ⟨⟨_, e1⟩, ⟨_, e2⟩, ⟨_, e3⟩, ⟨_, e4⟩, ⟨_, e5⟩, ⟨_, e6⟩, ⟨_, e7⟩, ⟨_, e8⟩, ⟨_, e9⟩, ⟨_, e10⟩, _, e11⟩

/-- The reset state after some boots of quads. -/
def gating (closing gated : List Nat) : State := { State.reset with mod := { closing := closing, gated := gated } }

/-- A quad that closes, with a dirty line in the L1 of its first core. -/
def soiled : State := { gating [127] [] with cores := [(508, { Core.reset 508 with l1 := [(384, { valid := 1, dirty := 1, r := true, w := true })] })] }

/-- A quad that closes, to whose vault a write-back is on its way. -/
def busyQuad : State := { gating [127] [] with mem := { wbs := [⟨0, 0, lineKey 0 (2 ^ 56 + 3 * 2 ^ 33 + 31 * 2 ^ 28), 1, 1, false, false⟩] } }

/-- An image that is whole, if its signature holds. -/
def image (v : Nat) : FwImage := ⟨v, 1, Config.digest [7], [], [7]⟩

theorem test_meets_TheModule (h : Obligations.TheModuleIsGoverned) :
    Goes (.mctpLimit true 2601) State.reset ∧ Goes (.attest (List.replicate 32 0)) { State.reset with mod := { measures := List.replicate 8 (List.replicate 64 0) } } ∧
      Goes .moduleReset (st wav) ∧ Goes .boot { State.reset with mod := { staged := [(0, image 0)] } } ∧ Goes .boot { State.reset with mod := { staged := [(0, image 0)], secver := 1 } } ∧
      Goes (.tallowRecompute [513]) State.reset ∧ Goes (.dramtempCrossing 3 7 86) State.reset ∧ Goes (.powerLimitControl (.grants 1) 3) (st wav) ∧
      Goes (.quadGate 127) State.reset ∧ Goes (.quadGate 127) (gating [127] []) ∧ Goes (.quadGate 127) soiled ∧ Goes (.quadGate 127) busyQuad ∧ Goes (.quadGate 127) (gating [] [127]) ∧
      Goes (.quadUngate 0) { waiting .waiting with mod := { gated := [0] } } ∧ Goes (.unitRetire 0 0) (st wav) ∧ Goes (.unitRetire 1 5) State.reset ∧
      Goes (.unitRetire 2 0) (st wav) ∧ Goes (.podBringUp 255) State.reset := by
  obtain ⟨-, -, h1, h2, -, h3, h4, h5, h6, h7, -, -, h8, h9, h10, h11, h12, h13, h14⟩ := h
  obtain ⟨_, e1, -⟩ := h1 true 2601 State.reset rfl
  obtain ⟨_, _, e2, -⟩ := h2 (List.replicate 32 0) { State.reset with mod := { measures := List.replicate 8 (List.replicate 64 0) } } rfl (by decide)
  obtain ⟨_, e3, -⟩ := h3 (st wav)
  have one : ∀ y, (0, y) ∈ [(0, image 0)] → y = image 0 := fun _ h => (Prod.mk.inj (List.mem_singleton.mp h)).2
  obtain ⟨_, e4, -, -, -, a, -⟩ := h4 { State.reset with mod := { staged := [(0, image 0)] } }
  have _ := fun h => a 0 (image 0) rfl one ⟨h, rfl, by decide⟩
  obtain ⟨_, e5, -, -, -, -, b, -, -, -, -, c, -⟩ := h4 { State.reset with mod := { staged := [(0, image 0)], secver := 1 } }
  have no : ¬ TakenAtBoot 1 (image 0) := fun h => absurd h.2.2 (by decide)
  have _ := b 0 (fun x h => one x h ▸ no)
  have _ := c ⟨_, List.mem_singleton.mpr rfl, no⟩
  obtain ⟨_, e6, -⟩ := h5 [513] State.reset rfl
  obtain ⟨_, e7, -⟩ := h6 3 7 86 State.reset (by decide) (by decide) (by decide)
  obtain ⟨_, e8, -⟩ := h7 1 3 (st wav) (by decide) (fun k x hx => by cases List.mem_singleton.mp hx; decide)
  obtain ⟨_, e9, -⟩ := (h8 127 State.reset (by decide) (by decide) (by decide) (by decide)).1 (by decide)
  have q := (h8 127 (gating [127] []) (by decide) (by decide) (by decide) (by decide)).2.2 (by decide) (by decide +kernel) (fun _ _ => rfl)
  obtain ⟨_, e10, -⟩ := q.2 (fun _ _ => ⟨fun _ h => (nomatch h), fun _ h => (nomatch h)⟩)
  obtain ⟨_, e17, -⟩ := ((h8 127 soiled (by decide) (by decide) (by decide +kernel) (by decide +kernel)).2.2 (by decide) (by decide +kernel) (fun c hc => by
    have : c = 508 ∨ c = 509 ∨ c = 510 ∨ c = 511 := by unfold quadOf at hc; omega
    rcases this with rfl | rfl | rfl | rfl <;> decide +kernel)).1 ⟨508, by decide, .inl ⟨_, List.mem_singleton.mpr rfl, by decide⟩⟩
  have e18 := (h8 127 busyQuad (by decide) (by decide) (by decide +kernel) (by decide +kernel)).2.1 (by decide) (by decide +kernel)
  have e11 := h9 127 (gating [] [127]) (.inl (by decide))
  obtain ⟨_, e12, -⟩ := (h10 0 { waiting .waiting with mod := { gated := [0] } } (by decide +kernel) (by decide)).1 (by decide)
  obtain ⟨_, e13, -⟩ := h11 0 (st wav) (by decide) (by decide)
  obtain ⟨_, e14, -⟩ := h12 5 State.reset (by decide) (by decide) (by decide)
  obtain ⟨_, e15, -⟩ := h13 0 (st wav) (by decide) (by decide)
  obtain ⟨_, e16, -⟩ := h14 255 State.reset (by decide)
  exact ⟨⟨_, e1⟩, ⟨_, e2⟩, ⟨_, e3⟩, ⟨_, e4⟩, ⟨_, e5⟩, ⟨_, e6⟩, ⟨_, e7⟩, ⟨_, e8⟩, ⟨_, e9⟩, ⟨_, e10⟩, ⟨_, e17⟩, ⟨_, e18⟩, ⟨_, e11⟩, ⟨_, e12⟩, ⟨_, e13⟩, ⟨_, e14⟩, ⟨_, e15⟩, _, e16⟩

theorem test_meets_Encoded (h : Obligations.EncodedInstructionsDecodeBack) : decodeWord 256 ((encode (load 4)).headD 0) ((encode (load 4))[1]?) = .ok (load 4) :=
  h _ (by decide)

/-- A line whose word 2 is a NOP, or a word that does not decode. -/
def wordLine (ok : Bool) : Line := fetched 1 1 (if ok then fieldsAt [(52, 7)] else 2 ^ 64 - 1)

/-- The issuer finds there what `ok` says. -/
def stands (b : Line) (who : Who) (ok : Bool) : Bool :=
  match b.ctx who 2 with
  | none => false
  | some c =>
    match b.decode 256 2 c with
    | .ok i => ok && decide (i = .nop g7)
    | .error _ => !ok

theorem stands_ok (b : Line) (who : Who) (h : stands b who true = true) : ∃ c, b.ctx who 2 = some c ∧ b.decode 256 2 c = .ok (.nop g7) := by
  unfold stands at h
  split at h
  · cases h
  · rename_i c hc
    split at h
    · rename_i i hi
      simp only [Bool.true_and, decide_eq_true_eq] at h
      exact ⟨c, hc, h ▸ hi⟩
    · cases h

theorem stands_not (b : Line) (who : Who) (h : stands b who false = true) : ∃ c d, b.ctx who 2 = some c ∧ b.decode 256 2 c = .error d := by
  unfold stands at h
  split at h
  · cases h
  · rename_i c hc
    split at h
    · cases h
    · rename_i d hd
      exact ⟨c, d, hc, hd⟩

theorem decoded (x : Except Detail Instr) (i : Instr) (h : (match x with | .ok j => decide (j = i) | .error _ => false) = true) : x = .ok i := by
  cases x with
  | ok j => exact congrArg _ (of_decide_eq_true h)
  | error _ => cases h

/-- A split with such a line. -/
def lsp (ok : Bool) : Split := { spl with buf := some (wordLine ok) }

/-- A wave with 256 registers. -/
def lwav (ok : Bool) : Wave := { swav (lsp ok) with regs := 256 }

/-- Its split has been chosen. -/
def chosen (ok : Bool) : State := { st (lwav ok) with sel := some (.split 7 0), cur := none }

/-- An engine at such a line. -/
def leng (ok : Bool) : Engine := { run := true, mepc := pcAt 1 2, arrived := true, buf := some (wordLine ok), owner := some 4 }

/-- Its sequencer has been chosen. -/
def echosen (ok : Bool) : State := { st wav with engines := [(0, leng ok)], sel := some (.engine 0), cur := none }

theorem test_meets_AStep (h : Obligations.AStepRunsTheDecodedWord) :
    (∃ t, step (chosen true) = exec (.nop g7) t) ∧ (∃ t, step (chosen false) = .next t) ∧ (∃ t, step (echosen true) = exec (.nop g7) t) ∧
      (∃ t, step (echosen false) = .next t) ∧ step { State.reset with agenda := [.boot] } = exec .boot State.reset ∧
      ∃ t, step (State.reset.withFetchWord 64 (fieldsAt [(52, 7)])) = exec (.nop g7) t := by
  obtain ⟨h1, h2, -, h3, -, h4⟩ := h
  have hw : ∀ ok, (wordLine ok).wordAt (lsp ok).pc = 2 := by decide +kernel
  have he : ∀ ok, (wordLine ok).wordAt ((echosen ok).engine 0).mepc = 2 := by decide +kernel
  obtain ⟨c, hc, hi⟩ := stands_ok (wordLine true) (.split 7 0) (by decide +kernel)
  have e1 := (h1 (chosen true) 7 0 (lwav true) (lsp true) (wordLine true) c rfl rfl rfl rfl (hw true ▸ hc)).1 _ (by rw [hw]; exact hi)
  obtain ⟨c, d, hc, hi⟩ := stands_not (wordLine false) (.split 7 0) (by decide +kernel)
  have e2 := (h1 (chosen false) 7 0 (lwav false) (lsp false) (wordLine false) c rfl rfl rfl rfl (hw false ▸ hc)).2 _ (by rw [hw]; exact hi)
  obtain ⟨c, hc, hi⟩ := stands_ok (wordLine true) (.engine 0) (by decide +kernel)
  have e3 := (h2 (echosen true) 0 (wordLine true) c rfl rfl (he true ▸ hc)).1 _ (by rw [he]; exact hi)
  obtain ⟨c, d, hc, hi⟩ := stands_not (wordLine false) (.engine 0) (by decide +kernel)
  have e4 := (h2 (echosen false) 0 (wordLine false) c rfl rfl (he false ▸ hc)).2 _ (by rw [he]; exact hi)
  obtain ⟨c, -, e6⟩ := h4 State.reset 64 (fieldsAt [(52, 7)]) (.nop g7) (decoded _ _ (by decide +kernel)) rfl
  exact ⟨⟨_, e1⟩, ⟨_, e2⟩, ⟨_, e3⟩, ⟨_, e4⟩, h3 _ _ _ rfl rfl, _, e6⟩

theorem test_meets_EveryStep (h : Obligations.EveryStepKeepsMemoryCanonical) : ∃ t, step State.reset = .next t ∧ t.memoryWf = true := by
  obtain ⟨t, ht⟩ : ∃ t, step State.reset = .next t := by
    have : (match step State.reset with
      | .next _ => true
      | _ => false) = true := by decide +kernel
    split at this
    · exact ⟨_, by assumption⟩
    · cases this
  exact ⟨t, ht, h _ _ (by decide) ht⟩

end Sys2Proof.Tests
end

/-!
PROOFS. O12: a word whose guard is true in no lane of its split does nothing, and the split goes on (R37, R98). One predicate says so of
an outcome (`State.Passes`); each shape in which the model writes a word has one lemma for it, and each form of the statement one lemma
that says which shape its words have.
-/

namespace Sys2Proof.Machine

/-! ## The counts of an issue record no event -/

@[simp] theorem State.sampleIssue_events (s : State) (u : Nat) (w : Wave) (e : Nat) (x : Split) (c : Ctx) (act : Mask) :
    (s.sampleIssue u w e x c act).events = s.events := by
  unfold State.sampleIssue
  dsimp only
  split
  · rfl
  · split
    · rfl
    · simp

@[simp] theorem State.issue_events (s : State) (u e : Nat) (c : Ctx) (act : Mask) : (s.issue u e c act).events = s.events := by
  unfold State.issue
  split
  · rfl
  · split
    · rfl
    · simp

/-! ## A word that passes -/

/-- The outcome of a word of the split `v` that did nothing: but for what an issue counts the state is as before, no event is recorded,
and the split goes on. -/
def State.Passes (s : State) (v : Env) (o : Out) : Prop :=
  ∃ t x, o = .next (t.goOn v) ∧ s.Local t v.u ∧ t.events = s.events ∧ t.wave? v.u = some x ∧ v.w.Counts x

/-- A word of the wave runs its meaning on the state after the issue's counts; its guard is true there in the lanes in which it was. -/
theorem onWave_issued {g : Guard} {s : State} {v : Env} (hi : s.Issues v) :
    ∃ z x, (∀ k, onWave .any none g s k = .next (k (s.issue v.u v.e v.ctx (v.active g)) z)) ∧
      (s.issue v.u v.e v.ctx (v.active g)).wave? v.u = some x ∧ v.w.Counts x ∧
      z.u = v.u ∧ z.e = v.e ∧ z.ctx = v.ctx ∧ z.active g = v.active g := by
  obtain ⟨x, hx, hc⟩ := (s.issue_counted v.u v.e v.ctx (v.active g)).2 _ hi.wave
  obtain ⟨y, hy, hp⟩ := hc.reads.split hi.split
  have hmask : y.mask = v.sp.mask := congrArg (fun p => p.2.1) hp
  have hpreds : ∀ p, smGet false x.r.badP p = false := by rw [hc.r]; exact hi.preds
  refine ⟨⟨v.u, v.e, x, y, v.ctx, x.serial, s.draws⟩, x, fun k => ?_, hx, hc, rfl, rfl, rfl, ?_⟩
  · have hact : v.w.activeOf v.sp g = v.active g := rfl
    have hk := State.withPreds_good (s.issue v.u v.e v.ctx (v.active g)) ⟨v.u, v.e, x, y, v.ctx, x.serial, s.draws⟩ g k hpreds
    simp [onWave, hi.cur, hi.who, hi.wave, hi.split, hact, hx, hy, RoleRow.allows, hk]
  · simp [Env.active, Wave.getP, hc.r, hmask]

/-- A word that goes on where its guard is true in no lane passes there. -/
theorem onWave_passes {g : Guard} {s : State} {v : Env} {k : State → Env → State} (hi : s.Issues v) (ha : v.active g = 0)
    (hk : ∀ t z, z.active g = 0 → k t z = t.goOn z) : s.Passes v (onWave .any none g s k) := by
  obtain ⟨z, x, hrun, hx, hc, hu, he, hctx, hz⟩ := onWave_issued (g := g) hi
  refine ⟨s.issue v.u v.e v.ctx (v.active g), x, ?_, (s.issue_counted _ _ _ _).1, s.issue_events _ _ _ _, hx, hc⟩
  rw [hrun, hk _ _ (hz.trans ha), State.goOn_congr _ hu he hctx]

/-- Where a split issues, a word that an engine program may issue too is the wave's. -/
theorem onEither_wave {row : RoleRow} {fs : Option Bool} {g : Guard} {s : State} {v : Env} {k : State → Env → State}
    {ke : State → Nat → Ctx → Engine → State} (hi : s.Issues v) : onEither row fs g s k ke = onWave row fs g s k := by
  simp [onEither, hi.cur, hi.who]

theorem State.Issues.who_cur {s : State} {v : Env} (hi : s.Issues v) : s.cur.map Ctx.who = some (.split v.u v.e) := by
  rw [hi.cur, Option.map_some, hi.who]

theorem State.Issues.byEngine {s : State} {v : Env} (hi : s.Issues v) : s.byEngine = false := by
  rw [State.byEngine, hi.who_cur]

/-! ## The shapes of the register words -/

theorem aluOp_passes {s : State} {v : Env} {g : Guard} (d : Dst) (cc : Nat) (xs : List (Src × Nat)) (f : State → Env → Nat → W32 × Events)
    (hi : s.Issues v) (ha : v.active g = 0) : s.Passes v (aluOp s g d cc xs f) :=
  onWave_passes hi ha fun _ _ hz => if_pos hz

theorem aluOp64_passes {s : State} {v : Env} {g : Guard} (d : Dst) (cc : Nat) (xs : List (Src × Nat)) (f : State → Env → Nat → W64)
    (hi : s.Issues v) (ha : v.active g = 0) : s.Passes v (aluOp64 s g d cc xs f) :=
  onWave_passes hi ha fun _ _ hz => if_pos hz

theorem predOp_passes {s : State} {v : Env} {g : Guard} (pd : Nat) (comb : Comb) (xs : List (Src × Nat))
    (f : State → Env → Nat → Bool × Events) (hi : s.Issues v) (ha : v.active g = 0) : s.Passes v (predOp s g pd comb xs f) :=
  onWave_passes hi ha fun _ _ hz => if_pos hz

/-! ## Which shape a form's words have

Four integer words have a meaning of their own where an engine program issues them; where a split does they are words like the others. -/

theorem execMov_wave {s : State} {v : Env} (hi : s.Issues v) (g : Guard) (d : Dst) (a : Src) (cc : Nat) :
    execMov g d a cc s = aluOp s g d cc [(a, 1)] fun s v l => (s.rd v l a, []) := by
  rw [execMov, hi.who_cur]

theorem execMovi_wave {s : State} {v : Env} (hi : s.Issues v) (g : Guard) (d : Dst) (b : Src) (cc : Nat) :
    execMovi g d b cc s = aluOp s g d cc [(b, 1)] fun s v l => (s.rd v l b, []) := by
  rw [execMovi, hi.who_cur]

theorem execIadd_wave {s : State} {v : Env} (hi : s.Issues v) (g : Guard) (d : Dst) (a b : Src) (cc : Nat) :
    execIadd g d a b cc s = alu2 s g d a b cc (· + ·) := by
  simp [execIadd, hi.byEngine]

theorem execIsub_wave {s : State} {v : Env} (hi : s.Issues v) (g : Guard) (d : Dst) (a b : Src) (cc : Nat) :
    execIsub g d a b cc s = alu2 s g d a b cc (· - ·) := by
  simp [execIsub, hi.byEngine]

/-- A move, integer or lane word that a split issues has `aluOp`'s shape. What it computes, `f`, is left open here and below: it plays no
part where the word computes in no lane. -/
theorem exec_intForm {i : Instr} {F : Form32} {s : State} {v : Env} (h : intForm i = some F) (hi : s.Issues v) :
    ∃ f, exec i s = aluOp s F.g F.d F.cc F.srcs f := by
  cases i with
  | mov g d a cc => cases h; exact ⟨_, execMov_wave hi g d a cc⟩
  | movi g d b cc => cases h; exact ⟨_, execMovi_wave hi g d b cc⟩
  | iadd g d a b cc => cases h; exact ⟨_, execIadd_wave hi g d a b cc⟩
  | isub g d a b cc => cases h; exact ⟨_, execIsub_wave hi g d a b cc⟩
  | sel g w64 => cases w64 <;> cases h; exact ⟨_, rfl⟩
  | i2i g op => cases op <;> cases h <;> exact ⟨_, rfl⟩
  | _ => cases h <;> exact ⟨_, rfl⟩

theorem exec_floatForm {i : Instr} {F : FormF} (h : floatForm i = some F) (s : State) :
    ∃ f, exec i s = aluOp s F.g F.d F.cc F.srcs f := by
  unfold floatForm at h
  split at h <;> cases h <;> exact ⟨_, rfl⟩

theorem exec_wideForm {i : Instr} {F : Form64} (h : wideForm i = some F) (s : State) :
    ∃ f, exec i s = aluOp64 s F.g F.d F.cc F.srcs f := by
  unfold wideForm at h
  split at h <;> cases h <;> exact ⟨_, rfl⟩

theorem exec_testForm {i : Instr} {F : FormP} (h : testForm i = some F) (s : State) :
    ∃ f, exec i s = predOp s F.g F.pd F.comb F.srcs f := by
  unfold testForm at h
  split at h <;> cases h <;> exact ⟨_, rfl⟩

/-- A register word in no lane passes. -/
theorem readForm_passes {i : Instr} {g : Guard} {xs : List (Src × Nat)} {s : State} {v : Env} (h : readForm i = some (g, xs))
    (hi : s.Issues v) (ha : v.active g = 0) : s.Passes v (exec i s) := by
  unfold readForm at h
  split at h
  · next F hF =>
    cases h
    obtain ⟨f, hf⟩ := exec_intForm hF hi
    exact hf ▸ aluOp_passes _ _ _ _ hi ha
  · next F hF _ =>
    cases h
    obtain ⟨f, hf⟩ := exec_floatForm hF s
    exact hf ▸ aluOp_passes _ _ _ _ hi ha
  · next F hF _ _ =>
    cases h
    obtain ⟨f, hf⟩ := exec_wideForm hF s
    exact hf ▸ aluOp64_passes _ _ _ _ hi ha
  · next F hF _ _ _ =>
    cases h
    obtain ⟨f, hf⟩ := exec_testForm hF s
    exact hf ▸ predOp_passes _ _ _ _ hi ha
  · cases h

/-! ## Control words -/

theorem lanesOf_zero : lanesOf 0 = [] := by decide

/-- A branch that no lane takes falls through: no target is checked (R98). -/
theorem State.branchTo_no_lane (s0 s : State) (v : Env) (d : Due) (link : Bool) {m : Mask} (dest : Nat → Option (Option W64))
    (hm : m = 0) : s0.branchTo s v d link m dest = s.goOn v := by
  rw [State.branchTo, hm, lanesOf_zero]; rfl

/-- A branch, call or return that no lane takes passes. A trampoline is none of these: it sends the whole split. -/
theorem jumpForm_passes {i : Instr} {J : Jump} {s : State} {v : Env} (h : jumpForm i = some J) (htlr : J.tlr = false)
    (htrj : ∀ b t, i ≠ .trj b t) (hi : s.Issues v) (ha : v.active J.g = 0) : s.Passes v (exec i s) := by
  cases i with
  | bra g t =>
    cases h
    rw [show exec (.bra g t) s = execBra g t s from rfl, execBra, onEither_wave hi]
    exact onWave_passes hi ha fun _ _ hz => State.branchTo_no_lane _ _ _ _ _ _ hz
  | call g t | ret g => cases h; exact onWave_passes hi ha fun _ _ hz => State.branchTo_no_lane _ _ _ _ _ _ hz
  | braInd g a | callInd g a | brx g t x n => cases h; exact onWave_passes hi ha fun _ _ hz => if_pos hz
  | trj b t => exact absurd rfl (htrj b t)
  | trc b t => cases h; cases htlr
  | _ => cases h

theorem exit_passes {g : Guard} {s : State} {v : Env} (hi : s.Issues v) (ha : v.active g = 0) : s.Passes v (exec (.exit g) s) := by
  rw [show exec (.exit g) s = execExit g s from rfl, execExit, onEither_wave hi]
  exact onWave_passes hi ha fun _ _ hz => if_pos hz

theorem yield_passes {g : Guard} {s : State} {v : Env} (hi : s.Issues v) (ha : v.active g = 0) : s.Passes v (exec (.yield g) s) :=
  onWave_passes hi ha fun _ _ hz => if_pos hz

theorem sleep_passes {g : Guard} {s : State} {v : Env} (b : Src) (hi : s.Issues v) (ha : v.active g = 0) :
    s.Passes v (exec (.sleep g b) s) :=
  onWave_passes hi ha fun _ _ hz => if_pos hz

/-- Settles O12: every word that the statement names passes, and an outcome that passes changes no register, lane or link. -/
theorem wordsInNoLaneDoNothing : Obligations.WordsInNoLaneDoNothing := by
  unfold Obligations.WordsInNoLaneDoNothing
  refine ⟨fun i g xs s v h hi ha => ?_, fun i g s v h hi ha => ?_⟩
  · obtain ⟨t, x, ht, hl, hev, hx, hc⟩ := readForm_passes h hi ha
    exact ⟨t, x, ht, hl, hev, hx, hc.r, hc.ops, hc.splits⟩
  · have hpass : s.Passes v (exec i s) := by
      rcases h with ⟨J, hJ, rfl, htlr, htrj⟩ | rfl | rfl | ⟨b, rfl⟩
      · exact jumpForm_passes hJ htlr htrj hi ha
      · exact exit_passes hi ha
      · exact yield_passes hi ha
      · exact sleep_passes b hi ha
    obtain ⟨t, x, ht, hl, -, hx, hc⟩ := hpass
    exact ⟨t, x, ht, hl, hx, hc.reads, hc.r⟩

end Sys2Proof.Machine

/-!
PROOFS. O13: the lanes that `exit` names leave every split of their wave (R106). `Wave.dropLanes` takes them out; what else an exit does
(the trace record, the tasks that end, the operations that the last lane drops) leaves the lanes of every split as they are.
-/

namespace Sys2Proof.Machine

/-! ## A trace record -/

/-- Records that wait to be written, and the count of a split's records, are neither a register nor a place. -/
theorem Wave.traces_counts (w : Wave) (ts : List (List Byte)) (e n : Nat) :
    w.Counts ({ w with traces := ts }.updSplit e fun y => { y with traced := some n }) :=
  Wave.Counts.trans (b := { w with traces := ts })
    ⟨rfl, fun _ => rfl, rfl, rfl, rfl, rfl, rfl, rfl, rfl, rfl, rfl, rfl, rfl⟩ (Wave.updSplit_counts _ e _ fun _ => rfl)

/-- A trace record changes no register, no memory and no lane (R460). -/
theorem State.trace_counted (s : State) (u e kind : Nat) (body : List Byte) : s.Counted (s.trace u e kind body) u := by
  unfold State.trace
  split
  · exact .refl s u
  · next w hw =>
    split
    · exact .refl s u
    · dsimp only
      split
      · exact .refl s u
      · refine ⟨s.setWave_local _ _, fun y hy => ⟨_, s.wave?_setWave_self _ _, ?_⟩⟩
        obtain rfl : w = y := Option.some.inj (hw.symm.trans hy)
        exact w.traces_counts _ e _

/-! ## The lanes of a wave's splits -/

/-- From `w` to `x` every vector and uniform register and every split are the same, and the same lanes have exited. -/
structure Wave.KeepsLanes (w x : Wave) : Prop where
  v : x.r.v = w.r.v
  k : x.r.k = w.r.k
  exited : x.exited = w.exited
  splits : ∀ e, x.split? e = w.split? e
  ovf : x.ovf = w.ovf

theorem Wave.KeepsLanes.refl (w : Wave) : w.KeepsLanes w := ⟨rfl, rfl, rfl, fun _ => rfl, rfl⟩

theorem Wave.KeepsLanes.trans {a b c : Wave} (h : a.KeepsLanes b) (k : b.KeepsLanes c) : a.KeepsLanes c :=
  ⟨k.v.trans h.v, k.k.trans h.k, k.exited.trans h.exited, fun e => (k.splits e).trans (h.splits e), k.ovf.trans h.ovf⟩

theorem Wave.dropFlag_keepsLanes (w : Wave) (f : Option Nat) : w.KeepsLanes (w.dropFlag f) := by
  cases f <;> exact ⟨rfl, rfl, rfl, fun _ => rfl, rfl⟩

theorem Wave.dropOps_keepsLanes (w : Wave) (p : Op → Bool) : w.KeepsLanes (w.dropOps p) := by
  have hflags : ∀ (os : List Op) (w : Wave), w.KeepsLanes (os.foldl (fun w o => w.dropFlag o.flag) w) := by
    intro os
    induction os with
    | nil => exact .refl
    | cons o os ih => exact fun w => (w.dropFlag_keepsLanes o.flag).trans (ih _)
  exact (hflags (w.ops.filter p) w).trans ⟨rfl, rfl, rfl, fun _ => rfl, rfl⟩

/-- What the last lane's leaving drops (R97, R224) is no register, no split and no memory. -/
theorem State.lastLane_keepsLanes {s : State} {u : Nat} {w : Wave} (hw : s.wave? u = some w) :
    (s.lastLane u).mem = s.mem ∧ ∃ x, (s.lastLane u).wave? u = some x ∧ w.KeepsLanes x := by
  unfold State.lastLane
  simp only [hw]
  split
  · refine ⟨rfl, _, s.wave?_setWave_self _ _, (w.dropOps_keepsLanes _).trans ⟨rfl, rfl, rfl, fun _ => rfl, rfl⟩⟩
  · exact ⟨rfl, _, s.wave?_setWave_self _ _, w.dropOps_keepsLanes _⟩

/-! ## Lanes that leave -/

/-- What is left of a mask without the lanes `m` holds none of them. -/
theorem Mask.cut_and (a m : Mask) : a &&& ~~~m &&& m = 0 := by
  rw [BitVec.and_assoc, BitVec.and_comm (~~~m), BitVec.and_not_self]; exact BitVec.and_zero

/-- A lane that has left stands in no split: in no live entry and not in the handler. -/
theorem Wave.split?_dropLanes {w : Wave} {m : Mask} {e : Nat} {y : Split} (h : (w.dropLanes m).split? e = some y) : y.mask &&& m = 0 := by
  by_cases he : e = 4
  · rw [Wave.split?, if_pos he] at h
    obtain ⟨x, -, rfl⟩ := Option.map_eq_some_iff.mp h
    exact Mask.cut_and x.mask m
  · rw [Wave.split?, if_neg he] at h
    obtain ⟨o, -, hkeep⟩ := List.mem_map.mp (List.mem_of_getElem? (Option.join_eq_some_iff.mp h))
    cases o with
    | none => cases hkeep
    | some x =>
      dsimp only at hkeep
      split at hkeep
      · cases hkeep
      · cases hkeep; exact Mask.cut_and x.mask m

/-- Nor in an overflow entry. -/
theorem Wave.ovf_dropLanes {w : Wave} {m : Mask} {y : Split} (h : y ∈ (w.dropLanes m).ovf) : y.mask &&& m = 0 := by
  obtain ⟨x, -, rfl⟩ := List.mem_map.mp (List.mem_filter.mp h).1
  exact Mask.cut_and x.mask m

/-- The completion of tasks is counted at their nodes: no wave and no memory changes. -/
theorem State.tasksDone_frame (key : LaneTask → Nat) : ∀ (ts : List LaneTask) (s : State),
    (ts.foldl (fun s t => s.taskDone (key t)) s).waves = s.waves ∧ (ts.foldl (fun s t => s.taskDone (key t)) s).mem = s.mem
  | [], _ => ⟨rfl, rfl⟩
  | t :: ts, s => by
    obtain ⟨hwaves, hmem⟩ := State.tasksDone_frame key ts (s.taskDone (key t))
    exact ⟨hwaves.trans (s.updNode_waves _ _), hmem.trans (s.updNode_mem _ _)⟩

/-- The lanes of `m` that are present leave the wave as `dropLanes` takes them out; no memory changes. -/
theorem State.exitLanes_keepsLanes {s : State} {u : Nat} {w : Wave} (hw : s.wave? u = some w) (m : Mask) :
    (s.exitLanes u m).mem = s.mem ∧ ∃ x, (s.exitLanes u m).wave? u = some x ∧ (w.dropLanes (m &&& w.present)).KeepsLanes x := by
  unfold State.exitLanes
  simp only [hw]
  obtain ⟨hwaves, hmem⟩ := State.tasksDone_frame (fun t => nodeKey w.asid t.node) (w.wk.tasks.filter fun t => hasLane (m &&& w.present) t.lane)
    (s.setWave u { w.dropLanes (m &&& w.present) with
      wk := { w.wk with tasks := w.wk.tasks.filter fun t => !hasLane (m &&& w.present) t.lane } })
  have hx := (State.wave?_congr hwaves u).trans (s.wave?_setWave_self _ _)
  have hkeep : (w.dropLanes (m &&& w.present)).KeepsLanes { w.dropLanes (m &&& w.present) with
      wk := { w.wk with tasks := w.wk.tasks.filter fun t => !hasLane (m &&& w.present) t.lane } } := ⟨rfl, rfl, rfl, fun _ => rfl, rfl⟩
  split
  · obtain ⟨hlast, x, hlx, hk⟩ := State.lastLane_keepsLanes hx
    exact ⟨hlast.trans hmem, x, hlx, hkeep.trans hk⟩
  · exact ⟨hmem, _, hx, hkeep⟩

/-! ## The word -/

/-- Lanes of which none has exited are present. -/
theorem Wave.and_present {m : Mask} {w : Wave} (h : m &&& w.exited = 0) : m &&& w.present = m := by
  ext l hl
  have hl' := congrArg (fun b : Mask => b.getLsbD l) h
  simpa [Wave.present, BitVec.getLsbD_eq_getElem hl] using hl'

/-- The outcome of a word that every role may issue and that selects no flag: its meaning, on the state after the issue's counts. -/
theorem onWave_outcome {g : Guard} {s : State} {v : Env} {k : State → Env → State} {o : Out} (ho : onWave .any none g s k = o)
    (hi : s.Issues v) : ∃ t z, o = .next (k t z) ∧ s.Counted t v.u ∧ Env.Same s v t z := by
  obtain ⟨t, z, hrun, hct, hz, -⟩ := onWave_next (row := .any) (fs := none) (g := g) (k := k) hi rfl (by simp)
  exact ⟨t, z, ho.symm.trans hrun, hct, hz⟩

/-- `exit` in some lane: the state is counted and traced, the lanes leave, and the rest of the split goes on, returns from the handler, or
is no more. -/
theorem exit_leaves {g : Guard} {s : State} {v : Env} (hi : s.Issues v) (ha : v.active g ≠ 0) :
    ∃ r z, s.Counted r v.u ∧ z.u = v.u ∧ z.e = v.e ∧ z.ctx = v.ctx ∧
      exec (.exit g) s = .next (if v.sp.mask &&& ~~~(v.active g) ≠ 0 then (r.exitLanes v.u (v.active g)).goOn v
        else if v.e = 4 then (r.exitLanes v.u (v.active g)).trapReturn z else r.exitLanes v.u (v.active g)) := by
  obtain ⟨t, z, hrun, hct, hz⟩ := onWave_outcome (g := g) (o := exec (.exit g) s) (onEither_wave hi).symm hi
  obtain ⟨-, -, -, hmask, -⟩ := hz.lr
  refine ⟨_, z, hct.trans (t.trace_counted v.u v.e 8 (le 4 (v.active g).toNat ++ le 8 v.ctx.pc.toNat)), hz.u, hz.e, hz.ctx, hrun.trans ?_⟩
  simp only [hz.active, hz.u, hz.e, hz.ctx, hmask, if_neg ha, Env.isHandler, beq_iff_eq, State.goOn_congr _ hz.u hz.e hz.ctx]

/-- The engine program's `exit` asks it to stop with code 1 at the word after (R346). -/
theorem exit_engine {s : State} {c : Ctx} {core : Nat} (hc : s.cur = some c) (hw : c.who = .engine core) :
    exec (.exit .always) s = .next ((s.engineGo core c).updEngine core fun e => { e with stopping := some 1 }) := by
  rw [show exec (.exit .always) s = execExit .always s from rfl]
  simp [execExit, onEither, onEngine, hc, hw]

/-- Settles O13: what the lanes of `exit` leave is what `dropLanes` leaves, where none of them has exited before. -/
theorem exitedLanesLeaveEverySplit : Obligations.ExitedLanesLeaveEverySplit := by
  unfold Obligations.ExitedLanesLeaveEverySplit
  refine ⟨fun g s v hi ha hex => ?_, fun core c s hc hw => ⟨_, exit_engine hc hw, by simp, by simp [State.engineGo]⟩⟩
  obtain ⟨r, z, ⟨hl, hcounts⟩, hu, he, hctx, hrun⟩ := exit_leaves hi ha
  obtain ⟨w, hw, hcw⟩ := hcounts _ hi.wave
  obtain ⟨hmem, x, hx, hk⟩ := State.exitLanes_keepsLanes hw (v.active g)
  rw [Wave.and_present (hcw.exited ▸ hex)] at hk
  refine ⟨r.exitLanes v.u (v.active g), x, z, hu, he, hctx, hrun, hmem.trans hl.mem, hx, ?_, ?_, ?_, fun e y hy => ?_, fun y hy => ?_⟩
  · exact hk.exited.trans (congrArg (· ||| v.active g) hcw.exited)
  · exact hk.v.trans (congrArg WRegs.v hcw.r)
  · exact hk.k.trans (congrArg WRegs.k hcw.r)
  · exact Wave.split?_dropLanes ((hk.splits e).symm.trans hy)
  · exact Wave.ovf_dropLanes (hk.ovf ▸ hy)

end Sys2Proof.Machine

/-!
PROOFS. O14: the split that a partition chooses (R86). The order of R86 is a total preorder on candidates, and the model's fold over the
candidates keeps the first of those seen so far.
-/

namespace Sys2Proof.Machine

/-! ## The order of candidates -/

/-- `a` does not come before `b`: a lower level, or the same and a smaller W, or these the same and no lower slot or entry. -/
theorem Cand.before_eq_false {a b : Cand} : a.before b = false ↔
    a.level < b.level ∨ (a.level = b.level ∧ (a.w < b.w ∨ (a.w = b.w ∧ (b.slotNo < a.slotNo ∨ (b.slotNo = a.slotNo ∧ b.e ≤ a.e))))) := by
  simp only [Cand.before, Bool.or_eq_false_iff, Bool.and_eq_false_iff, decide_eq_false_iff_not, beq_eq_false_iff_ne]
  omega

theorem Cand.not_before_self (a : Cand) : a.before a = false := Cand.before_eq_false.mpr (by omega)

theorem Cand.not_before_trans {a b c : Cand} (h : a.before b = false) (k : b.before c = false) : a.before c = false := by
  rw [Cand.before_eq_false] at *
  omega

/-- Of two candidates at most one comes before the other. -/
theorem Cand.before_asymm {a b : Cand} (h : a.before b = true) : b.before a = false := by
  have hab : ¬ a.before b = false := fun hf => Bool.noConfusion (hf.symm.trans h)
  rw [Cand.before_eq_false] at *
  omega

/-! ## The first of a list -/

/-- The first of two candidates; the one seen earlier where neither comes before the other. -/
def Cand.pick (x c : Cand) : Cand := if c.before x then c else x

theorem Cand.pick_mem (x c : Cand) : x.pick c = x ∨ x.pick c = c := by
  unfold Cand.pick; split <;> simp

/-- Neither of the two comes before the one picked. -/
theorem Cand.pick_first (x c : Cand) : x.before (x.pick c) = false ∧ c.before (x.pick c) = false := by
  unfold Cand.pick
  split
  · next h => exact ⟨Cand.before_asymm h, c.not_before_self⟩
  · next h => exact ⟨x.not_before_self, by simpa using h⟩

/-- The candidate picked from a list is one of the list, and none of the list comes before it. -/
theorem Cand.foldl_pick_first : ∀ (cs : List Cand) (x : Cand),
    cs.foldl Cand.pick x ∈ x :: cs ∧ ∀ d ∈ x :: cs, d.before (cs.foldl Cand.pick x) = false
  | [], x => ⟨by simp, by simp [x.not_before_self]⟩
  | c :: cs, x => by
    obtain ⟨hmem, hfirst⟩ := Cand.foldl_pick_first cs (x.pick c)
    obtain ⟨hx, hc⟩ := x.pick_first c
    have hpick := hfirst _ List.mem_cons_self
    refine ⟨?_, fun d hd => ?_⟩
    · rw [List.foldl_cons]
      rcases List.mem_cons.mp hmem with h | h
      · rw [h]; rcases x.pick_mem c with hp | hp <;> simp [hp]
      · simp [h]
    · rcases List.mem_cons.mp hd with rfl | hd
      · exact Cand.not_before_trans hx hpick
      · rcases List.mem_cons.mp hd with rfl | hd
        · exact Cand.not_before_trans hc hpick
        · exact hfirst d (List.mem_cons_of_mem _ hd)

/-! ## The choice -/

/-- A partition that is not gathering picks from its candidates in their order. -/
theorem State.partBest_cons {s : State} {core part : Nat} {x : Cand} {cs : List Cand} (h : s.partCands core part = x :: cs)
    (hb : smGet 0 (s.core core).busy part ≤ s.clk) : s.partBest core part = some (cs.foldl Cand.pick x) := by
  have hfold : ∀ (f : Option Cand → Cand → Option Cand) (_ : ∀ x c, f (some x) c = some (Cand.pick x c)) (cs : List Cand) (x : Cand),
      cs.foldl f (some x) = some (cs.foldl Cand.pick x) := by
    intro f hf cs
    induction cs with
    | nil => exact fun _ => rfl
    | cons c cs ih => intro x; rw [List.foldl_cons, hf, ih, List.foldl_cons]
  rw [State.partBest, if_neg (Nat.not_lt.mpr hb), h, List.foldl_cons]
  exact hfold _ (fun x c => (apply_ite some (c.before x = true) c x).symm) cs x

/-- A partition's candidates are eligible. -/
theorem State.eligible_of_mem_partCands {s : State} {core part : Nat} {c : Cand} (h : c ∈ s.partCands core part) :
    s.eligible c.u c.e = true := by
  obtain ⟨w, -, hw⟩ := List.mem_flatMap.mp h
  obtain ⟨e, he, hc⟩ := List.mem_filterMap.mp hw
  obtain ⟨x, -, rfl⟩ := Option.map_eq_some_iff.mp hc
  exact (List.mem_filter.mp he).2

/-- Settles O14: the candidate that the fold keeps is the first of the partition's candidates. -/
theorem theBestEligibleSplitIssues : Obligations.TheBestEligibleSplitIssues := by
  unfold Obligations.TheBestEligibleSplitIssues
  refine ⟨fun core part s hp hne hb => ?_, fun core s hr => ?_⟩
  · obtain ⟨x, cs, hcs⟩ := List.exists_cons_of_ne_nil hne
    obtain ⟨hmem, hfirst⟩ := Cand.foldl_pick_first cs x
    rw [← hcs] at hmem hfirst
    refine ⟨_, hmem, ?_, State.eligible_of_mem_partCands hmem, fun d hd => Cand.before_eq_false.mp (hfirst d hd)⟩
    rw [show exec (.issueSelect core part) s = execIssueSelect core part s from rfl, execIssueSelect, if_neg hp, State.partBest_cons hcs hb]
  · rw [show exec (.issueSelect core 4) s = execIssueSelect core 4 s from rfl, execIssueSelect, if_pos rfl, if_pos hr]

end Sys2Proof.Machine

/-!
PROOFS. O60: what reset leaves. A core, an engine and a register that the state does not list stand at their reset values.
-/

namespace Sys2Proof.Machine

theorem State.core_reset (c : Nat) : State.reset.core c = Core.reset c := rfl

theorem State.engine_reset (c : Nat) : State.reset.engine c = {} := rfl

/-- Settles O60: each register reads the value that its declaration gives it. -/
theorem resetLeavesTheSpecsValues : Obligations.ResetLeavesTheSpecsValues := by
  unfold Obligations.ResetLeavesTheSpecsValues
  obtain ⟨hphys, hhost, hvault⟩ := State.reset_bytesWf
  refine ⟨⟨by simp [State.memoryWf, hphys, hhost, hvault], rfl, rfl, rfl⟩, rfl, rfl, rfl, rfl, fun _ => rfl,
    fun c => congrArg Core.seed (State.core_reset c), fun _ => rfl, fun _ => rfl, rfl, rfl, fun _ => rfl, fun _ => ⟨rfl, rfl, rfl⟩,
    ?engine, ?bank, ?trap⟩
  case engine =>
    rintro c e rfl
    rw [State.engine_reset]
    exact ⟨rfl, rfl, rfl, rfl, fun _ => ⟨rfl, rfl, rfl, rfl⟩⟩
  case bank =>
    rintro b rfl
    exact ⟨rfl, rfl, rfl, rfl, rfl, rfl, rfl, rfl, rfl, rfl, rfl, rfl, rfl, rfl, fun _ => ⟨rfl, rfl, rfl, rfl⟩⟩
  case trap =>
    rintro t rfl
    exact ⟨rfl, rfl, rfl, rfl, rfl, rfl, rfl⟩

end Sys2Proof.Machine

/-!
PROOFS. O3: comparisons and predicate words. Each has `predOp`'s shape, and the test that it makes in a lane reads sources or predicates
alone, so it makes the same test after the counts of its issue as before.
-/

namespace Sys2Proof.Machine

/-- A comparison or a predicate word has `predOp`'s shape, and its test is the one that its form names. -/
theorem exec_testForm_test {i : Instr} {F : FormP} (h : testForm i = some F) (s : State) (v : Env) :
    ∃ f, exec i s = predOp s F.g F.pd F.comb F.srcs f ∧ ∀ t z l, Env.Same s v t z → (f t z l).1 = F.test s v l := by
  cases i with
  | psetNe g pd a | psetMask g pd a | fcmp g c pd comb a b =>
    cases h
    exact ⟨_, rfl, fun t z l hz => by simp only [hz.rd]⟩
  | pand g pd pa pb | por g pd pa pb | pxor g pd pa pb | pnot g pd pa | pmov g pd pa =>
    cases h
    exact ⟨_, rfl, fun t z l hz => by simp only [hz.getP]⟩
  | icmp g w64 u c pd comb a b =>
    cases w64 with
    | false => cases u <;> cases h <;> exact ⟨_, rfl, fun t z l hz => by simp [hz.rd]⟩
    | true => cases u <;> cases h <;> exact ⟨_, rfl, fun t z l hz => by simp [hz.rd64]⟩
  | _ => cases h

/-- Settles O3: a word of `predOp`'s shape leaves in its predicate the test that it makes. -/
theorem testsWriteTheirPredicate : Obligations.TestsWriteTheirPredicate := by
  unfold Obligations.TestsWriteTheirPredicate
  intro i F s v h hi ha hr
  obtain ⟨f, hexec, htest⟩ := exec_testForm_test h s v
  rw [hexec]
  exact predOp_next hi ha hr htest

end Sys2Proof.Machine

/-!
PROOFS. O5: `vtok` reads its source B beside A (R126), so a B that holds an uncorrectable error traps (R457), whatever A holds; the
statement asks only that A may be read. In `VtokCase` the uniform register k0 names lane 0, which is active, and holds an error: the word
raises DATAERR and its split stays at it, where the statement has the split go on.
-/

namespace Sys2Proof.Machine

/-- Where split `e` of wave `u` stands after a step. -/
def pcAfter (o : Out) (u e : Nat) : Option W64 :=
  match o with
  | .next t => (t.wave? u).bind fun w => (w.split? e).map Split.pc
  | _ => none

/-- A split that goes on inside a clause stands at the next word. -/
theorem pcAfter_goOn {t : State} {v : Env} {x : Wave} {y : Split} (hx : t.wave? v.u = some x) (hy : x.split? v.e = some y)
    (hh : v.ctx.hdr = false) : pcAfter (.next (t.goOn v)) v.u v.e = some v.ctx.next := by
  obtain ⟨w, z, hw, hz, hpc, -⟩ := State.goOn_inside hx hy hh
  simp [pcAfter, hw, hz, hpc]

namespace VtokCase

/-- A split of lane 0. -/
def split : Split := { pc := 64, mask := 1, ver := 0 }

/-- Its wave: k0 holds an uncorrectable error, every other register is good. -/
def wave : Wave :=
  { gang := 0, team := 0, index := 0, role := .vector, kernel := 0, asid := 0, regs := 64, place := some (0, 0)
    live := [some split, none, none, none], r := { badK := [(0, true)] } }

/-- The word that the split issues. -/
def ctx : Ctx := { who := .split 7 0, pc := 64, next := 72 }

/-- Wave 7 issues that word. -/
def state : State := { State.reset with waves := [(7, wave)], nextWave := 8, cur := some ctx }

/-- What the word sees. -/
def env : Env := ⟨7, 0, wave, split, ctx, 1, 0⟩

/-- `vtok k1, v1, k0`. -/
def word : Instr := .vtok .always 1 (.v 1) (.k 0)

/-- The word is well-formed: B is uniform, as R126 asks. -/
theorem word_wf : word.wf = true := by decide

theorem issues : state.Issues env := ⟨rfl, rfl, rfl, rfl, rfl, rfl, fun _ => rfl⟩

/-- A may be read in the lane that B names. -/
theorem readable : state.Readable env (laneBit ((state.rd env 0 (.k 0)).toNat % 32)) [(.v 1, 1)] :=
  ⟨.inr (by decide), by decide⟩

/-- The split stays at the word. -/
theorem stays : pcAfter (exec word state) 7 0 = some ctx.pc := by decide

end VtokCase

/-- Refutes O5: in `VtokCase` the split stays at its `vtok`, for the error in B, and does not go on. -/
theorem not_laneWordsMoveBetweenLanes : ¬ Obligations.LaneWordsMoveBetweenLanes := by
  unfold Obligations.LaneWordsMoveBetweenLanes
  rintro ⟨⟨-, hvtok, -⟩, -⟩
  obtain ⟨t, x, hexec, -, hx, -, y, hy, -⟩ :=
    hvtok .always 1 (.v 1) (.k 0) VtokCase.state VtokCase.env VtokCase.issues (by decide) (by decide) VtokCase.readable
  have hgo : pcAfter (exec VtokCase.word VtokCase.state) 7 0 = some VtokCase.ctx.next :=
    (congrArg (pcAfter · 7 0) hexec).trans (pcAfter_goOn hx hy rfl)
  exact absurd (VtokCase.stays.symm.trans hgo) (by decide)

end Sys2Proof.Machine

/-!
PROOFS. What O7 and O8 share: a word that every role may issue runs on the state that its issue counted, named here, and its reads keep
what Laws/Issue.lean does not speak of: the trap state of the wave, and the core of each team.
-/

namespace Sys2Proof.Machine

/-! ## What an issue and its reads leave alone -/

/-- What of a wave's trap state a pending cause adds to (R442, R443). -/
def Wave.trapped (w : Wave) : W32 × Mask × List TDetail := (w.t.cause, w.t.planes, w.t.dq)

theorem Wave.setSplit_trapped (w : Wave) (e : Nat) (x : Option Split) : (w.setSplit e x).trapped = w.trapped := by
  unfold Wave.setSplit
  split <;> rfl

theorem State.sampleIssue_trapped (s : State) (u : Nat) (w : Wave) (e : Nat) (x : Split) (c : Ctx) (act : Mask) :
    ((s.sampleIssue u w e x c act).wave? u).map Wave.trapped = (s.wave? u).map Wave.trapped := by
  unfold State.sampleIssue
  dsimp only
  split
  · rfl
  · split
    · rfl
    · rw [State.wave?_updWave_self, Option.map_map]
      rfl

/-- An issue raises no cause. -/
theorem State.issue_trapped (s : State) (u e : Nat) (c : Ctx) (act : Mask) :
    ((s.issue u e c act).wave? u).map Wave.trapped = (s.wave? u).map Wave.trapped := by
  unfold State.issue
  split
  · rfl
  · next w hw =>
    split
    · rfl
    · rw [State.sampleIssue_trapped, State.wave?_congr (State.updBank_waves _ _ _), State.wave?_setWave_self, hw]
      exact congrArg some (Wave.setSplit_trapped { w with serial := w.serial + 1 } e _)

/-- The core on which a team stands. -/
def State.teamCore (s : State) (k : Nat) : Option Nat := (s.team? k).bind Team.core

theorem State.teamCore_congr {s t : State} (h : t.graph = s.graph) : t.teamCore = s.teamCore := by
  funext k
  simp [State.teamCore, State.team?, h]

theorem State.updBank_teamCore (s : State) (w : Wave) (f : Bank → Bank) : (s.updBank w f).teamCore = s.teamCore := by
  funext k
  simp only [State.teamCore, State.updBank, State.team?_updTeam]
  split
  · cases s.team? k <;> rfl
  · rfl

theorem State.sampleIssue_teamCore (s : State) (u : Nat) (w : Wave) (e : Nat) (x : Split) (c : Ctx) (act : Mask) :
    (s.sampleIssue u w e x c act).teamCore = s.teamCore := by
  unfold State.sampleIssue
  dsimp only
  split
  · rfl
  · split
    · rfl
    · exact State.teamCore_congr (by simp)

/-- An issue moves no team. -/
theorem State.issue_teamCore (s : State) (u e : Nat) (c : Ctx) (act : Mask) : (s.issue u e c act).teamCore = s.teamCore := by
  unfold State.issue
  split
  · rfl
  · split
    · rfl
    · rw [State.sampleIssue_teamCore, State.updBank_teamCore]
      rfl

@[simp] theorem State.gather_graph (s : State) (v : Env) (rs : List Nat) : (s.gather v rs).graph = s.graph := by
  unfold State.gather
  dsimp only
  split <;> simp

/-! ## Running a word -/

/-- A word that every role may issue and that selects no flag runs its meaning on the state after the issue's counts. -/
theorem onWave_runs {g : Guard} {s : State} {v : Env} (hi : s.Issues v) :
    ∃ z, (∀ k, onWave .any none g s k = .next (k (s.issue v.u v.e v.ctx (v.active g)) z)) ∧
      Env.Same s v (s.issue v.u v.e v.ctx (v.active g)) z ∧ (s.issue v.u v.e v.ctx (v.active g)).wave? v.u = some z.w ∧
      v.w.Counts z.w ∧ z.serial = v.serial ∧ z.w.trapped = v.w.trapped := by
  obtain ⟨hlocal, hcounts⟩ := s.issue_counted v.u v.e v.ctx (v.active g)
  obtain ⟨x, hx, hc⟩ := hcounts _ hi.wave
  obtain ⟨y, hy, hp⟩ := hc.reads.split hi.split
  have htrap : x.trapped = v.w.trapped := by simpa [hx, hi.wave] using s.issue_trapped v.u v.e v.ctx (v.active g)
  refine ⟨⟨v.u, v.e, x, y, v.ctx, x.serial, s.draws⟩, fun k => ?_, ?_, hx, hc,
    (State.issue_serial hi.wave hi.split _ _ hx).trans hi.serial.symm, htrap⟩
  · have hpreds : ∀ p, smGet false x.r.badP p = false := by rw [hc.r]; exact hi.preds
    have hact : v.w.activeOf v.sp g = v.active g := rfl
    have hk := State.withPreds_good (s.issue v.u v.e v.ctx (v.active g)) ⟨v.u, v.e, x, y, v.ctx, x.serial, s.draws⟩ g k hpreds
    simp [onWave, hi.cur, hi.who, hi.wave, hi.split, hact, hx, hy, RoleRow.allows, hk]
  · exact ⟨rfl, rfl, rfl, hi.draw.symm, by rw [hc.r], by rw [hc.r], by rw [hc.r], by rw [hc.r], by rw [hc.r], by rw [hc.r], hc.gang, hc.team,
      hc.index, hc.asid, hc.role, hc.at_, hc.wk, hc.exited, hp, hlocal.gangs, hlocal.mod, hlocal.clk⟩

/-- The reads of a word that may read its registers: what follows runs where consumer counts have fallen and no team has moved. -/
theorem State.reads_runs {s : State} {v : Env} {m : Mask} {xs : List (Src × Nat)} (h : s.Readable v m xs) :
    ∃ t, (∀ k, s.reads v m xs k = k t) ∧ s.Local t v.u ∧ t.teamCore = s.teamCore := by
  obtain ⟨w, hc, -⟩ := Env.consume_ok h
  refine ⟨(s.setWave v.u w).gather v (xs.flatMap fun x => srcBanks x.1 x.2), fun k => ?_,
    (s.setWave_local _ _).trans (State.gather_counted _ _ _).1, State.teamCore_congr (State.gather_graph _ _ _)⟩
  simp [State.reads, hc, h.2]

end Sys2Proof.Machine

/-!
PROOFS. O7: released slots. `rel` writes tags alone (R129). A register word that finds a slot released has the shape of every register word
(`exec_readForm`), and its reads trap before it computes anything (R121).
-/

namespace Sys2Proof.Machine

/-! ## Tags -/

theorem Wave.getTag_setTag (w : Wave) {n l i j : Nat} (t : Nat) (hl : l < 32) (hj : j < 32) :
    (w.setTag n l t).getTag i j = if i = n ∧ j = l then t else w.getTag i j := by
  simp only [Wave.getTag, Wave.setTag, smGet_set, vkey_inj hj hl]

/-- From `w` to `x` a word of the split `e` changed tags at most. -/
structure Wave.Retagged (w x : Wave) (e : Nat) : Prop where
  rest : w.Rest x e
  v : x.r.v = w.r.v
  k : x.r.k = w.r.k

theorem Wave.Retagged.refl (w : Wave) (e : Nat) : w.Retagged w e := ⟨.refl w e, rfl, rfl⟩

theorem Wave.Retagged.trans {a b c : Wave} {e : Nat} (h : a.Retagged b e) (k : b.Retagged c e) : a.Retagged c e :=
  ⟨h.rest.trans k.rest, k.v.trans h.v, k.k.trans h.k⟩

theorem Wave.Counts.retagged {w x : Wave} (h : w.Counts x) (e : Nat) : w.Retagged x e := ⟨h.rest e, by rw [h.r], by rw [h.r]⟩

theorem Wave.setTag_retagged (w : Wave) (n l t e : Nat) : w.Retagged (w.setTag n l t) e := ⟨w.setTag_rest n l t e, rfl, rfl⟩

theorem Wave.Retagged.foldl {α : Type} {e : Nat} {g : Wave → α → Wave} (h : ∀ (w : Wave) x, w.Retagged (g w x) e) :
    ∀ (xs : List α) (w : Wave), w.Retagged (xs.foldl g w) e
  | [], w => .refl w e
  | x :: xs, w => (h w x).trans (Wave.Retagged.foldl h xs (g w x))

/-- Releasing one register in the lanes of a list. -/
theorem Wave.getTag_releaseLanes (n : Nat) {i j : Nat} (hj : j < 32) : ∀ (ls : List Nat) (w : Wave), (∀ l ∈ ls, l < 32) →
    (ls.foldl (fun w l => w.setTag n l 4) w).getTag i j = if i = n ∧ j ∈ ls then 4 else w.getTag i j
  | [], w, _ => by simp
  | l :: ls, w, h => by
    rw [List.foldl_cons, Wave.getTag_releaseLanes n hj ls _ fun x hx => h x (List.mem_cons_of_mem _ hx),
      Wave.getTag_setTag _ _ (h l List.mem_cons_self) hj]
    by_cases hi : i = n <;> by_cases hm : j ∈ ls <;> simp [hi, hm]

/-- What `rel` leaves of a wave (R129): `n` registers from `d` on are released in the lanes `m`. -/
def Wave.released (w : Wave) (d n : Nat) (m : Mask) : Wave :=
  (List.range n).foldl (fun w i => (lanesOf m).foldl (fun w l => w.setTag (d + i) l 4) w) w

theorem Wave.released_retagged (w : Wave) (d n : Nat) (m : Mask) (e : Nat) : w.Retagged (w.released d n m) e :=
  Wave.Retagged.foldl (fun w i => Wave.Retagged.foldl (fun w l => w.setTag_retagged (d + i) l 4 e) (lanesOf m) w) _ _

theorem Wave.getTag_released (w : Wave) (d : Nat) (m : Mask) (i : Nat) {l : Nat} (hl : l < 32) :
    ∀ n, (w.released d n m).getTag i l = if d ≤ i ∧ i < d + n ∧ hasLane m l then 4 else w.getTag i l
  | 0 => by
    have : ¬ (d ≤ i ∧ i < d + 0 ∧ hasLane m l = true) := by omega
    rw [if_neg this]
    rfl
  | n + 1 => by
    have hstep : w.released d (n + 1) m = (lanesOf m).foldl (fun w l => w.setTag (d + n) l 4) (w.released d n m) := by
      simp [Wave.released, List.range_succ]
    rw [hstep, Wave.getTag_releaseLanes _ hl _ _ fun x hx => (mem_lanesOf.mp hx).1, Wave.getTag_released w d m i hl n]
    simp only [mem_lanesOf, hl, true_and]
    by_cases hi : i = d + n
    · subst hi
      by_cases hm : hasLane m l = true <;> simp [hm]
    · have hrange : (d ≤ i ∧ i < d + (n + 1)) ↔ (d ≤ i ∧ i < d + n) := by omega
      simp only [hi, false_and, if_false, ← and_assoc, hrange]

/-- `rel` releases its registers in its active lanes. -/
theorem rel_runs (g : Guard) (d n : Nat) {s : State} {v : Env} (hi : s.Issues v) :
    ∃ t x, exec (.rel g d n) s = .next (t.goOn v) ∧ s.Local t v.u ∧ t.wave? v.u = some (x.released d n (v.active g)) ∧ v.w.Counts x := by
  obtain ⟨t, z, hrun, hct, hz⟩ := onWave_outcome (g := g) (o := exec (.rel g d n) s) rfl hi
  obtain ⟨x, hx, hc⟩ := hct.2 _ hi.wave
  refine ⟨t.updWave v.u fun w => w.released d n (v.active g), x, ?_, hct.1.trans (t.updWave_local _ _), by simp [hx], hc⟩
  rw [hrun, State.goOn_congr _ hz.u hz.e hz.ctx, hz.u, hz.active]
  rfl

/-! ## A released slot that is read -/

/-- The shape that every register word has, whatever it computes. -/
theorem exec_readForm {i : Instr} {g : Guard} {xs : List (Src × Nat)} {s : State} {v : Env} (h : readForm i = some (g, xs))
    (hi : s.Issues v) :
    ∃ k : State → Env → State → State, exec i s = onWave .any none g s fun s v =>
      if v.active g = 0 then s.goOn v else s.reads v (v.active g) xs (k s v) := by
  unfold readForm at h
  split at h
  · next F hF =>
    cases h
    obtain ⟨f, hf⟩ := exec_intForm hF hi
    exact ⟨_, hf⟩
  · next F hF _ =>
    cases h
    obtain ⟨f, hf⟩ := exec_floatForm hF s
    exact ⟨_, hf⟩
  · next F hF _ _ =>
    cases h
    obtain ⟨f, hf⟩ := exec_wideForm hF s
    exact ⟨_, hf⟩
  · next F hF _ _ _ =>
    cases h
    obtain ⟨f, hf⟩ := exec_testForm hF s
    exact ⟨_, hf⟩
  · cases h

/-- Reads that find a register released trap for the lanes in which it is (R121). -/
theorem State.reads_dead {s : State} {v : Env} {m : Mask} {xs : List (Src × Nat)} {n : Nat} (hp : v.ctx.patch = false)
    (hn : (vRegs xs).find? (fun r => v.w.deadLanes m r ≠ 0) = some n) (k : State → State) :
    s.reads v m xs k = s.trapAt v .deadread 0 (v.w.deadLanes m n) (le 2 n) := by
  simp only [State.reads, Env.consume, hp, Bool.false_eq_true, if_false, hn]

/-- A register word that reads a released slot does nothing but raise DEADREAD. -/
theorem readForm_deadread {i : Instr} {g : Guard} {xs : List (Src × Nat)} {s : State} {v : Env} {n : Nat} (h : readForm i = some (g, xs))
    (hi : s.Issues v) (hp : v.ctx.patch = false) (ha : v.active g ≠ 0)
    (hn : (vRegs xs).find? (fun r => v.w.deadLanes (v.active g) r ≠ 0) = some n) :
    ∃ t z, exec i s = .next (t.trapAt z .deadread 0 (v.w.deadLanes (v.active g) n) (le 2 n)) ∧ s.Local t v.u ∧ Env.Same s v t z ∧
      t.wave? v.u = some z.w ∧ v.w.Counts z.w ∧ z.serial = v.serial ∧ z.w.trapped = v.w.trapped := by
  obtain ⟨k, hexec⟩ := exec_readForm h hi
  obtain ⟨z, hrun, hz, hw, hc, hserial, htrap⟩ := onWave_runs (g := g) hi
  refine ⟨_, z, ?_, (s.issue_counted _ _ _ _).1, hz, hw, hc, hserial, htrap⟩
  rw [hexec, hrun, if_neg (hz.active g ▸ ha), State.reads_dead (n := n) (hz.ctx ▸ hp) (by simpa only [hz.active, hz.deadLanes] using hn),
    hz.active, hz.deadLanes]

/-- Settles O7: `rel` writes tags alone, and a read of what it released is a precise trap. -/
theorem releasedSlotsTrapWhereTheyAreRead : Obligations.ReleasedSlotsTrapWhereTheyAreRead := by
  unfold Obligations.ReleasedSlotsTrapWhereTheyAreRead
  refine ⟨fun g d n s v hi => ?_, fun i g xs s v n h hi hp ha hn => ?_⟩
  · obtain ⟨t, x, hrun, hl, hw, hc⟩ := rel_runs g d n hi
    have hk := (hc.retagged v.e).trans (x.released_retagged d n (v.active g) v.e)
    refine ⟨t, _, hrun, hl, hw, hk.rest, hk.v, hk.k, fun i l hlt => ?_⟩
    rw [x.getTag_released d (v.active g) i hlt n]
    simp only [Wave.getTag, hc.r]
  · obtain ⟨t, z, hrun, hl, hz, hw, hc, hserial, htrap⟩ := readForm_deadread h hi hp ha hn
    obtain ⟨x, hx, hlt, hcx, hcause, hplanes, hdq⟩ := State.trapAt_wave (hz.u ▸ hw) .deadread 0 (v.w.deadLanes (v.active g) n) (le 2 n)
    obtain ⟨y, hy, hpl⟩ := (hc.trans hcx).reads.split hi.split
    obtain ⟨-, -, hver, -, -⟩ := hz.lr
    simp only [Wave.trapped, Prod.mk.injEq] at htrap
    obtain ⟨hcause0, hplanes0, hdq0⟩ := htrap
    rw [hz.u] at hx hlt
    refine ⟨_, x, y, hrun, hl.trans hlt, hx, (hc.trans hcx).r, hcause.trans (by rw [hcause0]; rfl), hplanes.trans (by rw [hplanes0]), hy,
      congrArg Prod.fst hpl, fun hroom => ?_⟩
    have hmem := hdq (hdq0 ▸ hroom)
    simpa only [Env.detail, hserial, hz.ctx, hz.e, hver, Cause.num] using hmem

end Sys2Proof.Machine

/-!
PROOFS. O8: the shape registers. Before a wave's `tcfg` or `omcfg` comes to the engine, its issue and its reads have moved no team and
changed no engine, so the engine has the owner it had (`waveShape_runs`); each clause is then one branch of the claim (R337, R354).
-/

namespace Sys2Proof.Machine

theorem State.engine_congr {s t : State} (h : t.engines = s.engines) (core : Nat) : t.engine core = s.engine core := by
  rw [State.engine, State.engine, h]

theorem State.ownerAt_congr {s t : State} (he : t.engines = s.engines) (hk : t.teamCore = s.teamCore) (core : Nat) :
    t.ownerAt core = s.ownerAt core := by
  have hcore : ∀ k, (t.team? k).bind Team.core = (s.team? k).bind Team.core := congrFun hk
  simp only [State.ownerAt, State.engine_congr he, hcore]

/-- A wave claims an engine that no team owns as it sees it; a team's own engine stays as it is (R337). -/
theorem State.claim_free {s : State} {core : Nat} (h : s.ownerAt core = none) (team : Nat) :
    s.claim core team = some (s.updEngine core fun e => e.claimed team) := by
  simp only [State.claim, h]

theorem State.claim_own {s : State} {core team : Nat} (h : s.ownerAt core = some team) : s.claim core team = some s := by
  simp only [State.claim, h, if_true]

/-- A wave's write of a shape register comes to its core's engine in a state in which memory, the engines and their owners are as they
were. -/
theorem waveShape_runs {g : Guard} {b : Src} {s : State} {v : Env} (put : Engine → W32 → Engine) (hi : s.Issues v) (ha : v.active g ≠ 0)
    (hr : s.Readable v (v.active g) [(b, 1)]) :
    ∃ t r : State, t.mem = s.mem ∧ t.engines = s.engines ∧ t.ownerAt v.w.core = s.ownerAt v.w.core ∧
      ∀ c, t.claim v.w.core v.w.teamKey = some c → waveShape g b s put = .next (
        if s.engineHeld v.w.core then (s.wantEngine v.w.core).holdAt v.u v.e .unit
        else if (c.engine v.w.core).run then r
        else (c.updEngine v.w.core fun e => put e (s.rd v 0 b)).goOn v) := by
  obtain ⟨z, hrun, hz, -⟩ := onWave_runs (g := g) hi
  obtain ⟨t, hreads, hl, hteam⟩ := State.reads_runs (hz.readable hr)
  have hz' : Env.Same s v t z := { hz with gangs := hl.gangs.trans hz.gangs, mod := hl.mod.trans hz.mod, clk := hl.clk.trans hz.clk }
  have hlocal := (s.issue_counted v.u v.e v.ctx (v.active g)).1
  have hengines := hl.engines.trans hlocal.engines
  refine ⟨t, (s.issue v.u v.e v.ctx (v.active g)).trapAt z .engine 0 (v.active g) [], hl.mem.trans hlocal.mem, hengines,
    State.ownerAt_congr hengines (hteam.trans (s.issue_teamCore _ _ _ _)) _, fun c hclaim => ?_⟩
  have hcore : z.w.core = v.w.core := by simp [Wave.core, hz.at_]
  have hkey : z.w.teamKey = v.w.teamKey := by simp [Wave.teamKey, hz.gang, hz.team]
  have hact : z.active g = v.active g := hz.active g
  rw [waveShape, hrun]
  simp only [hact, ha, if_false, hreads, hcore, hkey, hclaim, hz.u, hz.e, hz'.rd, State.goOn_congr _ hz.u hz.e hz.ctx]

/-- A wave whose team owns the engine, or may claim it as no team owns it, writes the register while no program runs (R337). -/
theorem waveShape_writes {g : Guard} {b : Src} {s : State} {v : Env} (put : Engine → W32 → Engine) (hi : s.Issues v)
    (ha : v.active g ≠ 0) (hr : s.Readable v (v.active g) [(b, 1)])
    (hown : (s.engine v.w.core).owner = none ∨ s.ownerAt v.w.core = some v.w.teamKey ∧ (s.engine v.w.core).run = false) :
    ∃ (t : State) (e : Engine), waveShape g b s put = .next (t.goOn v) ∧ t.mem = s.mem ∧ e.owner = some v.w.teamKey ∧
      t.engine v.w.core = put e (s.rd v 0 b) := by
  obtain ⟨t, r, hmem, hengines, howner, hrun⟩ := waveShape_runs put hi ha hr
  have hengine := State.engine_congr hengines v.w.core
  rcases hown with hnone | ⟨hteam, hstop⟩
  · have hfree : s.ownerAt v.w.core = none := by simp [State.ownerAt, hnone]
    have hclaim := State.claim_free (howner.trans hfree) v.w.teamKey
    have hheld : s.engineHeld v.w.core = false := by simp [State.engineHeld, hnone]
    refine ⟨(t.updEngine v.w.core fun e => e.claimed v.w.teamKey).updEngine v.w.core fun e => put e (s.rd v 0 b),
      (t.engine v.w.core).claimed v.w.teamKey, ?_, by simpa using hmem, rfl, by simp⟩
    simp [hrun _ hclaim, hheld, Engine.claimed, Engine.idle]
  · have hclaim := State.claim_own (howner.trans hteam)
    have hheld : s.engineHeld v.w.core = false := by simp [State.engineHeld, hteam]
    have howns : (s.engine v.w.core).owner = some v.w.teamKey := (Option.filter_eq_some_iff.mp hteam).1
    refine ⟨t.updEngine v.w.core fun e => put e (s.rd v 0 b), s.engine v.w.core, ?_, by simpa using hmem, howns, by simp [hengine]⟩
    simp [hrun _ hclaim, hheld, hengine, hstop]

/-- A split that is held at its word keeps its wave's registers, and says what holds it (R84). -/
theorem State.holdAt_wave {s : State} {u e : Nat} {w : Wave} {sp : Split} (hw : s.wave? u = some w) (hs : w.split? e = some sp) (b : Block) :
    (s.holdAt u e b).mem = s.mem ∧ (s.holdAt u e b).engines = s.engines ∧
      ∃ x y, (s.holdAt u e b).wave? u = some x ∧ x.r = w.r ∧ x.split? e = some y ∧ y.block = b := by
  simp only [State.holdAt, hw]
  refine ⟨by simp, by simp, _, _, (State.wave?_updWave_self _ _ _).trans (congrArg (Option.map _) hw), w.updSplit_r _ _,
    Wave.split?_updSplit_self hs _, ?_⟩
  split <;> rfl

/-- Where the state of a saved team stands in the engine, the word waits for its spill (R354). -/
theorem waveShape_waits {g : Guard} {b : Src} {s : State} {v : Env} (put : Engine → W32 → Engine) (hi : s.Issues v)
    (ha : v.active g ≠ 0) (hr : s.Readable v (v.active g) [(b, 1)]) (hheld : s.engineHeld v.w.core = true) :
    waveShape g b s put = .next ((s.wantEngine v.w.core).holdAt v.u v.e .unit) := by
  obtain ⟨t, r, -, -, howner, hrun⟩ := waveShape_runs put hi ha hr
  obtain ⟨hfree, -⟩ : s.ownerAt v.w.core = none ∧ (s.engine v.w.core).owner.isSome = true := by simpa [State.engineHeld] using hheld
  simp [hrun _ (State.claim_free (howner.trans hfree) _), hheld]

/-! ## The words -/

theorem execTcfg_wave {s : State} {v : Env} (hi : s.Issues v) (g : Guard) (n : Nat) (b : Src) :
    exec (.tcfg g n b) s = waveShape g b s (Engine.putShape n) := if_neg (by simp [hi.byEngine])

theorem execOmcfg_wave {s : State} {v : Env} (hi : s.Issues v) (g : Guard) (n : Nat) (b : Src) :
    exec (.omcfg g n b) s = waveShape g b s (Engine.putMap n) := if_neg (by simp [hi.byEngine])

/-- The engine program writes a shape register of its own engine at once. -/
theorem engineShape_writes {s : State} {c : Ctx} {core : Nat} {b : Src} {x : W32} (put : Engine → W32 → Engine) (hc : s.cur = some c)
    (hw : c.who = .engine core) (hx : s.engineRd core (s.engine core) b = some x) :
    engineShape .always b s put = .next ((s.setEngine core (put (s.engine core) x)).engineGo core c) := by
  simp [engineShape, onEngine, hc, hw, hx]

/-- Settles O8: a wave's word writes the engine that it may claim or owns, or waits; the engine program's word writes at once. -/
theorem shapeWordsWriteTheEngine : Obligations.ShapeWordsWriteTheEngine := by
  unfold Obligations.ShapeWordsWriteTheEngine
  refine ⟨fun g n b s v hi ha hr hown => ⟨?_, ?_⟩, fun i g n b s v h hi ha hr hheld => ?_, fun n b s c core x hc hw hx => ?_⟩
  · obtain ⟨t, e, hrun, hmem, howner, hengine⟩ := waveShape_writes (Engine.putShape n) hi ha hr hown
    exact ⟨t, (execTcfg_wave hi g n b).trans hrun, hmem, hengine ▸ howner, hengine ▸ smGet_set_self _ _ _ _⟩
  · obtain ⟨t, e, hrun, hmem, howner, hengine⟩ := waveShape_writes (Engine.putMap n) hi ha hr hown
    exact ⟨t, (execOmcfg_wave hi g n b).trans hrun, hmem, hengine ▸ howner, hengine ▸ smGet_set_self _ _ _ _⟩
  · have hexec : exec i s = .next ((s.wantEngine v.w.core).holdAt v.u v.e .unit) := by
      rcases h with rfl | rfl
      · exact (execTcfg_wave hi g n b).trans (waveShape_waits _ hi ha hr hheld)
      · exact (execOmcfg_wave hi g n b).trans (waveShape_waits _ hi ha hr hheld)
    have hw : (s.wantEngine v.w.core).wave? v.u = some v.w := hi.wave
    obtain ⟨hmem, hengines, x, y, hx, hr, hy, hblock⟩ := State.holdAt_wave hw hi.split .unit
    have hwanted : ((s.wantEngine v.w.core).engine v.w.core).wanted = true := by simp [State.wantEngine]
    exact ⟨_, x, y, hexec, hmem, (congrArg Engine.wanted (State.engine_congr hengines _)).trans hwanted, hx, hr, hy, hblock⟩
  · have hby : s.byEngine = true := by simp [State.byEngine, hc, hw]
    exact ⟨(if_pos hby).trans (engineShape_writes (Engine.putShape n) hc hw hx),
      (if_pos hby).trans (engineShape_writes (Engine.putMap n) hc hw hx)⟩

end Sys2Proof.Machine

/-!
PROOFS. O1: moves, integer and lane words with a 32-bit result. Each has `aluOp`'s shape, and what it computes in a lane is made of what it
reads of its sources, its predicate and its active lanes, so it computes the same after the counts of its issue as before. Where the
statement writes an operation in other words than the model, one lemma says that both are the same number.
-/

namespace Sys2Proof.Machine

/-! ## The operations as the statement writes them -/

/-- The signed minimum and maximum, by the order of the integers (R143). -/
theorem smin32_eq (a b : W32) : smin32 a b = if b.toInt < a.toInt then b else a := by
  simp only [smin32, BitVec.slt, decide_eq_true_eq]

theorem smax32_eq (a b : W32) : smax32 a b = if a.toInt < b.toInt then b else a := by
  simp only [smax32, BitVec.slt, decide_eq_true_eq]

/-- The unsigned minimum and maximum, by the order of the naturals (R143). -/
theorem umin32_eq (a b : W32) : umin32 a b = if b.toNat < a.toNat then b else a := by
  simp only [umin32, BitVec.lt_def]

theorem umax32_eq (a b : W32) : umax32 a b = if a.toNat < b.toNat then b else a := by
  simp only [umax32, BitVec.lt_def]

/-! ## What a word sees after its reads -/

/-- A word finds a bit field where it found it (R141). -/
theorem Env.Same.field {s t : State} {v z : Env} (h : Env.Same s v t z) (l : Nat) (f : BField) : t.field z l f = s.field v l f := by
  cases f <;> simp only [State.field, h.rd]

/-- `match` compares the same values (R201). -/
theorem Env.Same.matchVal {s t : State} {v z : Env} (h : Env.Same s v t z) (w64 : Bool) (l : Nat) (a : Src) :
    t.matchVal z w64 l a = s.matchVal v w64 l a := by
  simp only [State.matchVal, h.rd, h.rd64]

/-! ## Which result a form's words have -/

/-- The outcome of a word that computes the form `F` for the split `v` in the state `s`: `aluOp`'s shape, with F's result in each lane. -/
def State.Computes (s : State) (v : Env) (o : Out) (F : Form32) : Prop :=
  ∃ f, o = aluOp s F.g F.d F.cc F.srcs f ∧ ∀ t z l, Env.Same s v t z → (f t z l).1 = F.res s v l

/-- A word that computes `op` from one source. -/
theorem alu1_computes {s : State} {v : Env} (g : Guard) (d : Dst) (a : Src) (cc : Nat) {op r : W32 → W32} (h : ∀ x, op x = r x) :
    s.Computes v (alu1 s g d a cc op) ⟨g, d, cc, [(a, 1)], fun s v l => r (s.rd v l a)⟩ :=
  ⟨_, rfl, fun t z l hz => by simp only [h, hz.rd]⟩

/-- A word that computes `op` from two sources. -/
theorem alu2_computes {s : State} {v : Env} (g : Guard) (d : Dst) (a b : Src) (cc : Nat) {op r : W32 → W32 → W32}
    (h : ∀ x y, op x y = r x y) :
    s.Computes v (alu2 s g d a b cc op) ⟨g, d, cc, [(a, 1), (b, 1)], fun s v l => r (s.rd v l a) (s.rd v l b)⟩ :=
  ⟨_, rfl, fun t z l hz => by simp only [h, hz.rd]⟩

/-- `i2i` with a 32-bit result (R145). -/
theorem i2i_computes {g : Guard} {op : I2i} {d : Dst} {a : Src} {cc : Nat} {F : Form32} {s : State} {v : Env}
    (h : intForm (.i2i g op d a cc) = some F) : s.Computes v (exec (.i2i g op d a cc) s) F := by
  cases op with
  | s64 | u64 => cases h
  | satS32 | satU32 => cases h; exact ⟨_, rfl, fun t z l hz => by simp only [clamp, hz.rd64]⟩
  | _ => cases h; exact alu1_computes _ _ _ _ fun _ => rfl

/-- Every word of `intForm` that a split issues computes its form. -/
theorem intForm_computes {i : Instr} {F : Form32} {s : State} {v : Env} (h : intForm i = some F) (hi : s.Issues v) :
    s.Computes v (exec i s) F := by
  cases i with
  | mov g d a cc => cases h; exact ⟨_, execMov_wave hi g d a cc, fun t z l hz => hz.rd l a⟩
  | movi g d b cc => cases h; exact ⟨_, execMovi_wave hi g d b cc, fun t z l hz => hz.rd l b⟩
  | iadd g d a b cc =>
    cases h
    rw [show exec (.iadd g d a b cc) s = execIadd g d a b cc s from rfl, execIadd_wave hi]
    exact alu2_computes _ _ _ _ _ fun _ _ => rfl
  | isub g d a b cc =>
    cases h
    rw [show exec (.isub g d a b cc) s = execIsub g d a b cc s from rfl, execIsub_wave hi]
    exact alu2_computes _ _ _ _ _ fun _ _ => rfl
  | imin => cases h; exact alu2_computes _ _ _ _ _ smin32_eq
  | imax => cases h; exact alu2_computes _ _ _ _ _ smax32_eq
  | iminU => cases h; exact alu2_computes _ _ _ _ _ umin32_eq
  | imaxU => cases h; exact alu2_computes _ _ _ _ _ umax32_eq
  | imul | imulh | imulhU | ishl | ishr | isar | iand | ior | ixor => cases h; exact alu2_computes _ _ _ _ _ fun _ _ => rfl
  | inot | ipopc | iclz | ibrev | iabs => cases h; exact alu1_computes _ _ _ _ fun _ => rfl
  | sel g w64 pn ps d a b cc =>
    cases w64 with
    | false => cases h; exact ⟨_, rfl, fun t z l hz => by simp only [hz.getP, hz.rd]⟩
    | true => cases h
  | imad | prmt => cases h; exact ⟨_, rfl, fun t z l hz => by simp only [hz.rd]⟩
  | ibfe | ibfeU | ibfi => cases h; exact ⟨_, rfl, fun t z l hz => by simp only [hz.rd, hz.field]⟩
  | i2i => exact i2i_computes h
  | vote => cases h; exact ⟨_, rfl, fun t z l hz => by simp only [hz.active, hz.getP]⟩
  | matchAny | matchAll => cases h; exact ⟨_, rfl, fun t z l hz => by simp only [hz.active, hz.matchVal]⟩
  | _ => cases h

/-- Settles O1: a word of `aluOp`'s shape writes the result that its form names, and nothing else. -/
theorem integerWordsWriteTheirResult : Obligations.IntegerWordsWriteTheirResult := by
  unfold Obligations.IntegerWordsWriteTheirResult
  intro i F s v h hi ha hr
  obtain ⟨f, hexec, hres⟩ := intForm_computes h hi
  rw [hexec]
  exact aluOp_next hi ha hr hres

end Sys2Proof.Machine

/-!
PROOFS. O4: words with a 64-bit result have `aluOp64`'s shape. `iaddc` writes its sum as `aluOp` writes a result and then its carries into a
predicate, which leaves the sum where it stands (R137).
-/

namespace Sys2Proof.Machine

/-! ## Words that write a pair -/

/-- The wide products are taken modulo 2^64 from words that are extended first (R138): the product of the numbers, modulo 2^64. -/
theorem signExtend_mul_signExtend (a b : W32) : a.signExtend 64 * b.signExtend 64 = BitVec.ofInt 64 (a.toInt * b.toInt) := by
  simp only [BitVec.signExtend, BitVec.ofInt_mul]

theorem zeroExtend_mul_zeroExtend (a b : W32) : a.zeroExtend 64 * b.zeroExtend 64 = BitVec.ofNat 64 (a.toNat * b.toNat) := by
  simp only [BitVec.zeroExtend, BitVec.ofNat_mul, BitVec.ofNat_toNat]

/-- A word with a 64-bit result has `aluOp64`'s shape, and its result is the one that its form names. -/
theorem exec_wideForm_res {i : Instr} {F : Form64} (h : wideForm i = some F) (s : State) (v : Env) :
    ∃ f, exec i s = aluOp64 s F.g F.d F.cc F.srcs f ∧ ∀ t z l, Env.Same s v t z → f t z l = F.res s v l := by
  cases i with
  | movx | iadd64 | leaArAdd => cases h; exact ⟨_, rfl, fun t z l hz => by simp only [hz.rd64]⟩
  | lea | leaAr => cases h; exact ⟨_, rfl, fun t z l hz => by simp only [hz.rd, hz.rd64]⟩
  | ishl64 | ishr64 | isar64 => cases h; exact ⟨_, rfl, fun t z l hz => by simp only [shl64, shr64, sar64, hz.rd, hz.rd64]⟩
  | imadWide => cases h; exact ⟨_, rfl, fun t z l hz => by simp only [hz.rd, hz.rd64, signExtend_mul_signExtend]⟩
  | imadWideU => cases h; exact ⟨_, rfl, fun t z l hz => by simp only [hz.rd, hz.rd64, zeroExtend_mul_zeroExtend]⟩
  | sel g w64 pn ps d a b cc =>
    cases w64 with
    | false => cases h
    | true => cases h; exact ⟨_, rfl, fun t z l hz => by simp only [hz.getP, hz.rd64]⟩
  | i2i g op d a cc =>
    cases op with
    | s64 | u64 => cases h; exact ⟨_, rfl, fun t z l hz => by simp only [hz.rd]⟩
    | _ => cases h
  | _ => cases h

/-! ## A result beside a predicate -/

/-- A result changes registers at most. -/
theorem Wave.putAll_rest (w : Wave) (e : Nat) (d : Dst) (cc : Nat) (m : Mask) (f : Nat → W32) : w.Rest (w.putAll e d cc m f) e :=
  Wave.Rest.foldl (fun w l => w.put_rest e d cc l (f l)) (dstLanes d m) w

/-- A write of a predicate leaves a result where it was written. -/
theorem Wave.Wrote.comb {w x : Wave} {sp : Split} {e : Nat} {d : Dst} {m : Mask} {f : Nat → W32} (h : w.Wrote sp x e d m f)
    (c : Comb) (pd : Nat) (k r : Mask) : w.Wrote sp (x.comb c pd k r) e d m f := by
  obtain ⟨hv, hk, -, hsplit⟩ := x.comb_p c pd k r
  obtain ⟨y, hy, hmask, hpc, hregs⟩ := h
  have hgetV : ∀ i l, (x.comb c pd k r).getV i l = x.getV i l := fun i l => by simp only [Wave.getV, hv]
  have hgetK : ∀ i, (x.comb c pd k r).getK y i = x.getK y i := Wave.getK_congr hk rfl rfl
  exact ⟨y, (hsplit e).trans hy, hmask, hpc, by cases d <;> simpa only [hgetV, hgetK] using hregs⟩

/-- The lane whose carry goes to lane `l` of the predicate (R137): its own, or the lowest active lane for a uniform sum. -/
def carryLane (d : Dst) (m : Mask) (l : Nat) : Nat :=
  match d with
  | .v _ => l
  | .k _ => lowLane m

/-- What `iaddc` leaves of its wave: the sums in D, then the carries in p[PC]. -/
def Wave.carried (w : Wave) (e : Nat) (d : Dst) (cc pc : Nat) (m : Mask) (sum : Nat → Nat) : Wave :=
  (w.putAll e d cc m fun l => BitVec.ofNat 32 (sum l)).comb .set pc m
    (maskOf ((lanesOf m).filter fun l => decide (2 ^ 32 ≤ sum (carryLane d m l))))

theorem Wave.carried_wrote {w : Wave} {e : Nat} {sp : Split} (hs : w.split? e = some sp) (d : Dst) (cc pc : Nat) {m : Mask} (hm : m ≠ 0)
    (sum : Nat → Nat) : w.Wrote sp (w.carried e d cc pc m sum) e d m fun l => BitVec.ofNat 32 (sum l) :=
  (Wave.putAll_wrote hs d cc hm _).comb _ _ _ _

theorem Wave.carried_f (w : Wave) (e : Nat) (d : Dst) (cc pc : Nat) (m : Mask) (sum : Nat → Nat) :
    (w.carried e d cc pc m sum).r.f = w.r.f := by
  obtain ⟨-, -, hf, -⟩ := Wave.comb_p (w.putAll e d cc m fun l => BitVec.ofNat 32 (sum l)) .set pc m
    (maskOf ((lanesOf m).filter fun l => decide (2 ^ 32 ≤ sum (carryLane d m l))))
  exact hf.trans (w.putAll_rest e d cc m _).f

theorem Wave.getP_carried (w : Wave) (e : Nat) (d : Dst) (cc pc : Nat) (m : Mask) (sum : Nat → Nat) (i : Nat) {l : Nat} (hl : l < 32) :
    hasLane ((w.carried e d cc pc m sum).getP i) l =
      if i = pc ∧ pc ≠ 7 ∧ hasLane m l then decide (2 ^ 32 ≤ sum (carryLane d m l)) else hasLane (w.getP i) l := by
  have hp : ∀ f, (w.putAll e d cc m f).getP i = w.getP i := fun f => by simp only [Wave.getP, (w.putAll_rest e d cc m f).p]
  rw [Wave.carried, Wave.getP_comb _ _ _ _ _ hl, hp]
  refine ite_congr rfl (fun ⟨_, _, hlane⟩ => ?_) fun _ => rfl
  simp only [hasLane_maskOf _ hl, List.mem_filter, mem_lanesOf, hl, hlane, true_and, decide_eq_true_eq]

/-- The exact sum of `iaddc` is that of the statement, before and after the counts of the issue (R137). -/
theorem Env.Same.addCarry {s t : State} {v z : Env} (h : Env.Same s v t z) (sub : Bool) (pc : Nat) (a b : Src) (l : Nat) :
    Machine.addCarry sub (hasLane (z.w.getP pc) l) (t.rd z l a) (t.rd z l b) = carrySum s v sub pc a b l := by
  simp only [Machine.addCarry, carrySum, h.getP, h.rd]

/-- `iaddc` in some lane: its wave, but for its consumer counts, is left with the sums and the carries (R137). -/
theorem iaddc_runs {g : Guard} {sub : Bool} {pc : Nat} {d : Dst} {a b : Src} {cc : Nat} {s : State} {v : Env} (hi : s.Issues v)
    (ha : v.active g ≠ 0) (hr : s.Readable v (v.active g) [(a, 1), (b, 1)]) :
    ∃ t x, exec (.iaddc g sub pc d a b cc) s = .next (t.goOn v) ∧ s.Local t v.u ∧ v.w.Reads x ∧
      t.wave? v.u = some (x.carried v.e d cc pc (v.active g) (carrySum s v sub pc a b)) := by
  obtain ⟨t, z, x, hrun, hl, hw, hreads, hz⟩ := readWord_next (row := .any) (fs := none) (k := fun s v m =>
    (s.updWave v.u fun w => w.carried v.e d cc pc m fun l => addCarry sub (hasLane (v.w.getP pc) l) (s.rd v l a) (s.rd v l b)).goOn v)
    hi rfl (by simp) ha hr
  refine ⟨t.updWave v.u fun w => w.carried v.e d cc pc (v.active g) (carrySum s v sub pc a b), x, ?_,
    hl.trans (t.updWave_local _ _), hreads, by simp [hw]⟩
  simp only [hz.addCarry, hz.u, hz.e, State.goOn_congr _ hz.u hz.e hz.ctx] at hrun
  exact hrun

/-- Settles O4: a word of `aluOp64`'s shape writes the pair that its form names; `iaddc` leaves its sums and its carries. -/
theorem wideWordsWriteTheirPair : Obligations.WideWordsWriteTheirPair := by
  unfold Obligations.WideWordsWriteTheirPair
  refine ⟨fun i F s v h hi ha hr => ?_, fun g sub pc d a b cc s v hi ha hr => ?_⟩
  · obtain ⟨f, hexec, hres⟩ := exec_wideForm_res h s v
    rw [hexec]
    exact aluOp64_next hi ha hr hres
  · obtain ⟨t, x, hrun, hl, hreads, hw⟩ := iaddc_runs hi ha hr
    obtain ⟨y, hy, -⟩ := hreads.split hi.split
    refine ⟨t, _, hrun, hl, hw, (x.carried_f _ _ _ _ _ _).trans hreads.f,
      .of_reads hreads hi.split hy (Wave.carried_wrote hy d cc pc ha _), fun i l hlt => ?_⟩
    have hp : x.getP i = v.w.getP i := by simp only [Wave.getP, hreads.p]
    rw [x.getP_carried _ _ _ _ _ _ _ hlt, hp]
    cases d <;> rfl

end Sys2Proof.Machine

/-!
PROOFS. O53: a `config` command that starts writes its target and is answered, which the lemmas on `slotRun` and `doneSlot` say once. The list
of a collective group's members is read at the homes of its lines, and such a read changes memory, nodes and interrupts at most.
-/

namespace Sys2Proof.Machine

/-! ## What a read at the home leaves alone -/

/-- From `s` to `t` nothing changed but memory, the nodes, which may lose a line (R254), and the interrupts. -/
def State.HomeOnly (s t : State) : Prop :=
  ∃ m ns qs, t = { s with mem := m, graph := { s.graph with nodes := ns }, front := { s.front with irqs := qs } }

theorem State.HomeOnly.refl (s : State) : s.HomeOnly s := ⟨_, _, _, rfl⟩

theorem State.HomeOnly.trans {s t r : State} (h : s.HomeOnly t) (k : t.HomeOnly r) : s.HomeOnly r := by
  obtain ⟨_, _, _, rfl⟩ := h
  obtain ⟨_, _, _, rfl⟩ := k
  exact ⟨_, _, _, rfl⟩

theorem State.HomeOnly.front {s t : State} (h : s.HomeOnly t) : ∃ qs, t.front = { s.front with irqs := qs } := by
  obtain ⟨_, _, qs, rfl⟩ := h
  exact ⟨qs, rfl⟩

theorem State.HomeOnly.waves {s t : State} (h : s.HomeOnly t) : t.waves = s.waves := by
  obtain ⟨_, _, _, rfl⟩ := h
  rfl

theorem State.HomeOnly.groups {s t : State} (h : s.HomeOnly t) : t.graph.groups = s.graph.groups := by
  obtain ⟨_, _, _, rfl⟩ := h
  rfl

theorem State.HomeOnly.foldl {α : Type} {g : State → α → State} (h : ∀ (s : State) x, s.HomeOnly (g s x)) :
    ∀ (xs : List α) (s : State), s.HomeOnly (xs.foldl g s)
  | [], s => .refl s
  | x :: xs, s => (h s x).trans (State.HomeOnly.foldl h xs (g s x))

theorem State.updMem_homeOnly (s : State) (f : Mem → Mem) : s.HomeOnly (s.updMem f) := ⟨_, _, _, rfl⟩

theorem State.failOwner_homeOnly (s : State) (key : Nat) : s.HomeOnly (s.failOwner key) := by
  unfold State.failOwner
  dsimp only
  split
  · exact ⟨_, _, _, rfl⟩
  · exact ⟨_, _, _, rfl⟩

theorem State.writeFrame_homeOnly (s : State) (key : Nat) (t : Tag) : s.HomeOnly (s.writeFrame key t) := by
  unfold State.writeFrame
  split
  · exact .refl s
  · split
    · exact s.failOwner_homeOnly key
    · exact s.updMem_homeOnly _

theorem State.dropTag_homeOnly (s : State) (key : Nat) : s.HomeOnly (s.dropTag key) := by
  unfold State.dropTag
  split
  · exact .refl s
  · dsimp only
    split
    · exact (s.updMem_homeOnly _).trans (State.updMem_homeOnly _ _)
    · exact s.updMem_homeOnly _

theorem State.evictTag_homeOnly (s : State) (key : Nat) : s.HomeOnly (s.evictTag key) := by
  unfold State.evictTag
  split
  · exact .refl s
  · split
    · exact (s.writeFrame_homeOnly key _).trans (State.dropTag_homeOnly _ key)
    · exact s.dropTag_homeOnly key

theorem State.makeWay_homeOnly (s : State) (key : Nat) : s.HomeOnly (s.makeWay key) := by
  unfold State.makeWay
  dsimp only
  split
  · exact .refl s
  · split
    · exact s.evictTag_homeOnly _
    · exact .refl s

theorem State.freeEntry_homeOnly (s : State) (slice : Nat) : s.HomeOnly (s.freeEntry slice).2 := by
  unfold State.freeEntry
  dsimp only
  split
  · exact .refl s
  · split
    · exact State.HomeOnly.foldl (fun r (x : Nat × Tag) => r.evictTag_homeOnly x.1) _ s
    · exact State.HomeOnly.foldl (fun r (x : Nat × Tag) => r.evictTag_homeOnly x.1) _ s

theorem State.place_homeOnly (s : State) (key : Nat) (t : Tag) (c : LineData) (fmt dom : Nat) (own : Option Nat) :
    s.HomeOnly (s.place key t c fmt dom own).2 := by
  unfold State.place
  dsimp only
  split
  · exact ⟨_, _, _, rfl⟩
  · split
    · exact ⟨_, _, _, rfl⟩
    · cases own with
      | some i => exact ⟨_, _, _, rfl⟩
      | none => exact (s.freeEntry_homeOnly _).trans ⟨_, _, _, rfl⟩

theorem State.setTag_homeOnly (s : State) (key : Nat) (t : Tag) : s.HomeOnly (s.setTag key t) := s.updMem_homeOnly _

theorem State.translate_homeOnly (s : State) (asid a : Nat) : s.HomeOnly (s.translate asid a).2 := by
  unfold State.translate
  split
  · exact .refl s
  · dsimp only
    split
    · exact ⟨_, _, _, rfl⟩
    · exact .refl s

/-- An access that goes on succeeds where both its parts do. -/
theorem MR.bind_eq_ok {α β : Type} {x : MR α} {f : α → State → MR β} {b : β} {t : State} :
    x.bind f = .ok b t ↔ ∃ a r, x = .ok a r ∧ f a r = .ok b t := by
  cases x with
  | ok a r =>
    refine ⟨fun h => ⟨a, r, rfl, h⟩, fun ⟨_, _, hx, h⟩ => ?_⟩
    cases hx
    exact h
  | page _ _ => exact ⟨nofun, nofun⟩
  | perm _ => exact ⟨nofun, nofun⟩
  | data => exact ⟨nofun, nofun⟩
  | gated => exact ⟨nofun, nofun⟩

theorem State.leafOf_homeOnly {s t : State} {key : Nat} {x : LeafInfo} (h : s.leafOf key = .ok x t) : s.HomeOnly t := by
  have hr := s.translate_homeOnly (keyAsid key) (keyAddr key)
  unfold State.leafOf at h
  dsimp only at h
  split at h
  · cases h
  · cases h
    exact hr
  · split at h
    · cases h
    · cases h
      exact hr

theorem State.fillHome_homeOnly {s t : State} {key : Nat} {x : Tag} (h : s.fillHome key = .ok x t) : s.HomeOnly t := by
  obtain ⟨y, r, hr, h⟩ := MR.bind_eq_ok.mp h
  refine (State.leafOf_homeOnly hr).trans ((r.makeWay_homeOnly key).trans ?_)
  dsimp only at h
  split at h
  · obtain ⟨-, rfl⟩ := MR.ok.inj h
    exact ⟨_, _, _, rfl⟩
  · obtain ⟨-, rfl⟩ := MR.ok.inj h
    refine State.HomeOnly.trans ?_ (State.setTag_homeOnly _ _ _)
    exact State.place_homeOnly _ _ _ _ _ _ _

theorem State.homeTag_homeOnly {s t : State} {key : Nat} {n : Need} {x : Tag} (h : s.homeTag key n = .ok x t) : s.HomeOnly t := by
  obtain ⟨y, r, hr, h⟩ := MR.bind_eq_ok.mp h
  have hrt : r = t := by
    split at h
    · cases h
    · cases h
      rfl
  subst hrt
  split at hr
  · cases hr
    exact .refl s
  · exact State.fillHome_homeOnly hr

theorem State.homeRead_homeOnly {s t : State} {key : Nat} {n : Need} {d : LineData} (h : s.homeRead key n = .ok d t) : s.HomeOnly t := by
  obtain ⟨y, r, hr, h⟩ := MR.bind_eq_ok.mp h
  split at h
  · cases h
  · cases h
    exact State.homeTag_homeOnly hr

/-- A chain of accesses that each leave all but the home alone. -/
theorem MR.foldl_homeOnly {α β : Type} {g : α → β → State → MR β} (h : ∀ {c b s v t}, g c b s = .ok v t → s.HomeOnly t) :
    ∀ (cs : List α) {acc : MR β} {v : β} {t : State}, cs.foldl (fun acc c => acc.bind (g c)) acc = .ok v t →
      ∃ b s, acc = .ok b s ∧ s.HomeOnly t
  | [], _, v, t, e => ⟨v, t, e, .refl t⟩
  | c :: cs, _, _, _, e => by
    obtain ⟨b, r, hb, hrt⟩ := MR.foldl_homeOnly h cs e
    obtain ⟨a, s, ha, hg⟩ := MR.bind_eq_ok.mp hb
    exact ⟨a, s, ha, (h hg).trans hrt⟩

theorem State.graphRead_homeOnly {s t : State} {asid a n : Nat} {bs : List Byte} (h : s.graphRead asid a n = .ok bs t) : s.HomeOnly t := by
  unfold State.graphRead at h
  split at h
  · cases h
  · obtain ⟨_, _, hs, hst⟩ := MR.foldl_homeOnly (fun {c b r v q} e => by
      obtain ⟨d, u, hd, e⟩ := MR.bind_eq_ok.mp e
      cases e
      refine (State.homeRead_homeOnly hd).trans ?_
      split
      · exact .refl u
      · exact u.dropTag_homeOnly _) _ h
    cases hs
    exact hst

theorem State.memberList_homeOnly {s t : State} {c : Slotrec} {ms : List Member} (h : s.memberList c = .ok ms t) : s.HomeOnly t := by
  obtain ⟨bs, r, hr, h⟩ := MR.bind_eq_ok.mp h
  cases h
  exact State.graphRead_homeOnly hr

/-! ## Fields of a slot record -/

theorem natOfBytes_take : ∀ (bs : List Byte) (n : Nat), natOfBytes (bs.take n) = natOfBytes bs % 256 ^ n
  | bs, 0 => by simp [natOfBytes, Nat.mod_one]
  | [], n + 1 => by simp [natOfBytes]
  | b :: bs, n + 1 => by
    have hb := b.isLt
    have ih := natOfBytes_take bs n
    simp only [natOfBytes, List.take_succ_cons, List.foldr_cons] at ih ⊢
    rw [ih, Nat.pow_succ, Nat.mul_comm (256 ^ n), Nat.mod_mul, Nat.add_mul_mod_self_left, Nat.add_mul_div_left _ _ (by decide),
      Nat.mod_eq_of_lt hb, Nat.div_eq_of_lt hb, Nat.zero_add]

/-- A field whose value a shorter one has room for reads as the shorter one does (R481). -/
theorem Slotrec.get_of_lt (c : Slotrec) (off : Nat) {n m : Nat} (hn : n ≤ m) (h : c.get off m < 256 ^ n) : c.get off n = c.get off m := by
  have e : c.get off n = c.get off m % 256 ^ n := by
    rw [Slotrec.get, Slotrec.get, recf, recf, ← natOfBytes_take, List.take_take, Nat.min_eq_left hn]
  rw [e, Nat.mod_eq_of_lt h]

theorem subSlot_of_eq {c : Slotrec} {off n : Nat} (h : c.get off 1 = n) : subSlot off n c = true := by simp [subSlot, h]

theorem regSlot_of_eq {c : Slotrec} {n : Nat} (h : c.get 8 1 = 5) (hn : c.get 0x0C 2 = n) : regSlot n c = true := by simp [regSlot, h, hn]

/-- A seed that is written acts as itself, a zero as 1 (R394). -/
theorem Core.stealSeed_of_lt (x : Core) {n : Nat} (h : n < 2 ^ 16) :
    { x with seed := BitVec.ofNat 16 n }.stealSeed = if n = 0 then 1 else BitVec.ofNat 16 n := by
  have hzero : BitVec.ofNat 16 n = 0 ↔ n = 0 := by rw [BitVec.toNat_eq, BitVec.toNat_ofNat, Nat.mod_eq_of_lt h]; rfl
  simp only [Core.stealSeed, hzero]

/-! ## How a command starts and is answered (R481, R482) -/

/-- A command that ends is gone, and the ring that is named holds its entry last. -/
theorem State.endSlot_entry {s : State} {id : Nat} {c : Slotrec} (hc : smFind s.front.cmds id = some c) (asid status value : Nat) :
    smFind (s.endSlot id asid status value).front.cmds id = none ∧
      (smGet ({} : Ring) (s.endSlot id asid status value).front.rings (ringKey asid false)).queue =
        (smGet ({} : Ring) s.front.rings (ringKey asid false)).queue ++ [cmdEntry c.tag c.queue c.kind status value] := by
  simp [State.endSlot, hc, State.ringPush]

/-- An answer changes the front end alone. -/
theorem State.doneSlot_front (s : State) (id status value : Nat) : ∃ f, s.doneSlot id status value = { s with front := f } := by
  unfold State.doneSlot
  split
  · exact ⟨_, rfl⟩
  · split
    · exact ⟨_, rfl⟩
    · dsimp only [State.endSlot]
      split
      · split
        · exact ⟨_, rfl⟩
        · exact ⟨_, rfl⟩
      · split
        · exact ⟨_, rfl⟩
        · exact ⟨_, rfl⟩

@[simp] theorem State.doneSlot_mem (s : State) (id status value : Nat) : (s.doneSlot id status value).mem = s.mem := by
  obtain ⟨f, h⟩ := s.doneSlot_front id status value
  rw [h]

@[simp] theorem State.doneSlot_waves (s : State) (id status value : Nat) : (s.doneSlot id status value).waves = s.waves := by
  obtain ⟨f, h⟩ := s.doneSlot_front id status value
  rw [h]

@[simp] theorem State.doneSlot_graph (s : State) (id status value : Nat) : (s.doneSlot id status value).graph = s.graph := by
  obtain ⟨f, h⟩ := s.doneSlot_front id status value
  rw [h]

@[simp] theorem State.doneSlot_mod (s : State) (id status value : Nat) : (s.doneSlot id status value).mod = s.mod := by
  obtain ⟨f, h⟩ := s.doneSlot_front id status value
  rw [h]

@[simp] theorem State.doneSlot_cores (s : State) (id status value : Nat) : (s.doneSlot id status value).cores = s.cores := by
  obtain ⟨f, h⟩ := s.doneSlot_front id status value
  rw [h]

theorem State.doneSlot_core (s : State) (id status value k : Nat) : (s.doneSlot id status value).core k = s.core k := by
  simp only [State.core, State.doneSlot_cores]

/-- A command of the driver that is done has its entry in the ring of its queue's ASID, on whatever its work left (R482). -/
theorem State.doneSlot_answered {s r : State} {id : Nat} {c : Slotrec} {qs : List (Nat × Nat)} (hc : smFind s.front.cmds id = some c)
    (hq : c.queue ≠ anvilQueue) (hfront : r.front = { s.front with irqs := qs }) (status value : Nat) :
    Answered s (r.doneSlot id status value) id c status value := by
  have hr : smFind r.front.cmds id = some c := by rw [hfront, hc]
  have hqueue : r.queue c.queue = s.queue c.queue := by simp only [State.queue, hfront]
  have hrings : r.front.rings = s.front.rings := by rw [hfront]
  simp only [State.doneSlot, hr, if_neg hq, hqueue, Answered, ← hrings]
  split
  · exact State.endSlot_entry (s := r.setQueue c.queue _) hr _ _ _
  · exact State.endSlot_entry hr _ _ _

/-- A command that starts and meets its check acts (R481). -/
theorem slotRun_acts {s : State} {id kind : Nat} {c : Slotrec} {fields : List (Nat × Nat)} {sel : Slotrec → Bool}
    {check : State → Slotrec → Nat} {act : State → Slotrec → State} (h : Starts s id c fields) (hk : c.kind = kind) (hsel : sel c = true)
    (hcheck : check s c = 0) : slotRun id kind fields sel check act s = .next (act s c) := by
  have htakes : (decide (kind ≤ 3) || s.privSlot c) = true := by simpa [hk] using h.takes
  simp [slotRun, h.found, hk, h.fresh, hsel, h.turn, htakes, h.clean, hcheck]

/-- One that fails its check is answered with that status, and does nothing (R481). -/
theorem slotRun_refuses {s : State} {id kind n : Nat} {c : Slotrec} {fields : List (Nat × Nat)} {sel : Slotrec → Bool}
    {check : State → Slotrec → Nat} {act : State → Slotrec → State} (h : Starts s id c fields) (hk : c.kind = kind) (hsel : sel c = true)
    (hcheck : check s c = n + 1) : slotRun id kind fields sel check act s = .next (s.doneSlot id (n + 1) 0) := by
  have htakes : (decide (kind ≤ 3) || s.privSlot c) = true := by simpa [hk] using h.takes
  simp [slotRun, h.found, hk, h.fresh, hsel, h.turn, htakes, h.clean, hcheck]

/-- A `config` command that starts and meets its check writes its target and is answered (R481). -/
theorem configRun_writes {s : State} {id : Nat} {c : Slotrec} {sel : Slotrec → Bool} {check : Slotrec → Nat}
    {write : Slotrec → State → State} {P : State → Prop} (h : Starts s id c [(8, 1), (0x0C, 2), (0x0E, 2), (0x10, 32)])
    (hk : c.kind = 24) (hsel : sel c = true) (hcheck : check c = 0) (hfront : (write c s).front = s.front) (hP : P ((write c s).doneSlot id 0 0)) :
    ∃ t : State, configRun id sel check write s = .next t ∧ Answered s t id c 0 0 ∧ P t :=
  ⟨_, slotRun_acts h hk hsel hcheck, State.doneSlot_answered h.found h.driver hfront 0 0, hP⟩

/-- One that fails its check is answered with the status of the check, and writes nothing (R481). -/
theorem configRun_refuses {s : State} {id n : Nat} {c : Slotrec} {sel : Slotrec → Bool} {check : Slotrec → Nat}
    {write : Slotrec → State → State} (h : Starts s id c [(8, 1), (0x0C, 2), (0x0E, 2), (0x10, 32)]) (hk : c.kind = 24) (hsel : sel c = true)
    (hcheck : check c = n + 1) :
    ∃ t : State, configRun id sel check write s = .next t ∧ Answered s t id c (n + 1) 0 ∧ t.mem = s.mem ∧ t.waves = s.waves :=
  ⟨_, slotRun_refuses h hk hsel hcheck, State.doneSlot_answered h.found h.driver rfl (n + 1) 0, by simp, by simp⟩

/-! ## A collective group (R333) -/

/-- The record of a group starts at the front end, and no more happens until the Anvil's event (log 21). -/
theorem execSlotNop_starts {s : State} {id : Nat} {c : Slotrec} (hc : smFind s.front.cmds id = some c) (hk : c.kind = 24) (ht : c.get 8 1 = 4)
    (hb : c.begun = false) (hm : s.mayStart id c = true) (hp : s.privSlot c = true) :
    execSlotNop id s = .next (s.beginSlot id fun c => c) := by
  have hknown : s.knownSlot c = true := by simp [State.knownSlot, hk, hp, ht]
  simp [execSlotNop, hc, hb, hm, hknown, hk, ht]


/-- The record of a group that has started and meets every check: what is left of it are the members that it lists. -/
theorem execConfigCollGroup_checked {s r : State} {id : Nat} {c : Slotrec} {ms : List Member} (hc : smFind s.front.cmds id = some c)
    (hk : c.kind = 24) (ht : c.get 8 1 = 4) (hb : c.begun = true) (hcheck : s.groupCheck c = 0) (hms : s.memberList c = .ok ms r)
    (hdie : ∀ m ∈ ms, m.die ≤ 3) (xs : List Member) (limit : Nat) :
    execConfigCollGroup id xs limit s =
      if ms ≠ xs ∨ limit ≠ c.get 0x10 4 then .next s
      else .next ((r.updGraph fun g => { g with groups := smPut (256 * c.get 0x0C 2 + c.get 0x0E 2) ⟨ms, limit⟩ g.groups }).doneSlot id 0 0) := by
  have hany : (ms.any fun m => decide (3 < m.die)) = false := by simpa using hdie
  simp [execConfigCollGroup, hc, hk, ht, hb, hcheck, hms, hany]

/-! ## The statement -/

/-- The members of the record and its limit make the group; other ones do nothing (R333; log 21). -/
theorem configCollGroup_completes {s r : State} {id : Nat} {c : Slotrec} {ms : List Member} (hc : smFind s.front.cmds id = some c)
    (hq : c.queue ≠ anvilQueue) (hms : s.memberList c = .ok ms r)
    (hrun : ∀ xs limit, exec (.configCollGroup id xs limit) s = if ms ≠ xs ∨ limit ≠ c.get 0x10 4 then .next s
      else .next ((r.updGraph fun g => { g with groups := smPut (256 * c.get 0x0C 2 + c.get 0x0E 2) ⟨ms, limit⟩ g.groups }).doneSlot id 0 0)) :
    (∃ t : State, exec (.configCollGroup id ms (c.get 0x10 4)) s = .next t ∧ Answered s t id c 0 0 ∧ t.mem = r.mem ∧ t.waves = s.waves ∧
      ∀ i, smFind t.graph.groups i = if i = 256 * c.get 0x0C 2 + c.get 0x0E 2 then some ⟨ms, c.get 0x10 4⟩ else smFind s.graph.groups i) ∧
    ∀ xs limit, (xs, limit) ≠ (ms, c.get 0x10 4) → exec (.configCollGroup id xs limit) s = .next s := by
  have hhome := State.memberList_homeOnly hms
  obtain ⟨qs, hfront⟩ := hhome.front
  refine ⟨⟨_, (hrun _ _).trans (if_neg (by simp)), State.doneSlot_answered hc hq ((r.updGraph_front _).trans hfront) 0 0, by simp,
    by simp [hhome.waves], fun i => ?_⟩, fun xs limit hne => (hrun xs limit).trans (if_pos ?_)⟩
  · simp only [State.doneSlot_graph, State.updGraph_graph, ← hhome.groups]
    split
    · next h => rw [h, smFind_put_self]
    · next h => exact smFind_put_ne _ _ h
  · by_cases hxs : ms = xs
    · exact .inr fun hlimit => hne (by rw [hxs, hlimit])
    · exact .inl hxs

/-- Settles O53: a target's record starts, meets its check and writes at its index; a group's record waits for the Anvil's event. -/
theorem configCommandsWriteTheirTarget : Obligations.ConfigCommandsWriteTheirTarget := by
  unfold Obligations.ConfigCommandsWriteTheirTarget
  refine ⟨fun id s c hc hk ht hb hm hp => ?_, fun id s c ms r hc hk ht hb hq hclean hlive hg hm1 hm2 hl1 hl2 hz hwin hend hms hdie => ?_,
    fun id s c hk h => ⟨?_, ?_, ?_, ?_, ?_, ?_, ?_, ?_⟩⟩
  · exact ⟨_, execSlotNop_starts hc hk ht hb hm hp, by simp [State.beginSlot, hc], rfl, rfl, rfl⟩
  · refine configCollGroup_completes hc hq hms (execConfigCollGroup_checked hc hk ht hb ?_ hms hdie)
    rw [State.groupCheck, if_neg (by simp [hclean]), if_neg (by simp [hlive]), if_neg (by omega), if_neg (by omega)]
  · intro hsel hi h0
    change ∃ t, execConfigCodebook id s = _ ∧ _
    exact configRun_writes h hk (subSlot_of_eq hsel) (if_pos ⟨hi, h0⟩) rfl
      ⟨by simp, by simp, fun i => by simp [smGet_set]⟩
  · intro hsel hi h0 hw hz
    change ∃ t, execConfigDeepFmtw id s = _ ∧ _
    exact configRun_writes h hk (subSlot_of_eq hsel) (if_pos ⟨hi, h0, hw, hz⟩) rfl
      ⟨by simp, by simp, fun i => by simp [smGet_set]⟩
  · intro hsel hv hi hw hz
    change ∃ t, execConfigVaultFmtw id s = _ ∧ _
    refine configRun_writes h hk (subSlot_of_eq hsel) (if_pos ⟨hv, hi, hw, hz⟩) rfl
      ⟨by simp, by simp, fun v i hlt => ?_⟩
    have e : 64 * v + i = 64 * c.get 0x0C 2 + c.get 0x0E 2 ↔ v = c.get 0x0C 2 ∧ i = c.get 0x0E 2 := by omega
    simp [smGet_set, e]
  · intro hsel hi h0 hz hbig
    change ∃ t, execConfigGrantbase id s = _ ∧ _
    exact configRun_refuses h hk (subSlot_of_eq hsel) (n := 1) ((if_neg (by omega)).trans (if_pos hbig))
  · intro hsel hi h0 hz hsmall
    change ∃ t, execConfigGrantbase id s = _ ∧ _
    refine configRun_writes h hk (subSlot_of_eq hsel) ?_ rfl ⟨by simp, by simp, fun i => by simp [smGet_set]⟩
    exact (if_neg (by omega)).trans (if_neg (by omega))
  · intro hsel hi h0 hlt
    change ∃ t, execConfigPlacectl id s = _ ∧ _
    refine configRun_writes h hk (regSlot_of_eq hsel hi) (if_pos ⟨h0, hlt⟩) rfl ⟨by simp, by simp, ?_⟩
    rw [c.get_of_lt 0x10 (n := 4) (m := 32) (by decide) (by omega)]
    simp
  · intro hsel hi hd hlt hz
    change ∃ t, execConfigSpruectl id s = _ ∧ _
    have e := c.get_of_lt 0x10 (n := 4) (m := 32) (by decide) (by omega)
    refine configRun_writes h hk (regSlot_of_eq hsel hi) (if_pos ⟨hd, hlt, by rw [e]; exact hz⟩) rfl ⟨by simp, by simp, fun d => ?_⟩
    rw [e]
    simp only [State.spruectl, State.doneSlot_mod, State.updMod_mod, smGet_set]
    split
    · rw [BitVec.toNat_ofNat, Nat.mod_eq_of_lt (by omega)]
    · rfl
  · intro hsel hi hcore hlt
    change ∃ t, execConfigStealseed id s = _ ∧ _
    refine configRun_writes h hk (regSlot_of_eq hsel hi) (if_pos ⟨hcore, hlt⟩) rfl ⟨by simp, by simp, ?_⟩
    rw [c.get_of_lt 0x10 (n := 2) (m := 32) (by decide) hlt]
    simp only [State.doneSlot_core, State.updCore, State.core_setCore_self, Core.stealSeed_of_lt _ hlt, true_and]
    exact fun k hne => s.core_setCore_ne _ hne

end Sys2Proof.Machine
